-- ==== Sys2Proof/Word.lean ====
section
/-! DEFINITION. The two bit-vector widths the block's registers and memory use. -/

namespace Sys2Proof

/-- A byte of MEM, WIN or SBOX (20_memory R80; 10_state R48, R55). -/
abbrev Byte := BitVec 8

/-- A control register or command word (10_state R24, R26). -/
abbrev Word := BitVec 32

end Sys2Proof
end

