-- ==== Sys2Proof/Syntax.lean ====
section
/-! DEFINITION. The abstract syntax: one constructor per row of spec/opcode_table.json (30_encoding R115). -/

namespace Sys2Proof

/-- A command of the set BSR-1. Only two carry an operand in the word (30_encoding R114): GETBITS its
6-bit field N (R112) and CBCDEC its flag P (R113). -/
inductive Instr where
  | nop
  | clrerr
  | sreset
  | brinit
  | getbits (n : BitVec 6)
  | getbit
  | lzdec
  | huftree
  | hufcanon
  | hufdec
  | xorkey
  | xorprng
  | subload
  | subgen
  | subswap
  | subtriple
  | subapply
  | substore
  | cbcdec (p : Bool)
  deriving DecidableEq, Repr

end Sys2Proof
end

