-- ==== Sys2Proof/WellFormed.lean ====
section
/-! DEFINITION. Which terms of the abstract syntax are commands the spec accepts (30_encoding R112). -/

namespace Sys2Proof

/-- The legal values of N (30_encoding R112): 1 to 32. -/
def Instr.legalCount (n : BitVec 6) : Bool := 1 ≤ n.toNat && n.toNat ≤ 32

/-- Well-formed commands. The one check the encoding makes beyond its fixed bits is N of GETBITS
(30_encoding R112, R115). -/
def Instr.wf : Instr → Bool
  | .nop => true
  | .clrerr => true
  | .sreset => true
  | .brinit => true
  | .getbits n => Instr.legalCount n
  | .getbit => true
  | .lzdec => true
  | .huftree => true
  | .hufcanon => true
  | .hufdec => true
  | .xorkey => true
  | .xorprng => true
  | .subload => true
  | .subgen => true
  | .subswap => true
  | .subtriple => true
  | .subapply => true
  | .substore => true
  | .cbcdec _ => true

end Sys2Proof
end

