-- ==== Sys2Proof/Decode.lean ====
section
/-! DEFINITION. Command words: the decoder of 30_encoding R116, total on all 2^32 words and refusing by
the spec's error name, and the encoder from the formats of R111 to R113 and the opcode map R115. -/

namespace Sys2Proof

/-- Why a word is no command (30_encoding R117). -/
inductive DecodeError where
  /-- Unassigned opcode outside the cipher group, a non-zero ZERO field, or N outside 1 to 32. -/
  | illegalCommand
  /-- Unassigned opcode of the cipher group 0x30 to 0x3F. -/
  | unknownScheme
  deriving DecidableEq, Repr

/-- `OPC`, bits [31:24] of a command word (30_encoding R110). -/
def opcodeField (w : Word) : Byte := w.extractLsb' 24 8

/-- `ARG`, bits [23:0] of a command word (30_encoding R110). -/
def argField (w : Word) : BitVec 24 := w.extractLsb' 0 24

/-- The opcode of GETBITS, the one format N command (30_encoding R112). -/
def getbitsOpcode : Byte := 0x11

/-- The opcode of CBCDEC, the one format F command (30_encoding R113). -/
def cbcdecOpcode : Byte := 0x3C

/-- The format Z commands by opcode (30_encoding R111, R115). -/
def formatZ (opc : Byte) : Option Instr :=
  match opc.toNat with
  | 0x00 => some .nop
  | 0x01 => some .clrerr
  | 0x02 => some .sreset
  | 0x10 => some .brinit
  | 0x12 => some .getbit
  | 0x20 => some .lzdec
  | 0x28 => some .huftree
  | 0x29 => some .hufcanon
  | 0x2A => some .hufdec
  | 0x30 => some .xorkey
  | 0x31 => some .xorprng
  | 0x34 => some .subload
  | 0x35 => some .subgen
  | 0x36 => some .subswap
  | 0x37 => some .subtriple
  | 0x38 => some .subapply
  | 0x39 => some .substore
  | _ => none

/-- The cipher group, opcodes 0x30 to 0x3F (30_encoding R117). -/
def inCipherGroup (opc : Byte) : Bool := 0x30 ≤ opc.toNat && opc.toNat ≤ 0x3F

/-- The decoder, in the order of the pseudocode of 30_encoding R116. -/
def decode (w : Word) : Except DecodeError Instr :=
  let opc := opcodeField w
  let arg := argField w
  match formatZ opc with
  | some i => if arg = 0 then .ok i else .error .illegalCommand
  | none =>
    if opc = getbitsOpcode then
      if arg.extractLsb' 6 18 = 0 then
        let n := arg.extractLsb' 0 6
        if Instr.legalCount n then .ok (.getbits n) else .error .illegalCommand
      else .error .illegalCommand
    else if opc = cbcdecOpcode then
      if arg.extractLsb' 1 23 = 0 then .ok (.cbcdec (arg.getLsbD 0)) else .error .illegalCommand
    else if inCipherGroup opc then .error .unknownScheme
    else .error .illegalCommand

/-- The opcode column of 30_encoding R115. -/
def Instr.opcode : Instr → Byte
  | .nop => 0x00
  | .clrerr => 0x01
  | .sreset => 0x02
  | .brinit => 0x10
  | .getbits _ => getbitsOpcode
  | .getbit => 0x12
  | .lzdec => 0x20
  | .huftree => 0x28
  | .hufcanon => 0x29
  | .hufdec => 0x2A
  | .xorkey => 0x30
  | .xorprng => 0x31
  | .subload => 0x34
  | .subgen => 0x35
  | .subswap => 0x36
  | .subtriple => 0x37
  | .subapply => 0x38
  | .substore => 0x39
  | .cbcdec _ => cbcdecOpcode

/-- The argument field: N in [5:0] for format N (R112), P in [0] for format F (R113), else ZERO (R111). -/
def Instr.argument : Instr → BitVec 24
  | .nop => 0
  | .clrerr => 0
  | .sreset => 0
  | .brinit => 0
  | .getbits n => 0#18 ++ n
  | .getbit => 0
  | .lzdec => 0
  | .huftree => 0
  | .hufcanon => 0
  | .hufdec => 0
  | .xorkey => 0
  | .xorprng => 0
  | .subload => 0
  | .subgen => 0
  | .subswap => 0
  | .subtriple => 0
  | .subapply => 0
  | .substore => 0
  | .cbcdec p => 0#23 ++ BitVec.ofBool p

/-- The command word of a command (30_encoding R110). Every command is one word. -/
def encode (i : Instr) : Word := i.opcode ++ i.argument

/-- The decoder on a row of spec/opcode_table.json: the word is the data of a CMD write, so there is no
layout in memory and no byte order (20_memory R94). -/
def decodeTableWord (nbits w : Nat) : Option Instr :=
  match decode (BitVec.ofNat 32 (w % 2 ^ nbits)) with
  | .ok i => some i
  | .error _ => none

end Sys2Proof
end

