-- ==== Sys2Proof/Config.lean ====
section
/-! DEFINITION. What the spec leaves to the implementation or calls unspecified: opaque constants
without a body, so that no proof can learn a value of them; and the fixed sizes of 00_scope R9. -/

namespace Sys2Proof.Config

/-- DESIGN CHOICE (log 1). `MEM_BYTES - 1`. The spec leaves `MEM_BYTES` open between 1 and 2^31
(00_scope R8); a 31-bit vector with no body ranges over exactly that. -/
opaque memTopAddress : BitVec 31

/-- `MEM_BYTES` (00_scope R8, R9), the size of MEM in bytes: some number from 1 to 2^31. -/
def memBytes : Nat := memTopAddress.toNat + 1

/-- `SUBGEN_FN` (44_subst R239): for a seed and a key length some permutation of 0 to 255. That it is
total, deterministic, a permutation and a function of these two arguments alone is its type; which one it
is stays open (log 2). -/
opaque subgenPermutation : Word → Word → Equiv.Perm (Fin 256)

/-- DESIGN CHOICE (log 3). The unspecified content of MEM after a hardware reset (70_reset R341), by the
reset's number and the address. -/
opaque unspecifiedMem : Nat → Nat → Byte

/-- DESIGN CHOICE (log 4). The unspecified content of WIN after a reset or SRESET (70_reset R341), by the
reset's number and the index. -/
opaque unspecifiedWin : Nat → Nat → Byte

/-- DESIGN CHOICE (log 4). The unspecified content of SBOX after a reset or SRESET (70_reset R341). -/
opaque unspecifiedSbox : Nat → Fin 256 → Byte

/-- DESIGN CHOICE (log 4). The unspecified content of NODE after a reset or SRESET (70_reset R341):
`leaf`, `sym`, `left`, `right` of each entry. -/
opaque unspecifiedNode : Nat → Fin 1023 → Bool × BitVec 9 × Option (Fin 1023) × Option (Fin 1023)

/-- `HUF_MAXNODES` (00_scope R9; 42_huffman R192). -/
def hufMaxNodes : Nat := 1023

/-- The symbol from which on a Huffman symbol is no output byte (00_scope R10). -/
def firstPseudoSymbol : Nat := 256

/-- The largest PRNG_SHIFT that XORPRNG accepts (10_state R53). -/
def prngMaxShift : Nat := 24

end Sys2Proof.Config
end

