-- ==== Sys2Proof/Machine/State.lean ====
section
/-! DEFINITION. The state of the block as plain data, the state after hardware reset, and the reasons a
step can stop. Everything 10_state R20 names is a field; the model's own fields stand last in `State`. -/

namespace Sys2Proof.Machine

/-- Order in which the bits of a refill unit are consumed (10_state R37 ORDER: 0 MSB-first, 1 LSB-first). -/
inductive BitOrder where
  | msbFirst
  | lsbFirst
  deriving DecidableEq, Repr, Inhabited

/-- Size of a refill unit (10_state R38: `BR_REFILL` is always 0, 1 or 2). -/
inductive RefillUnit where
  | bits8
  | bits16
  | bits32
  deriving DecidableEq, Repr, Inhabited

/-- Which builder made the tree (10_state R51 KIND: 0 self-describing, 1 canonical). -/
inductive TreeKind where
  | selfDescribing
  | canonical
  deriving DecidableEq, Repr, Inhabited

/-- STATUS, the fields that have storage (10_state R27). -/
structure Status where
  done : Bool
  err : Bool
  term : Bool
  errCode : BitVec 3
  deriving DecidableEq, Repr

/-- BR_CFG without its reserved bits, which are not stored (10_state R24, R37). -/
structure BrCfg where
  order : BitOrder
  refill : BitVec 2
  bigEndian : Bool
  deriving DecidableEq, Repr

/-- LZ_CFG without its reserved bits (10_state R42). -/
structure LzCfg where
  wlog2 : BitVec 5
  offBits : BitVec 5
  lenBits : BitVec 5
  mode : Bool
  endOff0 : Bool
  endLen : Bool
  deriving DecidableEq, Repr

/-- HUF_CFG without its reserved bits (10_state R49). -/
structure HufCfg where
  lenBits : BitVec 3
  nsym : BitVec 10
  rebuildEn : Bool
  deriving DecidableEq, Repr

/-- The read/write registers that no command writes (10_state R25): every RW register but PRNG_STATE. -/
structure HostRegs where
  srcAddr : Word
  srcLen : Word
  outAddr : Word
  outCap : Word
  bufAddr : Word
  bufLen : Word
  keyAddr : Word
  keyLen : Word
  keyPhase : Word
  ivAddr : Word
  brCfg : BrCfg
  lzCfg : LzCfg
  lzInitPos : BitVec 16
  lzLenBias : BitVec 16
  lzEndLen : BitVec 16
  lzFill : Byte
  hufCfg : HufCfg
  hufRsym : BitVec 9
  prngMul : Word
  prngAdd : Word
  prngShift : BitVec 5
  subSeed : Word
  deriving DecidableEq, Repr

/-- The bit reader: BR_STATE (10_state R38), BR_ACC (R39), BR_POS and BR_END (R40). -/
structure BitReader where
  valid : Bool
  order : BitOrder
  refill : RefillUnit
  bigEndian : Bool
  cnt : BitVec 6
  acc : Word
  pos : Word
  endAddr : Word
  deriving DecidableEq, Repr

/-- One entry of NODE (10_state R52); a child is `none` for NONE. -/
structure Node where
  leaf : Bool
  sym : BitVec 9
  left : Option (Fin 1023)
  right : Option (Fin 1023)
  deriving DecidableEq, Repr, Inhabited

/-- HUF_STATE (10_state R51) and the node store NODE (R52). -/
structure CodeTree where
  valid : Bool
  kind : TreeKind
  nnodes : BitVec 10
  node : Vector Node 1023
  deriving DecidableEq, Repr

/-- MEM (20_memory R80): the bytes written since the hardware reset numbered `epoch`, as cells at strictly
rising addresses. An unlisted address holds no value of its own (log 3). -/
structure Memory where
  epoch : Nat
  cells : List Host.Cell
  deriving DecidableEq, Repr

/-- WIN (10_state R48), written sparsely: `fills` lists the initial fills as (length, byte), shortest
first, of which each position shows the first that covers it; `cells` lists the bytes written over them; the
unspecified content numbered `epoch` lies under both (log 12). -/
structure Window where
  epoch : Nat
  fills : List Host.Cell
  cells : List Host.Cell
  deriving DecidableEq, Repr

/-- What the host can do to the block (10_state R23, R24; 20_memory R82; 70_reset R340). A register is
named by its word index, a quarter of its byte offset: the two low bits of an offset do not exist on the
port (10_state R24). A write of index 0 is a write to CMD. -/
inductive HostAction where
  | writeReg (index : BitVec 6) (value : Word)
  | readReg (index : BitVec 6)
  | writeMem (addr : Word) (value : Byte)
  | readMem (addr : Word)
  | hardwareReset
  deriving DecidableEq, Repr

/-- The state of the block (10_state R20) and, from `memBytes` on, the model's own fields: the open
parameter MEM_BYTES (log 1), the host's actions still to be performed (log 5), the value its last read
returned (log 8), and the number of the next unspecified content (log 4). -/
structure State where
  status : Status
  result : Word
  errInfo : Word
  outLen : Word
  regs : HostRegs
  br : BitReader
  lzWPos : BitVec 16
  win : Window
  tree : CodeTree
  prngState : Word
  subValid : Bool
  sbox : Vector Byte 256
  mem : Memory
  memBytes : Nat
  host : List HostAction
  lastRead : Option Word
  epoch : Nat
  deriving DecidableEq, Repr

/-- Reasons to stop with a fault. There is none: the block's errors are recorded in STATUS and ERRINFO and
the machine goes on (60_exceptions R306), so no step of this model faults (log 13). -/
inductive Fault where
  deriving DecidableEq, Repr

/-- Reasons to refuse a step. -/
inductive Refusal where
  /-- An instruction without a meaning. No arm of `exec` answers it: every command has its meaning. Safe. -/
  | notModelled (mnemonic : String)
  /-- Raised by a host read or write of MEM at or above MEM_BYTES, which the spec gives no meaning and tells
  a model to refuse (20_memory R82; 93 I25). Safe: the model stops. -/
  | hostAccessOutsideMem (addr : Word)
  deriving DecidableEq, Repr

/-- The seven errors (60_exceptions R300). -/
inductive ErrorName where
  | unexpectedEndOfStream
  | invalidFormat
  | unknownScheme
  | illegalCommand
  | badConfig
  | notReady
  | accessFault
  deriving DecidableEq, Repr

/-- STATUS with every field 0 (70_reset R341). -/
def Status.zero : Status := { done := false, err := false, term := false, errCode := 0 }

/-- The read/write registers at 0 (70_reset R341). -/
def HostRegs.zero : HostRegs where
  srcAddr := 0
  srcLen := 0
  outAddr := 0
  outCap := 0
  bufAddr := 0
  bufLen := 0
  keyAddr := 0
  keyLen := 0
  keyPhase := 0
  ivAddr := 0
  brCfg := { order := .msbFirst, refill := 0, bigEndian := false }
  lzCfg := { wlog2 := 0, offBits := 0, lenBits := 0, mode := false, endOff0 := false, endLen := false }
  lzInitPos := 0
  lzLenBias := 0
  lzEndLen := 0
  lzFill := 0
  hufCfg := { lenBits := 0, nsym := 0, rebuildEn := false }
  hufRsym := 0
  prngMul := 0
  prngAdd := 0
  prngShift := 0
  subSeed := 0

/-- The bit reader at 0 (70_reset R341). -/
def BitReader.zero : BitReader where
  valid := false
  order := .msbFirst
  refill := .bits8
  bigEndian := false
  cnt := 0
  acc := 0
  pos := 0
  endAddr := 0

/-- The node the unspecified content numbered `epoch` has at index `i` (70_reset R341; log 4). -/
def Node.unspecified (epoch : Nat) (i : Fin 1023) : Node where
  leaf := (Config.unspecifiedNode epoch i).1
  sym := (Config.unspecifiedNode epoch i).2.1
  left := (Config.unspecifiedNode epoch i).2.2.1
  right := (Config.unspecifiedNode epoch i).2.2.2

/-- HUF_STATE at 0 over an unspecified NODE (70_reset R341). -/
def CodeTree.unspecified (epoch : Nat) : CodeTree where
  valid := false
  kind := .selfDescribing
  nnodes := 0
  node := Vector.ofFn (Node.unspecified epoch)

/-- An unspecified WIN (70_reset R341). -/
def Window.unspecified (epoch : Nat) : Window := { epoch := epoch, fills := [], cells := [] }

/-- An unspecified MEM: nothing has been written (70_reset R341). -/
def Memory.unspecified (epoch : Nat) : Memory := { epoch := epoch, cells := [] }

/-- The state after hardware reset (10_state R59; 70_reset R340, R341): every register 0; MEM, WIN, NODE
and SBOX unspecified. The host has nothing queued: after reset the block does nothing until the host writes
CMD (70_reset R340). -/
def State.reset : State where
  status := Status.zero
  result := 0
  errInfo := 0
  outLen := 0
  regs := HostRegs.zero
  br := BitReader.zero
  lzWPos := 0
  win := Window.unspecified 0
  tree := CodeTree.unspecified 0
  prngState := 0
  subValid := false
  sbox := Vector.ofFn (Config.unspecifiedSbox 0)
  mem := Memory.unspecified 0
  memBytes := Config.memBytes
  host := []
  lastRead := none
  epoch := 1

end Sys2Proof.Machine
end

