-- ==== Sys2Proof/Machine/Ops.lean ====
section
/-! DEFINITION. The shared operations: results of a part of a command, MEM, WIN, SBOX and NODE accesses,
acceptance of a command, raising an error and leaving the error state, and the resets. -/

namespace Sys2Proof.Machine

/-! ### Results of a part of a command -/

/-- What a part of a command gives: a value and the state after it, or an error with the state in which it
was raised. Every state change made before the raise is kept (60_exceptions R306). -/
inductive Res (σ α : Type) where
  | ok (a : α) (s : σ)
  | raised (e : ErrorName) (info : Nat) (s : σ)
  deriving DecidableEq, Repr

/-- Go on with the value and the state, or stop at the error: nothing the command would have done after the
raise is done (60_exceptions R306). -/
def Res.bind {σ α β : Type} (x : Res σ α) (f : α → σ → Res σ β) : Res σ β :=
  match x with
  | .ok a s => f a s
  | .raised e info s => .raised e info s

/-- The same result over a larger state. -/
def Res.mapState {σ τ α : Type} (g : σ → τ) (x : Res σ α) : Res τ α :=
  match x with
  | .ok a s => .ok a (g s)
  | .raised e info s => .raised e info (g s)

/-- `for i in start .. start + count - 1: s <- f i s`, in ascending order. -/
def forUp {σ : Type} (f : Nat → σ → σ) : (count start : Nat) → σ → σ
  | 0, _, s => s
  | count + 1, start, s => forUp f count (start + 1) (f start s)

/-! ### Cells: a sparse array of bytes at strictly rising indices -/

/-- The byte listed at an index. -/
def lookupCell : List Host.Cell → Nat → Option Byte
  | [], _ => none
  | c :: cs, a => if c.1 = a then some c.2 else lookupCell cs a

/-- List a byte at an index, in its place, over the one listed there before. -/
def insertCell : List Host.Cell → Nat → Byte → List Host.Cell
  | [], a, b => [(a, b)]
  | c :: cs, a, b =>
    if a < c.1 then (a, b) :: c :: cs
    else if c.1 = a then (a, b) :: cs
    else c :: insertCell cs a b

/-- The canonical form: indices strictly rising. -/
def risingCells : List Host.Cell → Bool
  | [] => true
  | c :: cs => (match cs with | [] => true | d :: _ => decide (c.1 < d.1)) && risingCells cs

/-! ### MEM (20_memory R80; 00_scope R14) -/

/-- The canonical form of MEM: addresses strictly rising. An unlisted address has no value of its own, so no
entry can repeat it: equal memories are equal data (log 3). -/
def Memory.wf (m : Memory) : Bool := risingCells m.cells

/-- The byte written at an address since the last hardware reset; `none` where nothing was written. -/
def Memory.written (m : Memory) (a : Nat) : Option Byte := lookupCell m.cells a

/-- `MEM[a]` (00_scope R14). A byte nothing has written since the hardware reset is any value (70_reset R341,
R342; 93 I8): a free value (log 3). -/
def Memory.read (m : Memory) (a : Nat) : Byte :=
  (m.written a).getD (Config.unspecifiedMem m.epoch a)

/-- `MEM[a] <- b` (00_scope R14). -/
def Memory.write (m : Memory) (a : Nat) (b : Byte) : Memory :=
  { m with cells := insertCell m.cells a b }

/-- `MemRead(a, n)`, little-endian (00_scope R14). -/
def Memory.readLE (m : Memory) : (a n : Nat) → Nat
  | _, 0 => 0
  | a, n + 1 => (m.read a).toNat ||| (m.readLE (a + 1) n <<< 8)

/-- `MemReadBE(a, n)`, big-endian (00_scope R14). -/
def Memory.readBE (m : Memory) : (a n : Nat) → Nat
  | _, 0 => 0
  | a, n + 1 => ((m.read a).toNat <<< (8 * n)) ||| m.readBE (a + 1) n

/-! ### WIN (10_state R48) -/

/-- What a position shows where no byte was written over the fills. -/
def Window.background (w : Window) (i : Nat) : Byte :=
  match w.fills.find? (fun f => i < f.1) with
  | some f => f.2
  | none => Config.unspecifiedWin w.epoch i

/-- `WIN[i]`. -/
def Window.read (w : Window) (i : Nat) : Byte := (lookupCell w.cells i).getD (w.background i)

/-- `WIN[i] <- b`. -/
def Window.write (w : Window) (i : Nat) (b : Byte) : Window :=
  { w with cells := insertCell w.cells i b }

/-- `for i in 0 .. n-1: WIN[i] <- b` (41_lz R164); positions `n` and above keep their bytes (10_state R48). -/
def Window.fill (w : Window) (n : Nat) (b : Byte) : Window :=
  { w with
    fills := (n, b) :: w.fills.filter (fun f => n < f.1)
    cells := w.cells.filter (fun c => n ≤ c.1) }

/-! ### Tables of 256 bytes (10_state R55) -/

/-- `T[b]` for a byte `b`. -/
def tableGet (t : Vector Byte 256) (b : Byte) : Byte := t[b.toNat]'(b.isLt)

/-- `T[b] <- v` for a byte `b`. -/
def tableSet (t : Vector Byte 256) (b v : Byte) : Vector Byte 256 := t.set b.toNat v b.isLt

/-! ### NODE (10_state R52) -/

/-- `NODE[n]`. -/
def CodeTree.nodeAt (t : CodeTree) (n : Fin 1023) : Node := t.node[n.val]'n.isLt

/-- `NODE[n] <- v`. -/
def CodeTree.setNode (t : CodeTree) (n : Fin 1023) (v : Node) : CodeTree :=
  { t with node := t.node.set n.val v n.isLt }

/-! ### Acceptance, raising an error, leaving the error state -/

/-- ERRCODE of an error (60_exceptions R300). -/
def ErrorName.code : ErrorName → BitVec 3
  | .unexpectedEndOfStream => 1
  | .invalidFormat => 2
  | .unknownScheme => 3
  | .illegalCommand => 4
  | .badConfig => 5
  | .notReady => 6
  | .accessFault => 7

/-- An accepted command starts by clearing DONE (60_exceptions R307). -/
def accept (s : State) : State := { s with status := { s.status with done := false } }

/-- `raise e(info)` (60_exceptions R306): the one way an error is recorded. DONE stays as acceptance left
it, 0. -/
def raiseError (e : ErrorName) (info : Nat) (s : State) : State :=
  { s with
    status := { s.status with err := true, errCode := e.code }
    errInfo := BitVec.ofNat 32 info }

/-- The successful end of an accepted command sets DONE (60_exceptions R307). -/
def finish (s : State) : State := { s with status := { s.status with done := true } }

/-- The end of an accepted command: DONE, or the error recorded. -/
def conclude : Res State Unit → State
  | .ok _ s => finish s
  | .raised e info s => raiseError e info s

/-- A command other than CLRERR and SRESET (60_exceptions R307): in the error state it is ignored and no
state changes at all; otherwise it is accepted, executed and concluded. -/
def runCommand (body : State → Res State Unit) (s : State) : State :=
  if s.status.err then s else conclude (body (accept s))

/-- Leaving the error state: CLRERR's operation (46_system R291; 60_exceptions R310). It restores nothing. -/
def clearError (s : State) : State :=
  { s with status := { s.status with err := false, errCode := 0 }, errInfo := 0 }

/-! ### Resets -/

/-- What hardware reset and SRESET have in common (70_reset R340, R341): every control register 0; WIN, NODE
and SBOX unspecified anew. MEM is kept. -/
def clearRegisters (s : State) : State :=
  { s with
    status := Status.zero
    result := 0
    errInfo := 0
    outLen := 0
    regs := HostRegs.zero
    br := BitReader.zero
    lzWPos := 0
    win := Window.unspecified s.epoch
    tree := CodeTree.unspecified s.epoch
    prngState := 0
    subValid := false
    sbox := Vector.ofFn (Config.unspecifiedSbox s.epoch)
    epoch := s.epoch + 1 }

/-- Hardware reset (70_reset R340): as above, and MEM unspecified anew. -/
def hardwareReset (s : State) : State :=
  { clearRegisters s with mem := Memory.unspecified s.epoch }

end Sys2Proof.Machine
end

