-- ==== Sys2Proof/Machine/Operands.lean ====
section
/-! DEFINITION. Operands: the register map, the fields of the configuration registers, the ranges a
command names, the range and overlap predicates, and the start-up checks built from them. -/

namespace Sys2Proof.Machine

/-- The 35 control registers (10_state R25). -/
inductive Reg where
  | cmd | status | result | errInfo
  | srcAddr | srcLen | outAddr | outCap | outLen | bufAddr | bufLen | keyAddr | keyLen | keyPhase | ivAddr
  | brCfg | brState | brAcc | brPos | brEnd
  | lzCfg | lzInitPos | lzLenBias | lzEndLen | lzFill | lzWPos
  | hufCfg | hufRsym | hufState
  | prngState | prngMul | prngAdd | prngShift
  | subSeed | subState
  deriving DecidableEq, Repr

/-- The byte offset of a register (10_state R25). -/
def Reg.offset : Reg → Nat
  | .cmd => 0x00
  | .status => 0x04
  | .result => 0x08
  | .errInfo => 0x0C
  | .srcAddr => 0x10
  | .srcLen => 0x14
  | .outAddr => 0x18
  | .outCap => 0x1C
  | .outLen => 0x20
  | .bufAddr => 0x24
  | .bufLen => 0x28
  | .keyAddr => 0x2C
  | .keyLen => 0x30
  | .keyPhase => 0x34
  | .ivAddr => 0x38
  | .brCfg => 0x40
  | .brState => 0x44
  | .brAcc => 0x48
  | .brPos => 0x4C
  | .brEnd => 0x50
  | .lzCfg => 0x60
  | .lzInitPos => 0x64
  | .lzLenBias => 0x68
  | .lzEndLen => 0x6C
  | .lzFill => 0x70
  | .lzWPos => 0x74
  | .hufCfg => 0x80
  | .hufRsym => 0x84
  | .hufState => 0x88
  | .prngState => 0xA0
  | .prngMul => 0xA4
  | .prngAdd => 0xA8
  | .prngShift => 0xAC
  | .subSeed => 0xB0
  | .subState => 0xB4

/-- Every register, in the order of the map. -/
def Reg.all : List Reg :=
  [.cmd, .status, .result, .errInfo, .srcAddr, .srcLen, .outAddr, .outCap, .outLen, .bufAddr, .bufLen,
   .keyAddr, .keyLen, .keyPhase, .ivAddr, .brCfg, .brState, .brAcc, .brPos, .brEnd, .lzCfg, .lzInitPos,
   .lzLenBias, .lzEndLen, .lzFill, .lzWPos, .hufCfg, .hufRsym, .hufState, .prngState, .prngMul, .prngAdd,
   .prngShift, .subSeed, .subState]

/-- The register at a word index of the port; `none` at a reserved offset (10_state R24). -/
def Reg.ofIndex (index : BitVec 6) : Option Reg :=
  Reg.all.find? (fun r => r.offset == 4 * index.toNat)

/-! ### Fields -/

/-- ORDER: 0 MSB-first, 1 LSB-first (10_state R37). -/
def BitOrder.ofBit (b : Bool) : BitOrder := if b then .lsbFirst else .msbFirst

/-- The bit of an order (10_state R37). -/
def BitOrder.bit : BitOrder → Bool
  | .msbFirst => false
  | .lsbFirst => true

/-- REFILL: 0, 1, 2 for 8, 16 and 32 bits; 3 is reserved (10_state R37). -/
def RefillUnit.ofCode (c : BitVec 2) : Option RefillUnit :=
  match c.toNat with
  | 0 => some .bits8
  | 1 => some .bits16
  | 2 => some .bits32
  | _ => none

/-- The code of a unit in BR_STATE.REFILL (10_state R38). -/
def RefillUnit.code : RefillUnit → BitVec 2
  | .bits8 => 0
  | .bits16 => 1
  | .bits32 => 2

/-- `W`, the unit size in bytes (10_state R38; 40_bitreader R141). -/
def RefillUnit.bytes : RefillUnit → Nat
  | .bits8 => 1
  | .bits16 => 2
  | .bits32 => 4

/-- HUF_STATE.KIND (10_state R51). -/
def TreeKind.bit : TreeKind → Bool
  | .selfDescribing => false
  | .canonical => true

/-- The window capacity `2^WLOG2` (41_lz R161). -/
def LzCfg.windowSize (c : LzCfg) : Nat := 2 ^ c.wlog2.toNat

/-- WLOG2, OFFBITS and LENBITS each from 1 to 16 (10_state R42; 41_lz R163). -/
def LzCfg.legal (c : LzCfg) : Bool :=
  (1 ≤ c.wlog2.toNat && c.wlog2.toNat ≤ 16) && (1 ≤ c.offBits.toNat && c.offBits.toNat ≤ 16)
    && (1 ≤ c.lenBits.toNat && c.lenBits.toNat ≤ 16)

/-- The bytes of an (offset, length) pair in interleaved mode, `ceil((OFFBITS + LENBITS) / 8)` (41_lz R169). -/
def LzCfg.pairBytes (c : LzCfg) : Nat := (c.offBits.toNat + c.lenBits.toNat + 7) / 8

/-- LENBITS from 1 to 5 and NSYM from 1 to 512 (10_state R49; 42_huffman R200). -/
def HufCfg.legal (c : HufCfg) : Bool :=
  (1 ≤ c.lenBits.toNat && c.lenBits.toNat ≤ 5) && (1 ≤ c.nsym.toNat && c.nsym.toNat ≤ 512)

/-! ### Ranges of MEM -/

/-- A range `[addr, addr + len)` of MEM, on unbounded numbers (00_scope R11). -/
structure Range where
  addr : Nat
  len : Nat
  deriving DecidableEq, Repr

/-- Whether a range holds an address. -/
def Range.holds (r : Range) (a : Nat) : Bool := r.addr ≤ a && a < r.addr + r.len

/-- `InRange(addr, len)` (20_memory R86). -/
def Range.inside (r : Range) (memBytes : Nat) : Bool := r.addr + r.len ≤ memBytes

/-- `Overlap(a, alen, b, blen)` (20_memory R87). -/
def Range.overlaps (a b : Range) : Bool :=
  0 < a.len && 0 < b.len && a.addr < b.addr + b.len && b.addr < a.addr + a.len

/-- The byte source BRINIT takes (10_state R30). -/
def State.sourceRange (s : State) : Range := { addr := s.regs.srcAddr.toNat, len := s.regs.srcLen.toNat }

/-- The part of the source not yet read into the accumulator, `[BR_POS, BR_END)` (20_memory R88). -/
def State.unreadRange (s : State) : Range :=
  { addr := s.br.pos.toNat, len := s.br.endAddr.toNat - s.br.pos.toNat }

/-- The output range (10_state R31). -/
def State.outRange (s : State) : Range := { addr := s.regs.outAddr.toNat, len := s.regs.outCap.toNat }

/-- The 256 bytes SUBSTORE writes (44_subst R243). -/
def State.storeRange (s : State) : Range := { addr := s.regs.outAddr.toNat, len := 256 }

/-- The in-place cipher buffer (10_state R33). -/
def State.bufRange (s : State) : Range := { addr := s.regs.bufAddr.toNat, len := s.regs.bufLen.toNat }

/-- The key or order bytes (10_state R34). -/
def State.keyRange (s : State) : Range := { addr := s.regs.keyAddr.toNat, len := s.regs.keyLen.toNat }

/-- The table SUBLOAD reads (44_subst R237). -/
def State.tableRange (s : State) : Range := { addr := s.regs.keyAddr.toNat, len := 256 }

/-- The initialisation vector (10_state R36). -/
def State.ivRange (s : State) : Range := { addr := s.regs.ivAddr.toNat, len := 16 }

/-! ### Start-up checks -/

/-- A check a command makes before it changes any state, with the error it raises when it fails
(60_exceptions R302, R304). -/
structure Check where
  pass : Bool
  err : ErrorName
  info : Nat
  deriving DecidableEq, Repr

/-- The first check that fails, in the order listed (60_exceptions R304). -/
def firstFailure : List Check → Option Check
  | [] => none
  | c :: cs => if c.pass then firstFailure cs else some c

/-- Make the checks; run the body when all pass, raise the first that fails. -/
def withChecks (checks : State → List Check) (body : State → Res State Unit) (s : State) : Res State Unit :=
  match firstFailure (checks s) with
  | some c => .raised c.err c.info s
  | none => body s

/-- NotReady(0x44) unless BR_VALID (60_exceptions R301). -/
def readerReady (s : State) : Check := ⟨s.br.valid, .notReady, Reg.offset .brState⟩

/-- NotReady(0x88) unless HUF_VALID (42_huffman R204). -/
def treeReady (s : State) : Check := ⟨s.tree.valid, .notReady, Reg.offset .hufState⟩

/-- NotReady(0xB4) unless SUB_VALID (44_subst R240). -/
def tableReady (s : State) : Check := ⟨s.subValid, .notReady, Reg.offset .subState⟩

/-- BadConfig, recording the offending register's offset (60_exceptions R301). -/
def configOk (pass : Bool) (r : Reg) : Check := ⟨pass, .badConfig, r.offset⟩

/-- AccessFault(max(addr, MEM_BYTES)) unless the range lies in MEM (20_memory R86). -/
def inMem (r : Range) (s : State) : Check := ⟨r.inside s.memBytes, .accessFault, max r.addr s.memBytes⟩

/-- BadConfig, recording the register `reg`, if the two ranges overlap (20_memory R87, R88). -/
def apart (a b : Range) (reg : Reg) : Check := ⟨!a.overlaps b, .badConfig, reg.offset⟩

end Sys2Proof.Machine
end

