-- ==== Sys2Proof/Machine/BitReader.lean ====
section
/-! DEFINITION. The bit reader: Refill, Take, GetBits and ReadByte (40_bitreader R143 to R146), and the
commands BRINIT, GETBITS and GETBIT (R147 to R149). -/

namespace Sys2Proof.Machine

/-- The bits that can still be delivered if every remaining byte could be read (10_state R41): the measure
that bounds the decoders' loops. -/
def BitReader.bitsLeft (r : BitReader) : Nat := r.cnt.toNat + 8 * (r.endAddr.toNat - r.pos.toNat)

/-- `Refill()` (40_bitreader R143): the next unit whole, or UnexpectedEndOfStream(BR_POS). -/
def BitReader.refillUnit (m : Memory) (r : BitReader) : Res BitReader Unit :=
  if r.pos.toNat + r.refill.bytes > r.endAddr.toNat then
    .raised .unexpectedEndOfStream r.pos.toNat { r with acc := 0, cnt := 0 }
  else
    .ok () { r with
      acc := BitVec.ofNat 32
        (if r.bigEndian then m.readBE r.pos.toNat r.refill.bytes else m.readLE r.pos.toNat r.refill.bytes)
      pos := BitVec.ofNat 32 (r.pos.toNat + r.refill.bytes)
      cnt := BitVec.ofNat 6 (8 * r.refill.bytes) }

/-- `Take(k)`, `1 <= k <= BR_CNT` (40_bitreader R144): the k bits and the reader without them. -/
def BitReader.take (k : Nat) (r : BitReader) : Nat × BitReader :=
  let rest := r.cnt.toNat - k
  match r.order with
  | .msbFirst =>
    ((r.acc.toNat >>> rest) % 2 ^ k,
      { r with acc := BitVec.ofNat 32 (r.acc.toNat % 2 ^ rest), cnt := BitVec.ofNat 6 rest })
  | .lsbFirst =>
    (r.acc.toNat % 2 ^ k,
      { r with acc := BitVec.ofNat 32 (r.acc.toNat >>> k), cnt := BitVec.ofNat 6 rest })

/-- `if BR_CNT = 0: Refill()` (40_bitreader R145). -/
def BitReader.ensure (m : Memory) (r : BitReader) : Res BitReader Unit :=
  if r.cnt = 0 then r.refillUnit m else .ok () r

/-- How a chunk of k bits joins the field read so far, `got` bits long (40_bitreader R145). -/
def joinChunk (order : BitOrder) (result got chunk k : Nat) : Nat :=
  match order with
  | .msbFirst => (result <<< k) ||| chunk
  | .lsbFirst => result ||| (chunk <<< got)

/-- The loop of `GetBits(n)` (40_bitreader R145). Every pass takes at least one bit, so `n` passes are
enough (log 10). -/
def BitReader.getBitsLoop (m : Memory) (n : Nat) : (fuel got result : Nat) → BitReader → Res BitReader Nat
  | 0, _, result, r => .ok result r
  | fuel + 1, got, result, r =>
    if n ≤ got then .ok result r
    else
      (r.ensure m).bind fun _ r =>
        let k := min (n - got) r.cnt.toNat
        let t := r.take k
        t.2.getBitsLoop m n fuel (got + k) (joinChunk r.order result got t.1 k)

/-- `GetBits(n)` (40_bitreader R145). -/
def BitReader.getBits (m : Memory) (n : Nat) (r : BitReader) : Res BitReader Nat :=
  r.getBitsLoop m n n 0 0

/-- `ReadByte()` (40_bitreader R146). -/
def BitReader.readByte (m : Memory) (r : BitReader) : Res BitReader Byte :=
  if r.pos.toNat ≥ r.endAddr.toNat then .raised .unexpectedEndOfStream r.pos.toNat r
  else .ok (m.read r.pos.toNat) { r with pos := BitVec.ofNat 32 (r.pos.toNat + 1) }

/-- `GetBits(n)` on the state: only the bit reader changes. -/
def getBits (n : Nat) (s : State) : Res State Nat :=
  (s.br.getBits s.mem n).mapState fun r => { s with br := r }

/-- `ReadByte()` on the state: only the bit reader changes. -/
def readByte (s : State) : Res State Byte :=
  (s.br.readByte s.mem).mapState fun r => { s with br := r }

/-! ### BRINIT (40_bitreader R147) -/

/-- BRINIT's checks: the reserved refill code, then the source range (40_bitreader R147). -/
def brinitChecks (s : State) : List Check :=
  [configOk (RefillUnit.ofCode s.regs.brCfg.refill).isSome .brCfg, inMem s.sourceRange s]

/-- The reader BRINIT constructs: the configuration latched, the accumulator empty (40_bitreader R141,
R147). -/
def latchedReader (regs : HostRegs) (unit : RefillUnit) : BitReader where
  valid := true
  order := regs.brCfg.order
  refill := unit
  bigEndian := regs.brCfg.bigEndian
  cnt := 0
  acc := 0
  pos := regs.srcAddr
  endAddr := BitVec.ofNat 32 (regs.srcAddr.toNat + regs.srcLen.toNat)

/-- BRINIT's operation. The reserved code has been refused by the checks; the case is closed by the same
error. -/
def brinitBody (s : State) : Res State Unit :=
  match RefillUnit.ofCode s.regs.brCfg.refill with
  | some unit => .ok () { s with br := latchedReader s.regs unit }
  | none => .raised .badConfig (Reg.offset .brCfg) s

/-- BRINIT (40_bitreader R147). -/
def execBrinit (s : State) : Host.Outcome State Fault Refusal :=
  .next (runCommand (withChecks brinitChecks brinitBody) s)

/-! ### GETBITS and GETBIT (40_bitreader R148, R149) -/

/-- `RESULT <- GetBits(n)`, RESULT written only on success (40_bitreader R148). -/
def readField (n : Nat) (s : State) : Res State Unit :=
  (getBits n s).bind fun v s => .ok () { s with result := BitVec.ofNat 32 v }

/-- GETBITS and GETBIT need a bit reader (40_bitreader R148). -/
def readerChecks (s : State) : List Check := [readerReady s]

/-- GETBITS (40_bitreader R148). A term whose N is not 1 to 32 stands for no command: its word raises
IllegalCommand before anything else (30_encoding R112, R116). -/
def execGetbits (n : BitVec 6) (s : State) : Host.Outcome State Fault Refusal :=
  .next (runCommand
    (fun s =>
      if Instr.legalCount n then withChecks readerChecks (readField n.toNat) s
      else .raised .illegalCommand (encode (.getbits n)).toNat s) s)

/-- GETBIT (40_bitreader R149). -/
def execGetbit (s : State) : Host.Outcome State Fault Refusal :=
  .next (runCommand (withChecks readerChecks (readField 1)) s)

end Sys2Proof.Machine
end

