-- ==== Sys2Proof/Machine/Aes.lean ====
section
/-! DEFINITION. AES block decryption (45_cbc R262 to R268): byte arithmetic, the two S-boxes, the key
expansion, the inverse round functions and the inverse cipher. The functions are total and hold no state. -/

namespace Sys2Proof.Machine

/-- A block of 16 bytes; byte `r + 4*c` is row `r`, column `c` (45_cbc R262). -/
abbrev Block := Vector Byte 16

/-- A word of the key schedule, 4 bytes (45_cbc R262). -/
abbrev KeyWord := Vector Byte 4

/-! ### GF(2^8) (45_cbc R263) -/

/-- `xtime`: times x modulo 0x11B. -/
def xtime (a : Byte) : Byte := if a.getLsbD 7 then (a <<< 1) ^^^ 0x1B else a <<< 1

/-- `gmul(a, 9)`. -/
def gmul9 (a : Byte) : Byte := xtime (xtime (xtime a)) ^^^ a

/-- `gmul(a, 11)`. -/
def gmul11 (a : Byte) : Byte := xtime (xtime (xtime a)) ^^^ xtime a ^^^ a

/-- `gmul(a, 13)`. -/
def gmul13 (a : Byte) : Byte := xtime (xtime (xtime a)) ^^^ xtime (xtime a) ^^^ a

/-- `gmul(a, 14)`. -/
def gmul14 (a : Byte) : Byte := xtime (xtime (xtime a)) ^^^ xtime (xtime a) ^^^ xtime a

/-! ### The S-boxes -/

/-- `SB`, row by row: the high nibble selects the row, the low nibble the column (45_cbc R264). -/
def sbRows : List (List Byte) :=
  [[0x63, 0x7C, 0x77, 0x7B, 0xF2, 0x6B, 0x6F, 0xC5, 0x30, 0x01, 0x67, 0x2B, 0xFE, 0xD7, 0xAB, 0x76],
   [0xCA, 0x82, 0xC9, 0x7D, 0xFA, 0x59, 0x47, 0xF0, 0xAD, 0xD4, 0xA2, 0xAF, 0x9C, 0xA4, 0x72, 0xC0],
   [0xB7, 0xFD, 0x93, 0x26, 0x36, 0x3F, 0xF7, 0xCC, 0x34, 0xA5, 0xE5, 0xF1, 0x71, 0xD8, 0x31, 0x15],
   [0x04, 0xC7, 0x23, 0xC3, 0x18, 0x96, 0x05, 0x9A, 0x07, 0x12, 0x80, 0xE2, 0xEB, 0x27, 0xB2, 0x75],
   [0x09, 0x83, 0x2C, 0x1A, 0x1B, 0x6E, 0x5A, 0xA0, 0x52, 0x3B, 0xD6, 0xB3, 0x29, 0xE3, 0x2F, 0x84],
   [0x53, 0xD1, 0x00, 0xED, 0x20, 0xFC, 0xB1, 0x5B, 0x6A, 0xCB, 0xBE, 0x39, 0x4A, 0x4C, 0x58, 0xCF],
   [0xD0, 0xEF, 0xAA, 0xFB, 0x43, 0x4D, 0x33, 0x85, 0x45, 0xF9, 0x02, 0x7F, 0x50, 0x3C, 0x9F, 0xA8],
   [0x51, 0xA3, 0x40, 0x8F, 0x92, 0x9D, 0x38, 0xF5, 0xBC, 0xB6, 0xDA, 0x21, 0x10, 0xFF, 0xF3, 0xD2],
   [0xCD, 0x0C, 0x13, 0xEC, 0x5F, 0x97, 0x44, 0x17, 0xC4, 0xA7, 0x7E, 0x3D, 0x64, 0x5D, 0x19, 0x73],
   [0x60, 0x81, 0x4F, 0xDC, 0x22, 0x2A, 0x90, 0x88, 0x46, 0xEE, 0xB8, 0x14, 0xDE, 0x5E, 0x0B, 0xDB],
   [0xE0, 0x32, 0x3A, 0x0A, 0x49, 0x06, 0x24, 0x5C, 0xC2, 0xD3, 0xAC, 0x62, 0x91, 0x95, 0xE4, 0x79],
   [0xE7, 0xC8, 0x37, 0x6D, 0x8D, 0xD5, 0x4E, 0xA9, 0x6C, 0x56, 0xF4, 0xEA, 0x65, 0x7A, 0xAE, 0x08],
   [0xBA, 0x78, 0x25, 0x2E, 0x1C, 0xA6, 0xB4, 0xC6, 0xE8, 0xDD, 0x74, 0x1F, 0x4B, 0xBD, 0x8B, 0x8A],
   [0x70, 0x3E, 0xB5, 0x66, 0x48, 0x03, 0xF6, 0x0E, 0x61, 0x35, 0x57, 0xB9, 0x86, 0xC1, 0x1D, 0x9E],
   [0xE1, 0xF8, 0x98, 0x11, 0x69, 0xD9, 0x8E, 0x94, 0x9B, 0x1E, 0x87, 0xE9, 0xCE, 0x55, 0x28, 0xDF],
   [0x8C, 0xA1, 0x89, 0x0D, 0xBF, 0xE6, 0x42, 0x68, 0x41, 0x99, 0x2D, 0x0F, 0xB0, 0x54, 0xBB, 0x16]]

/-- `ISB`, row by row (45_cbc R265). -/
def isbRows : List (List Byte) :=
  [[0x52, 0x09, 0x6A, 0xD5, 0x30, 0x36, 0xA5, 0x38, 0xBF, 0x40, 0xA3, 0x9E, 0x81, 0xF3, 0xD7, 0xFB],
   [0x7C, 0xE3, 0x39, 0x82, 0x9B, 0x2F, 0xFF, 0x87, 0x34, 0x8E, 0x43, 0x44, 0xC4, 0xDE, 0xE9, 0xCB],
   [0x54, 0x7B, 0x94, 0x32, 0xA6, 0xC2, 0x23, 0x3D, 0xEE, 0x4C, 0x95, 0x0B, 0x42, 0xFA, 0xC3, 0x4E],
   [0x08, 0x2E, 0xA1, 0x66, 0x28, 0xD9, 0x24, 0xB2, 0x76, 0x5B, 0xA2, 0x49, 0x6D, 0x8B, 0xD1, 0x25],
   [0x72, 0xF8, 0xF6, 0x64, 0x86, 0x68, 0x98, 0x16, 0xD4, 0xA4, 0x5C, 0xCC, 0x5D, 0x65, 0xB6, 0x92],
   [0x6C, 0x70, 0x48, 0x50, 0xFD, 0xED, 0xB9, 0xDA, 0x5E, 0x15, 0x46, 0x57, 0xA7, 0x8D, 0x9D, 0x84],
   [0x90, 0xD8, 0xAB, 0x00, 0x8C, 0xBC, 0xD3, 0x0A, 0xF7, 0xE4, 0x58, 0x05, 0xB8, 0xB3, 0x45, 0x06],
   [0xD0, 0x2C, 0x1E, 0x8F, 0xCA, 0x3F, 0x0F, 0x02, 0xC1, 0xAF, 0xBD, 0x03, 0x01, 0x13, 0x8A, 0x6B],
   [0x3A, 0x91, 0x11, 0x41, 0x4F, 0x67, 0xDC, 0xEA, 0x97, 0xF2, 0xCF, 0xCE, 0xF0, 0xB4, 0xE6, 0x73],
   [0x96, 0xAC, 0x74, 0x22, 0xE7, 0xAD, 0x35, 0x85, 0xE2, 0xF9, 0x37, 0xE8, 0x1C, 0x75, 0xDF, 0x6E],
   [0x47, 0xF1, 0x1A, 0x71, 0x1D, 0x29, 0xC5, 0x89, 0x6F, 0xB7, 0x62, 0x0E, 0xAA, 0x18, 0xBE, 0x1B],
   [0xFC, 0x56, 0x3E, 0x4B, 0xC6, 0xD2, 0x79, 0x20, 0x9A, 0xDB, 0xC0, 0xFE, 0x78, 0xCD, 0x5A, 0xF4],
   [0x1F, 0xDD, 0xA8, 0x33, 0x88, 0x07, 0xC7, 0x31, 0xB1, 0x12, 0x10, 0x59, 0x27, 0x80, 0xEC, 0x5F],
   [0x60, 0x51, 0x7F, 0xA9, 0x19, 0xB5, 0x4A, 0x0D, 0x2D, 0xE5, 0x7A, 0x9F, 0x93, 0xC9, 0x9C, 0xEF],
   [0xA0, 0xE0, 0x3B, 0x4D, 0xAE, 0x2A, 0xF5, 0xB0, 0xC8, 0xEB, 0xBB, 0x3C, 0x83, 0x53, 0x99, 0x61],
   [0x17, 0x2B, 0x04, 0x7E, 0xBA, 0x77, 0xD6, 0x26, 0xE1, 0x69, 0x14, 0x63, 0x55, 0x21, 0x0C, 0x7D]]

/-- A table entry: row by the high nibble, column by the low one (45_cbc R264). -/
def rowLookup (rows : List (List Byte)) (a : Byte) : Byte := (rows.getD (a.toNat / 16) []).getD (a.toNat % 16) 0

/-- `SB[a]` (45_cbc R264). -/
def aesSbox (a : Byte) : Byte := rowLookup sbRows a

/-- `ISB[a]` (45_cbc R265). -/
def aesInvSbox (a : Byte) : Byte := rowLookup isbRows a

/-! ### Key expansion (45_cbc R267) -/

/-- RotWord. -/
def rotWord (t : KeyWord) : KeyWord := #v[t[1], t[2], t[3], t[0]]

/-- SubWord. -/
def subWord (t : KeyWord) : KeyWord := #v[aesSbox t[0], aesSbox t[1], aesSbox t[2], aesSbox t[3]]

/-- Byte-by-byte exclusive or of two words. -/
def xorWord (a b : KeyWord) : KeyWord := #v[a[0] ^^^ b[0], a[1] ^^^ b[1], a[2] ^^^ b[2], a[3] ^^^ b[3]]

/-- A word of zeros, which stands where a list of words is too short; no key length reaches it. -/
def zeroWord : KeyWord := #v[0, 0, 0, 0]

/-- `t` as the key expansion transforms it before word `i` (45_cbc R267). -/
def scheduleWord (nk i : Nat) (rc : Byte) (t : KeyWord) : KeyWord :=
  if i % nk = 0 then xorWord (subWord (rotWord t)) #v[rc, 0, 0, 0]
  else if nk > 6 && i % nk = 4 then subWord t
  else t

/-- The loop of KeyExpansion from word `i` on, over the words made so far, with the round constant (45_cbc
R267). -/
def expandWords (nk : Nat) : (count i : Nat) → (rc : Byte) → List KeyWord → List KeyWord
  | 0, _, _, w => w
  | count + 1, i, rc, w =>
    let t := scheduleWord nk i rc (w.getD (i - 1) zeroWord)
    expandWords nk count (i + 1) (if i % nk = 0 then xtime rc else rc)
      (w ++ [xorWord (w.getD (i - nk) zeroWord) t])

/-- The first `Nk` words, the key itself (45_cbc R267). -/
def keyWords (key : List Byte) (nk : Nat) : List KeyWord :=
  (List.range nk).map fun i =>
    #v[key.getD (4 * i) 0, key.getD (4 * i + 1) 0, key.getD (4 * i + 2) 0, key.getD (4 * i + 3) 0]

/-- `Nk`, the key's length in words (45_cbc R262). -/
def keyNk (key : List Byte) : Nat := key.length / 4

/-- `Nr = Nk + 6`, the number of rounds (45_cbc R262). -/
def keyNr (key : List Byte) : Nat := keyNk key + 6

/-- `KeyExpansion(key)`: `4 * (Nr + 1)` words (45_cbc R262, R267). -/
def keyExpansion (key : List Byte) : List KeyWord :=
  let nk := keyNk key
  expandWords nk (4 * (keyNr key + 1) - nk) nk 0x01 (keyWords key nk)

/-! ### The inverse cipher (45_cbc R266, R268) -/

/-- AddRoundKey. -/
def addRoundKey (w : List KeyWord) (round : Nat) (s : Block) : Block :=
  Vector.ofFn fun i : Fin 16 =>
    s[i] ^^^ (w.getD (4 * round + i.val / 4) zeroWord)[i.val % 4]'(Nat.mod_lt _ (by decide))

/-- InvSubBytes. -/
def invSubBytes (s : Block) : Block := s.map aesInvSbox

/-- InvShiftRows: row r rotated right by r columns, `n[r + 4*((c + r) mod 4)] = s[r + 4*c]`. -/
def invShiftRows (s : Block) : Block :=
  Vector.ofFn fun i : Fin 16 =>
    s[i.val % 4 + 4 * ((i.val / 4 + 4 - i.val % 4) % 4)]'(by omega)

/-- One column of InvMixColumns. -/
def invMixColumn (a0 a1 a2 a3 : Byte) : KeyWord :=
  #v[gmul14 a0 ^^^ gmul11 a1 ^^^ gmul13 a2 ^^^ gmul9 a3,
     gmul9 a0 ^^^ gmul14 a1 ^^^ gmul11 a2 ^^^ gmul13 a3,
     gmul13 a0 ^^^ gmul9 a1 ^^^ gmul14 a2 ^^^ gmul11 a3,
     gmul11 a0 ^^^ gmul13 a1 ^^^ gmul9 a2 ^^^ gmul14 a3]

/-- InvMixColumns. -/
def invMixColumns (s : Block) : Block :=
  invMixColumn s[0] s[1] s[2] s[3] ++ invMixColumn s[4] s[5] s[6] s[7]
    ++ invMixColumn s[8] s[9] s[10] s[11] ++ invMixColumn s[12] s[13] s[14] s[15]

/-- The rounds from `round` down to 0 (45_cbc R266). -/
def invRounds (w : List KeyWord) : (round : Nat) → Block → Block
  | 0, s => addRoundKey w 0 (invSubBytes (invShiftRows s))
  | r + 1, s => invRounds w r (invMixColumns (addRoundKey w (r + 1) (invSubBytes (invShiftRows s))))

/-- The inverse cipher under a key schedule of `nr` rounds (45_cbc R266). -/
def invCipher (w : List KeyWord) (nr : Nat) (c : Block) : Block := invRounds w (nr - 1) (addRoundKey w nr c)

/-- `AesDecryptBlock(key, c)` (45_cbc R266). -/
def aesDecryptBlock (key : List Byte) (c : Block) : Block := invCipher (keyExpansion key) (keyNr key) c

end Sys2Proof.Machine
end

