-- ==== Sys2Proof/Machine/Xor.lean ====
section
/-! DEFINITION. XORKEY and XORPRNG (43_xor R221 to R224). -/

namespace Sys2Proof.Machine

/-- The address of buffer byte `i`, `BUF_ADDR + i` (20_memory R96). -/
def State.bufAddress (s : State) (i : Nat) : Nat := s.regs.bufAddr.toNat + i

/-- The address of the key byte for buffer byte `i`, `KEY_ADDR + ((KEY_PHASE + i) mod KEY_LEN)`, the sum
unbounded (43_xor R221). -/
def State.keyAddress (s : State) (i : Nat) : Nat :=
  s.regs.keyAddr.toNat + (s.regs.keyPhase.toNat + i) % s.regs.keyLen.toNat

/-- `MEM[a] <- MEM[a] ^ k`. -/
def Memory.xorAt (m : Memory) (a : Nat) (k : Byte) : Memory := m.write a (m.read a ^^^ k)

/-- XORKEY's checks, in order (43_xor R221). -/
def xorkeyChecks (s : State) : List Check :=
  [configOk (decide (s.regs.keyLen ≠ 0)) .keyLen,
   inMem s.bufRange s,
   inMem s.keyRange s,
   apart s.bufRange s.keyRange .keyAddr]

/-- XORKEY's loop (43_xor R221). -/
def xorkeyBody (s : State) : Res State Unit :=
  .ok () { s with
    mem := forUp (fun i m => m.xorAt (s.bufAddress i) (m.read (s.keyAddress i))) s.regs.bufLen.toNat 0 s.mem }

/-- XORKEY (43_xor R221). -/
def execXorkey (s : State) : Host.Outcome State Fault Refusal :=
  .next (runCommand (withChecks xorkeyChecks xorkeyBody) s)

/-- `PrngStep` (43_xor R223): product and sum modulo 2^32. -/
def prngStep (mul add x : Word) : Word := x * mul + add

/-- The key byte of a generator state, bits [PRNG_SHIFT+7 : PRNG_SHIFT] (43_xor R223). -/
def prngByte (shift : BitVec 5) (x : Word) : Byte := (x >>> shift.toNat).setWidth 8

/-- XORPRNG's checks, in order (43_xor R224). -/
def xorprngChecks (s : State) : List Check :=
  [configOk (decide (s.regs.prngShift.toNat ≤ Config.prngMaxShift)) .prngShift, inMem s.bufRange s]

/-- XORPRNG's loop over MEM and the generator state: step, then use (43_xor R224). -/
def xorprngBody (s : State) : Res State Unit :=
  let p := forUp
    (fun i (p : Memory × Word) =>
      let x := prngStep s.regs.prngMul s.regs.prngAdd p.2
      (p.1.xorAt (s.bufAddress i) (prngByte s.regs.prngShift x), x))
    s.regs.bufLen.toNat 0 (s.mem, s.prngState)
  .ok () { s with mem := p.1, prngState := p.2 }

/-- XORPRNG (43_xor R224). -/
def execXorprng (s : State) : Host.Outcome State Fault Refusal :=
  .next (runCommand (withChecks xorprngChecks xorprngBody) s)

end Sys2Proof.Machine
end

