-- ==== Sys2Proof/Machine/Cbc.lean ====
section
/-! DEFINITION. CBCDEC (45_cbc R256 to R260). -/

namespace Sys2Proof.Machine

/-- `MEM[a .. a+15]` (45_cbc R256). -/
def Memory.readBlock (m : Memory) (a : Nat) : Block := Vector.ofFn fun i => m.read (a + i.val)

/-- 16 byte writes at ascending addresses (20_memory R85). -/
def Memory.writeBlock (m : Memory) (a : Nat) (b : Block) : Memory :=
  forUp (fun i m => m.write (a + i) (b.toList.getD i 0)) 16 0 m

/-- `MEM[a .. a+n-1]` as a byte string (45_cbc R256). -/
def Memory.readBytes (m : Memory) (a n : Nat) : List Byte := (List.range n).map fun i => m.read (a + i)

/-- Byte-by-byte exclusive or of two blocks (45_cbc R258). -/
def xorBlock (a b : Block) : Block := Vector.zipWith (· ^^^ ·) a b

/-- A key length of AES: 16, 24 or 32 bytes (45_cbc R257). -/
def legalKeyLength (n : Nat) : Bool := n == 16 || n == 24 || n == 32

/-- The word of CBCDEC, which UnknownScheme records (45_cbc R257). -/
def cbcdecWord (p : Bool) : Nat := (encode (.cbcdec p)).toNat

/-- CBCDEC's checks, in order (45_cbc R260). -/
def cbcdecChecks (p : Bool) (s : State) : List Check :=
  [⟨legalKeyLength s.regs.keyLen.toNat, .unknownScheme, cbcdecWord p⟩,
   inMem s.bufRange s,
   inMem s.keyRange s,
   inMem s.ivRange s,
   apart s.bufRange s.keyRange .keyAddr,
   apart s.bufRange s.ivRange .ivAddr,
   ⟨s.regs.bufLen.toNat % 16 == 0, .invalidFormat, 5⟩,
   ⟨!(p && s.regs.bufLen.toNat == 0), .invalidFormat, 5⟩]

/-- One block at `a`: decrypt, exclusive-or with the chaining block, and keep the ciphertext for the next
(45_cbc R258). -/
def cbcBlock (w : List KeyWord) (nr a : Nat) (p : Memory × Block) : Memory × Block :=
  let c := p.1.readBlock a
  (p.1.writeBlock a (xorBlock (invCipher w nr c) p.2), c)

/-- The loop over the blocks of the buffer (45_cbc R260). The key schedule is that of the key read before
the loop. -/
def cbcBlocks (key : List Byte) (s : State) : Memory × Block :=
  let w := keyExpansion key
  forUp (fun j p => cbcBlock w (keyNr key) (s.bufAddress (16 * j)) p)
    (s.regs.bufLen.toNat / 16) 0 (s.mem, s.mem.readBlock s.regs.ivAddr.toNat)

/-- The state after the loop: only the buffer has changed (45_cbc R260). -/
def cbcDecrypt (s : State) : State :=
  { s with mem := (cbcBlocks (s.mem.readBytes s.regs.keyAddr.toNat s.regs.keyLen.toNat) s).1 }

/-- The PKCS#7 check of a buffer that ends before `e` (45_cbc R259, R260): the pad length, if well formed. -/
def padLength (m : Memory) (e : Nat) : Option Nat :=
  let p := m.read (e - 1)
  if p.toNat < 1 ∨ p.toNat > 16 then none
  else if (List.range' 1 p.toNat).all (fun k => m.read (e - k) == p) then some p.toNat
  else none

/-- CBCDEC after its checks: RESULT is written on success only (45_cbc R260). -/
def cbcdecBody (p : Bool) (s : State) : Res State Unit :=
  let t := cbcDecrypt s
  if p then
    match padLength t.mem (s.bufAddress s.regs.bufLen.toNat) with
    | none => .raised .invalidFormat 6 t
    | some n => .ok () { t with result := BitVec.ofNat 32 (s.regs.bufLen.toNat - n) }
  else .ok () { t with result := s.regs.bufLen }

/-- CBCDEC (45_cbc R260). -/
def execCbcdec (p : Bool) (s : State) : Host.Outcome State Fault Refusal :=
  .next (runCommand (withChecks (cbcdecChecks p) (cbcdecBody p)) s)

end Sys2Proof.Machine
end

