-- ==== Sys2Proof/Machine/Flags.lean ====
section
/-! DEFINITION. The flags and field words: STATUS, BR_STATE, HUF_STATE, SUB_STATE and the configuration
registers as the 32-bit words the register port shows and stores. Reserved bits read 0 (10_state R24). -/

namespace Sys2Proof.Machine

/-- The STATUS word: DONE [0], ERR [1], TERM [2], ERRCODE [10:8] (10_state R27). -/
def Status.word (t : Status) : Word :=
  0#21 ++ t.errCode ++ 0#5 ++ BitVec.ofBool t.term ++ BitVec.ofBool t.err ++ BitVec.ofBool t.done

/-- The BR_CFG word: ORDER [0], REFILL [2:1], BE [3] (10_state R37). -/
def BrCfg.word (c : BrCfg) : Word :=
  0#28 ++ BitVec.ofBool c.bigEndian ++ c.refill ++ BitVec.ofBool c.order.bit

/-- What BR_CFG stores of a written word (10_state R37). -/
def BrCfg.ofWord (w : Word) : BrCfg where
  order := BitOrder.ofBit (w.getLsbD 0)
  refill := w.extractLsb' 1 2
  bigEndian := w.getLsbD 3

/-- The BR_STATE word: VALID [0], ORDER [1], REFILL [3:2], BE [4], CNT [13:8] (10_state R38). -/
def BitReader.word (r : BitReader) : Word :=
  0#18 ++ r.cnt ++ 0#3 ++ BitVec.ofBool r.bigEndian ++ r.refill.code ++ BitVec.ofBool r.order.bit
    ++ BitVec.ofBool r.valid

/-- The LZ_CFG word: WLOG2 [4:0], OFFBITS [9:5], LENBITS [14:10], MODE [16], END_OFF0 [17], END_LEN [18]
(10_state R42). -/
def LzCfg.word (c : LzCfg) : Word :=
  0#13 ++ BitVec.ofBool c.endLen ++ BitVec.ofBool c.endOff0 ++ BitVec.ofBool c.mode ++ 0#1 ++ c.lenBits
    ++ c.offBits ++ c.wlog2

/-- What LZ_CFG stores of a written word (10_state R42). -/
def LzCfg.ofWord (w : Word) : LzCfg where
  wlog2 := w.extractLsb' 0 5
  offBits := w.extractLsb' 5 5
  lenBits := w.extractLsb' 10 5
  mode := w.getLsbD 16
  endOff0 := w.getLsbD 17
  endLen := w.getLsbD 18

/-- The HUF_CFG word: LENBITS [2:0], NSYM [13:4], REBUILD_EN [16] (10_state R49). -/
def HufCfg.word (c : HufCfg) : Word :=
  0#15 ++ BitVec.ofBool c.rebuildEn ++ 0#2 ++ c.nsym ++ 0#1 ++ c.lenBits

/-- What HUF_CFG stores of a written word (10_state R49). -/
def HufCfg.ofWord (w : Word) : HufCfg where
  lenBits := w.extractLsb' 0 3
  nsym := w.extractLsb' 4 10
  rebuildEn := w.getLsbD 16

/-- The HUF_STATE word: VALID [0], KIND [1], NNODES [17:8] (10_state R51). -/
def CodeTree.word (t : CodeTree) : Word :=
  0#14 ++ t.nnodes ++ 0#6 ++ BitVec.ofBool t.kind.bit ++ BitVec.ofBool t.valid

/-- The SUB_STATE word: VALID [0] (10_state R54). -/
def subStateWord (valid : Bool) : Word := 0#31 ++ BitVec.ofBool valid

/-- `STATUS.TERM <- b` (10_state R27): LZDEC alone writes it. -/
def setTerm (b : Bool) (s : State) : State := { s with status := { s.status with term := b } }

end Sys2Proof.Machine
end

