-- ==== Sys2Proof/Machine/Lz.lean ====
section
/-! DEFINITION. LZDEC (41_lz R163 to R174). -/

namespace Sys2Proof.Machine

/-- LZDEC's checks, in order (41_lz R163; 60_exceptions R302). -/
def lzdecChecks (s : State) : List Check :=
  [readerReady s,
   configOk s.regs.lzCfg.legal .lzCfg,
   configOk (s.regs.lzInitPos.toNat < s.regs.lzCfg.windowSize) .lzInitPos,
   inMem s.outRange s,
   apart s.unreadRange s.outRange .outAddr]

/-- Window initialisation (41_lz R164). -/
def lzInit (s : State) : State :=
  { s with
    win := s.win.fill s.regs.lzCfg.windowSize s.regs.lzFill
    lzWPos := s.regs.lzInitPos
    outLen := 0 }

/-- The address of the next output byte, `OUT_ADDR + OUT_LEN` (20_memory R96). -/
def State.outputAddress (s : State) : Nat := s.regs.outAddr.toNat + s.outLen.toNat

/-- `MEM[OUT_ADDR + OUT_LEN] <- b ; OUT_LEN <- OUT_LEN + 1` (20_memory R96). -/
def putByte (b : Byte) (s : State) : State :=
  { s with mem := s.mem.write s.outputAddress b, outLen := s.outLen + 1 }

/-- `Emit(b)` (41_lz R165): to the output and to the window. -/
def emit (b : Byte) (s : State) : State :=
  let t := putByte b s
  { t with
    win := t.win.write t.lzWPos.toNat b
    lzWPos := BitVec.ofNat 16 ((t.lzWPos.toNat + 1) % t.regs.lzCfg.windowSize) }

/-- `(LZ_WPOS - off) mod W`, the remainder non-negative (41_lz R170; 00_scope R12). -/
def State.copyIndex (s : State) (off : Nat) : Nat :=
  (((s.lzWPos.toNat : Int) - (off : Int)) % (s.regs.lzCfg.windowSize : Int)).toNat

/-- Whether OUT_LEN has not reached OUT_CAP. -/
def State.hasRoom (s : State) : Bool := s.outLen.toNat < s.regs.outCap.toNat

/-- The back-reference copy, byte by byte through WIN, cut at OUT_CAP (41_lz R170, R171). The pseudocode's
`stop` at `OUT_LEN = OUT_CAP` is the loop's own end: the decoding loop stops there too, with TERM 0. -/
def lzCopy (off : Nat) : (n : Nat) → State → State
  | 0, s => s
  | n + 1, s => if s.hasRoom then lzCopy off n (emit (s.win.read (s.copyIndex off)) s) else s

/-- `v`: n bytes by ReadByte, little-endian (41_lz R169). -/
def readBytes : (n : Nat) → State → Res State Nat
  | 0, s => .ok 0 s
  | n + 1, s =>
    (readByte s).bind fun b s =>
      (readBytes n s).bind fun v s => .ok (b.toNat ||| (v <<< 8)) s

/-- The literal after a control bit 1: 8 bits in shared mode, a whole byte in interleaved mode (41_lz R166,
R168). -/
def lzLiteral (s : State) : Res State Byte :=
  if s.regs.lzCfg.mode then readByte s
  else (getBits 8 s).bind fun v s => .ok (BitVec.ofNat 8 v) s

/-- The pair in shared mode: offset, then length; `none` at an offset that ends the stream, whose length
field is not read (41_lz R167). -/
def lzPairShared (s : State) : Res State (Option (Nat × Nat)) :=
  (getBits s.regs.lzCfg.offBits.toNat s).bind fun off s =>
    if s.regs.lzCfg.endOff0 && off == 0 then .ok none s
    else (getBits s.regs.lzCfg.lenBits.toNat s).bind fun len s => .ok (some (off, len)) s

/-- The pair in interleaved mode: all its bytes, then length in the low bits and offset above; `none` at an
offset that ends the stream (41_lz R169). -/
def lzPairInterleaved (s : State) : Res State (Option (Nat × Nat)) :=
  (readBytes s.regs.lzCfg.pairBytes s).bind fun v s =>
    let len := v % 2 ^ s.regs.lzCfg.lenBits.toNat
    let off := (v >>> s.regs.lzCfg.lenBits.toNat) % 2 ^ s.regs.lzCfg.offBits.toNat
    if s.regs.lzCfg.endOff0 && off == 0 then .ok none s else .ok (some (off, len)) s

/-- A back-reference after a control bit 0: an end marker sets TERM and stops (`false`), else the copy is
made and decoding goes on (`true`). LZ_ENDLEN is compared with the raw length field (41_lz R163, R171). -/
def lzReference (s : State) : Res State Bool :=
  (if s.regs.lzCfg.mode then lzPairInterleaved s else lzPairShared s).bind fun pair s =>
    match pair with
    | none => .ok false (setTerm true s)
    | some (off, len) =>
      if s.regs.lzCfg.endLen && len == s.regs.lzEndLen.toNat then .ok false (setTerm true s)
      else .ok true (lzCopy off (len + s.regs.lzLenBias.toNat) s)

/-- One pass of the decoding loop (41_lz R163): whether to go on. -/
def lzToken (s : State) : Res State Bool :=
  (getBits 1 s).bind fun c s =>
    if c = 1 then (lzLiteral s).bind fun b s => .ok true (emit b s)
    else lzReference s

/-- The decoding loop (41_lz R163). Every pass consumes at least its control bit, so `bitsLeft + 1` passes
are enough (70_reset R358; log 10). -/
def lzLoop : (fuel : Nat) → State → Res State Unit
  | 0, s => .ok () s
  | fuel + 1, s =>
    if s.hasRoom then
      (lzToken s).bind fun more s => if more then lzLoop fuel s else .ok () s
    else .ok () s

/-- LZDEC after its checks (41_lz R163). -/
def lzdecBody (s : State) : Res State Unit :=
  let t := lzInit s
  lzLoop (t.br.bitsLeft + 1) t

/-- LZDEC (41_lz R163). TERM is cleared before any check. -/
def execLzdec (s : State) : Host.Outcome State Fault Refusal :=
  .next (runCommand (fun s => withChecks lzdecChecks lzdecBody (setTerm false s)) s)

end Sys2Proof.Machine
end

