-- ==== Sys2Proof/Machine/Huffman.lean ====
section
/-! DEFINITION. HUFTREE, HUFCANON and HUFDEC (42_huffman R191 to R208). -/

namespace Sys2Proof.Machine

/-! ### The node store -/

/-- `ClearTree()` (42_huffman R193). -/
def clearTree (s : State) : State := { s with tree := { s.tree with valid := false, nnodes := 0 } }

/-- A node as Alloc leaves it (42_huffman R192). -/
def Node.fresh : Node := { leaf := false, sym := 0, left := none, right := none }

/-- `NODE[n].leaf <- 1` (42_huffman R194). -/
def Node.asLeaf (n : Node) : Node := { n with leaf := true }

/-- `NODE[n].sym <- sym` (42_huffman R194). -/
def Node.withSym (sym : BitVec 9) (n : Node) : Node := { n with sym := sym }

/-- A leaf with a symbol (42_huffman R197). -/
def Node.leafOf (sym : BitVec 9) (n : Node) : Node := n.asLeaf.withSym sym

/-- Replace `NODE[n]` by what `f` makes of it. -/
def editNode (n : Fin 1023) (f : Node → Node) (s : State) : State :=
  { s with tree := s.tree.setNode n (f (s.tree.nodeAt n)) }

/-- `Alloc()` (42_huffman R192): the next free node, or InvalidFormat(1). -/
def alloc (s : State) : Res State (Fin 1023) :=
  if h : s.tree.nnodes.toNat < 1023 then
    let i : Fin 1023 := ⟨s.tree.nnodes.toNat, h⟩
    .ok i { s with tree := { s.tree.setNode i Node.fresh with nnodes := s.tree.nnodes + 1 } }
  else .raised .invalidFormat 1 s

/-- The end of a build: KIND, then VALID (42_huffman R194, R199). -/
def finishTree (k : TreeKind) (s : State) : State :=
  { s with tree := { s.tree with kind := k, valid := true } }

/-! ### Self-describing trees -/

/-- `BuildNode()` (42_huffman R194). Each call allocates a node, so calls nest at most 1023 deep and the
1024th raises: `fuel` 1024 is never used up (log 10).

DESIGN CHOICE (log 14): what NODE holds after a build that raises is any value (93 I6), and no command reads it.
The model leaves there what the pseudocode has written by then; so a leaf whose 8-bit read raises keeps
`leaf = 1`, which R194 sets before that read, with the `sym = 0` of Alloc. -/
def buildNode : (fuel : Nat) → State → Res State (Fin 1023)
  | 0, s => .raised .invalidFormat 1 s
  | fuel + 1, s =>
    (alloc s).bind fun i s =>
      (getBits 1 s).bind fun b s =>
        if b = 1 then
          (buildNode fuel s).bind fun l s =>
            (buildNode fuel (editNode i (fun n => { n with left := some l }) s)).bind fun r s =>
              .ok i (editNode i (fun n => { n with right := some r }) s)
        else
          (getBits 8 (editNode i Node.asLeaf s)).bind fun v s =>
            .ok i (editNode i (Node.withSym (BitVec.ofNat 9 v)) s)

/-- `BuildTree()` (42_huffman R194). -/
def buildTree (s : State) : Res State Unit :=
  (buildNode 1024 (clearTree s)).bind fun _ s => .ok () (finishTree .selfDescribing s)

/-- HUFTREE (42_huffman R195). -/
def execHuftree (s : State) : Host.Outcome State Fault Refusal :=
  .next (runCommand (withChecks readerChecks buildTree) s)

/-! ### Canonical trees -/

/-- The child of a node on a bit: 0 left, 1 right (42_huffman R203). -/
def Node.child (n : Node) (bit : Bool) : Option (Fin 1023) := if bit then n.right else n.left

/-- A node with its child on a bit replaced. -/
def Node.withChild (bit : Bool) (c : Fin 1023) (n : Node) : Node :=
  if bit then { n with right := some c } else { n with left := some c }

/-- One level of Insert (42_huffman R197): the child of `n` on a bit, allocated if it is missing. -/
def childOrAlloc (n : Fin 1023) (bit : Bool) (s : State) : Res State (Fin 1023) :=
  match (s.tree.nodeAt n).child bit with
  | some c => .ok c s
  | none => (alloc s).bind fun c s => .ok c (editNode n (Node.withChild bit c) s)

/-- The path of Insert: from `n` along bits `len-1` down to 0 of the code (42_huffman R197). -/
def insertPath (code : Nat) : (len : Nat) → Fin 1023 → State → Res State (Fin 1023)
  | 0, n, s => .ok n s
  | i + 1, n, s => (childOrAlloc n (code.testBit i) s).bind fun c s => insertPath code i c s

/-- `Insert(code, len, sym)` (42_huffman R197). -/
def insertCode (code len : Nat) (sym : BitVec 9) (s : State) : Res State Unit :=
  (insertPath code len 0 s).bind fun n s => .ok () (editNode n (Node.leafOf sym) s)

/-- The length fields of symbols `sym` to `sym + count - 1`, in order, each with its symbol (42_huffman
R199). -/
def readLengths (lenBits : Nat) : (count sym : Nat) → State → Res State (List (Nat × Nat))
  | 0, _, s => .ok [] s
  | count + 1, sym, s =>
    (getBits lenBits s).bind fun l s =>
      (readLengths lenBits count (sym + 1) s).bind fun ls s => .ok ((sym, l) :: ls) s

/-- The inner loop of BuildCanon, over the symbols, for one length; it gives the next code (42_huffman
R199). -/
def canonSymbols (len : Nat) : List (Nat × Nat) → (code : Nat) → State → Res State Nat
  | [], code, s => .ok code s
  | (sym, l) :: ls, code, s =>
    if l = len then
      if code ≥ 2 ^ len then .raised .invalidFormat 2 s
      else (insertCode code len (BitVec.ofNat 9 sym) s).bind fun _ s => canonSymbols len ls (code + 1) s
    else canonSymbols len ls code s

/-- The outer loop of BuildCanon, over the lengths (42_huffman R199). -/
def canonLengths (table : List (Nat × Nat)) : (lens : List Nat) → (code : Nat) → State → Res State Unit
  | [], _, s => .ok () s
  | len :: lens, code, s =>
    (canonSymbols len table code s).bind fun code s => canonLengths table lens (code <<< 1) s

/-- `BuildCanon()` (42_huffman R199). -/
def buildCanon (s : State) : Res State Unit :=
  let lb := s.regs.hufCfg.lenBits.toNat
  (readLengths lb s.regs.hufCfg.nsym.toNat 0 (clearTree s)).bind fun table s =>
    (alloc s).bind fun _ s =>
      (canonLengths table (List.range' 1 (2 ^ lb - 1)) 0 s).bind fun _ s =>
        .ok () (finishTree .canonical s)

/-- HUFCANON's checks (42_huffman R200). -/
def hufcanonChecks (s : State) : List Check := [readerReady s, configOk s.regs.hufCfg.legal .hufCfg]

/-- HUFCANON (42_huffman R200). -/
def execHufcanon (s : State) : Host.Outcome State Fault Refusal :=
  .next (runCommand (withChecks hufcanonChecks buildCanon) s)

/-! ### Decoding -/

/-- `DecodeSymbol()` from node `n` (42_huffman R202). Every level consumes a bit, so `bitsLeft + 1` levels
are enough (log 10). -/
def walkTree : (fuel : Nat) → Fin 1023 → State → Res State (BitVec 9)
  | 0, n, s => .ok (s.tree.nodeAt n).sym s
  | fuel + 1, n, s =>
    if (s.tree.nodeAt n).leaf then .ok (s.tree.nodeAt n).sym s
    else
      (getBits 1 s).bind fun b s =>
        match (s.tree.nodeAt n).child (b == 1) with
        | none => .raised .invalidFormat 3 s
        | some c => walkTree fuel c s

/-- `DecodeSymbol()` (42_huffman R202). -/
def decodeSymbol (s : State) : Res State (BitVec 9) := walkTree (s.br.bitsLeft + 1) 0 s

/-- The rebuild signal's effect: a new tree of the same kind from the bits that follow (42_huffman R207). -/
def rebuildTree (s : State) : Res State Unit :=
  match s.tree.kind with
  | .selfDescribing => buildTree s
  | .canonical => buildCanon s

/-- One pass of HUFDEC's loop (42_huffman R204): the rebuild signal, a pseudo-symbol (R206), or a byte. -/
def hufStep (s : State) : Res State Unit :=
  (decodeSymbol s).bind fun sym s =>
    if s.regs.hufCfg.rebuildEn && sym == s.regs.hufRsym then rebuildTree s
    else if sym.toNat ≥ Config.firstPseudoSymbol then .raised .invalidFormat 4 s
    else .ok () (putByte (BitVec.ofNat 8 sym.toNat) s)

/-- HUFDEC's loop (42_huffman R204). A pass writes a byte or, for a rebuild, consumes a bit, so the bound
given by `hufdecBody` is never reached (70_reset R358; log 10). -/
def hufLoop : (fuel : Nat) → State → Res State Unit
  | 0, s => .ok () s
  | fuel + 1, s => if s.hasRoom then (hufStep s).bind fun _ s => hufLoop fuel s else .ok () s

/-- HUFDEC's checks, in order (42_huffman R204). -/
def hufdecChecks (s : State) : List Check :=
  [readerReady s,
   treeReady s,
   configOk (!(s.regs.hufCfg.rebuildEn && s.tree.kind == .canonical) || s.regs.hufCfg.legal) .hufCfg,
   inMem s.outRange s,
   apart s.unreadRange s.outRange .outAddr]

/-- HUFDEC after its checks (42_huffman R204). -/
def hufdecBody (s : State) : Res State Unit :=
  let t := { s with outLen := 0 }
  hufLoop (t.regs.outCap.toNat + t.br.bitsLeft + 1) t

/-- HUFDEC (42_huffman R204). -/
def execHufdec (s : State) : Host.Outcome State Fault Refusal :=
  .next (runCommand (withChecks hufdecChecks hufdecBody) s)

end Sys2Proof.Machine
end

