-- ==== Sys2Proof/Machine/Subst.lean ====
section
/-! DEFINITION. SUBLOAD, SUBGEN, SUBSWAP, SUBTRIPLE, SUBAPPLY and SUBSTORE (44_subst R237 to R243). -/

namespace Sys2Proof.Machine

/-- Fill SBOX and set SUB_VALID (44_subst R237, R238). -/
def fillTable (t : Vector Byte 256) (s : State) : State := { s with sbox := t, subValid := true }

/-- The 256 bytes at KEY_ADDR (44_subst R237). -/
def State.keyTable (s : State) : Vector Byte 256 :=
  Vector.ofFn fun i => s.mem.read (s.regs.keyAddr.toNat + i.val)

/-- SUBLOAD's check (44_subst R237). -/
def subloadChecks (s : State) : List Check := [inMem s.tableRange s]

/-- SUBLOAD (44_subst R237). -/
def execSubload (s : State) : Host.Outcome State Fault Refusal :=
  .next (runCommand (withChecks subloadChecks (fun s => .ok () (fillTable s.keyTable s))) s)

/-- `SUBGEN_FN(seed, keyLen)` (44_subst R239): the open permutation as a table of bytes. -/
def subgenTable (seed keyLen : Word) : Vector Byte 256 :=
  Vector.ofFn fun i => BitVec.ofNat 8 (Config.subgenPermutation seed keyLen i).val

/-- SUBGEN (44_subst R238). It has no check of its own. -/
def execSubgen (s : State) : Host.Outcome State Fault Refusal :=
  .next (runCommand (fun s => .ok () (fillTable (subgenTable s.regs.subSeed s.regs.keyLen) s)) s)

/-- Exchange entries `a` and `j` (44_subst R240). -/
def swapEntries (a j : Byte) (t : Vector Byte 256) : Vector Byte 256 :=
  tableSet (tableSet t a (tableGet t j)) j (tableGet t a)

/-- SUBSWAP's checks, in order (44_subst R240). -/
def subswapChecks (s : State) : List Check := [tableReady s, inMem s.keyRange s]

/-- SUBSWAP's loop: step i exchanges entry `i mod 256` with the entry the i-th order byte names (44_subst
R240). -/
def subswapBody (s : State) : Res State Unit :=
  .ok () { s with
    sbox := forUp (fun i t => swapEntries (BitVec.ofNat 8 i) (s.mem.read (s.regs.keyAddr.toNat + i)) t)
      s.regs.keyLen.toNat 0 s.sbox }

/-- SUBSWAP (44_subst R240). -/
def execSubswap (s : State) : Host.Outcome State Fault Refusal :=
  .next (runCommand (withChecks subswapChecks subswapBody) s)

/-- SUBTRIPLE's check (44_subst R241). -/
def tableChecks (s : State) : List Check := [tableReady s]

/-- The table composed with itself three times, all from the old table (44_subst R241). -/
def tripleTable (t : Vector Byte 256) : Vector Byte 256 :=
  Vector.ofFn fun i => tableGet t (tableGet t (tableGet t (BitVec.ofNat 8 i.val)))

/-- SUBTRIPLE (44_subst R241). -/
def execSubtriple (s : State) : Host.Outcome State Fault Refusal :=
  .next (runCommand (withChecks tableChecks (fun s => .ok () { s with sbox := tripleTable s.sbox })) s)

/-- SUBAPPLY's checks, in order (44_subst R242). -/
def subapplyChecks (s : State) : List Check := [tableReady s, inMem s.bufRange s]

/-- SUBAPPLY's loop (44_subst R242). -/
def subapplyBody (s : State) : Res State Unit :=
  .ok () { s with
    mem := forUp (fun i m => m.write (s.bufAddress i) (tableGet s.sbox (m.read (s.bufAddress i))))
      s.regs.bufLen.toNat 0 s.mem }

/-- SUBAPPLY (44_subst R242). -/
def execSubapply (s : State) : Host.Outcome State Fault Refusal :=
  .next (runCommand (withChecks subapplyChecks subapplyBody) s)

/-- SUBSTORE's checks, in order (44_subst R243). -/
def substoreChecks (s : State) : List Check :=
  [tableReady s, configOk (256 ≤ s.regs.outCap.toNat) .outCap, inMem s.storeRange s]

/-- SUBSTORE's loop: exactly 256 bytes (44_subst R243). -/
def substoreBody (s : State) : Res State Unit :=
  .ok () { s with
    mem := forUp (fun i m => m.write (s.regs.outAddr.toNat + i) (tableGet s.sbox (BitVec.ofNat 8 i)))
      256 0 s.mem
    outLen := 256 }

/-- SUBSTORE (44_subst R243). -/
def execSubstore (s : State) : Host.Outcome State Fault Refusal :=
  .next (runCommand (withChecks substoreChecks substoreBody) s)

end Sys2Proof.Machine
end

