-- ==== Sys2Proof/Machine/System.lean ====
section
/-! DEFINITION. The system commands NOP, CLRERR and SRESET (46_system R290 to R292). -/

namespace Sys2Proof.Machine

/-- NOP (46_system R290): accepted and done. -/
def execNop (s : State) : Host.Outcome State Fault Refusal :=
  .next (runCommand (fun s => .ok () s) s)

/-- CLRERR (46_system R291), accepted in the error state too (60_exceptions R307). -/
def execClrerr (s : State) : Host.Outcome State Fault Refusal :=
  .next (finish (clearError (accept s)))

/-- SRESET (46_system R292), accepted in the error state too: every register 0, MEM kept, then DONE. -/
def execSreset (s : State) : Host.Outcome State Fault Refusal :=
  .next (finish (clearRegisters (accept s)))

end Sys2Proof.Machine
end

