-- ==== Sys2Proof/Machine/Dispatch.lean ====
section
/-! DEFINITION. The meaning of every command: one arm per constructor (30_encoding R115). -/

namespace Sys2Proof.Machine

def exec (i : Instr) (s : State) : Host.Outcome State Fault Refusal :=
  match i with
  | .nop => Sys2Proof.Machine.execNop s
  | .clrerr => Sys2Proof.Machine.execClrerr s
  | .sreset => Sys2Proof.Machine.execSreset s
  | .brinit => Sys2Proof.Machine.execBrinit s
  | .getbits n => Sys2Proof.Machine.execGetbits n s
  | .getbit => Sys2Proof.Machine.execGetbit s
  | .lzdec => Sys2Proof.Machine.execLzdec s
  | .huftree => Sys2Proof.Machine.execHuftree s
  | .hufcanon => Sys2Proof.Machine.execHufcanon s
  | .hufdec => Sys2Proof.Machine.execHufdec s
  | .xorkey => Sys2Proof.Machine.execXorkey s
  | .xorprng => Sys2Proof.Machine.execXorprng s
  | .subload => Sys2Proof.Machine.execSubload s
  | .subgen => Sys2Proof.Machine.execSubgen s
  | .subswap => Sys2Proof.Machine.execSubswap s
  | .subtriple => Sys2Proof.Machine.execSubtriple s
  | .subapply => Sys2Proof.Machine.execSubapply s
  | .substore => Sys2Proof.Machine.execSubstore s
  | .cbcdec p => Sys2Proof.Machine.execCbcdec p s

end Sys2Proof.Machine
end

