-- ==== Sys2Proof/Machine/Port.lean ====
section
/-! DEFINITION. The block's two ports and what each action of the host does: register reads and writes
(10_state R24, R25), CMD writes (60_exceptions R307), MEM accesses (20_memory R82) and hardware reset. -/

namespace Sys2Proof.Machine

/-- The value a read of a register returns (10_state R25); CMD reads 0. -/
def readReg (r : Reg) (s : State) : Word :=
  match r with
  | .cmd => 0
  | .status => s.status.word
  | .result => s.result
  | .errInfo => s.errInfo
  | .srcAddr => s.regs.srcAddr
  | .srcLen => s.regs.srcLen
  | .outAddr => s.regs.outAddr
  | .outCap => s.regs.outCap
  | .outLen => s.outLen
  | .bufAddr => s.regs.bufAddr
  | .bufLen => s.regs.bufLen
  | .keyAddr => s.regs.keyAddr
  | .keyLen => s.regs.keyLen
  | .keyPhase => s.regs.keyPhase
  | .ivAddr => s.regs.ivAddr
  | .brCfg => s.regs.brCfg.word
  | .brState => s.br.word
  | .brAcc => s.br.acc
  | .brPos => s.br.pos
  | .brEnd => s.br.endAddr
  | .lzCfg => s.regs.lzCfg.word
  | .lzInitPos => s.regs.lzInitPos.setWidth 32
  | .lzLenBias => s.regs.lzLenBias.setWidth 32
  | .lzEndLen => s.regs.lzEndLen.setWidth 32
  | .lzFill => s.regs.lzFill.setWidth 32
  | .lzWPos => s.lzWPos.setWidth 32
  | .hufCfg => s.regs.hufCfg.word
  | .hufRsym => s.regs.hufRsym.setWidth 32
  | .hufState => s.tree.word
  | .prngState => s.prngState
  | .prngMul => s.regs.prngMul
  | .prngAdd => s.regs.prngAdd
  | .prngShift => s.regs.prngShift.setWidth 32
  | .subSeed => s.regs.subSeed
  | .subState => subStateWord s.subValid

/-- What a write does to a register other than CMD: an RW register stores the defined bits of the value, an R
register ignores it (10_state R24). -/
def writeReg (r : Reg) (v : Word) (s : State) : State :=
  match r with
  | .cmd => s
  | .status => s
  | .result => s
  | .errInfo => s
  | .srcAddr => { s with regs := { s.regs with srcAddr := v } }
  | .srcLen => { s with regs := { s.regs with srcLen := v } }
  | .outAddr => { s with regs := { s.regs with outAddr := v } }
  | .outCap => { s with regs := { s.regs with outCap := v } }
  | .outLen => s
  | .bufAddr => { s with regs := { s.regs with bufAddr := v } }
  | .bufLen => { s with regs := { s.regs with bufLen := v } }
  | .keyAddr => { s with regs := { s.regs with keyAddr := v } }
  | .keyLen => { s with regs := { s.regs with keyLen := v } }
  | .keyPhase => { s with regs := { s.regs with keyPhase := v } }
  | .ivAddr => { s with regs := { s.regs with ivAddr := v } }
  | .brCfg => { s with regs := { s.regs with brCfg := BrCfg.ofWord v } }
  | .brState => s
  | .brAcc => s
  | .brPos => s
  | .brEnd => s
  | .lzCfg => { s with regs := { s.regs with lzCfg := LzCfg.ofWord v } }
  | .lzInitPos => { s with regs := { s.regs with lzInitPos := v.setWidth 16 } }
  | .lzLenBias => { s with regs := { s.regs with lzLenBias := v.setWidth 16 } }
  | .lzEndLen => { s with regs := { s.regs with lzEndLen := v.setWidth 16 } }
  | .lzFill => { s with regs := { s.regs with lzFill := v.setWidth 8 } }
  | .lzWPos => s
  | .hufCfg => { s with regs := { s.regs with hufCfg := HufCfg.ofWord v } }
  | .hufRsym => { s with regs := { s.regs with hufRsym := v.setWidth 9 } }
  | .hufState => s
  | .prngState => { s with prngState := v }
  | .prngMul => { s with regs := { s.regs with prngMul := v } }
  | .prngAdd => { s with regs := { s.regs with prngAdd := v } }
  | .prngShift => { s with regs := { s.regs with prngShift := v.setWidth 5 } }
  | .subSeed => { s with regs := { s.regs with subSeed := v } }
  | .subState => s

/-- The error a word that is no command raises (30_encoding R117). -/
def errorOfDecode : DecodeError → ErrorName
  | .illegalCommand => .illegalCommand
  | .unknownScheme => .unknownScheme

/-- A write of a word that is no command: ignored in the error state, else accepted, and the decode error
is raised with the word (30_encoding R116; 60_exceptions R307). -/
def rejectWord (e : DecodeError) (w : Word) (s : State) : State :=
  runCommand (fun s => .raised (errorOfDecode e) w.toNat s) s

/-- A write to CMD (10_state R26; 60_exceptions R307): the command the word encodes, with its own
acceptance, or the decode error. -/
def commandWrite (w : Word) (s : State) : Host.Outcome State Fault Refusal :=
  match decode w with
  | .ok i => exec i s
  | .error e => .next (rejectWord e w s)

/-- A host write at a word index of the register port; reserved offsets ignore it (10_state R24). -/
def portWrite (index : BitVec 6) (v : Word) (s : State) : Host.Outcome State Fault Refusal :=
  match Reg.ofIndex index with
  | some .cmd => commandWrite v s
  | some r => .next (writeReg r v s)
  | none => .next s

/-- The value a host read at a word index returns; reserved offsets read 0 (10_state R24). -/
def portRead (index : BitVec 6) (s : State) : Word :=
  match Reg.ofIndex index with
  | some r => readReg r s
  | none => 0

/-- One action of the host (00_scope R18). A MEM access at or above MEM_BYTES has no meaning and is refused
(20_memory R82). -/
def hostAct (a : HostAction) (s : State) : Host.Outcome State Fault Refusal :=
  match a with
  | .writeReg index v => portWrite index v s
  | .readReg index => .next { s with lastRead := some (portRead index s) }
  | .writeMem addr b =>
    if addr.toNat < s.memBytes then .next { s with mem := s.mem.write addr.toNat b }
    else .refused (.hostAccessOutsideMem addr)
  | .readMem addr =>
    if addr.toNat < s.memBytes then .next { s with lastRead := some ((s.mem.read addr.toNat).setWidth 32) }
    else .refused (.hostAccessOutsideMem addr)
  | .hardwareReset => .next (hardwareReset s)

/-- Take the host's first action (10_state R22). When it has none the block does nothing (70_reset R340). -/
def hostStep (s : State) : Host.Outcome State Fault Refusal :=
  match s.host with
  | [] => .next s
  | a :: rest => hostAct a { s with host := rest }

/-- The host's next action becomes a write of the word to CMD. -/
def queueCommand (w : Word) (s : State) : State := { s with host := .writeReg 0 w :: s.host }

end Sys2Proof.Machine
end

