-- ==== Sys2Proof/Machine/Step.lean ====
section
/-! DEFINITION. One step of the machine: one action of the host, and a command is one action (10_state R22,
R23). -/

namespace Sys2Proof.Machine

/-- One step. -/
def step (s : State) : Host.Outcome State Fault Refusal := hostStep s

/-- The state in which the next step is the CMD write of the word of a table row (log 5): a command is
fetched from the host's write, not from memory (10_state R22; 20_memory R94). -/
def State.withFetchWord (s : State) (nbits w : Nat) : State :=
  queueCommand (BitVec.ofNat 32 (w % 2 ^ nbits)) s

end Sys2Proof.Machine
end

