-- ==== Sys2Proof/Safety.lean ====
section
/-! DEFINITION. What the claims call a good state, a refused command and a completed command. -/

namespace Sys2Proof.Machine

/-! ### Outcomes of a command, in the terms of 60_exceptions -/

/-- The state a command leaves that is refused before it changes anything: the error recorded, DONE 0 and
everything else as before (60_exceptions R306, R307). -/
def State.refused (s : State) (e : ErrorName) (info : Nat) : State :=
  { s with
    status := { done := false, err := true, term := s.status.term, errCode := e.code }
    errInfo := BitVec.ofNat 32 info }

/-- STATUS after an accepted command that succeeded and wrote no other status field (60_exceptions R307). -/
def State.doneStatus (s : State) : Status := { s.status with done := true }

/-- STATUS after an accepted command that raised an error in the middle of its work. -/
def State.errStatus (s : State) (e : ErrorName) : Status :=
  { done := false, err := true, term := s.status.term, errCode := e.code }

/-! ### The invariant -/

/-- Every listed byte of MEM lies inside MEM (20_memory R80). -/
def Memory.within (m : Memory) (memBytes : Nat) : Prop := ∀ c ∈ m.cells, c.1 < memBytes

/-- The canonical form of WIN: positions written and fills each strictly rising. -/
def Window.wf (w : Window) : Bool := risingCells w.cells && risingCells w.fills

/-- WIN in its bounds: 65,536 positions (10_state R48), so each written position lies below that and no fill is
longer. -/
def Window.within (w : Window) : Prop := (∀ c ∈ w.cells, c.1 < 2 ^ 16) ∧ ∀ f ∈ w.fills, f.1 ≤ 2 ^ 16

/-- The bit reader invariants (10_state R41), which hold whenever BR_VALID = 1. -/
def State.readerOk (s : State) : Prop :=
  s.br.valid = true →
    s.br.pos.toNat ≤ s.br.endAddr.toNat ∧ s.br.endAddr.toNat ≤ s.memBytes
      ∧ s.br.cnt.toNat ≤ 8 * s.br.refill.bytes ∧ s.br.acc.toNat < 2 ^ s.br.cnt.toNat

/-- DONE and ERR are never both 1; ERRCODE is 0 exactly when ERR is 0, and ERRINFO is then 0 too (10_state
R27, R29). -/
def State.statusOk (s : State) : Prop :=
  ¬(s.status.done = true ∧ s.status.err = true)
    ∧ (s.status.err = true ↔ s.status.errCode ≠ 0)
    ∧ (s.status.err = false → s.errInfo = 0)

/-- A valid tree has a root, and each child of a node of the tree is a node of the tree with a larger index
(42_huffman R191, R202). -/
def CodeTree.ok (t : CodeTree) : Prop :=
  t.valid = true →
    0 < t.nnodes.toNat ∧
    ∀ i : Fin 1023, i.val < t.nnodes.toNat → (t.nodeAt i).leaf = false →
      ∀ (bit : Bool) (c : Fin 1023), (t.nodeAt i).child bit = some c →
        i.val < c.val ∧ c.val < t.nnodes.toNat

/-- The invariant of the machine: MEM_BYTES in its range (00_scope R8), MEM and WIN canonical and inside
their bounds (their forms are log 3 and log 12), the unspecified contents in use older than the next one (log 4), the reader, STATUS and the tree as above. -/
structure State.Inv (s : State) : Prop where
  memBytes_pos : 1 ≤ s.memBytes
  memBytes_le : s.memBytes ≤ 2 ^ 31
  mem_wf : s.mem.wf = true
  mem_within : s.mem.within s.memBytes
  win_wf : s.win.wf = true
  win_within : s.win.within
  mem_epoch : s.mem.epoch < s.epoch
  win_epoch : s.win.epoch < s.epoch
  reader : s.readerOk
  status : s.statusOk
  tree : s.tree.ok

/-! ### Agreement of two states -/

/-- Two trees agree on HUF_STATE and on the nodes that belong to the tree (10_state R52: entries with index
`>= NNODES` are not part of it). -/
def CodeTree.agree (t u : CodeTree) : Prop :=
  t.valid = u.valid ∧ t.kind = u.kind ∧ t.nnodes = u.nnodes
    ∧ ∀ i : Fin 1023, i.val < t.nnodes.toNat → t.nodeAt i = u.nodeAt i

end Sys2Proof.Machine
end

