-- ==== Sys2Proof/Safety/Streams.lean ====
section
/-! DEFINITION. The spec's own view of the data, in which the claims are stated: the bit sequence of a source
(30_encoding R119), LZ tokens and what they expand to (R120; 41_lz R170, R172), tree descriptions (R121),
canonical codes (42_huffman R196), and AES encryption (45_cbc R269). No meaning of a command uses them. -/

namespace Sys2Proof.Machine

/-! ### The register map's access column and the ranges commands write -/

/-- The bits an RW register stores of a written word; `none` for a register the port does not write (10_state
R25, with the field tables of R37, R42 to R46, R49, R50 and R53). -/
def Reg.storedBits : Reg → Option Word
  | .srcAddr | .srcLen | .outAddr | .outCap | .bufAddr | .bufLen | .keyAddr | .keyLen | .keyPhase | .ivAddr
  | .prngState | .prngMul | .prngAdd | .subSeed => some 0xFFFFFFFF
  | .brCfg => some 0x0000000F
  | .lzCfg => some 0x00077FFF
  | .lzInitPos | .lzLenBias | .lzEndLen => some 0x0000FFFF
  | .lzFill => some 0x000000FF
  | .hufCfg => some 0x00013FF7
  | .hufRsym => some 0x000001FF
  | .prngShift => some 0x0000001F
  | .cmd | .status | .result | .errInfo | .outLen | .brState | .brAcc | .brPos | .brEnd | .lzWPos | .hufState
  | .subState => none

/-- The word index of a register on the port: a quarter of its offset (10_state R24). -/
def Reg.index (r : Reg) : BitVec 6 := BitVec.ofNat 6 (r.offset / 4)

/-- The range of MEM a command may write (10_state R60; 20_memory R96); the others write none. -/
def writtenRange (i : Instr) (s : State) : Option Range :=
  match i with
  | .lzdec | .hufdec => some s.outRange
  | .xorkey | .xorprng | .subapply | .cbcdec _ => some s.bufRange
  | .substore => some s.storeRange
  | .nop | .clrerr | .sreset | .brinit | .getbits _ | .getbit | .huftree | .hufcanon | .subload | .subgen
  | .subswap | .subtriple => none

/-- The pieces of the block's state that commands write (10_state R60). -/
inductive Piece where
  | hostRegs
  | reader
  | result
  | outLen
  | term
  | window
  | tree
  | prngState
  | table
  | tableValid
  | memory
  deriving DecidableEq, Repr

/-- Two states agree on a piece. -/
def Piece.same (s t : State) : Piece → Prop
  | .hostRegs => t.regs = s.regs
  | .reader => t.br = s.br
  | .result => t.result = s.result
  | .outLen => t.outLen = s.outLen
  | .term => t.status.term = s.status.term
  | .window => t.win = s.win ∧ t.lzWPos = s.lzWPos
  | .tree => t.tree = s.tree
  | .prngState => t.prngState = s.prngState
  | .table => t.sbox = s.sbox
  | .tableValid => t.subValid = s.subValid
  | .memory => t.mem = s.mem

/-- The column "Writes" of 10_state R60, beside STATUS.DONE, ERR, ERRCODE and ERRINFO. -/
def writtenPieces : Instr → List Piece
  | .nop | .clrerr => []
  | .sreset => [.hostRegs, .reader, .result, .outLen, .term, .window, .tree, .prngState, .table, .tableValid]
  | .brinit => [.reader]
  | .getbits _ | .getbit => [.reader, .result]
  | .lzdec => [.reader, .window, .memory, .outLen, .term]
  | .huftree | .hufcanon => [.reader, .tree]
  | .hufdec => [.reader, .memory, .outLen, .tree]
  | .xorkey | .subapply => [.memory]
  | .xorprng => [.memory, .prngState]
  | .subload | .subgen => [.table, .tableValid]
  | .subswap | .subtriple => [.table]
  | .substore => [.memory, .outLen]
  | .cbcdec _ => [.memory, .result]

/-- The errors each command can raise, with the ERRINFO that 60_exceptions R302 prints beside the name; `none`
where ERRINFO is an address of MEM (60_exceptions R301). -/
def listedErrors : Instr → List (ErrorName × Option Nat)
  | .nop | .clrerr | .sreset | .subgen => []
  | .brinit => [(.badConfig, some 0x40), (.accessFault, none)]
  | .getbits _ | .getbit => [(.notReady, some 0x44), (.unexpectedEndOfStream, none)]
  | .lzdec =>
    [(.notReady, some 0x44), (.badConfig, some 0x60), (.badConfig, some 0x64), (.accessFault, none),
     (.badConfig, some 0x18), (.unexpectedEndOfStream, none)]
  | .huftree => [(.notReady, some 0x44), (.unexpectedEndOfStream, none), (.invalidFormat, some 1)]
  | .hufcanon =>
    [(.notReady, some 0x44), (.badConfig, some 0x80), (.unexpectedEndOfStream, none),
     (.invalidFormat, some 2), (.invalidFormat, some 1)]
  | .hufdec =>
    [(.notReady, some 0x44), (.notReady, some 0x88), (.badConfig, some 0x80), (.accessFault, none),
     (.badConfig, some 0x18), (.unexpectedEndOfStream, none), (.invalidFormat, some 3),
     (.invalidFormat, some 4), (.invalidFormat, some 1), (.invalidFormat, some 2)]
  | .xorkey => [(.badConfig, some 0x30), (.accessFault, none), (.badConfig, some 0x2C)]
  | .xorprng => [(.badConfig, some 0xAC), (.accessFault, none)]
  | .subload => [(.accessFault, none)]
  | .subswap | .subapply => [(.notReady, some 0xB4), (.accessFault, none)]
  | .subtriple => [(.notReady, some 0xB4)]
  | .substore => [(.notReady, some 0xB4), (.badConfig, some 0x1C), (.accessFault, none)]
  | .cbcdec p =>
    [(.unknownScheme, some (0x3C000000 + p.toNat)), (.accessFault, none), (.badConfig, some 0x2C),
     (.badConfig, some 0x38), (.invalidFormat, some 5), (.invalidFormat, some 6)]

/-- The ranges of MEM whose bounds a command checks, in the order of the checks (60_exceptions R302); a start
address outside MEM, or a range that leaves it, is an AccessFault (20_memory R86). -/
def checkedRanges (i : Instr) (s : State) : List Range :=
  match i with
  | .brinit => [s.sourceRange]
  | .lzdec | .hufdec => [s.outRange]
  | .xorkey => [s.bufRange, s.keyRange]
  | .xorprng | .subapply => [s.bufRange]
  | .subload => [s.tableRange]
  | .subswap => [s.keyRange]
  | .substore => [s.storeRange]
  | .cbcdec _ => [s.bufRange, s.keyRange, s.ivRange]
  | .nop | .clrerr | .sreset | .getbits _ | .getbit | .huftree | .hufcanon | .subgen | .subtriple => []

/-- Two ranges share a byte or, in the words of 20_memory R87, overlap. -/
abbrev rangesMeet (a alen b blen : Nat) : Prop := 0 < alen ∧ 0 < blen ∧ a < b + blen ∧ b < a + alen

/-! ### Bits (30_encoding R119) -/

/-- The bits of a `w`-bit number in the order in which they are consumed. -/
def fieldBits (order : BitOrder) (w v : Nat) : List Bool :=
  match order with
  | .msbFirst => (List.range w).map fun i => v.testBit (w - 1 - i)
  | .lsbFirst => (List.range w).map fun i => v.testBit i

/-- The field that consecutive bits make: the first is the most significant bit (MSB-first) or the least
significant bit (LSB-first). -/
def fieldValue (order : BitOrder) (bits : List Bool) : Nat :=
  match order with
  | .msbFirst => bits.foldl (fun v b => 2 * v + b.toNat) 0
  | .lsbFirst => bits.foldr (fun b v => b.toNat + 2 * v) 0

/-- The unit of the byte source at an address, in the reader's byte order. -/
def BitReader.unitAt (r : BitReader) (m : Memory) (a : Nat) : Nat :=
  if r.bigEndian then m.readBE a r.refill.bytes else m.readLE a r.refill.bytes

/-- The whole units left between BR_POS and BR_END. -/
def BitReader.unitsLeft (r : BitReader) : Nat := (r.endAddr.toNat - r.pos.toNat) / r.refill.bytes

/-- The bits a reader still delivers: those in the accumulator, then those of the remaining whole units. -/
def BitReader.bits (r : BitReader) (m : Memory) : List Bool :=
  fieldBits r.order r.cnt.toNat r.acc.toNat ++
    (List.range r.unitsLeft).flatMap fun j =>
      fieldBits r.order (8 * r.refill.bytes) (r.unitAt m (r.pos.toNat + r.refill.bytes * j))

/-- Where the bits of the source byte at address `a` stand in that sequence, for `a` in a whole unit at or above
BR_POS: behind the accumulator and the units before, and in its own unit in address order (MSB-first big-endian,
LSB-first little-endian, single bytes) or in reverse (40_bitreader R152). -/
def BitReader.bitsBefore (r : BitReader) (a : Nat) : Nat :=
  let w := r.refill.bytes
  let k := a - r.pos.toNat
  r.cnt.toNat
    + 8 * (w * (k / w) + if r.order = .msbFirst ↔ r.bigEndian = true then k % w else w - 1 - k % w)

/-- The bits the state's reader still delivers. -/
def State.stream (s : State) : List Bool := s.br.bits s.mem

/-- Two readers of one source: equal but for the position and the accumulator. -/
def BitReader.sameSource (r q : BitReader) : Prop :=
  r.valid = q.valid ∧ r.order = q.order ∧ r.refill = q.refill ∧ r.bigEndian = q.bigEndian ∧ r.endAddr = q.endAddr

/-- The reader at the end of its source, after UnexpectedEndOfStream (40_bitreader R150): nothing in the
accumulator, the position behind the last whole unit. -/
def BitReader.atEnd (r : BitReader) : BitReader :=
  { r with acc := 0, cnt := 0, pos := BitVec.ofNat 32 (r.pos.toNat + r.refill.bytes * r.unitsLeft) }

/-! ### LZ tokens (30_encoding R120; 41_lz R166, R167, R170, R172) -/

/-- A token of an LZ stream that is no end marker. -/
inductive LzToken where
  | literal (b : Byte)
  | copy (off len : Nat)
  deriving DecidableEq, Repr

/-- A token's bits in shared mode. -/
def LzToken.bits (order : BitOrder) (c : LzCfg) : LzToken → List Bool
  | .literal b => true :: fieldBits order 8 b.toNat
  | .copy off len => false :: (fieldBits order c.offBits.toNat off ++ fieldBits order c.lenBits.toNat len)

/-- A token whose fields fit their widths and that no enabled end marker takes. -/
def LzToken.plain (regs : HostRegs) : LzToken → Prop
  | .literal _ => True
  | .copy off len =>
    off < 2 ^ regs.lzCfg.offBits.toNat ∧ len < 2 ^ regs.lzCfg.lenBits.toNat
      ∧ ¬(regs.lzCfg.endOff0 = true ∧ off = 0) ∧ ¬(regs.lzCfg.endLen = true ∧ len = regs.lzEndLen.toNat)

/-- The pair of an interleaved stream at BR_POS, and the reader behind it (41_lz R169): the pair's bytes, little-endian,
with the length in the low bits and the offset above it. -/
def BitReader.pairAt (r : BitReader) (m : Memory) (c : LzCfg) (off len : Nat) (q : BitReader) : Prop :=
  let pb := (c.offBits.toNat + c.lenBits.toNat + 7) / 8
  let v := m.readLE r.pos.toNat pb
  r.pos.toNat + pb ≤ r.endAddr.toNat
    ∧ v % 2 ^ c.lenBits.toNat = len
    ∧ v / 2 ^ c.lenBits.toNat % 2 ^ c.offBits.toNat = off
    ∧ q = { r with pos := BitVec.ofNat 32 (r.pos.toNat + pb) }

/-- An interleaved stream: reader `r` finds these tokens and stands at `q` behind them. Each token is a control
bit from the bit reader, then its bytes from BR_POS on (41_lz R168, R169). -/
def interleaved (c : LzCfg) (m : Memory) : List LzToken → BitReader → BitReader → Prop
  | [], r, q => r = q
  | .literal b :: ts, r, q =>
    ∃ r1, r.getBits m 1 = .ok 1 r1 ∧ r1.pos.toNat < r1.endAddr.toNat ∧ m.read r1.pos.toNat = b
      ∧ interleaved c m ts { r1 with pos := BitVec.ofNat 32 (r1.pos.toNat + 1) } q
  | .copy off len :: ts, r, q =>
    ∃ r1 r2, r.getBits m 1 = .ok 0 r1 ∧ r1.pairAt m c off len r2 ∧ interleaved c m ts r2 q

/-- The byte a copy step with offset `off` finds after the output `out`: the one `off mod W` positions back,
`W` positions for 0, or the fill byte where nothing has been written yet (41_lz R172). -/
def copiedByte (w : Nat) (fill : Byte) (off : Nat) (out : List Byte) : Byte :=
  let back := if off % w = 0 then w else off % w
  if back ≤ out.length then out.getD (out.length - back) 0 else fill

/-- A copy of `n` bytes, byte by byte, each step seeing the bytes of the steps before it (41_lz R170). -/
def expandCopy (w : Nat) (fill : Byte) (off : Nat) : (n : Nat) → List Byte → List Byte
  | 0, out => out
  | n + 1, out => expandCopy w fill off n (out ++ [copiedByte w fill off out])

/-- The output after one more token. -/
def expandToken (regs : HostRegs) (out : List Byte) : LzToken → List Byte
  | .literal b => out ++ [b]
  | .copy off len => expandCopy regs.lzCfg.windowSize regs.lzFill off (len + regs.lzLenBias.toNat) out

/-- The whole output of a list of tokens. -/
def expandTokens (regs : HostRegs) (toks : List LzToken) : List Byte := toks.foldl (expandToken regs) []

/-- LZDEC would run: it is accepted and every start-up check of 41_lz R163 passes. -/
def State.lzReady (s : State) : Prop :=
  s.status.err = false ∧ s.br.valid = true
    ∧ (1 ≤ s.regs.lzCfg.wlog2.toNat ∧ s.regs.lzCfg.wlog2.toNat ≤ 16)
    ∧ (1 ≤ s.regs.lzCfg.offBits.toNat ∧ s.regs.lzCfg.offBits.toNat ≤ 16)
    ∧ (1 ≤ s.regs.lzCfg.lenBits.toNat ∧ s.regs.lzCfg.lenBits.toNat ≤ 16)
    ∧ s.regs.lzInitPos.toNat < 2 ^ s.regs.lzCfg.wlog2.toNat
    ∧ s.regs.outAddr.toNat + s.regs.outCap.toNat ≤ s.memBytes
    ∧ ¬rangesMeet s.br.pos.toNat (s.br.endAddr.toNat - s.br.pos.toNat) s.regs.outAddr.toNat s.regs.outCap.toNat

/-- MEM after a decoder wrote `out` from OUT_ADDR on: those bytes there, every other byte as before. -/
def State.wrote (s t : State) (out : List Byte) : Prop :=
  (∀ i < out.length, t.mem.read (s.regs.outAddr.toNat + i) = out.getD i 0)
    ∧ ∀ a, a < s.regs.outAddr.toNat ∨ s.regs.outAddr.toNat + out.length ≤ a → t.mem.read a = s.mem.read a

/-! ### Code trees (30_encoding R121; 42_huffman R191, R194, R202) -/

/-- A self-describing tree. -/
inductive CodeShape where
  | leaf (sym : Byte)
  | node (l r : CodeShape)
  deriving DecidableEq, Repr

/-- The number of nodes. -/
def CodeShape.size : CodeShape → Nat
  | .leaf _ => 1
  | .node l r => 1 + l.size + r.size

/-- The description of a tree (30_encoding R121). -/
def CodeShape.bits (order : BitOrder) : CodeShape → List Bool
  | .leaf sym => false :: fieldBits order 8 sym.toNat
  | .node l r => true :: (l.bits order ++ r.bits order)

/-- The number of bits of a description. -/
def CodeShape.width : CodeShape → Nat
  | .leaf _ => 9
  | .node l r => 1 + l.width + r.width

/-- Where in the description each node begins, in preorder, for a description that begins at bit `a`. -/
def CodeShape.starts : CodeShape → (a : Nat) → List Nat
  | .leaf _, a => [a]
  | .node l r, a => a :: (l.starts (a + 1) ++ r.starts (a + 1 + l.width))

/-- The nodes BuildNode begins on the first `n` bits of a description: a node is allocated before its first bit
is read (42_huffman R194), so also the one that begins where the bits end. -/
def CodeShape.begun (shape : CodeShape) (n : Nat) : Nat := ((shape.starts 0).filter fun a => a ≤ n).length

/-- The bits end inside a description, of which they need at most 1023 nodes. -/
def CodeShape.cutOff (shape : CodeShape) (order : BitOrder) (bits : List Bool) : Prop :=
  bits <+: shape.bits order ∧ bits ≠ shape.bits order ∧ shape.begun bits.length ≤ 1023

/-- The bits, whether or not they hold the whole description, begin its 1024th node (42_huffman R192). -/
def CodeShape.tooLarge (shape : CodeShape) (order : BitOrder) (bits : List Bool) : Prop :=
  (bits <+: shape.bits order ∨ shape.bits order <+: bits) ∧ 1023 < shape.begun bits.length

/-- The bits in front of the 1024th node of a description. -/
def CodeShape.bitsBeforeLast (shape : CodeShape) : Nat := (shape.starts 0).getD 1023 0

/-- The symbol a path leads to. -/
def CodeShape.symbolAt : CodeShape → List Bool → Option Byte
  | .leaf sym, [] => some sym
  | .leaf _, _ :: _ => none
  | .node _ _, [] => none
  | .node l r, b :: bs => if b then r.symbolAt bs else l.symbolAt bs

/-- The tree stands in NODE from index `i` on, in preorder: the left child at the next index, the right child
behind the whole left subtree (42_huffman R194). -/
def CodeTree.holds (t : CodeTree) : CodeShape → Nat → Prop
  | .leaf sym, i => ∃ h : i < 1023, (t.nodeAt ⟨i, h⟩).leaf = true ∧ (t.nodeAt ⟨i, h⟩).sym = sym.setWidth 9
  | .node l r, i =>
    (∃ h : i < 1023,
      (t.nodeAt ⟨i, h⟩).leaf = false
        ∧ (t.nodeAt ⟨i, h⟩).left.map Fin.val = some (i + 1)
        ∧ (t.nodeAt ⟨i, h⟩).right.map Fin.val = some (i + 1 + l.size))
      ∧ t.holds l (i + 1) ∧ t.holds r (i + 1 + l.size)

/-- The symbol a path from node `n` ends on; `none` if it ends on no leaf, runs through one, or reaches a
missing child (42_huffman R202, R203). -/
def CodeTree.symbolAt (t : CodeTree) : Fin 1023 → List Bool → Option (BitVec 9)
  | n, [] => if (t.nodeAt n).leaf then some (t.nodeAt n).sym else none
  | n, b :: bs =>
    if (t.nodeAt n).leaf then none
    else
      match (if b then (t.nodeAt n).right else (t.nodeAt n).left) with
      | none => none
      | some c => t.symbolAt c bs

/-- The internal node a path from node `n` leads to (42_huffman R202). -/
def CodeTree.innerAt (t : CodeTree) : Fin 1023 → List Bool → Option (Fin 1023)
  | n, [] => if (t.nodeAt n).leaf then none else some n
  | n, b :: bs =>
    if (t.nodeAt n).leaf then none
    else
      match (if b then (t.nodeAt n).right else (t.nodeAt n).left) with
      | none => none
      | some c => t.innerAt c bs

/-- HUFDEC would run: it is accepted and every start-up check of 42_huffman R204 passes. -/
def State.hufReady (s : State) : Prop :=
  s.status.err = false ∧ s.br.valid = true ∧ s.tree.valid = true
    ∧ (s.regs.hufCfg.rebuildEn = true → s.tree.kind = .canonical →
        (1 ≤ s.regs.hufCfg.lenBits.toNat ∧ s.regs.hufCfg.lenBits.toNat ≤ 5)
          ∧ (1 ≤ s.regs.hufCfg.nsym.toNat ∧ s.regs.hufCfg.nsym.toNat ≤ 512))
    ∧ s.regs.outAddr.toNat + s.regs.outCap.toNat ≤ s.memBytes
    ∧ ¬rangesMeet s.br.pos.toNat (s.br.endAddr.toNat - s.br.pos.toNat) s.regs.outAddr.toNat s.regs.outCap.toNat

/-- A coded message: for each output byte the path that leads to its leaf, none of them the enabled rebuild
signal. -/
def State.codes (s : State) (t : CodeTree) (msg : List (List Bool × Byte)) : Prop :=
  ∀ p ∈ msg, t.symbolAt 0 p.1 = some (p.2.setWidth 9)
    ∧ ¬(s.regs.hufCfg.rebuildEn = true ∧ p.2.setWidth 9 = s.regs.hufRsym)

/-! ### Canonical codes (42_huffman R196) -/

/-- The symbols that have a code, by increasing length and, within one length, by increasing symbol, each with
its length. -/
def canonOrder (lengths : List Nat) : List (Nat × Nat) :=
  (List.range' 1 31).flatMap fun len =>
    (List.range lengths.length).filterMap fun sym =>
      if lengths.getD sym 0 = len then some (sym, len) else none

/-- Codes in that order, as (symbol, length, code): each next code is the previous plus one, shifted left when
the length grows. `next` is the previous code plus one, `len` its length. -/
def assignCodes : (next len : Nat) → List (Nat × Nat) → List (Nat × Nat × Nat)
  | _, _, [] => []
  | next, len, (sym, l) :: rest =>
    let code := next <<< (l - len)
    (sym, l, code) :: assignCodes (code + 1) l rest

/-- The canonical code of a list of lengths. -/
def canonCodes (lengths : List Nat) : List (Nat × Nat × Nat) := assignCodes 0 0 (canonOrder lengths)

/-- The path of a code: most significant bit first. -/
def codePath (len code : Nat) : List Bool := fieldBits .msbFirst len code

/-- The distinct beginnings of all codes, the root's empty one included: one node each. -/
def codePrefixes (codes : List (Nat × Nat × Nat)) : List (List Bool) :=
  ([] :: codes.flatMap fun c => (codePath c.2.1 c.2.2).inits).dedup

/-! ### AES encryption, for reference (45_cbc R269) -/

/-- SubBytes. -/
def subBytes (s : Block) : Block := s.map aesSbox

/-- ShiftRows: row r rotated left by r columns. -/
def shiftRows (s : Block) : Block :=
  Vector.ofFn fun i : Fin 16 => s[i.val % 4 + 4 * ((i.val / 4 + i.val % 4) % 4)]'(by omega)

/-- One column of MixColumns: rows 2 3 1 1 / 1 2 3 1 / 1 1 2 3 / 3 1 1 2. -/
def mixColumn (a0 a1 a2 a3 : Byte) : KeyWord :=
  #v[xtime a0 ^^^ (xtime a1 ^^^ a1) ^^^ a2 ^^^ a3,
     a0 ^^^ xtime a1 ^^^ (xtime a2 ^^^ a2) ^^^ a3,
     a0 ^^^ a1 ^^^ xtime a2 ^^^ (xtime a3 ^^^ a3),
     (xtime a0 ^^^ a0) ^^^ a1 ^^^ a2 ^^^ xtime a3]

/-- MixColumns. -/
def mixColumns (s : Block) : Block :=
  mixColumn s[0] s[1] s[2] s[3] ++ mixColumn s[4] s[5] s[6] s[7]
    ++ mixColumn s[8] s[9] s[10] s[11] ++ mixColumn s[12] s[13] s[14] s[15]

/-- Rounds `round` to `round + count - 1`, each with MixColumns. -/
def encRounds (w : List KeyWord) : (count round : Nat) → Block → Block
  | 0, _, s => s
  | count + 1, round, s =>
    encRounds w count (round + 1) (addRoundKey w round (mixColumns (shiftRows (subBytes s))))

/-- The forward cipher. -/
def aesEncryptBlock (key : List Byte) (p : Block) : Block :=
  let w := keyExpansion key
  let nr := keyNr key
  addRoundKey w nr (shiftRows (subBytes (encRounds w (nr - 1) 1 (addRoundKey w 0 p))))

end Sys2Proof.Machine
end

