-- ==== Sys2Proof/Certificates/Slice0/Obligations.lean ====
section
/-! DEFINITION. The statements for the provers, from the numbered rules of spec/. -/

open Sys2Proof Sys2Proof.Machine

/-! ### Command words -/

/-- Every well-formed command, with every operand the encoding admits, is read back from its word (30_encoding
R110 to R116). -/
def Obligations.DecodeOfEncode : Prop :=
  ∀ i : Instr, i.wf = true → decode (encode i) = .ok i

/-- A word that decodes is the one word of a well-formed command: no bit of a word is dropped (30_encoding R111 to
R116). -/
def Obligations.EncodeOfDecode : Prop :=
  ∀ (w : Word) (i : Instr), decode w = .ok i → i.wf = true ∧ encode i = w

/-- 30_encoding R117: unassigned opcodes of the cipher group are UnknownScheme; every other unassigned opcode, a
non-zero ZERO field and an illegal N are IllegalCommand; NOP alone is a no-op; and a word refused this way, when
accepted, records itself in ERRINFO and changes nothing but STATUS. -/
def Obligations.ReservedEncodings : Prop :=
  ∀ w : Word,
    let opc := w.toNat / 2 ^ 24
    let arg := w.toNat % 2 ^ 24
    (opc ∈ [0x32, 0x33, 0x3A, 0x3B, 0x3D, 0x3E, 0x3F] → decode w = .error .unknownScheme)
    ∧ ((0x03 ≤ opc ∧ opc ≤ 0x0F) ∨ (0x13 ≤ opc ∧ opc ≤ 0x1F) ∨ (0x21 ≤ opc ∧ opc ≤ 0x27)
        ∨ (0x2B ≤ opc ∧ opc ≤ 0x2F) ∨ 0x40 ≤ opc → decode w = .error .illegalCommand)
    ∧ (opc ∈ [0x00, 0x01, 0x02, 0x10, 0x12, 0x20, 0x28, 0x29, 0x2A, 0x30, 0x31, 0x34, 0x35, 0x36, 0x37, 0x38, 0x39] →
        arg ≠ 0 → decode w = .error .illegalCommand)
    ∧ (opc = 0x11 → arg = 0 ∨ 32 < arg → decode w = .error .illegalCommand)
    ∧ (opc = 0x3C → 2 ≤ arg → decode w = .error .illegalCommand)
    ∧ (decode w = .ok .nop ↔ w = 0)
    ∧ ∀ s : State, s.status.err = false →
        (decode w = .error .unknownScheme → commandWrite w s = .next (s.refused .unknownScheme w.toNat))
        ∧ (decode w = .error .illegalCommand → commandWrite w s = .next (s.refused .illegalCommand w.toNat))

/-- One word of each family, written out from 30_encoding R115 and R118, decodes to its command. -/
def Obligations.SampleWordsDecode : Prop :=
  decode 0x00000000 = .ok .nop ∧ decode 0x02000000 = .ok .sreset ∧ decode 0x10000000 = .ok .brinit
    ∧ decode 0x11000020 = .ok (.getbits 32) ∧ decode 0x12000000 = .ok .getbit ∧ decode 0x20000000 = .ok .lzdec
    ∧ decode 0x29000000 = .ok .hufcanon ∧ decode 0x31000000 = .ok .xorprng ∧ decode 0x39000000 = .ok .substore
    ∧ decode 0x3C000000 = .ok (.cbcdec false) ∧ decode 0x3C000001 = .ok (.cbcdec true)

/-! ### The machine's step -/

/-- When the host's next action writes a word to CMD, the step runs the command the word encodes, or raises its
decode error (ignored in the error state); the action is taken off the host's list. That a step without a host
action leaves the state alone is the model's choice (log 6). -/
def Obligations.StepRunsDecodedCommand : Prop :=
  (∀ (s : State) (w : Word) (rest : List HostAction), s.host = .writeReg 0 w :: rest →
    (∀ i, decode w = .ok i → step s = exec i { s with host := rest })
    ∧ (∀ e, decode w = .error e → s.status.err = false →
        step s = .next (({ s with host := rest } : State).refused (errorOfDecode e) w.toNat))
    ∧ (∀ e, decode w = .error e → s.status.err = true → step s = .next { s with host := rest }))
  ∧ ∀ s : State, s.host = [] → step s = .next s

/-- 60_exceptions R307: with ERR = 1 every word but the exact CLRERR and SRESET is ignored and no state changes at
all; every other write is accepted, decoded and executed, and ends with exactly one of DONE and ERR set; and in
the error state the host's register and MEM accesses stay possible. That the value a host read returns is kept in
`lastRead` is the model's choice (log 8). -/
def Obligations.CommandAcceptance : Prop :=
  ∀ (s : State) (w : Word),
    (s.status.err = true → w ≠ 0x01000000 → w ≠ 0x02000000 → commandWrite w s = .next s)
    ∧ (s.status.err = false ∨ w = 0x01000000 ∨ w = 0x02000000 →
        (∀ i, decode w = .ok i → commandWrite w s = exec i s)
        ∧ (∀ e, decode w = .error e → commandWrite w s = .next (s.refused (errorOfDecode e) w.toNat))
        ∧ ∃ t, commandWrite w s = .next t
          ∧ ((t.status.done = true ∧ t.status.err = false) ∨ (t.status.done = false ∧ t.status.err = true)))
    ∧ (∀ (r : Reg) (v : Word), r ≠ .cmd →
        hostAct (.writeReg r.index v) s = .next (writeReg r v s)
        ∧ hostAct (.readReg r.index) s = .next { s with lastRead := some (readReg r s) })
    ∧ (∀ (a : Word) (b : Byte), a.toNat < s.memBytes →
        hostAct (.writeMem a b) s = .next { s with mem := s.mem.write a.toNat b }
        ∧ hostAct (.readMem a) s = .next { s with lastRead := some ((s.mem.read a.toNat).setWidth 32) })

/-- After `withFetchWord` the very next step runs the command of the word, on the state as it was. The form of
the fetch is the model's (log 5). -/
def Obligations.FetchWordRunsNext : Prop :=
  ∀ (s : State) (nbits w : Nat) (i : Instr),
    decodeTableWord nbits w = some i → step (s.withFetchWord nbits w) = exec i s

/-- 20_memory R82: a host write of a byte of MEM sets that byte and nothing else, a host read returns the byte
and changes nothing of the block. That the value read is kept in `lastRead` is the model's choice (log 8), and so
is the refusal outside MEM (log 7). -/
def Obligations.HostMemoryPort : Prop :=
  ∀ (s : State) (a : Word) (b : Byte) (rest : List HostAction),
    (s.host = .writeMem a b :: rest → a.toNat < s.memBytes →
      ∃ t, step s = .next t ∧ t = { s with host := rest, mem := t.mem } ∧ t.mem.read a.toNat = b
        ∧ ∀ c, c ≠ a.toNat → t.mem.read c = s.mem.read c)
    ∧ (s.host = .readMem a :: rest → a.toNat < s.memBytes →
        step s = .next { s with host := rest, lastRead := some ((s.mem.read a.toNat).setWidth 32) })
    ∧ (s.memBytes ≤ a.toNat →
        (s.host = .writeMem a b :: rest → step s = .refused (.hostAccessOutsideMem a))
        ∧ (s.host = .readMem a :: rest → step s = .refused (.hostAccessOutsideMem a)))

/-- 10_state R24: an RW register stores the written value but for its reserved bits, which read 0, and no other
register or array changes; an R register ignores writes; CMD reads 0; a reserved offset ignores writes and reads
0; a read changes no state of the block. That the value read is kept in `lastRead` is the model's choice (log 8). -/
def Obligations.RegisterPort : Prop :=
  ∀ s : State,
    (∀ (r : Reg) (bits v : Word), r.storedBits = some bits →
      ∃ t, portWrite r.index v s = .next t
        ∧ portRead r.index t = v &&& bits
        ∧ (∀ q : Reg, q ≠ r → portRead q.index t = portRead q.index s)
        ∧ t = { s with regs := t.regs, prngState := t.prngState })
    ∧ (∀ (r : Reg) (v : Word), r.storedBits = none → r ≠ .cmd → portWrite r.index v s = .next s)
    ∧ portRead Reg.cmd.index s = 0
    ∧ (∀ (index : BitVec 6) (v : Word), (∀ r : Reg, r.index ≠ index) →
        portWrite index v s = .next s ∧ portRead index s = 0)
    ∧ (∀ (index : BitVec 6) (rest : List HostAction), s.host = .readReg index :: rest →
        step s = .next { s with host := rest, lastRead := some (portRead index s) })

/-- After hardware reset every control register reads 0 and MEM, WIN, NODE and SBOX are whatever the free values
of the configuration are (10_state R59; 70_reset R341; the form of the free values is log 3 and log 4); MEM_BYTES
is from 1 to 2^31 (00_scope R8). -/
def Obligations.ResetState : Prop :=
  (∀ r : Reg, portRead r.index State.reset = 0)
    ∧ (∀ a, State.reset.mem.read a = Config.unspecifiedMem 0 a)
    ∧ (∀ i, State.reset.win.read i = Config.unspecifiedWin 0 i)
    ∧ (∀ i : Fin 1023, State.reset.tree.nodeAt i = Node.unspecified 0 i)
    ∧ (∀ i : Fin 256, State.reset.sbox[i] = Config.unspecifiedSbox 0 i)
    ∧ 1 ≤ State.reset.memBytes ∧ State.reset.memBytes ≤ 2 ^ 31

/-- The host's hardware reset: every control register reads 0, and every byte of MEM and every entry of WIN, NODE
and SBOX reads as the free value of its index under the number of this reset (70_reset R340, R341). The form of
the free values, opaque constants applied to the reset's number and the index, is the model's choice (log 3 and
log 4), as are the reset as an action of the host and what it keeps of the model's own fields (log 11). -/
def Obligations.HardwareResetAction : Prop :=
  ∀ (s : State) (rest : List HostAction), s.host = .hardwareReset :: rest →
    ∃ t, step s = .next t
      ∧ (∀ r : Reg, portRead r.index t = 0)
      ∧ (∀ a, t.mem.read a = Config.unspecifiedMem s.epoch a)
      ∧ (∀ i, t.win.read i = Config.unspecifiedWin s.epoch i)
      ∧ (∀ i : Fin 1023, t.tree.nodeAt i = Node.unspecified s.epoch i)
      ∧ (∀ i : Fin 256, t.sbox[i] = Config.unspecifiedSbox s.epoch i)
      ∧ t.host = rest ∧ t.memBytes = s.memBytes ∧ t.lastRead = s.lastRead ∧ t.epoch = s.epoch + 1

/-! ### System commands -/

/-- 46_system R290: NOP sets DONE and changes nothing else; it is ignored with ERR = 1; only the word 0 is NOP, and
a non-zero ARG is IllegalCommand. -/
def Obligations.NopRule : Prop :=
  ∀ s : State,
    (s.status.err = false → exec .nop s = .next { s with status := { s.status with done := true } })
    ∧ (s.status.err = true → exec .nop s = .next s)
    ∧ commandWrite 0x00000000 s = exec .nop s
    ∧ ∀ w : Word, w.toNat / 2 ^ 24 = 0x00 → w ≠ 0 → s.status.err = false →
        commandWrite w s = .next (s.refused .illegalCommand w.toNat)

/-- 46_system R291: CLRERR clears ERR, ERRCODE and ERRINFO, sets DONE and restores nothing, in every state; with
ERR = 0 it has the effect of NOP on STATUS; a word of its opcode with a non-zero ARG is ignored with ERR = 1 and
IllegalCommand otherwise. -/
def Obligations.ClrerrRule : Prop :=
  ∀ s : State,
    exec .clrerr s =
      .next { s with status := { done := true, err := false, term := s.status.term, errCode := 0 }, errInfo := 0 }
    ∧ commandWrite 0x01000000 s = exec .clrerr s
    ∧ (s.status.err = false → s.status.errCode = 0 → s.errInfo = 0 → exec .clrerr s = exec .nop s)
    ∧ ∀ w : Word, w.toNat / 2 ^ 24 = 0x01 → w ≠ 0x01000000 →
        commandWrite w s =
          if s.status.err then .next s else .next (s.refused .illegalCommand w.toNat)

/-- 46_system R292: SRESET makes every control register 0 but STATUS, which reads 1, in every state; WIN, NODE and
SBOX take fresh free values and MEM is kept; a word of its opcode with a non-zero ARG is ignored with ERR = 1 and
IllegalCommand otherwise. The form of the free values (constants of Config applied to the epoch, which SRESET
advances) and that `host` and `lastRead` are kept are the model's choice, log 4. -/
def Obligations.SresetRule : Prop :=
  ∀ s : State,
    (∃ t, exec .sreset s = .next t
      ∧ portRead Reg.status.index t = 1
      ∧ (∀ r : Reg, r ≠ .status → portRead r.index t = 0)
      ∧ t.mem = s.mem
      ∧ (∀ i, t.win.read i = Config.unspecifiedWin s.epoch i)
      ∧ (∀ i : Fin 1023, t.tree.nodeAt i = Node.unspecified s.epoch i)
      ∧ (∀ i : Fin 256, t.sbox[i] = Config.unspecifiedSbox s.epoch i)
      ∧ t.memBytes = s.memBytes ∧ t.host = s.host ∧ t.lastRead = s.lastRead ∧ t.epoch = s.epoch + 1)
    ∧ commandWrite 0x02000000 s = exec .sreset s
    ∧ ∀ w : Word, w.toNat / 2 ^ 24 = 0x02 → w ≠ 0x02000000 →
        commandWrite w s =
          if s.status.err then .next s else .next (s.refused .illegalCommand w.toNat)

/-! ### Errors and frames of all commands -/

/-- An error a command raises is one that 60_exceptions R302 lists for it, with the code of R300, the ERRINFO of
R301, and the STATUS word `code << 8 | 2`, plus bit 2 if TERM was 1 and the command was not LZDEC. For AccessFault
ERRINFO is max(addr, MEM_BYTES) for the start of the first of the command's ranges that is not inside MEM; for
UnexpectedEndOfStream it is BR_POS, less than one unit before BR_END. -/
def Obligations.ErrorsAreThoseListed : Prop :=
  ∀ (i : Instr) (s t : State), i.wf = true → s.memBytes ≤ 2 ^ 31 → s.readerOk →
    s.status.err = false → exec i s = .next t → t.status.err = true →
      ∃ (e : ErrorName) (info : Option Nat), (e, info) ∈ listedErrors i
        ∧ (portRead Reg.status.index t).toNat =
            2 ^ 8 * e.code.toNat + 2 + (if t.status.term then 4 else 0)
        ∧ t.status.term = (if i = .lzdec then false else s.status.term)
        ∧ (∀ v, info = some v → t.errInfo.toNat = v)
        ∧ (e = .unexpectedEndOfStream →
            t.errInfo = t.br.pos ∧ t.br.endAddr.toNat < t.errInfo.toNat + t.br.refill.bytes
              ∧ t.errInfo.toNat ≤ t.br.endAddr.toNat)
        ∧ (e = .accessFault →
            ∃ r, (checkedRanges i s).find? (fun r => decide (s.memBytes < r.addr + r.len)) = some r
              ∧ t.errInfo.toNat = max r.addr s.memBytes)

/-- A command changes only the pieces of state that 10_state R60 lists for it, beside STATUS.DONE, ERR, ERRCODE
and ERRINFO; HUFDEC changes the tree only where rebuilds are enabled; a command that raises leaves RESULT
(10_state R28); SRESET alone changes the model's counter of free contents. -/
def Obligations.CommandTouchesOnlyItsState : Prop :=
  ∀ (i : Instr) (s t : State), exec i s = .next t →
    (∀ p : Piece, p ∉ writtenPieces i → p.same s t)
    ∧ (t.status.err = true → t.result = s.result)
    ∧ (i = .hufdec → s.regs.hufCfg.rebuildEn = false → t.tree = s.tree)
    ∧ (i ≠ .sreset → t.epoch = s.epoch)
    ∧ t.memBytes = s.memBytes ∧ t.host = s.host ∧ t.lastRead = s.lastRead

/-- No command changes a byte of MEM outside the range 10_state R60 lets it write; a command without such a
range changes no byte (41_lz R175 for LZDEC). -/
def Obligations.MemoryFrame : Prop :=
  ∀ (i : Instr) (s t : State), exec i s = .next t →
    ∀ a, (∀ r, writtenRange i s = some r → a < r.addr ∨ r.addr + r.len ≤ a) → t.mem.read a = s.mem.read a

/-! ### Bit reader -/

/-- 40_bitreader R147: BRINIT refuses the reserved refill code, then a source outside MEM, and changes nothing
then; else it latches BR_CFG and the source, empties the accumulator and touches nothing else. -/
def Obligations.BrinitRule : Prop :=
  decode 0x10000000 = .ok .brinit ∧ ∀ s : State, s.status.err = false → s.memBytes ≤ 2 ^ 31 →
    if s.regs.brCfg.refill = 3 then exec .brinit s = .next (s.refused .badConfig 0x40)
    else if s.memBytes < s.regs.srcAddr.toNat + s.regs.srcLen.toNat then
      exec .brinit s = .next (s.refused .accessFault (max s.regs.srcAddr.toNat s.memBytes))
    else
      ∃ t, exec .brinit s = .next t
        ∧ t = { s with status := s.doneStatus, br := t.br }
        ∧ t.br.valid = true
        ∧ t.br.order = s.regs.brCfg.order ∧ t.br.refill.code = s.regs.brCfg.refill
        ∧ t.br.bigEndian = s.regs.brCfg.bigEndian
        ∧ t.br.cnt = 0 ∧ t.br.acc = 0 ∧ t.br.pos = s.regs.srcAddr
        ∧ t.br.endAddr.toNat = s.regs.srcAddr.toNat + s.regs.srcLen.toNat

/-- 40_bitreader R148 with the stream of bits of 30_encoding R119: GETBITS refuses an illegal N or ZERO field, then a
missing reader; reads the next N bits as one field into RESULT, fetching no more units than it needs; and with too few
bits left raises UnexpectedEndOfStream with the reader empty behind the last whole unit and RESULT kept. -/
def Obligations.GetbitsRule : Prop :=
  (∀ (s : State) (n : BitVec 6), s.status.err = false → s.memBytes ≤ 2 ^ 31 → s.readerOk →
    let k := n.toNat
    let w := s.br.refill.bytes
    if k = 0 ∨ 32 < k then exec (.getbits n) s = .next (s.refused .illegalCommand (0x11000000 + k))
    else if s.br.valid = false then exec (.getbits n) s = .next (s.refused .notReady 0x44)
    else if k ≤ s.stream.length then
      ∃ t, exec (.getbits n) s = .next t
        ∧ t = { s with status := s.doneStatus, result := t.result, br := t.br }
        ∧ t.result.toNat = fieldValue s.br.order (s.stream.take k)
        ∧ t.stream = s.stream.drop k
        ∧ s.br.sameSource t.br
        ∧ t.br.pos.toNat = s.br.pos.toNat + w * ((k - s.br.cnt.toNat + (8 * w - 1)) / (8 * w))
        ∧ t.br.cnt.toNat + k = s.br.cnt.toNat + 8 * (t.br.pos.toNat - s.br.pos.toNat)
        ∧ t.readerOk
    else
      exec (.getbits n) s =
        .next { s with
          status := s.errStatus .unexpectedEndOfStream
          errInfo := s.br.atEnd.pos
          br := s.br.atEnd })
  ∧ ∀ (s : State) (w : Word), s.status.err = false → w.toNat / 2 ^ 24 = 0x11 → 64 ≤ w.toNat % 2 ^ 24 →
      commandWrite w s = .next (s.refused .illegalCommand w.toNat)

/-- 40_bitreader R149: GETBIT is GETBITS with N = 1 in every state, its word is exact, and without a reader it is
refused; with a reader that has a bit left it completes
and RESULT is that bit. -/
def Obligations.GetbitRule : Prop :=
  ∀ s : State,
    exec .getbit s = exec (.getbits 1) s
    ∧ commandWrite 0x12000000 s = exec .getbit s
    ∧ (s.status.err = false → ∀ w : Word, w.toNat / 2 ^ 24 = 0x12 → w ≠ 0x12000000 →
        commandWrite w s = .next (s.refused .illegalCommand w.toNat))
    ∧ (s.status.err = false → s.br.valid = false → exec .getbit s = .next (s.refused .notReady 0x44))
    ∧ (s.status.err = false → s.memBytes ≤ 2 ^ 31 → s.readerOk → s.br.valid = true →
        ∀ (b : Bool) (rest : List Bool), s.stream = b :: rest →
          ∃ t, exec .getbit s = .next t
            ∧ t = { s with status := s.doneStatus, result := t.result, br := t.br }
            ∧ t.result.toNat = b.toNat ∧ t.stream = rest)

/-- Reading `a` bits and then `b` bits leaves the reader of one read of `a + b`, and the fields join by the bit
order (40_bitreader R151). -/
def Obligations.SplitReads : Prop :=
  ∀ (s : State) (a b : BitVec 6), 1 ≤ a.toNat → 1 ≤ b.toNat → a.toNat + b.toNat ≤ 32 →
    s.status.err = false → s.memBytes ≤ 2 ^ 31 → s.readerOk → s.br.valid = true →
    a.toNat + b.toNat ≤ s.stream.length →
      ∃ t u v, exec (.getbits a) s = .next t ∧ exec (.getbits b) t = .next u ∧ exec (.getbits (a + b)) s = .next v
        ∧ u.br = v.br
        ∧ v.result =
            match s.br.order with
            | .msbFirst => (t.result <<< b.toNat) ||| u.result
            | .lsbFirst => t.result ||| (u.result <<< a.toNat)

/-- A host write below BR_POS changes no bit still to be delivered and no read. A write at or above BR_POS takes
effect, for every width, byte order and bit order: the 8 bits of that byte, at their place behind the accumulator
and the units before, become the bits of the written value, and every GETBITS that the stream can serve delivers
them; all other bits are as before. A write behind the last whole unit changes none (70_reset R346; 20_memory
R97; 40_bitreader R152). -/
def Obligations.ReadAhead : Prop :=
  ∀ (s : State) (a : Nat) (b : Byte), s.memBytes ≤ 2 ^ 31 → s.readerOk → s.br.valid = true →
    s.status.err = false →
    let u : State := { s with mem := s.mem.write a b }
    let unread := s.br.pos.toNat + s.br.refill.bytes * s.br.unitsLeft
    let ahead := s.br.bitsBefore a
    let bits := s.stream.take ahead ++ fieldBits s.br.order 8 b.toNat ++ s.stream.drop (ahead + 8)
    (a < s.br.pos.toNat →
      u.stream = s.stream
      ∧ ∀ (n : BitVec 6) (t : State), exec (.getbits n) s = .next t →
          exec (.getbits n) u = .next { t with mem := u.mem })
    ∧ (s.br.pos.toNat ≤ a → a < unread →
        ahead + 8 ≤ s.stream.length ∧ u.stream = bits
        ∧ ∀ n : BitVec 6, 1 ≤ n.toNat → n.toNat ≤ 32 → n.toNat ≤ s.stream.length →
            ∃ t, exec (.getbits n) u = .next t
              ∧ t.status = s.doneStatus ∧ t.result.toNat = fieldValue s.br.order (bits.take n.toNat)
              ∧ t.stream = bits.drop n.toNat)
    ∧ (unread ≤ a → u.stream = s.stream)

/-- The bits BRINIT puts before the host, for a source of whole units: the bytes in address order for W = 1 and for
the combinations MSB-first with big-endian and LSB-first with little-endian units; with the bytes of each unit
reversed for the other two (40_bitreader R152; 30_encoding R119). -/
def Obligations.WidthIndependence : Prop :=
  ∀ (s : State) (unit : RefillUnit), s.status.err = false → s.memBytes ≤ 2 ^ 31 →
    s.regs.brCfg.refill = unit.code → s.regs.srcAddr.toNat + s.regs.srcLen.toNat ≤ s.memBytes →
    s.regs.srcLen.toNat % unit.bytes = 0 →
      ∃ t, exec .brinit s = .next t
        ∧ t.stream =
            if unit = .bits8 ∨ (s.regs.brCfg.order = .msbFirst ↔ s.regs.brCfg.bigEndian = true) then
              (List.range s.regs.srcLen.toNat).flatMap fun j =>
                fieldBits s.regs.brCfg.order 8 (s.mem.read (s.regs.srcAddr.toNat + j)).toNat
            else
              (List.range (s.regs.srcLen.toNat / unit.bytes)).flatMap fun j =>
                (List.range unit.bytes).flatMap fun k =>
                  fieldBits s.regs.brCfg.order 8
                    (s.mem.read (s.regs.srcAddr.toNat + unit.bytes * j + (unit.bytes - 1 - k))).toNat

/-- After UnexpectedEndOfStream from a read and CLRERR the reader is still at the end: every further read raises
the same error again, with the same ERRINFO, and BR_VALID stays 1 (40_bitreader R150). -/
def Obligations.EndOfStreamStays : Prop :=
  ∀ (s : State) (n m : BitVec 6), 1 ≤ n.toNat → n.toNat ≤ 32 → 1 ≤ m.toNat → m.toNat ≤ 32 →
    s.status.err = false → s.memBytes ≤ 2 ^ 31 → s.readerOk → s.br.valid = true → s.stream.length < n.toNat →
      ∃ t u v, exec (.getbits n) s = .next t ∧ exec .clrerr t = .next u ∧ exec (.getbits m) u = .next v
        ∧ t.status.err = true ∧ t.status.errCode = 1 ∧ t.errInfo = t.br.pos
        ∧ t.br.cnt = 0 ∧ t.br.acc = 0 ∧ t.br.valid = true ∧ t.result = s.result
        ∧ v.status = t.status ∧ v.errInfo = t.errInfo ∧ v.br = t.br ∧ v.result = s.result

/-! ### LZDEC -/

/-- The start-up errors of LZDEC in their order (41_lz R163; 60_exceptions R302, R304): TERM is cleared and
nothing else changes; when none applies, the only error there can be is UnexpectedEndOfStream (41_lz R173). -/
def Obligations.LzdecRefusals : Prop :=
  ∀ s : State, s.status.err = false →
    let u : State := { s with status := { s.status with term := false } }
    let c := s.regs.lzCfg
    if s.br.valid = false then exec .lzdec s = .next (u.refused .notReady 0x44)
    else if c.wlog2.toNat < 1 ∨ 16 < c.wlog2.toNat ∨ c.offBits.toNat < 1 ∨ 16 < c.offBits.toNat
        ∨ c.lenBits.toNat < 1 ∨ 16 < c.lenBits.toNat then
      exec .lzdec s = .next (u.refused .badConfig 0x60)
    else if 2 ^ c.wlog2.toNat ≤ s.regs.lzInitPos.toNat then exec .lzdec s = .next (u.refused .badConfig 0x64)
    else if s.memBytes < s.regs.outAddr.toNat + s.regs.outCap.toNat then
      exec .lzdec s = .next (u.refused .accessFault (max s.regs.outAddr.toNat s.memBytes))
    else if rangesMeet s.br.pos.toNat (s.br.endAddr.toNat - s.br.pos.toNat) s.regs.outAddr.toNat s.regs.outCap.toNat then
      exec .lzdec s = .next (u.refused .badConfig 0x18)
    else
      ∃ t, exec .lzdec s = .next t
        ∧ ((t.status.done = true ∧ t.status.err = false) ∨ (t.status.done = false ∧ t.status.err = true ∧ t.status.errCode = 1))

/-- What an LZDEC that passes its checks leaves (41_lz R164, R165, R171, R174; 10_state R32, R47, R48): it ended at
OUT_CAP, at an end marker, or out of input; OUT_LEN counts the bytes in MEM, the cursor stands behind them modulo
W, WIN holds the last W of them and FILL elsewhere, positions from W on are kept, and nothing else has changed. -/
def Obligations.LzdecOutcome : Prop :=
  ∀ s : State, s.lzReady → s.memBytes ≤ 2 ^ 31 → s.readerOk →
    ∃ t, exec .lzdec s = .next t
      ∧ t = { s with status := t.status, errInfo := t.errInfo, outLen := t.outLen, lzWPos := t.lzWPos, win := t.win,
                     br := t.br, mem := t.mem }
      ∧ ((t.status = { s.status with done := true, term := false } ∧ t.errInfo = s.errInfo ∧ t.outLen = s.regs.outCap)
          ∨ (t.status = { s.status with done := true, term := true } ∧ t.errInfo = s.errInfo
              ∧ t.outLen.toNat < s.regs.outCap.toNat)
          ∨ (t.status = { done := false, err := true, term := false, errCode := 1 } ∧ t.errInfo = t.br.pos
              ∧ t.outLen.toNat < s.regs.outCap.toNat))
      ∧ s.br.sameSource t.br ∧ s.br.pos.toNat ≤ t.br.pos.toNat ∧ t.readerOk
      ∧ (∀ a, a < s.regs.outAddr.toNat ∨ s.regs.outAddr.toNat + t.outLen.toNat ≤ a → t.mem.read a = s.mem.read a)
      ∧ t.lzWPos.toNat = (s.regs.lzInitPos.toNat + t.outLen.toNat) % s.regs.lzCfg.windowSize
      ∧ (∀ k, k < t.outLen.toNat → t.outLen.toNat ≤ k + s.regs.lzCfg.windowSize →
          t.win.read ((s.regs.lzInitPos.toNat + k) % s.regs.lzCfg.windowSize) = t.mem.read (s.regs.outAddr.toNat + k))
      ∧ (∀ i, i < s.regs.lzCfg.windowSize →
          (∀ k, k < t.outLen.toNat → (s.regs.lzInitPos.toNat + k) % s.regs.lzCfg.windowSize ≠ i) →
          t.win.read i = s.regs.lzFill)
      ∧ (∀ i, s.regs.lzCfg.windowSize ≤ i → t.win.read i = s.win.read i)

/-- Shared mode, output length reached: a stream that starts with tokens whose expansion reaches OUT_CAP with the
last of them leaves exactly the first OUT_CAP bytes of that expansion, TERM 0, and the reader behind the last
token (30_encoding R120; 41_lz R166, R167, R170, R171, R172). -/
def Obligations.LzdecExpandsTokens : Prop :=
  ∀ (s : State) (toks : List LzToken) (rest : List Bool),
    s.lzReady → s.memBytes ≤ 2 ^ 31 → s.readerOk → s.regs.lzCfg.mode = false →
    (∀ tok ∈ toks, tok.plain s.regs) →
    s.stream = toks.flatMap (LzToken.bits s.br.order s.regs.lzCfg) ++ rest →
    (toks = [] ∨ (expandTokens s.regs toks.dropLast).length < s.regs.outCap.toNat) →
    s.regs.outCap.toNat ≤ (expandTokens s.regs toks).length →
      ∃ t, exec .lzdec s = .next t
        ∧ t.status = { s.status with done := true, term := false }
        ∧ t.outLen = s.regs.outCap
        ∧ s.wrote t ((expandTokens s.regs toks).take s.regs.outCap.toNat)
        ∧ t.stream = rest

/-- Shared mode, end marker: after tokens that do not fill the output, an offset field 0 with END_OFF0 = 1 ends the
stream without its length field being read, and a length field equal to LZ_ENDLEN with END_LEN = 1 ends it after
that field; both with TERM 1 and the shorter output (41_lz R163, R167, R171, R173). -/
def Obligations.LzdecStopsAtMarker : Prop :=
  ∀ (s : State) (toks : List LzToken) (marker rest : List Bool),
    s.lzReady → s.memBytes ≤ 2 ^ 31 → s.readerOk → s.regs.lzCfg.mode = false →
    (∀ tok ∈ toks, tok.plain s.regs) →
    ((s.regs.lzCfg.endOff0 = true ∧ marker = false :: fieldBits s.br.order s.regs.lzCfg.offBits.toNat 0)
      ∨ (s.regs.lzCfg.endLen = true
          ∧ ∃ off, off < 2 ^ s.regs.lzCfg.offBits.toNat
            ∧ ¬(s.regs.lzCfg.endOff0 = true ∧ off = 0)
            ∧ s.regs.lzEndLen.toNat < 2 ^ s.regs.lzCfg.lenBits.toNat
            ∧ marker = LzToken.bits s.br.order s.regs.lzCfg (.copy off s.regs.lzEndLen.toNat))) →
    s.stream = toks.flatMap (LzToken.bits s.br.order s.regs.lzCfg) ++ marker ++ rest →
    (expandTokens s.regs toks).length < s.regs.outCap.toNat →
      ∃ t, exec .lzdec s = .next t
        ∧ t.status = { s.status with done := true, term := true }
        ∧ t.outLen.toNat = (expandTokens s.regs toks).length
        ∧ s.wrote t (expandTokens s.regs toks)
        ∧ t.stream = rest

/-- Shared mode, out of input: when the bits end inside a token (or before the next one) and the output is not
full, LZDEC raises UnexpectedEndOfStream and keeps the output of the whole tokens; the reader stands at its end
(41_lz R174; 40_bitreader R150). -/
def Obligations.LzdecRunsOut : Prop :=
  ∀ (s : State) (toks : List LzToken) (next : LzToken) (frag : List Bool),
    s.lzReady → s.memBytes ≤ 2 ^ 31 → s.readerOk → s.regs.lzCfg.mode = false →
    (∀ tok ∈ toks, tok.plain s.regs) → next.plain s.regs →
    frag <+: next.bits s.br.order s.regs.lzCfg → frag ≠ next.bits s.br.order s.regs.lzCfg →
    s.stream = toks.flatMap (LzToken.bits s.br.order s.regs.lzCfg) ++ frag →
    (expandTokens s.regs toks).length < s.regs.outCap.toNat →
      ∃ t, exec .lzdec s = .next t
        ∧ t.status = { done := false, err := true, term := false, errCode := 1 }
        ∧ t.errInfo = s.br.atEnd.pos ∧ t.br = s.br.atEnd
        ∧ t.outLen.toNat = (expandTokens s.regs toks).length
        ∧ s.wrote t (expandTokens s.regs toks)

/-- Interleaved mode: control bits from the reader, whole bytes from BR_POS. Tokens whose expansion reaches
OUT_CAP with the last of them give exactly its first OUT_CAP bytes; a marker pair before that ends the stream with
TERM 1, all bytes of the pair consumed (41_lz R168, R169, R171). When the input ends before that, at a refill for a
control bit, at a literal or inside a pair, LZDEC raises UnexpectedEndOfStream with ERRINFO = BR_POS and keeps the
output of the whole tokens; a byte read that fails leaves the accumulator as it is, and the bytes of the pair that
were there are consumed (41_lz R174; 40_bitreader R146, R150). -/
def Obligations.LzdecInterleaved : Prop :=
  ∀ (s : State) (toks : List LzToken) (q : BitReader),
    s.lzReady → s.memBytes ≤ 2 ^ 31 → s.readerOk → s.regs.lzCfg.mode = true →
    (∀ tok ∈ toks, tok.plain s.regs) → interleaved s.regs.lzCfg s.mem toks s.br q →
    ((toks = [] ∨ (expandTokens s.regs toks.dropLast).length < s.regs.outCap.toNat) →
      s.regs.outCap.toNat ≤ (expandTokens s.regs toks).length →
        ∃ t, exec .lzdec s = .next t
          ∧ t.status = { s.status with done := true, term := false }
          ∧ t.outLen = s.regs.outCap
          ∧ s.wrote t ((expandTokens s.regs toks).take s.regs.outCap.toNat)
          ∧ t.br = q)
    ∧ ((expandTokens s.regs toks).length < s.regs.outCap.toNat →
        ∀ (q1 q2 : BitReader) (off len : Nat), q.getBits s.mem 1 = .ok 0 q1 →
          q1.pairAt s.mem s.regs.lzCfg off len q2 →
          (s.regs.lzCfg.endOff0 = true ∧ off = 0)
            ∨ (s.regs.lzCfg.endLen = true ∧ len = s.regs.lzEndLen.toNat) →
            ∃ t, exec .lzdec s = .next t
              ∧ t.status = { s.status with done := true, term := true }
              ∧ t.outLen.toNat = (expandTokens s.regs toks).length
              ∧ s.wrote t (expandTokens s.regs toks)
              ∧ t.br = q2)
    ∧ ((expandTokens s.regs toks).length < s.regs.outCap.toNat →
        ∀ q' : BitReader,
          (q.cnt = 0 ∧ q.endAddr.toNat < q.pos.toNat + q.refill.bytes ∧ q' = { q with acc := 0 })
            ∨ (q.getBits s.mem 1 = .ok 1 q' ∧ q'.endAddr.toNat ≤ q'.pos.toNat)
            ∨ (∃ q1 : BitReader, q.getBits s.mem 1 = .ok 0 q1
                ∧ q1.endAddr.toNat
                    < q1.pos.toNat + (s.regs.lzCfg.offBits.toNat + s.regs.lzCfg.lenBits.toNat + 7) / 8
                ∧ q' = { q1 with pos := q1.endAddr }) →
            ∃ t, exec .lzdec s = .next t
              ∧ t.status = { done := false, err := true, term := false, errCode := 1 }
              ∧ t.errInfo = q'.pos ∧ t.br = q'
              ∧ t.outLen.toNat = (expandTokens s.regs toks).length
              ∧ s.wrote t (expandTokens s.regs toks))

/-- No LZDEC result depends on the window contents, the cursor, the output count or the RESULT of earlier commands
(10_state R48; 41_lz R164). -/
def Obligations.LzdecForgetsWindow : Prop :=
  ∀ (s : State) (win : Window) (wpos : BitVec 16) (len res : Word), s.lzReady →
    ∃ t u, exec .lzdec s = .next t
      ∧ exec .lzdec { s with win := win, lzWPos := wpos, outLen := len, result := res } = .next u
      ∧ u = { t with win := u.win, result := res }
      ∧ ∀ i, i < s.regs.lzCfg.windowSize → u.win.read i = t.win.read i

/-! ### Huffman trees -/

/-- HUFTREE reads the description of a tree of at most 1023 nodes, leaves the tree in NODE in preorder and the
reader behind the description, and touches nothing else (42_huffman R194, R195; 30_encoding R121). -/
def Obligations.HuftreeBuildsDescription : Prop :=
  ∀ (s : State) (shape : CodeShape) (rest : List Bool),
    s.status.err = false → s.memBytes ≤ 2 ^ 31 → s.readerOk → s.br.valid = true →
    shape.size ≤ 1023 → s.stream = shape.bits s.br.order ++ rest →
      ∃ t, exec .huftree s = .next t
        ∧ t = { s with status := s.doneStatus, br := t.br, tree := t.tree }
        ∧ t.tree.valid = true ∧ t.tree.kind = .selfDescribing ∧ t.tree.nnodes.toNat = shape.size
        ∧ t.tree.holds shape 0
        ∧ t.stream = rest

/-- HUFTREE without a reader changes nothing. A description that the stream cuts off is UnexpectedEndOfStream, with
NNODES at the number of nodes allocated so far; one that needs a 1024th node, whether or not the stream holds all
of it, is InvalidFormat(1) with NNODES 1023 and the reader behind the bits before that node; both with the old tree
gone (42_huffman R192, R193, R194, R195). -/
def Obligations.HuftreeFailures : Prop :=
  ∀ s : State, s.status.err = false →
    (s.br.valid = false → exec .huftree s = .next (s.refused .notReady 0x44))
    ∧ (s.memBytes ≤ 2 ^ 31 → s.readerOk → s.br.valid = true → ∀ shape : CodeShape,
        (shape.cutOff s.br.order s.stream →
          ∃ t, exec .huftree s = .next t
            ∧ t = { s with status := s.errStatus .unexpectedEndOfStream, errInfo := s.br.atEnd.pos,
                           br := s.br.atEnd, tree := t.tree }
            ∧ t.tree.valid = false ∧ t.tree.kind = s.tree.kind
            ∧ t.tree.nnodes.toNat = shape.begun s.stream.length)
        ∧ (shape.tooLarge s.br.order s.stream →
          ∃ t, exec .huftree s = .next t
            ∧ t = { s with status := s.errStatus .invalidFormat, errInfo := 1, br := t.br, tree := t.tree }
            ∧ t.tree.valid = false ∧ t.tree.kind = s.tree.kind ∧ t.tree.nnodes = 1023
            ∧ s.br.sameSource t.br ∧ t.stream = s.stream.drop shape.bitsBeforeLast))

/-- HUFCANON's refusals, with the old tree kept, and a length table cut off, with the old tree gone (42_huffman
R199, R200). -/
def Obligations.HufcanonFailures : Prop :=
  ∀ s : State, s.status.err = false →
    let lb := s.regs.hufCfg.lenBits.toNat
    let ns := s.regs.hufCfg.nsym.toNat
    if s.br.valid = false then exec .hufcanon s = .next (s.refused .notReady 0x44)
    else if lb < 1 ∨ 5 < lb ∨ ns < 1 ∨ 512 < ns then exec .hufcanon s = .next (s.refused .badConfig 0x80)
    else s.memBytes ≤ 2 ^ 31 → s.readerOk → s.stream.length < lb * ns →
      ∃ t, exec .hufcanon s = .next t
        ∧ t = { s with status := s.errStatus .unexpectedEndOfStream, errInfo := s.br.atEnd.pos,
                       br := s.br.atEnd, tree := t.tree }
        ∧ t.tree.valid = false ∧ t.tree.kind = s.tree.kind ∧ t.tree.nnodes = 0

/-- HUFCANON reads the length table and builds the tree of the canonical code: one node per distinct beginning of
a code, and a path ends on a leaf exactly where it is a symbol's code; incomplete codes, and a table of zeros,
are accepted (42_huffman R196, R197, R199, R200, R201; 30_encoding R122). -/
def Obligations.HufcanonAssignsCanonicalCodes : Prop :=
  ∀ (s : State) (lengths : List Nat) (rest : List Bool),
    s.status.err = false → s.memBytes ≤ 2 ^ 31 → s.readerOk → s.br.valid = true →
    1 ≤ s.regs.hufCfg.lenBits.toNat → s.regs.hufCfg.lenBits.toNat ≤ 5 →
    1 ≤ s.regs.hufCfg.nsym.toNat → s.regs.hufCfg.nsym.toNat ≤ 512 →
    lengths.length = s.regs.hufCfg.nsym.toNat →
    (∀ l ∈ lengths, l < 2 ^ s.regs.hufCfg.lenBits.toNat) →
    s.stream = lengths.flatMap (fieldBits s.br.order s.regs.hufCfg.lenBits.toNat) ++ rest →
    (∀ c ∈ canonCodes lengths, c.2.2 < 2 ^ c.2.1) →
    (codePrefixes (canonCodes lengths)).length ≤ 1023 →
      ∃ t, exec .hufcanon s = .next t
        ∧ t = { s with status := s.doneStatus, br := t.br, tree := t.tree }
        ∧ t.tree.valid = true ∧ t.tree.kind = .canonical
        ∧ t.tree.nnodes.toNat = (codePrefixes (canonCodes lengths)).length
        ∧ (∀ (path : List Bool) (sym : BitVec 9),
            t.tree.symbolAt 0 path = some sym ↔
              ∃ c ∈ canonCodes lengths, c.1 = sym.toNat ∧ codePath c.2.1 c.2.2 = path)
        ∧ t.stream = rest

/-- A length table with more codes than the lengths allow is InvalidFormat(2), raised at the first code that does
not fit; one that needs a 1024th node before that is InvalidFormat(1); the tree is gone in both cases, and the
table has been read (42_huffman R199, R200, R201). -/
def Obligations.HufcanonRejectsTable : Prop :=
  ∀ (s : State) (lengths : List Nat) (rest : List Bool),
    s.status.err = false → s.memBytes ≤ 2 ^ 31 → s.readerOk → s.br.valid = true →
    1 ≤ s.regs.hufCfg.lenBits.toNat → s.regs.hufCfg.lenBits.toNat ≤ 5 →
    1 ≤ s.regs.hufCfg.nsym.toNat → s.regs.hufCfg.nsym.toNat ≤ 512 →
    lengths.length = s.regs.hufCfg.nsym.toNat →
    (∀ l ∈ lengths, l < 2 ^ s.regs.hufCfg.lenBits.toNat) →
    s.stream = lengths.flatMap (fieldBits s.br.order s.regs.hufCfg.lenBits.toNat) ++ rest →
    let fitting := (canonCodes lengths).takeWhile fun c => decide (c.2.2 < 2 ^ c.2.1)
    fitting ≠ canonCodes lengths ∨ 1023 < (codePrefixes fitting).length →
      ∃ t, exec .hufcanon s = .next t
        ∧ t = { s with
                status := s.errStatus .invalidFormat
                errInfo := if 1023 < (codePrefixes fitting).length then 1 else 2
                br := t.br
                tree := t.tree }
        ∧ t.tree.valid = false ∧ t.tree.kind = s.tree.kind
        ∧ t.tree.nnodes.toNat = min 1023 (codePrefixes fitting).length
        ∧ t.stream = rest

/-! ### HUFDEC -/

/-- The start-up errors of HUFDEC in their order, after which nothing but STATUS and ERRINFO has changed
(42_huffman R204, R208; 60_exceptions R302, R304); with OUT_CAP = 0 and none of them it reads no bit. -/
def Obligations.HufdecRefusals : Prop :=
  ∀ s : State, s.status.err = false →
    let c := s.regs.hufCfg
    if s.br.valid = false then exec .hufdec s = .next (s.refused .notReady 0x44)
    else if s.tree.valid = false then exec .hufdec s = .next (s.refused .notReady 0x88)
    else if c.rebuildEn = true ∧ s.tree.kind = .canonical
        ∧ (c.lenBits.toNat < 1 ∨ 5 < c.lenBits.toNat ∨ c.nsym.toNat < 1 ∨ 512 < c.nsym.toNat) then
      exec .hufdec s = .next (s.refused .badConfig 0x80)
    else if s.memBytes < s.regs.outAddr.toNat + s.regs.outCap.toNat then
      exec .hufdec s = .next (s.refused .accessFault (max s.regs.outAddr.toNat s.memBytes))
    else if rangesMeet s.br.pos.toNat (s.br.endAddr.toNat - s.br.pos.toNat) s.regs.outAddr.toNat s.regs.outCap.toNat then
      exec .hufdec s = .next (s.refused .badConfig 0x18)
    else s.regs.outCap = 0 → exec .hufdec s = .next { s with status := s.doneStatus, outLen := 0 }

/-- HUFDEC decodes a coded message of OUT_CAP bytes: those bytes stand at OUT_ADDR, OUT_LEN is OUT_CAP, the reader is
behind the last code, and the tree and everything else are as before. A one-leaf tree has the empty code
(42_huffman R202, R204, R205). -/
def Obligations.HufdecDecodes : Prop :=
  ∀ (s : State) (msg : List (List Bool × Byte)) (rest : List Bool),
    s.hufReady → s.memBytes ≤ 2 ^ 31 → s.readerOk → s.codes s.tree msg →
    msg.length = s.regs.outCap.toNat →
    s.stream = (msg.flatMap fun p => p.1) ++ rest →
      ∃ t, exec .hufdec s = .next t
        ∧ t = { s with status := s.doneStatus, br := t.br, outLen := s.regs.outCap, mem := t.mem }
        ∧ s.wrote t (msg.map fun p => p.2)
        ∧ t.stream = rest

/-- The errors of HUFDEC in the walk, after a message shorter than OUT_CAP: the bits end at an inner node
(UnexpectedEndOfStream), a missing child (InvalidFormat(3)), a symbol of 256 or more that is no enabled rebuild
signal (InvalidFormat(4)). The output so far, its count and the tree are kept (42_huffman R202, R206, R208). -/
def Obligations.HufdecErrors : Prop :=
  ∀ (s : State) (msg : List (List Bool × Byte)) (path rest : List Bool),
    s.hufReady → s.memBytes ≤ 2 ^ 31 → s.readerOk → s.codes s.tree msg →
    msg.length < s.regs.outCap.toNat →
    (s.stream = (msg.flatMap fun p => p.1) ++ path → (s.tree.innerAt 0 path).isSome = true →
      ∃ t, exec .hufdec s = .next t
        ∧ t = { s with status := s.errStatus .unexpectedEndOfStream, errInfo := s.br.atEnd.pos, br := s.br.atEnd,
                       outLen := BitVec.ofNat 32 msg.length, mem := t.mem }
        ∧ s.wrote t (msg.map fun p => p.2))
    ∧ (∀ (b : Bool) (n : Fin 1023), s.stream = (msg.flatMap fun p => p.1) ++ path ++ b :: rest →
        s.tree.innerAt 0 path = some n →
        (if b then (s.tree.nodeAt n).right else (s.tree.nodeAt n).left) = none →
          ∃ t, exec .hufdec s = .next t
            ∧ t = { s with status := s.errStatus .invalidFormat, errInfo := 3, br := t.br,
                           outLen := BitVec.ofNat 32 msg.length, mem := t.mem }
            ∧ s.wrote t (msg.map fun p => p.2) ∧ t.stream = rest)
    ∧ (∀ sym : BitVec 9, s.stream = (msg.flatMap fun p => p.1) ++ path ++ rest →
        s.tree.symbolAt 0 path = some sym → 256 ≤ sym.toNat →
        ¬(s.regs.hufCfg.rebuildEn = true ∧ sym = s.regs.hufRsym) →
          ∃ t, exec .hufdec s = .next t
            ∧ t = { s with status := s.errStatus .invalidFormat, errInfo := 4, br := t.br,
                           outLen := BitVec.ofNat 32 msg.length, mem := t.mem }
            ∧ s.wrote t (msg.map fun p => p.2) ∧ t.stream = rest)

/-- The rebuild signal in a self-describing tree: after a message, the signal's code and the description of a new
tree, HUFDEC goes on with the new tree; the signal is no output byte. An error inside the rebuild, by a description
that is cut off (UnexpectedEndOfStream) or that needs a 1024th node (InvalidFormat(1)), leaves no tree and keeps the
output before it, with the reader as for HUFTREE (42_huffman R193, R194, R204, R207, R208; 40_bitreader R150). -/
def Obligations.HufdecRebuildsSelfDescribing : Prop :=
  ∀ (s : State) (msg1 msg2 : List (List Bool × Byte)) (signal rest : List Bool) (shape : CodeShape),
    s.hufReady → s.memBytes ≤ 2 ^ 31 → s.readerOk → s.regs.hufCfg.rebuildEn = true →
    s.tree.kind = .selfDescribing → s.codes s.tree msg1 →
    s.tree.symbolAt 0 signal = some s.regs.hufRsym →
    msg1.length < s.regs.outCap.toNat →
    (shape.size ≤ 1023 → msg1.length + msg2.length = s.regs.outCap.toNat →
      (∀ p ∈ msg2, shape.symbolAt p.1 = some p.2 ∧ p.2.setWidth 9 ≠ s.regs.hufRsym) →
      s.stream = (msg1.flatMap fun p => p.1) ++ signal ++ shape.bits s.br.order
        ++ (msg2.flatMap fun p => p.1) ++ rest →
        ∃ t, exec .hufdec s = .next t
          ∧ t = { s with status := s.doneStatus, br := t.br, outLen := s.regs.outCap, mem := t.mem, tree := t.tree }
          ∧ t.tree.valid = true ∧ t.tree.kind = .selfDescribing ∧ t.tree.nnodes.toNat = shape.size
          ∧ t.tree.holds shape 0
          ∧ s.wrote t ((msg1 ++ msg2).map fun p => p.2)
          ∧ t.stream = rest)
    ∧ (∀ bits : List Bool, s.stream = (msg1.flatMap fun p => p.1) ++ signal ++ bits →
        (shape.cutOff s.br.order bits →
          ∃ t, exec .hufdec s = .next t
            ∧ t = { s with status := s.errStatus .unexpectedEndOfStream, errInfo := s.br.atEnd.pos, br := s.br.atEnd,
                           outLen := BitVec.ofNat 32 msg1.length, mem := t.mem, tree := t.tree }
            ∧ t.tree.valid = false ∧ t.tree.kind = s.tree.kind ∧ t.tree.nnodes.toNat = shape.begun bits.length
            ∧ s.wrote t (msg1.map fun p => p.2))
        ∧ (shape.tooLarge s.br.order bits →
          ∃ t, exec .hufdec s = .next t
            ∧ t = { s with status := s.errStatus .invalidFormat, errInfo := 1, br := t.br,
                           outLen := BitVec.ofNat 32 msg1.length, mem := t.mem, tree := t.tree }
            ∧ t.tree.valid = false ∧ t.tree.kind = s.tree.kind ∧ t.tree.nnodes = 1023
            ∧ s.wrote t (msg1.map fun p => p.2)
            ∧ s.br.sameSource t.br ∧ t.stream = bits.drop shape.bitsBeforeLast))

/-- The rebuild signal in a canonical tree: the bits behind the signal's code are a length table with the HUF_CFG
of the moment, and decoding goes on with its code. A table that is cut off (UnexpectedEndOfStream), one with more
codes than the lengths allow (InvalidFormat(2)) and one that needs a 1024th node (InvalidFormat(1)) leave no tree
and keep the output before it, with the reader as for HUFCANON (42_huffman R193, R199, R201, R204, R207, R208;
40_bitreader R150). -/
def Obligations.HufdecRebuildsCanonical : Prop :=
  ∀ (s : State) (msg1 : List (List Bool × Byte)) (signal : List Bool),
    s.hufReady → s.memBytes ≤ 2 ^ 31 → s.readerOk → s.regs.hufCfg.rebuildEn = true →
    s.tree.kind = .canonical → s.codes s.tree msg1 →
    s.tree.symbolAt 0 signal = some s.regs.hufRsym →
    msg1.length < s.regs.outCap.toNat →
    (∀ bits : List Bool, s.stream = (msg1.flatMap fun p => p.1) ++ signal ++ bits →
      bits.length < s.regs.hufCfg.lenBits.toNat * s.regs.hufCfg.nsym.toNat →
        ∃ t, exec .hufdec s = .next t
          ∧ t = { s with status := s.errStatus .unexpectedEndOfStream, errInfo := s.br.atEnd.pos, br := s.br.atEnd,
                         outLen := BitVec.ofNat 32 msg1.length, mem := t.mem, tree := t.tree }
          ∧ t.tree.valid = false ∧ t.tree.kind = s.tree.kind ∧ t.tree.nnodes = 0
          ∧ s.wrote t (msg1.map fun p => p.2))
    ∧ ∀ (lengths : List Nat) (after : List Bool),
        lengths.length = s.regs.hufCfg.nsym.toNat →
        (∀ l ∈ lengths, l < 2 ^ s.regs.hufCfg.lenBits.toNat) →
        s.stream = (msg1.flatMap fun p => p.1) ++ signal
          ++ lengths.flatMap (fieldBits s.br.order s.regs.hufCfg.lenBits.toNat) ++ after →
        let codes := canonCodes lengths
        let fitting := codes.takeWhile fun c => decide (c.2.2 < 2 ^ c.2.1)
        (fitting ≠ codes ∨ 1023 < (codePrefixes fitting).length →
          ∃ t, exec .hufdec s = .next t
            ∧ t = { s with
                    status := s.errStatus .invalidFormat
                    errInfo := if 1023 < (codePrefixes fitting).length then 1 else 2
                    br := t.br
                    outLen := BitVec.ofNat 32 msg1.length
                    mem := t.mem
                    tree := t.tree }
            ∧ t.tree.valid = false ∧ t.tree.kind = s.tree.kind
            ∧ t.tree.nnodes.toNat = min 1023 (codePrefixes fitting).length
            ∧ s.wrote t (msg1.map fun p => p.2)
            ∧ s.br.sameSource t.br ∧ t.stream = after)
        ∧ ∀ (msg2 : List (List Bool × Byte)) (rest : List Bool),
            fitting = codes → (codePrefixes codes).length ≤ 1023 →
            msg1.length + msg2.length = s.regs.outCap.toNat →
            (∀ p ∈ msg2, p.2.setWidth 9 ≠ s.regs.hufRsym
              ∧ ∃ c ∈ codes, c.1 = p.2.toNat ∧ codePath c.2.1 c.2.2 = p.1) →
            after = (msg2.flatMap fun p => p.1) ++ rest →
              ∃ t, exec .hufdec s = .next t
                ∧ t = { s with status := s.doneStatus, br := t.br, outLen := s.regs.outCap, mem := t.mem,
                               tree := t.tree }
                ∧ t.tree.valid = true ∧ t.tree.kind = .canonical
                ∧ t.tree.nnodes.toNat = (codePrefixes codes).length
                ∧ (∀ (path : List Bool) (sym : BitVec 9), t.tree.symbolAt 0 path = some sym ↔
                    ∃ c ∈ codes, c.1 = sym.toNat ∧ codePath c.2.1 c.2.2 = path)
                ∧ s.wrote t ((msg1 ++ msg2).map fun p => p.2)
                ∧ t.stream = rest

/-! ### XOR ciphers -/

/-- 43_xor R221: XORKEY's errors in their order, with the buffer unchanged; else each buffer byte is
exclusive-ored with the key byte at (KEY_PHASE + i) mod KEY_LEN, the sum unbounded, and nothing else changes. -/
def Obligations.XorkeyRule : Prop :=
  decode 0x30000000 = .ok .xorkey ∧ ∀ s : State, s.status.err = false →
    let r := s.regs
    if r.keyLen = 0 then exec .xorkey s = .next (s.refused .badConfig 0x30)
    else if s.memBytes < r.bufAddr.toNat + r.bufLen.toNat then
      exec .xorkey s = .next (s.refused .accessFault (max r.bufAddr.toNat s.memBytes))
    else if s.memBytes < r.keyAddr.toNat + r.keyLen.toNat then
      exec .xorkey s = .next (s.refused .accessFault (max r.keyAddr.toNat s.memBytes))
    else if rangesMeet r.bufAddr.toNat r.bufLen.toNat r.keyAddr.toNat r.keyLen.toNat then
      exec .xorkey s = .next (s.refused .badConfig 0x2C)
    else
      ∃ t, exec .xorkey s = .next t
        ∧ t = { s with status := s.doneStatus, mem := t.mem }
        ∧ (∀ i, i < r.bufLen.toNat →
            t.mem.read (r.bufAddr.toNat + i) =
              s.mem.read (r.bufAddr.toNat + i)
                ^^^ s.mem.read (r.keyAddr.toNat + (r.keyPhase.toNat + i) % r.keyLen.toNat))
        ∧ ∀ a, a < r.bufAddr.toNat ∨ r.bufAddr.toNat + r.bufLen.toNat ≤ a → t.mem.read a = s.mem.read a

/-- 43_xor R224: XORPRNG's errors in their order, with buffer and PRNG_STATE unchanged; else the generator is
stepped before each byte, each byte is exclusive-ored with bits [PRNG_SHIFT+7:PRNG_SHIFT] of the stepped state,
and PRNG_STATE ends as the state after BUF_LEN steps. -/
def Obligations.XorprngRule : Prop :=
  decode 0x31000000 = .ok .xorprng ∧ ∀ s : State, s.status.err = false →
    let r := s.regs
    let next : Nat → Nat := fun x => (x * r.prngMul.toNat + r.prngAdd.toNat) % 2 ^ 32
    if 24 < r.prngShift.toNat then exec .xorprng s = .next (s.refused .badConfig 0xAC)
    else if s.memBytes < r.bufAddr.toNat + r.bufLen.toNat then
      exec .xorprng s = .next (s.refused .accessFault (max r.bufAddr.toNat s.memBytes))
    else
      ∃ t, exec .xorprng s = .next t
        ∧ t = { s with status := s.doneStatus, mem := t.mem, prngState := t.prngState }
        ∧ t.prngState.toNat = next^[r.bufLen.toNat] s.prngState.toNat
        ∧ (∀ i, i < r.bufLen.toNat →
            (t.mem.read (r.bufAddr.toNat + i)).toNat =
              (s.mem.read (r.bufAddr.toNat + i)).toNat
                ^^^ (next^[i + 1] s.prngState.toNat / 2 ^ r.prngShift.toNat % 256))
        ∧ ∀ a, a < r.bufAddr.toNat ∨ r.bufAddr.toNat + r.bufLen.toNat ≤ a → t.mem.read a = s.mem.read a

/-- XORKEY twice with the same key and phase, and XORPRNG twice from the same PRNG_STATE, restore every byte of MEM
(43_xor R227). -/
def Obligations.XorSelfInverse : Prop :=
  ∀ s : State, s.status.err = false → s.regs.bufAddr.toNat + s.regs.bufLen.toNat ≤ s.memBytes →
    (s.regs.keyLen ≠ 0 → s.regs.keyAddr.toNat + s.regs.keyLen.toNat ≤ s.memBytes →
      ¬rangesMeet s.regs.bufAddr.toNat s.regs.bufLen.toNat s.regs.keyAddr.toNat s.regs.keyLen.toNat →
        ∃ t u, exec .xorkey s = .next t ∧ exec .xorkey t = .next u ∧ ∀ a, u.mem.read a = s.mem.read a)
    ∧ (s.regs.prngShift.toNat ≤ 24 →
        ∃ t u, exec .xorprng s = .next t ∧ exec .xorprng { t with prngState := s.prngState } = .next u
          ∧ u.prngState = t.prngState ∧ ∀ a, u.mem.read a = s.mem.read a)

/-- Decrypting a range in one XORKEY, or its two halves in two with the second KEY_PHASE advanced by the first
half's length, gives the same bytes (43_xor R222). -/
def Obligations.XorkeySplit : Prop :=
  ∀ (s : State) (k : Nat), s.status.err = false → s.memBytes ≤ 2 ^ 31 → s.regs.keyLen ≠ 0 →
    s.regs.bufAddr.toNat + s.regs.bufLen.toNat ≤ s.memBytes →
    s.regs.keyAddr.toNat + s.regs.keyLen.toNat ≤ s.memBytes →
    ¬rangesMeet s.regs.bufAddr.toNat s.regs.bufLen.toNat s.regs.keyAddr.toNat s.regs.keyLen.toNat →
    k ≤ s.regs.bufLen.toNat →
      ∃ whole first second,
        exec .xorkey s = .next whole
        ∧ exec .xorkey { s with regs := { s.regs with bufLen := BitVec.ofNat 32 k } } = .next first
        ∧ exec .xorkey
            { first with
              regs :=
                { s.regs with
                  bufAddr := BitVec.ofNat 32 (s.regs.bufAddr.toNat + k)
                  bufLen := BitVec.ofNat 32 (s.regs.bufLen.toNat - k)
                  keyPhase := BitVec.ofNat 32 ((s.regs.keyPhase.toNat + k) % s.regs.keyLen.toNat) } } = .next second
        ∧ ∀ a, second.mem.read a = whole.mem.read a

/-! ### Substitution table -/

/-- 44_subst R237: SUBLOAD refuses a table outside MEM and changes nothing then; else SBOX is the 256 bytes at
KEY_ADDR, whatever they are and whatever KEY_LEN is, and SUB_VALID is 1. -/
def Obligations.SubloadRule : Prop :=
  decode 0x34000000 = .ok .subload ∧ ∀ s : State, s.status.err = false →
    if s.memBytes < s.regs.keyAddr.toNat + 256 then
      exec .subload s = .next (s.refused .accessFault (max s.regs.keyAddr.toNat s.memBytes))
    else
      ∃ t, exec .subload s = .next t
        ∧ t = { s with status := s.doneStatus, sbox := t.sbox, subValid := true }
        ∧ ∀ i : Fin 256, t.sbox[i] = s.mem.read (s.regs.keyAddr.toNat + i.val)

/-- SUBGEN accepts every seed and key length: SBOX is a permutation that depends on SUB_SEED and KEY_LEN alone,
SUB_VALID is 1, and nothing else changes (44_subst R238, R239; which permutation it is stays open, log 2). -/
def Obligations.SubgenRule : Prop :=
  ∀ s : State, s.status.err = false →
    ∃ t, exec .subgen s = .next t
      ∧ t = { s with status := s.doneStatus, sbox := t.sbox, subValid := true }
      ∧ Function.Bijective (tableGet t.sbox)
      ∧ ∀ u v : State, u.status.err = false → u.regs.subSeed = s.regs.subSeed → u.regs.keyLen = s.regs.keyLen →
          exec .subgen u = .next v → v.sbox = t.sbox

/-- 44_subst R240: SUBSWAP's errors in their order, with SBOX unchanged; else the table is the old one behind the
exchanges of entry `i mod 256` with the entry the i-th order byte names, in ascending order. -/
def Obligations.SubswapRule : Prop :=
  decode 0x36000000 = .ok .subswap ∧ ∀ s : State, s.status.err = false →
    if s.subValid = false then exec .subswap s = .next (s.refused .notReady 0xB4)
    else if s.memBytes < s.regs.keyAddr.toNat + s.regs.keyLen.toNat then
      exec .subswap s = .next (s.refused .accessFault (max s.regs.keyAddr.toNat s.memBytes))
    else
      ∃ t, exec .subswap s = .next t
        ∧ t = { s with status := s.doneStatus, sbox := t.sbox }
        ∧ ∀ b : Byte, tableGet t.sbox b =
            tableGet s.sbox
              ((List.range s.regs.keyLen.toNat).foldl
                (fun (p : Equiv.Perm Byte) i =>
                  p * Equiv.swap (BitVec.ofNat 8 (i % 256)) (s.mem.read (s.regs.keyAddr.toNat + i))) 1 b)

/-- 44_subst R241: SUBTRIPLE needs a filled table; each new entry is the old table applied three times, all from the
old table, and nothing else changes. -/
def Obligations.SubtripleRule : Prop :=
  decode 0x37000000 = .ok .subtriple ∧ ∀ s : State, s.status.err = false →
    (s.subValid = false → exec .subtriple s = .next (s.refused .notReady 0xB4))
    ∧ (s.subValid = true →
        ∃ t, exec .subtriple s = .next t
          ∧ t = { s with status := s.doneStatus, sbox := t.sbox }
          ∧ ∀ b : Byte, tableGet t.sbox b = tableGet s.sbox (tableGet s.sbox (tableGet s.sbox b)))

/-- 44_subst R242: SUBAPPLY's errors in their order, with the buffer unchanged; else each buffer byte goes through
the table, and nothing else changes. -/
def Obligations.SubapplyRule : Prop :=
  decode 0x38000000 = .ok .subapply ∧ ∀ s : State, s.status.err = false →
    let r := s.regs
    if s.subValid = false then exec .subapply s = .next (s.refused .notReady 0xB4)
    else if s.memBytes < r.bufAddr.toNat + r.bufLen.toNat then
      exec .subapply s = .next (s.refused .accessFault (max r.bufAddr.toNat s.memBytes))
    else
      ∃ t, exec .subapply s = .next t
        ∧ t = { s with status := s.doneStatus, mem := t.mem }
        ∧ (∀ i, i < r.bufLen.toNat →
            t.mem.read (r.bufAddr.toNat + i) = tableGet s.sbox (s.mem.read (r.bufAddr.toNat + i)))
        ∧ ∀ a, a < r.bufAddr.toNat ∨ r.bufAddr.toNat + r.bufLen.toNat ≤ a → t.mem.read a = s.mem.read a

/-- 44_subst R243: SUBSTORE's errors in their order, with MEM and OUT_LEN unchanged; else exactly the 256 bytes of
SBOX stand at OUT_ADDR, whatever OUT_CAP is beyond 256, and OUT_LEN is 256. -/
def Obligations.SubstoreRule : Prop :=
  decode 0x39000000 = .ok .substore ∧ ∀ s : State, s.status.err = false →
    if s.subValid = false then exec .substore s = .next (s.refused .notReady 0xB4)
    else if s.regs.outCap.toNat < 256 then exec .substore s = .next (s.refused .badConfig 0x1C)
    else if s.memBytes < s.regs.outAddr.toNat + 256 then
      exec .substore s = .next (s.refused .accessFault (max s.regs.outAddr.toNat s.memBytes))
    else
      ∃ t, exec .substore s = .next t
        ∧ t = { s with status := s.doneStatus, mem := t.mem, outLen := 256 }
        ∧ (∀ i : Fin 256, t.mem.read (s.regs.outAddr.toNat + i.val) = s.sbox[i])
        ∧ ∀ a, a < s.regs.outAddr.toNat ∨ s.regs.outAddr.toNat + 256 ≤ a → t.mem.read a = s.mem.read a

/-- If SBOX is a permutation it still is after SUBSWAP and after SUBTRIPLE, and no other command but SUBLOAD,
SUBGEN and SRESET changes it (44_subst R244). -/
def Obligations.PermutationKept : Prop :=
  ∀ (i : Instr) (s t : State), exec i s = .next t → i ≠ .subload → i ≠ .subgen → i ≠ .sreset →
    Function.Bijective (tableGet s.sbox) →
      Function.Bijective (tableGet t.sbox) ∧ (i ≠ .subswap → i ≠ .subtriple → t.sbox = s.sbox)

/-! ### CBCDEC -/

/-- The errors of CBCDEC in their order, with the buffer unchanged; when none applies, the only error there can be
is InvalidFormat(6), and only with P = 1 (45_cbc R257, R260; 60_exceptions R302, R304). -/
def Obligations.CbcdecRefusals : Prop :=
  ∀ (s : State) (p : Bool), s.status.err = false →
    let r := s.regs
    if r.keyLen.toNat ≠ 16 ∧ r.keyLen.toNat ≠ 24 ∧ r.keyLen.toNat ≠ 32 then
      exec (.cbcdec p) s = .next (s.refused .unknownScheme (0x3C000000 + p.toNat))
    else if s.memBytes < r.bufAddr.toNat + r.bufLen.toNat then
      exec (.cbcdec p) s = .next (s.refused .accessFault (max r.bufAddr.toNat s.memBytes))
    else if s.memBytes < r.keyAddr.toNat + r.keyLen.toNat then
      exec (.cbcdec p) s = .next (s.refused .accessFault (max r.keyAddr.toNat s.memBytes))
    else if s.memBytes < r.ivAddr.toNat + 16 then
      exec (.cbcdec p) s = .next (s.refused .accessFault (max r.ivAddr.toNat s.memBytes))
    else if rangesMeet r.bufAddr.toNat r.bufLen.toNat r.keyAddr.toNat r.keyLen.toNat then
      exec (.cbcdec p) s = .next (s.refused .badConfig 0x2C)
    else if rangesMeet r.bufAddr.toNat r.bufLen.toNat r.ivAddr.toNat 16 then
      exec (.cbcdec p) s = .next (s.refused .badConfig 0x38)
    else if r.bufLen.toNat % 16 ≠ 0 ∨ (p = true ∧ r.bufLen = 0) then
      exec (.cbcdec p) s = .next (s.refused .invalidFormat 5)
    else
      ∃ t, exec (.cbcdec p) s = .next t
        ∧ ((t.status.done = true ∧ t.status.err = false)
            ∨ (p = true ∧ t.status.done = false ∧ t.status.err = true ∧ t.status.errCode = 2 ∧ t.errInfo = 6))

/-- CBCDEC decrypts in place: block j becomes AesDecryptBlock of ciphertext block j, exclusive-ored with ciphertext
block j - 1 or the IV, and nothing else of MEM changes. With P = 0 RESULT is BUF_LEN; with P = 1 it is BUF_LEN less
the padding, or the padding is malformed and InvalidFormat(6) is raised over the decrypted buffer with RESULT
kept (45_cbc R256, R258, R259, R260). -/
def Obligations.CbcdecRule : Prop :=
  ∀ (s : State) (p : Bool), s.status.err = false →
    let r := s.regs
    let key := (List.range r.keyLen.toNat).map fun i => s.mem.read (r.keyAddr.toNat + i)
    let cipher : Nat → Block := fun j => Vector.ofFn fun k : Fin 16 => s.mem.read (r.bufAddr.toNat + 16 * j + k.val)
    let iv : Block := Vector.ofFn fun k : Fin 16 => s.mem.read (r.ivAddr.toNat + k.val)
    let plain : Nat → Block := fun j =>
      Vector.ofFn fun k : Fin 16 =>
        (aesDecryptBlock key (cipher j))[k] ^^^ (if j = 0 then iv else cipher (j - 1))[k]
    (r.keyLen.toNat = 16 ∨ r.keyLen.toNat = 24 ∨ r.keyLen.toNat = 32) →
    r.bufAddr.toNat + r.bufLen.toNat ≤ s.memBytes →
    r.keyAddr.toNat + r.keyLen.toNat ≤ s.memBytes →
    r.ivAddr.toNat + 16 ≤ s.memBytes →
    ¬rangesMeet r.bufAddr.toNat r.bufLen.toNat r.keyAddr.toNat r.keyLen.toNat →
    ¬rangesMeet r.bufAddr.toNat r.bufLen.toNat r.ivAddr.toNat 16 →
    r.bufLen.toNat % 16 = 0 → (p = true → r.bufLen ≠ 0) →
      ∃ t, exec (.cbcdec p) s = .next t
        ∧ t = { s with status := t.status, errInfo := t.errInfo, result := t.result, mem := t.mem }
        ∧ (∀ j, j < r.bufLen.toNat / 16 → ∀ k : Fin 16,
            t.mem.read (r.bufAddr.toNat + 16 * j + k.val) = (plain j)[k])
        ∧ (∀ a, a < r.bufAddr.toNat ∨ r.bufAddr.toNat + r.bufLen.toNat ≤ a → t.mem.read a = s.mem.read a)
        ∧ (if p = false then t.status = s.doneStatus ∧ t.errInfo = s.errInfo ∧ t.result = r.bufLen
          else
            let last := plain (r.bufLen.toNat / 16 - 1)
            let pad := last[15].toNat
            if 1 ≤ pad ∧ pad ≤ 16 ∧ (∀ k : Fin 16, 16 - pad ≤ k.val → last[k].toNat = pad) then
              t.status = s.doneStatus ∧ t.errInfo = s.errInfo ∧ t.result.toNat + pad = r.bufLen.toNat
            else t.status = s.errStatus .invalidFormat ∧ t.errInfo = 6 ∧ t.result = s.result)

/-- AesDecryptBlock undoes the forward cipher that 45_cbc R269 gives for reference, for every key length and
block: the two S-boxes, the row shifts and the column mixes are inverse to one another (45_cbc R266 to R269). -/
def Obligations.AesDecryptInvertsEncrypt : Prop :=
  ∀ (key : List Byte) (block : Block), key.length = 16 ∨ key.length = 24 ∨ key.length = 32 →
    aesDecryptBlock key (aesEncryptBlock key block) = block

/-! ### The whole machine -/

/-- Every step keeps the invariant: MEM_BYTES stays in its range; MEM and WIN stay canonical and in their bounds,
MEM_BYTES bytes and 65,536 positions (20_memory R80; 10_state R48); the bit reader invariants of 10_state R41 hold;
DONE and ERR are never both 1 and ERRCODE and ERRINFO are 0 without ERR (10_state R27, R29); and a valid tree has
its children in order (42_huffman R191, R202). The canonical forms of MEM and WIN, and that the free contents in
use carry an older number than the next ones, are about the model's own data (log 3, log 4 and log 12). -/
def Obligations.StepKeepsInvariant : Prop :=
  ∀ s t : State, s.Inv → step s = .next t → t.Inv

/-- The invariant holds after hardware reset (its clauses about the model's own data are log 3, log 4 and log 12). -/
def Obligations.ResetHasInvariant : Prop := State.reset.Inv

/-- While SUB_VALID is 0 no command reads SBOX: two states that differ in it alone give states that differ in it
alone, and not even in it where SUB_VALID is then 1 (44_subst R244; 10_state R59). -/
def Obligations.UnfilledTableUnread : Prop :=
  ∀ (i : Instr) (s t : State) (sbox : Vector Byte 256), s.subValid = false → exec i s = .next t →
    ∃ u, exec i { s with sbox := sbox } = .next u
      ∧ u = { t with sbox := u.sbox } ∧ (t.subValid = true → u.sbox = t.sbox)

/-- No command reads a node that is not part of a valid tree: two states whose trees agree but for such nodes
give states that agree but for such nodes (10_state R52, R59; 42_huffman R193). -/
def Obligations.UnbuiltTreeUnread : Prop :=
  ∀ (i : Instr) (s t : State) (tree : CodeTree),
    s.tree.ok → tree.valid = s.tree.valid → tree.kind = s.tree.kind → tree.nnodes = s.tree.nnodes →
    (s.tree.valid = true → s.tree.agree tree) → exec i s = .next t →
      ∃ u, exec i { s with tree := tree } = .next u
        ∧ u = { t with tree := u.tree }
        ∧ u.tree.valid = t.tree.valid ∧ u.tree.kind = t.tree.kind ∧ u.tree.nnodes = t.tree.nnodes
        ∧ (t.tree.valid = true → t.tree.agree u.tree)

/-- The bounds on the model's loops are never reached: more passes change nothing (70_reset R358; the bounds are
the model's, log 10). -/
def Obligations.LoopBoundsNeverReached : Prop :=
  ∀ (s : State) (more : Nat), s.memBytes ≤ 2 ^ 31 → s.readerOk → s.br.valid = true →
    (∀ n, s.br.getBitsLoop s.mem n (n + more) 0 0 = s.br.getBits s.mem n)
    ∧ lzLoop (s.br.bitsLeft + 1 + more) s = lzLoop (s.br.bitsLeft + 1) s
    ∧ (s.tree.nnodes = 0 → buildNode (1024 + more) s = buildNode 1024 s)
    ∧ walkTree (s.br.bitsLeft + 1 + more) 0 s = decodeSymbol s
    ∧ ((s.regs.hufCfg.rebuildEn = true → s.tree.kind = .canonical → s.regs.hufCfg.legal = true) →
        hufLoop (s.regs.outCap.toNat + s.br.bitsLeft + 1 + more) { s with outLen := 0 } =
          hufLoop (s.regs.outCap.toNat + s.br.bitsLeft + 1) { s with outLen := 0 })
end

