-- ==== Sys2Proof/Laws/State.lean ====
section
/-! SUPPORT. What each update of the state does to each field, one lemma per field: later proofs never unfold a
record update. -/

namespace Sys2Proof.Machine

/-! ### accept -/

@[simp] theorem accept_status (s : State) : (accept s).status = { s.status with done := false } := rfl
@[simp] theorem accept_result (s : State) : (accept s).result = s.result := rfl
@[simp] theorem accept_errInfo (s : State) : (accept s).errInfo = s.errInfo := rfl
@[simp] theorem accept_outLen (s : State) : (accept s).outLen = s.outLen := rfl
@[simp] theorem accept_regs (s : State) : (accept s).regs = s.regs := rfl
@[simp] theorem accept_br (s : State) : (accept s).br = s.br := rfl
@[simp] theorem accept_lzWPos (s : State) : (accept s).lzWPos = s.lzWPos := rfl
@[simp] theorem accept_win (s : State) : (accept s).win = s.win := rfl
@[simp] theorem accept_tree (s : State) : (accept s).tree = s.tree := rfl
@[simp] theorem accept_prngState (s : State) : (accept s).prngState = s.prngState := rfl
@[simp] theorem accept_subValid (s : State) : (accept s).subValid = s.subValid := rfl
@[simp] theorem accept_sbox (s : State) : (accept s).sbox = s.sbox := rfl
@[simp] theorem accept_mem (s : State) : (accept s).mem = s.mem := rfl
@[simp] theorem accept_memBytes (s : State) : (accept s).memBytes = s.memBytes := rfl
@[simp] theorem accept_host (s : State) : (accept s).host = s.host := rfl
@[simp] theorem accept_lastRead (s : State) : (accept s).lastRead = s.lastRead := rfl
@[simp] theorem accept_epoch (s : State) : (accept s).epoch = s.epoch := rfl

/-! ### raiseError -/

@[simp] theorem raiseError_status (e : ErrorName) (n : Nat) (s : State) :
    (raiseError e n s).status = { s.status with err := true, errCode := e.code } := rfl
@[simp] theorem raiseError_result (e : ErrorName) (n : Nat) (s : State) : (raiseError e n s).result = s.result := rfl
@[simp] theorem raiseError_errInfo (e : ErrorName) (n : Nat) (s : State) :
    (raiseError e n s).errInfo = BitVec.ofNat 32 n := rfl
@[simp] theorem raiseError_outLen (e : ErrorName) (n : Nat) (s : State) : (raiseError e n s).outLen = s.outLen := rfl
@[simp] theorem raiseError_regs (e : ErrorName) (n : Nat) (s : State) : (raiseError e n s).regs = s.regs := rfl
@[simp] theorem raiseError_br (e : ErrorName) (n : Nat) (s : State) : (raiseError e n s).br = s.br := rfl
@[simp] theorem raiseError_lzWPos (e : ErrorName) (n : Nat) (s : State) : (raiseError e n s).lzWPos = s.lzWPos := rfl
@[simp] theorem raiseError_win (e : ErrorName) (n : Nat) (s : State) : (raiseError e n s).win = s.win := rfl
@[simp] theorem raiseError_tree (e : ErrorName) (n : Nat) (s : State) : (raiseError e n s).tree = s.tree := rfl
@[simp] theorem raiseError_prngState (e : ErrorName) (n : Nat) (s : State) :
    (raiseError e n s).prngState = s.prngState := rfl
@[simp] theorem raiseError_subValid (e : ErrorName) (n : Nat) (s : State) :
    (raiseError e n s).subValid = s.subValid := rfl
@[simp] theorem raiseError_sbox (e : ErrorName) (n : Nat) (s : State) : (raiseError e n s).sbox = s.sbox := rfl
@[simp] theorem raiseError_mem (e : ErrorName) (n : Nat) (s : State) : (raiseError e n s).mem = s.mem := rfl
@[simp] theorem raiseError_memBytes (e : ErrorName) (n : Nat) (s : State) :
    (raiseError e n s).memBytes = s.memBytes := rfl
@[simp] theorem raiseError_host (e : ErrorName) (n : Nat) (s : State) : (raiseError e n s).host = s.host := rfl
@[simp] theorem raiseError_lastRead (e : ErrorName) (n : Nat) (s : State) :
    (raiseError e n s).lastRead = s.lastRead := rfl
@[simp] theorem raiseError_epoch (e : ErrorName) (n : Nat) (s : State) : (raiseError e n s).epoch = s.epoch := rfl

/-! ### finish -/

@[simp] theorem finish_status (s : State) : (finish s).status = { s.status with done := true } := rfl
@[simp] theorem finish_result (s : State) : (finish s).result = s.result := rfl
@[simp] theorem finish_errInfo (s : State) : (finish s).errInfo = s.errInfo := rfl
@[simp] theorem finish_outLen (s : State) : (finish s).outLen = s.outLen := rfl
@[simp] theorem finish_regs (s : State) : (finish s).regs = s.regs := rfl
@[simp] theorem finish_br (s : State) : (finish s).br = s.br := rfl
@[simp] theorem finish_lzWPos (s : State) : (finish s).lzWPos = s.lzWPos := rfl
@[simp] theorem finish_win (s : State) : (finish s).win = s.win := rfl
@[simp] theorem finish_tree (s : State) : (finish s).tree = s.tree := rfl
@[simp] theorem finish_prngState (s : State) : (finish s).prngState = s.prngState := rfl
@[simp] theorem finish_subValid (s : State) : (finish s).subValid = s.subValid := rfl
@[simp] theorem finish_sbox (s : State) : (finish s).sbox = s.sbox := rfl
@[simp] theorem finish_mem (s : State) : (finish s).mem = s.mem := rfl
@[simp] theorem finish_memBytes (s : State) : (finish s).memBytes = s.memBytes := rfl
@[simp] theorem finish_host (s : State) : (finish s).host = s.host := rfl
@[simp] theorem finish_lastRead (s : State) : (finish s).lastRead = s.lastRead := rfl
@[simp] theorem finish_epoch (s : State) : (finish s).epoch = s.epoch := rfl

/-! ### clearError -/

@[simp] theorem clearError_status (s : State) :
    (clearError s).status = { s.status with err := false, errCode := 0 } := rfl
@[simp] theorem clearError_result (s : State) : (clearError s).result = s.result := rfl
@[simp] theorem clearError_errInfo (s : State) : (clearError s).errInfo = 0 := rfl
@[simp] theorem clearError_outLen (s : State) : (clearError s).outLen = s.outLen := rfl
@[simp] theorem clearError_regs (s : State) : (clearError s).regs = s.regs := rfl
@[simp] theorem clearError_br (s : State) : (clearError s).br = s.br := rfl
@[simp] theorem clearError_lzWPos (s : State) : (clearError s).lzWPos = s.lzWPos := rfl
@[simp] theorem clearError_win (s : State) : (clearError s).win = s.win := rfl
@[simp] theorem clearError_tree (s : State) : (clearError s).tree = s.tree := rfl
@[simp] theorem clearError_prngState (s : State) : (clearError s).prngState = s.prngState := rfl
@[simp] theorem clearError_subValid (s : State) : (clearError s).subValid = s.subValid := rfl
@[simp] theorem clearError_sbox (s : State) : (clearError s).sbox = s.sbox := rfl
@[simp] theorem clearError_mem (s : State) : (clearError s).mem = s.mem := rfl
@[simp] theorem clearError_memBytes (s : State) : (clearError s).memBytes = s.memBytes := rfl
@[simp] theorem clearError_host (s : State) : (clearError s).host = s.host := rfl
@[simp] theorem clearError_lastRead (s : State) : (clearError s).lastRead = s.lastRead := rfl
@[simp] theorem clearError_epoch (s : State) : (clearError s).epoch = s.epoch := rfl

/-! ### setTerm -/

@[simp] theorem setTerm_status (b : Bool) (s : State) : (setTerm b s).status = { s.status with term := b } := rfl
@[simp] theorem setTerm_result (b : Bool) (s : State) : (setTerm b s).result = s.result := rfl
@[simp] theorem setTerm_errInfo (b : Bool) (s : State) : (setTerm b s).errInfo = s.errInfo := rfl
@[simp] theorem setTerm_outLen (b : Bool) (s : State) : (setTerm b s).outLen = s.outLen := rfl
@[simp] theorem setTerm_regs (b : Bool) (s : State) : (setTerm b s).regs = s.regs := rfl
@[simp] theorem setTerm_br (b : Bool) (s : State) : (setTerm b s).br = s.br := rfl
@[simp] theorem setTerm_lzWPos (b : Bool) (s : State) : (setTerm b s).lzWPos = s.lzWPos := rfl
@[simp] theorem setTerm_win (b : Bool) (s : State) : (setTerm b s).win = s.win := rfl
@[simp] theorem setTerm_tree (b : Bool) (s : State) : (setTerm b s).tree = s.tree := rfl
@[simp] theorem setTerm_prngState (b : Bool) (s : State) : (setTerm b s).prngState = s.prngState := rfl
@[simp] theorem setTerm_subValid (b : Bool) (s : State) : (setTerm b s).subValid = s.subValid := rfl
@[simp] theorem setTerm_sbox (b : Bool) (s : State) : (setTerm b s).sbox = s.sbox := rfl
@[simp] theorem setTerm_mem (b : Bool) (s : State) : (setTerm b s).mem = s.mem := rfl
@[simp] theorem setTerm_memBytes (b : Bool) (s : State) : (setTerm b s).memBytes = s.memBytes := rfl
@[simp] theorem setTerm_host (b : Bool) (s : State) : (setTerm b s).host = s.host := rfl
@[simp] theorem setTerm_lastRead (b : Bool) (s : State) : (setTerm b s).lastRead = s.lastRead := rfl
@[simp] theorem setTerm_epoch (b : Bool) (s : State) : (setTerm b s).epoch = s.epoch := rfl

/-! ### clearRegisters -/

@[simp] theorem clearRegisters_status (s : State) : (clearRegisters s).status = Status.zero := rfl
@[simp] theorem clearRegisters_result (s : State) : (clearRegisters s).result = 0 := rfl
@[simp] theorem clearRegisters_errInfo (s : State) : (clearRegisters s).errInfo = 0 := rfl
@[simp] theorem clearRegisters_outLen (s : State) : (clearRegisters s).outLen = 0 := rfl
@[simp] theorem clearRegisters_regs (s : State) : (clearRegisters s).regs = HostRegs.zero := rfl
@[simp] theorem clearRegisters_br (s : State) : (clearRegisters s).br = BitReader.zero := rfl
@[simp] theorem clearRegisters_lzWPos (s : State) : (clearRegisters s).lzWPos = 0 := rfl
@[simp] theorem clearRegisters_win (s : State) : (clearRegisters s).win = Window.unspecified s.epoch := rfl
@[simp] theorem clearRegisters_tree (s : State) : (clearRegisters s).tree = CodeTree.unspecified s.epoch := rfl
@[simp] theorem clearRegisters_prngState (s : State) : (clearRegisters s).prngState = 0 := rfl
@[simp] theorem clearRegisters_subValid (s : State) : (clearRegisters s).subValid = false := rfl
@[simp] theorem clearRegisters_sbox (s : State) :
    (clearRegisters s).sbox = Vector.ofFn (Config.unspecifiedSbox s.epoch) := rfl
@[simp] theorem clearRegisters_mem (s : State) : (clearRegisters s).mem = s.mem := rfl
@[simp] theorem clearRegisters_memBytes (s : State) : (clearRegisters s).memBytes = s.memBytes := rfl
@[simp] theorem clearRegisters_host (s : State) : (clearRegisters s).host = s.host := rfl
@[simp] theorem clearRegisters_lastRead (s : State) : (clearRegisters s).lastRead = s.lastRead := rfl
@[simp] theorem clearRegisters_epoch (s : State) : (clearRegisters s).epoch = s.epoch + 1 := rfl

/-! ### putByte -/

@[simp] theorem putByte_status (b : Byte) (s : State) : (putByte b s).status = s.status := rfl
@[simp] theorem putByte_result (b : Byte) (s : State) : (putByte b s).result = s.result := rfl
@[simp] theorem putByte_errInfo (b : Byte) (s : State) : (putByte b s).errInfo = s.errInfo := rfl
@[simp] theorem putByte_outLen (b : Byte) (s : State) : (putByte b s).outLen = s.outLen + 1 := rfl
@[simp] theorem putByte_regs (b : Byte) (s : State) : (putByte b s).regs = s.regs := rfl
@[simp] theorem putByte_br (b : Byte) (s : State) : (putByte b s).br = s.br := rfl
@[simp] theorem putByte_lzWPos (b : Byte) (s : State) : (putByte b s).lzWPos = s.lzWPos := rfl
@[simp] theorem putByte_win (b : Byte) (s : State) : (putByte b s).win = s.win := rfl
@[simp] theorem putByte_tree (b : Byte) (s : State) : (putByte b s).tree = s.tree := rfl
@[simp] theorem putByte_prngState (b : Byte) (s : State) : (putByte b s).prngState = s.prngState := rfl
@[simp] theorem putByte_subValid (b : Byte) (s : State) : (putByte b s).subValid = s.subValid := rfl
@[simp] theorem putByte_sbox (b : Byte) (s : State) : (putByte b s).sbox = s.sbox := rfl
@[simp] theorem putByte_mem (b : Byte) (s : State) : (putByte b s).mem = s.mem.write s.outputAddress b := rfl
@[simp] theorem putByte_memBytes (b : Byte) (s : State) : (putByte b s).memBytes = s.memBytes := rfl
@[simp] theorem putByte_host (b : Byte) (s : State) : (putByte b s).host = s.host := rfl
@[simp] theorem putByte_lastRead (b : Byte) (s : State) : (putByte b s).lastRead = s.lastRead := rfl
@[simp] theorem putByte_epoch (b : Byte) (s : State) : (putByte b s).epoch = s.epoch := rfl

/-! ### emit -/

@[simp] theorem emit_status (b : Byte) (s : State) : (emit b s).status = s.status := rfl
@[simp] theorem emit_result (b : Byte) (s : State) : (emit b s).result = s.result := rfl
@[simp] theorem emit_errInfo (b : Byte) (s : State) : (emit b s).errInfo = s.errInfo := rfl
@[simp] theorem emit_outLen (b : Byte) (s : State) : (emit b s).outLen = s.outLen + 1 := rfl
@[simp] theorem emit_regs (b : Byte) (s : State) : (emit b s).regs = s.regs := rfl
@[simp] theorem emit_br (b : Byte) (s : State) : (emit b s).br = s.br := rfl
@[simp] theorem emit_lzWPos (b : Byte) (s : State) :
    (emit b s).lzWPos = BitVec.ofNat 16 ((s.lzWPos.toNat + 1) % s.regs.lzCfg.windowSize) := rfl
@[simp] theorem emit_win (b : Byte) (s : State) : (emit b s).win = s.win.write s.lzWPos.toNat b := rfl
@[simp] theorem emit_tree (b : Byte) (s : State) : (emit b s).tree = s.tree := rfl
@[simp] theorem emit_prngState (b : Byte) (s : State) : (emit b s).prngState = s.prngState := rfl
@[simp] theorem emit_subValid (b : Byte) (s : State) : (emit b s).subValid = s.subValid := rfl
@[simp] theorem emit_sbox (b : Byte) (s : State) : (emit b s).sbox = s.sbox := rfl
@[simp] theorem emit_mem (b : Byte) (s : State) : (emit b s).mem = s.mem.write s.outputAddress b := rfl
@[simp] theorem emit_memBytes (b : Byte) (s : State) : (emit b s).memBytes = s.memBytes := rfl
@[simp] theorem emit_host (b : Byte) (s : State) : (emit b s).host = s.host := rfl
@[simp] theorem emit_lastRead (b : Byte) (s : State) : (emit b s).lastRead = s.lastRead := rfl
@[simp] theorem emit_epoch (b : Byte) (s : State) : (emit b s).epoch = s.epoch := rfl

/-! ### lzInit -/

@[simp] theorem lzInit_status (s : State) : (lzInit s).status = s.status := rfl
@[simp] theorem lzInit_result (s : State) : (lzInit s).result = s.result := rfl
@[simp] theorem lzInit_errInfo (s : State) : (lzInit s).errInfo = s.errInfo := rfl
@[simp] theorem lzInit_outLen (s : State) : (lzInit s).outLen = 0 := rfl
@[simp] theorem lzInit_regs (s : State) : (lzInit s).regs = s.regs := rfl
@[simp] theorem lzInit_br (s : State) : (lzInit s).br = s.br := rfl
@[simp] theorem lzInit_lzWPos (s : State) : (lzInit s).lzWPos = s.regs.lzInitPos := rfl
@[simp] theorem lzInit_win (s : State) : (lzInit s).win = s.win.fill s.regs.lzCfg.windowSize s.regs.lzFill := rfl
@[simp] theorem lzInit_tree (s : State) : (lzInit s).tree = s.tree := rfl
@[simp] theorem lzInit_prngState (s : State) : (lzInit s).prngState = s.prngState := rfl
@[simp] theorem lzInit_subValid (s : State) : (lzInit s).subValid = s.subValid := rfl
@[simp] theorem lzInit_sbox (s : State) : (lzInit s).sbox = s.sbox := rfl
@[simp] theorem lzInit_mem (s : State) : (lzInit s).mem = s.mem := rfl
@[simp] theorem lzInit_memBytes (s : State) : (lzInit s).memBytes = s.memBytes := rfl
@[simp] theorem lzInit_host (s : State) : (lzInit s).host = s.host := rfl
@[simp] theorem lzInit_lastRead (s : State) : (lzInit s).lastRead = s.lastRead := rfl
@[simp] theorem lzInit_epoch (s : State) : (lzInit s).epoch = s.epoch := rfl

/-! ### clearTree -/

@[simp] theorem clearTree_status (s : State) : (clearTree s).status = s.status := rfl
@[simp] theorem clearTree_result (s : State) : (clearTree s).result = s.result := rfl
@[simp] theorem clearTree_errInfo (s : State) : (clearTree s).errInfo = s.errInfo := rfl
@[simp] theorem clearTree_outLen (s : State) : (clearTree s).outLen = s.outLen := rfl
@[simp] theorem clearTree_regs (s : State) : (clearTree s).regs = s.regs := rfl
@[simp] theorem clearTree_br (s : State) : (clearTree s).br = s.br := rfl
@[simp] theorem clearTree_lzWPos (s : State) : (clearTree s).lzWPos = s.lzWPos := rfl
@[simp] theorem clearTree_win (s : State) : (clearTree s).win = s.win := rfl
@[simp] theorem clearTree_tree (s : State) : (clearTree s).tree = { s.tree with valid := false, nnodes := 0 } := rfl
@[simp] theorem clearTree_prngState (s : State) : (clearTree s).prngState = s.prngState := rfl
@[simp] theorem clearTree_subValid (s : State) : (clearTree s).subValid = s.subValid := rfl
@[simp] theorem clearTree_sbox (s : State) : (clearTree s).sbox = s.sbox := rfl
@[simp] theorem clearTree_mem (s : State) : (clearTree s).mem = s.mem := rfl
@[simp] theorem clearTree_memBytes (s : State) : (clearTree s).memBytes = s.memBytes := rfl
@[simp] theorem clearTree_host (s : State) : (clearTree s).host = s.host := rfl
@[simp] theorem clearTree_lastRead (s : State) : (clearTree s).lastRead = s.lastRead := rfl
@[simp] theorem clearTree_epoch (s : State) : (clearTree s).epoch = s.epoch := rfl

/-! ### editNode -/

@[simp] theorem editNode_status (n : Fin 1023) (f : Node → Node) (s : State) :
    (editNode n f s).status = s.status := rfl
@[simp] theorem editNode_result (n : Fin 1023) (f : Node → Node) (s : State) :
    (editNode n f s).result = s.result := rfl
@[simp] theorem editNode_errInfo (n : Fin 1023) (f : Node → Node) (s : State) :
    (editNode n f s).errInfo = s.errInfo := rfl
@[simp] theorem editNode_outLen (n : Fin 1023) (f : Node → Node) (s : State) :
    (editNode n f s).outLen = s.outLen := rfl
@[simp] theorem editNode_regs (n : Fin 1023) (f : Node → Node) (s : State) : (editNode n f s).regs = s.regs := rfl
@[simp] theorem editNode_br (n : Fin 1023) (f : Node → Node) (s : State) : (editNode n f s).br = s.br := rfl
@[simp] theorem editNode_lzWPos (n : Fin 1023) (f : Node → Node) (s : State) :
    (editNode n f s).lzWPos = s.lzWPos := rfl
@[simp] theorem editNode_win (n : Fin 1023) (f : Node → Node) (s : State) : (editNode n f s).win = s.win := rfl
@[simp] theorem editNode_tree (n : Fin 1023) (f : Node → Node) (s : State) :
    (editNode n f s).tree = s.tree.setNode n (f (s.tree.nodeAt n)) := rfl
@[simp] theorem editNode_prngState (n : Fin 1023) (f : Node → Node) (s : State) :
    (editNode n f s).prngState = s.prngState := rfl
@[simp] theorem editNode_subValid (n : Fin 1023) (f : Node → Node) (s : State) :
    (editNode n f s).subValid = s.subValid := rfl
@[simp] theorem editNode_sbox (n : Fin 1023) (f : Node → Node) (s : State) : (editNode n f s).sbox = s.sbox := rfl
@[simp] theorem editNode_mem (n : Fin 1023) (f : Node → Node) (s : State) : (editNode n f s).mem = s.mem := rfl
@[simp] theorem editNode_memBytes (n : Fin 1023) (f : Node → Node) (s : State) :
    (editNode n f s).memBytes = s.memBytes := rfl
@[simp] theorem editNode_host (n : Fin 1023) (f : Node → Node) (s : State) : (editNode n f s).host = s.host := rfl
@[simp] theorem editNode_lastRead (n : Fin 1023) (f : Node → Node) (s : State) :
    (editNode n f s).lastRead = s.lastRead := rfl
@[simp] theorem editNode_epoch (n : Fin 1023) (f : Node → Node) (s : State) : (editNode n f s).epoch = s.epoch := rfl

/-! ### finishTree -/

@[simp] theorem finishTree_status (k : TreeKind) (s : State) : (finishTree k s).status = s.status := rfl
@[simp] theorem finishTree_result (k : TreeKind) (s : State) : (finishTree k s).result = s.result := rfl
@[simp] theorem finishTree_errInfo (k : TreeKind) (s : State) : (finishTree k s).errInfo = s.errInfo := rfl
@[simp] theorem finishTree_outLen (k : TreeKind) (s : State) : (finishTree k s).outLen = s.outLen := rfl
@[simp] theorem finishTree_regs (k : TreeKind) (s : State) : (finishTree k s).regs = s.regs := rfl
@[simp] theorem finishTree_br (k : TreeKind) (s : State) : (finishTree k s).br = s.br := rfl
@[simp] theorem finishTree_lzWPos (k : TreeKind) (s : State) : (finishTree k s).lzWPos = s.lzWPos := rfl
@[simp] theorem finishTree_win (k : TreeKind) (s : State) : (finishTree k s).win = s.win := rfl
@[simp] theorem finishTree_tree (k : TreeKind) (s : State) :
    (finishTree k s).tree = { s.tree with kind := k, valid := true } := rfl
@[simp] theorem finishTree_prngState (k : TreeKind) (s : State) : (finishTree k s).prngState = s.prngState := rfl
@[simp] theorem finishTree_subValid (k : TreeKind) (s : State) : (finishTree k s).subValid = s.subValid := rfl
@[simp] theorem finishTree_sbox (k : TreeKind) (s : State) : (finishTree k s).sbox = s.sbox := rfl
@[simp] theorem finishTree_mem (k : TreeKind) (s : State) : (finishTree k s).mem = s.mem := rfl
@[simp] theorem finishTree_memBytes (k : TreeKind) (s : State) : (finishTree k s).memBytes = s.memBytes := rfl
@[simp] theorem finishTree_host (k : TreeKind) (s : State) : (finishTree k s).host = s.host := rfl
@[simp] theorem finishTree_lastRead (k : TreeKind) (s : State) : (finishTree k s).lastRead = s.lastRead := rfl
@[simp] theorem finishTree_epoch (k : TreeKind) (s : State) : (finishTree k s).epoch = s.epoch := rfl

/-! ### fillTable -/

@[simp] theorem fillTable_status (t : Vector Byte 256) (s : State) : (fillTable t s).status = s.status := rfl
@[simp] theorem fillTable_result (t : Vector Byte 256) (s : State) : (fillTable t s).result = s.result := rfl
@[simp] theorem fillTable_errInfo (t : Vector Byte 256) (s : State) : (fillTable t s).errInfo = s.errInfo := rfl
@[simp] theorem fillTable_outLen (t : Vector Byte 256) (s : State) : (fillTable t s).outLen = s.outLen := rfl
@[simp] theorem fillTable_regs (t : Vector Byte 256) (s : State) : (fillTable t s).regs = s.regs := rfl
@[simp] theorem fillTable_br (t : Vector Byte 256) (s : State) : (fillTable t s).br = s.br := rfl
@[simp] theorem fillTable_lzWPos (t : Vector Byte 256) (s : State) : (fillTable t s).lzWPos = s.lzWPos := rfl
@[simp] theorem fillTable_win (t : Vector Byte 256) (s : State) : (fillTable t s).win = s.win := rfl
@[simp] theorem fillTable_tree (t : Vector Byte 256) (s : State) : (fillTable t s).tree = s.tree := rfl
@[simp] theorem fillTable_prngState (t : Vector Byte 256) (s : State) : (fillTable t s).prngState = s.prngState := rfl
@[simp] theorem fillTable_subValid (t : Vector Byte 256) (s : State) : (fillTable t s).subValid = true := rfl
@[simp] theorem fillTable_sbox (t : Vector Byte 256) (s : State) : (fillTable t s).sbox = t := rfl
@[simp] theorem fillTable_mem (t : Vector Byte 256) (s : State) : (fillTable t s).mem = s.mem := rfl
@[simp] theorem fillTable_memBytes (t : Vector Byte 256) (s : State) : (fillTable t s).memBytes = s.memBytes := rfl
@[simp] theorem fillTable_host (t : Vector Byte 256) (s : State) : (fillTable t s).host = s.host := rfl
@[simp] theorem fillTable_lastRead (t : Vector Byte 256) (s : State) : (fillTable t s).lastRead = s.lastRead := rfl
@[simp] theorem fillTable_epoch (t : Vector Byte 256) (s : State) : (fillTable t s).epoch = s.epoch := rfl

/-! ### queueCommand -/

@[simp] theorem queueCommand_status (w : Word) (s : State) : (queueCommand w s).status = s.status := rfl
@[simp] theorem queueCommand_result (w : Word) (s : State) : (queueCommand w s).result = s.result := rfl
@[simp] theorem queueCommand_errInfo (w : Word) (s : State) : (queueCommand w s).errInfo = s.errInfo := rfl
@[simp] theorem queueCommand_outLen (w : Word) (s : State) : (queueCommand w s).outLen = s.outLen := rfl
@[simp] theorem queueCommand_regs (w : Word) (s : State) : (queueCommand w s).regs = s.regs := rfl
@[simp] theorem queueCommand_br (w : Word) (s : State) : (queueCommand w s).br = s.br := rfl
@[simp] theorem queueCommand_lzWPos (w : Word) (s : State) : (queueCommand w s).lzWPos = s.lzWPos := rfl
@[simp] theorem queueCommand_win (w : Word) (s : State) : (queueCommand w s).win = s.win := rfl
@[simp] theorem queueCommand_tree (w : Word) (s : State) : (queueCommand w s).tree = s.tree := rfl
@[simp] theorem queueCommand_prngState (w : Word) (s : State) : (queueCommand w s).prngState = s.prngState := rfl
@[simp] theorem queueCommand_subValid (w : Word) (s : State) : (queueCommand w s).subValid = s.subValid := rfl
@[simp] theorem queueCommand_sbox (w : Word) (s : State) : (queueCommand w s).sbox = s.sbox := rfl
@[simp] theorem queueCommand_mem (w : Word) (s : State) : (queueCommand w s).mem = s.mem := rfl
@[simp] theorem queueCommand_memBytes (w : Word) (s : State) : (queueCommand w s).memBytes = s.memBytes := rfl
@[simp] theorem queueCommand_host (w : Word) (s : State) : (queueCommand w s).host = .writeReg 0 w :: s.host := rfl
@[simp] theorem queueCommand_lastRead (w : Word) (s : State) : (queueCommand w s).lastRead = s.lastRead := rfl
@[simp] theorem queueCommand_epoch (w : Word) (s : State) : (queueCommand w s).epoch = s.epoch := rfl

/-! ### The parts of a tree -/

@[simp] theorem setNode_valid (t : CodeTree) (n : Fin 1023) (v : Node) : (t.setNode n v).valid = t.valid := rfl
@[simp] theorem setNode_kind (t : CodeTree) (n : Fin 1023) (v : Node) : (t.setNode n v).kind = t.kind := rfl
@[simp] theorem setNode_nnodes (t : CodeTree) (n : Fin 1023) (v : Node) : (t.setNode n v).nnodes = t.nnodes := rfl

theorem withFetchWord_eq (s : State) (nbits w : Nat) :
    s.withFetchWord nbits w = queueCommand (BitVec.ofNat 32 (w % 2 ^ nbits)) s := rfl

end Sys2Proof.Machine
end

