-- ==== Sys2Proof/Laws/Ops.lean ====
section
/-! SUPPORT. What the shared operations do, said once each: cells, MEM, WIN, tables, nodes, loops, results, checks
and the acceptance of a command. -/

namespace Sys2Proof.Machine

/-! ### Cells -/

/-- Looking up after listing a byte; the order of the cells plays no part. -/
theorem lookupCell_insertCell (cs : List Host.Cell) (a : Nat) (b : Byte) (c : Nat) :
    lookupCell (insertCell cs a b) c = if c = a then some b else lookupCell cs c := by
  induction cs with
  | nil => simp [insertCell, lookupCell, eq_comm]
  | cons d ds ih =>
    unfold insertCell
    split
    · simp [lookupCell, eq_comm]
    · split
      · rename_i h; subst h; by_cases hc : c = d.1 <;> simp [lookupCell, hc, eq_comm]
      · rename_i h
        by_cases hd : d.1 = c
        · simp [lookupCell, hd, show c ≠ a by rintro rfl; exact h hd]
        · simp [lookupCell, hd, ih]

/-- Looking up after dropping the cells below an index. -/
theorem lookupCell_filter_ge (cs : List Host.Cell) (n a : Nat) :
    lookupCell (cs.filter fun c => n ≤ c.1) a = if n ≤ a then lookupCell cs a else none := by
  induction cs with
  | nil => simp [lookupCell]
  | cons d ds ih =>
    by_cases h : n ≤ d.1
    · by_cases hd : d.1 = a
      · subst hd; simp [h, lookupCell]
      · simp [h, lookupCell, hd, ih]
    · by_cases hd : d.1 = a
      · subst hd; simp [h, ih]
      · simp [h, lookupCell, hd, ih]

/-- The canonical form as a pairwise order. -/
theorem risingCells_iff (cs : List Host.Cell) :
    risingCells cs = true ↔ cs.Pairwise fun c d => c.1 < d.1 := by
  induction cs with
  | nil => simp [risingCells]
  | cons c cs ih =>
    cases cs with
    | nil => simp [risingCells]
    | cons d ds =>
      have hds : risingCells (c :: d :: ds) = true ↔ c.1 < d.1 ∧ risingCells (d :: ds) = true := by
        simp [risingCells]
      rw [hds, ih]
      simp only [List.pairwise_cons, List.mem_cons, forall_eq_or_imp]
      constructor
      · rintro ⟨h, hd, hp⟩
        exact ⟨⟨h, fun e he => h.trans (hd e he)⟩, hd, hp⟩
      · rintro ⟨⟨h, -⟩, hd, hp⟩
        exact ⟨h, hd, hp⟩

theorem mem_insertCell {cs : List Host.Cell} {a : Nat} {b : Byte} {c : Host.Cell}
    (h : c ∈ insertCell cs a b) : c = (a, b) ∨ c ∈ cs := by
  induction cs with
  | nil => simpa [insertCell] using h
  | cons d ds ih =>
    unfold insertCell at h
    split at h
    · simpa using h
    · split at h
      · rcases List.mem_cons.1 h with h | h
        · exact .inl h
        · exact .inr (List.mem_cons_of_mem _ h)
      · rcases List.mem_cons.1 h with h | h
        · exact .inr (h ▸ List.mem_cons_self ..)
        · exact (ih h).imp id (List.mem_cons_of_mem _)

/-- Listing a byte keeps the canonical form. -/
theorem risingCells_insertCell {cs : List Host.Cell} (a : Nat) (b : Byte) (h : risingCells cs = true) :
    risingCells (insertCell cs a b) = true := by
  rw [risingCells_iff] at h ⊢
  induction cs with
  | nil => simp [insertCell]
  | cons d ds ih =>
    obtain ⟨hd, hp⟩ := List.pairwise_cons.1 h
    unfold insertCell
    split
    · rename_i hlt
      refine List.pairwise_cons.2 ⟨fun c hc => ?_, h⟩
      rcases List.mem_cons.1 hc with rfl | hc
      · exact hlt
      · exact hlt.trans (hd c hc)
    · split
      · rename_i heq
        exact List.pairwise_cons.2 ⟨fun c hc => heq ▸ hd c hc, hp⟩
      · rename_i hnlt hne
        refine List.pairwise_cons.2 ⟨fun c hc => ?_, ih hp⟩
        rcases mem_insertCell hc with rfl | hc
        · show d.1 < a
          omega
        · exact hd c hc

theorem risingCells_filter {cs : List Host.Cell} (p : Host.Cell → Bool) (h : risingCells cs = true) :
    risingCells (cs.filter p) = true := by
  rw [risingCells_iff] at h ⊢
  exact h.filter p

/-! ### MEM (20_memory R80, R91) -/

/-- A read gives the last byte written there, and a write leaves every other byte alone. -/
theorem Memory.read_write (m : Memory) (a : Nat) (b : Byte) (c : Nat) :
    (m.write a b).read c = if c = a then b else m.read c := by
  by_cases h : c = a <;> simp [Memory.read, Memory.written, Memory.write, lookupCell_insertCell, h]

@[simp] theorem Memory.read_write_same (m : Memory) (a : Nat) (b : Byte) : (m.write a b).read a = b := by
  simp [Memory.read_write]

theorem Memory.read_write_other {a c : Nat} (m : Memory) (b : Byte) (h : c ≠ a) :
    (m.write a b).read c = m.read c := by simp [Memory.read_write, h]

@[simp] theorem Memory.write_epoch (m : Memory) (a : Nat) (b : Byte) : (m.write a b).epoch = m.epoch := rfl

/-- A write keeps the canonical form. -/
theorem Memory.wf_write {m : Memory} (a : Nat) (b : Byte) (h : m.wf = true) : (m.write a b).wf = true :=
  risingCells_insertCell a b h

theorem Memory.within_write {m : Memory} {n a : Nat} (b : Byte) (h : m.within n) (ha : a < n) :
    (m.write a b).within n := by
  intro c hc
  rcases mem_insertCell hc with rfl | hc
  · exact ha
  · exact h c hc

theorem Memory.wf_unspecified (epoch : Nat) : (Memory.unspecified epoch).wf = true := rfl

/-- The memory after hardware reset has the canonical form. -/
theorem reset_mem_wf : State.reset.mem.wf = true := rfl

/-! ### Loops -/

@[simp] theorem forUp_zero {σ : Type} (f : Nat → σ → σ) (start : Nat) (s : σ) : forUp f 0 start s = s := rfl

theorem forUp_succ {σ : Type} (f : Nat → σ → σ) (n start : Nat) (s : σ) :
    forUp f (n + 1) start s = forUp f n (start + 1) (f start s) := rfl

/-- The loop's last pass. -/
theorem forUp_succ_last {σ : Type} (f : Nat → σ → σ) (n start : Nat) (s : σ) :
    forUp f (n + 1) start s = f (start + n) (forUp f n start s) := by
  induction n generalizing start s with
  | zero => rfl
  | succ n ih => rw [forUp_succ, ih, forUp_succ, Nat.add_right_comm, Nat.add_assoc]

/-- What every pass keeps, the loop keeps. -/
theorem forUp_keeps {σ : Type} {f : Nat → σ → σ} (p : σ → Prop) (n start : Nat) (s : σ)
    (hf : ∀ i s, start ≤ i → i < start + n → p s → p (f i s)) (h : p s) : p (forUp f n start s) := by
  induction n generalizing start s with
  | zero => exact h
  | succ n ih =>
    rw [forUp_succ]
    exact ih _ _ (fun i s h1 h2 => hf i s (by omega) (by omega)) (hf start s (by omega) (by omega) h)

/-- A loop that writes one byte per pass, at `base + i`, a function of the byte found there: the bytes it covers
get that function once, the others keep their value. -/
theorem Memory.read_forUp_map (g : Nat → Byte → Byte) (base n start : Nat) (m : Memory) (a : Nat) :
    (forUp (fun i (m : Memory) => m.write (base + i) (g i (m.read (base + i)))) n start m).read a =
      if base + start ≤ a ∧ a < base + start + n then g (a - base) (m.read a) else m.read a := by
  induction n generalizing start m with
  | zero => simp
  | succ n ih =>
    rw [forUp_succ, ih, Memory.read_write]
    by_cases h : a = base + start
    · subst h; simp
    · simp only [h, if_false]
      congr 1
      exact propext (by omega)

theorem Memory.wf_forUp {f : Nat → Memory → Memory} (n start : Nat) (m : Memory)
    (hf : ∀ i m, m.wf = true → (f i m).wf = true) (h : m.wf = true) : (forUp f n start m).wf = true :=
  forUp_keeps (fun m => m.wf = true) n start m (fun i m _ _ => hf i m) h

/-! ### WIN (10_state R48; 41_lz R164) -/

theorem Window.read_write (w : Window) (a : Nat) (b : Byte) (c : Nat) :
    (w.write a b).read c = if c = a then b else w.read c := by
  by_cases h : c = a <;> simp [Window.read, Window.write, Window.background, lookupCell_insertCell, h]

/-- The initial fill: the byte at every position below `n`, the old bytes above. -/
theorem Window.read_fill (w : Window) (n : Nat) (b : Byte) (i : Nat) :
    (w.fill n b).read i = if i < n then b else w.read i := by
  have key : ∀ fs : List Host.Cell, n ≤ i →
      (fs.filter fun f => n < f.1).find? (fun f => i < f.1) = fs.find? fun f => i < f.1 := by
    intro fs hi
    induction fs with
    | nil => rfl
    | cons f fs ih =>
      by_cases h : n < f.1
      · simp [h, List.find?_cons, ih]
      · have : ¬i < f.1 := by omega
        simp [h, ih, this]
  by_cases h : i < n
  · simp [Window.read, Window.fill, Window.background, lookupCell_filter_ge, h, Nat.not_le.2 h]
  · have hn : n ≤ i := Nat.not_lt.1 h
    simp [Window.read, Window.fill, Window.background, lookupCell_filter_ge, h, hn, key]

theorem Window.wf_write {w : Window} (a : Nat) (b : Byte) (h : w.wf = true) : (w.write a b).wf = true := by
  simp only [Window.wf, Bool.and_eq_true, Window.write] at h ⊢
  exact ⟨risingCells_insertCell a b h.1, h.2⟩

theorem Window.wf_fill {w : Window} (n : Nat) (b : Byte) (h : w.wf = true) : (w.fill n b).wf = true := by
  simp only [Window.wf, Bool.and_eq_true, Window.fill] at h ⊢
  refine ⟨risingCells_filter _ h.1, ?_⟩
  rw [risingCells_iff]
  refine List.pairwise_cons.2 ⟨fun f hf => ?_, ((risingCells_iff _).1 h.2).filter _⟩
  simpa using (List.mem_filter.1 hf).2

/-- A write at a position of WIN keeps the bounds. -/
theorem Window.within_write {w : Window} {a : Nat} (b : Byte) (h : w.within) (ha : a < 2 ^ 16) :
    (w.write a b).within := by
  refine ⟨fun c hc => ?_, h.2⟩
  rcases mem_insertCell hc with rfl | hc
  · exact ha
  · exact h.1 c hc

/-- A fill of at most 65,536 positions keeps the bounds. -/
theorem Window.within_fill {w : Window} {n : Nat} (b : Byte) (h : w.within) (hn : n ≤ 2 ^ 16) :
    (w.fill n b).within := by
  refine ⟨fun c hc => h.1 c (List.mem_filter.1 hc).1, fun f hf => ?_⟩
  rcases List.mem_cons.1 hf with rfl | hf
  · exact hn
  · exact h.2 f (List.mem_filter.1 hf).1

theorem Window.within_unspecified (epoch : Nat) : (Window.unspecified epoch).within :=
  ⟨fun _ h => (nomatch h), fun _ h => (nomatch h)⟩

/-! ### Tables and nodes -/

theorem tableGet_tableSet (t : Vector Byte 256) (a v b : Byte) :
    tableGet (tableSet t a v) b = if b = a then v else tableGet t b := by
  unfold tableGet tableSet
  by_cases h : b = a
  · subst h; simp
  · have : a.toNat ≠ b.toNat := fun e => h (BitVec.eq_of_toNat_eq e.symm)
    simp [h, Vector.getElem_set_ne, this]

/-- An exchange of two entries is a composition with a transposition (44_subst R240). -/
theorem tableGet_swapEntries (a j : Byte) (t : Vector Byte 256) (b : Byte) :
    tableGet (swapEntries a j t) b = tableGet t (Equiv.swap a j b) := by
  simp only [swapEntries, tableGet_tableSet, Equiv.swap_apply_def]
  by_cases h : b = j <;> by_cases h' : b = a <;> simp_all

theorem CodeTree.nodeAt_setNode (t : CodeTree) (n : Fin 1023) (v : Node) (i : Fin 1023) :
    (t.setNode n v).nodeAt i = if i = n then v else t.nodeAt i := by
  unfold CodeTree.nodeAt CodeTree.setNode
  by_cases h : i = n
  · subst h; simp
  · have : n.val ≠ i.val := fun e => h (Fin.ext e.symm)
    simp [h, Vector.getElem_set_ne, this]

/-! ### Results -/

@[simp] theorem Res.bind_of_ok {σ α β : Type} (a : α) (s : σ) (f : α → σ → Res σ β) :
    (Res.ok a s).bind f = f a s := rfl

@[simp] theorem Res.bind_of_raised {σ α β : Type} (e : ErrorName) (info : Nat) (s : σ) (f : α → σ → Res σ β) :
    (Res.raised e info s : Res σ α).bind f = .raised e info s := rfl

/-- The only ways a sequence succeeds. -/
theorem Res.bind_eq_ok {σ α β : Type} {x : Res σ α} {f : α → σ → Res σ β} {b : β} {u : σ} :
    x.bind f = .ok b u ↔ ∃ a t, x = .ok a t ∧ f a t = .ok b u := by
  cases x <;> simp [Res.bind]

/-- The only ways a sequence raises. -/
theorem Res.bind_eq_raised {σ α β : Type} {x : Res σ α} {f : α → σ → Res σ β} {e : ErrorName} {info : Nat} {u : σ} :
    x.bind f = .raised e info u ↔
      x = .raised e info u ∨ ∃ a t, x = .ok a t ∧ f a t = .raised e info u := by
  cases x <;> simp [Res.bind]

theorem Res.mapState_eq_ok {σ τ α : Type} {g : σ → τ} {x : Res σ α} {a : α} {u : τ} :
    x.mapState g = .ok a u ↔ ∃ t, x = .ok a t ∧ u = g t := by
  cases x <;> simp [Res.mapState, eq_comm]

theorem Res.mapState_eq_raised {σ τ α : Type} {g : σ → τ} {x : Res σ α} {e : ErrorName} {info : Nat} {u : τ} :
    x.mapState g = .raised e info u ↔ ∃ t, x = .raised e info t ∧ u = g t := by
  cases x <;> simp [Res.mapState, eq_comm, and_assoc]

/-! ### Checks (60_exceptions R304) -/

@[simp] theorem firstFailure_nil : firstFailure [] = none := rfl

theorem firstFailure_cons (c : Check) (cs : List Check) :
    firstFailure (c :: cs) = if c.pass then firstFailure cs else some c := rfl

theorem firstFailure_eq_none {cs : List Check} : firstFailure cs = none ↔ ∀ c ∈ cs, c.pass = true := by
  induction cs with
  | nil => simp
  | cons c cs ih => cases h : c.pass <;> simp [firstFailure, h, ih]

theorem firstFailure_eq_some {cs : List Check} {c : Check} (h : firstFailure cs = some c) :
    c ∈ cs ∧ c.pass = false := by
  induction cs with
  | nil => simp at h
  | cons d ds ih =>
    rw [firstFailure_cons] at h
    split at h
    · exact ⟨List.mem_cons_of_mem _ (ih h).1, (ih h).2⟩
    · obtain rfl := Option.some.inj h
      exact ⟨List.mem_cons_self .., Bool.eq_false_iff.2 ‹_›⟩

/-- What a checked body can do: raise the first failing check on the unchanged state, or run with every check
passed. -/
theorem withChecks_cases (checks : State → List Check) (body : State → Res State Unit) (s : State) :
    (∃ c, firstFailure (checks s) = some c ∧ c ∈ checks s ∧ c.pass = false
        ∧ withChecks checks body s = .raised c.err c.info s)
    ∨ ((∀ c ∈ checks s, c.pass = true) ∧ withChecks checks body s = body s) := by
  unfold withChecks
  cases h : firstFailure (checks s) with
  | none => exact .inr ⟨firstFailure_eq_none.1 h, rfl⟩
  | some c => exact .inl ⟨c, rfl, (firstFailure_eq_some h).1, (firstFailure_eq_some h).2, rfl⟩

/-! ### Acceptance (60_exceptions R307) -/

/-- In the error state a command is ignored. -/
theorem runCommand_ignored {body : State → Res State Unit} {s : State} (h : s.status.err = true) :
    runCommand body s = s := by simp [runCommand, h]

/-- Otherwise it is accepted, run and concluded. -/
theorem runCommand_accepted {body : State → Res State Unit} {s : State} (h : s.status.err = false) :
    runCommand body s = conclude (body (accept s)) := by simp [runCommand, h]

@[simp] theorem conclude_ok (s : State) : conclude (.ok () s) = finish s := rfl

@[simp] theorem conclude_raised (e : ErrorName) (info : Nat) (s : State) :
    conclude (.raised e info s) = raiseError e info s := rfl

/-- An error raised on the accepted state is a refusal: nothing else has changed. -/
theorem raiseError_accept (e : ErrorName) (info : Nat) (s : State) :
    raiseError e info (accept s) = s.refused e info := rfl

end Sys2Proof.Machine
end

