-- ==== Sys2Proof/Laws/Ciphers.lean ====
section
/-! SUPPORT. What the ciphers' memory operations do, and that each keeps the canonical form of MEM. -/

namespace Sys2Proof.Machine

theorem Memory.read_xorAt (m : Memory) (a : Nat) (k : Byte) (c : Nat) :
    (m.xorAt a k).read c = if c = a then m.read a ^^^ k else m.read c := by
  rw [Memory.xorAt, Memory.read_write]

theorem Memory.wf_xorAt {m : Memory} (a : Nat) (k : Byte) (h : m.wf = true) : (m.xorAt a k).wf = true :=
  Memory.wf_write a _ h

theorem Memory.wf_writeBlock {m : Memory} (a : Nat) (b : Block) (h : m.wf = true) : (m.writeBlock a b).wf = true :=
  Memory.wf_forUp 16 0 m (fun _ _ => Memory.wf_write _ _) h

/-- A block write sets its 16 bytes and no other (20_memory R85). -/
theorem Memory.read_writeBlock (m : Memory) (a : Nat) (b : Block) (c : Nat) :
    (m.writeBlock a b).read c = if a ≤ c ∧ c < a + 16 then b.toList.getD (c - a) 0 else m.read c := by
  unfold Memory.writeBlock
  have h := Memory.read_forUp_map (fun i _ => b.toList.getD i 0) a 16 0 m c
  simpa using h

/-- The new bytes of a permuted table are those of the old one (44_subst R241). -/
theorem tableGet_tripleTable (t : Vector Byte 256) (b : Byte) :
    tableGet (tripleTable t) b = tableGet t (tableGet t (tableGet t b)) := by
  show (tripleTable t)[b.toNat]'b.isLt = _
  simp [tripleTable]

/-- CBCDEC's key, IV and blocks are byte strings in address order (45_cbc R256). -/
theorem Memory.readBlock_get (m : Memory) (a : Nat) (i : Fin 16) : (m.readBlock a)[i] = m.read (a + i.val) := by
  simp [Memory.readBlock]

end Sys2Proof.Machine
end

