-- ==== Sys2Proof/Laws/Reader.lean ====
section
/-! SUPPORT. What the bit reader's operations can do, said once each: refill, take, a field, a byte. -/

namespace Sys2Proof.Machine

/-! ### One source -/

theorem BitReader.sameSource_refl (r : BitReader) : r.sameSource r := ⟨rfl, rfl, rfl, rfl, rfl⟩

theorem BitReader.sameSource_trans {r q p : BitReader} (h : r.sameSource q) (h' : q.sameSource p) :
    r.sameSource p := by
  obtain ⟨a, b, c, d, e⟩ := h
  obtain ⟨a', b', c', d', e'⟩ := h'
  exact ⟨a.trans a', b.trans b', c.trans c', d.trans d', e.trans e'⟩

theorem RefillUnit.bytes_pos (u : RefillUnit) : 0 < u.bytes := by cases u <;> decide

theorem RefillUnit.bytes_le (u : RefillUnit) : u.bytes ≤ 4 := by cases u <;> decide

theorem RefillUnit.ofCode_code (u : RefillUnit) : RefillUnit.ofCode u.code = some u := by cases u <;> rfl

/-! ### Refill, Take (40_bitreader R143, R144) -/

/-- A refill loads a whole unit, or raises with the accumulator empty and the position unmoved. -/
theorem BitReader.refillUnit_cases (m : Memory) (r : BitReader) :
    (r.endAddr.toNat < r.pos.toNat + r.refill.bytes
      ∧ r.refillUnit m = .raised .unexpectedEndOfStream r.pos.toNat { r with acc := 0, cnt := 0 })
    ∨ (r.pos.toNat + r.refill.bytes ≤ r.endAddr.toNat
      ∧ r.refillUnit m = .ok ()
          { r with
            acc := BitVec.ofNat 32 (r.unitAt m r.pos.toNat)
            pos := BitVec.ofNat 32 (r.pos.toNat + r.refill.bytes)
            cnt := BitVec.ofNat 6 (8 * r.refill.bytes) }) := by
  unfold BitReader.refillUnit
  split
  · exact .inl ⟨by omega, rfl⟩
  · exact .inr ⟨by omega, rfl⟩

/-- Taking bits changes the accumulator and the count alone. -/
theorem BitReader.take_reader (k : Nat) (r : BitReader) :
    ∃ acc, (r.take k).2 = { r with acc := acc, cnt := BitVec.ofNat 6 (r.cnt.toNat - k) } := by
  unfold BitReader.take
  cases r.order <;> exact ⟨_, rfl⟩

theorem BitReader.take_lt (k : Nat) (r : BitReader) : (r.take k).1 < 2 ^ k := by
  unfold BitReader.take
  cases r.order <;> exact Nat.mod_lt _ (Nat.two_pow_pos k)

theorem BitReader.sameSource_take (k : Nat) (r : BitReader) : r.sameSource (r.take k).2 := by
  obtain ⟨acc, h⟩ := r.take_reader k
  rw [h]
  exact ⟨rfl, rfl, rfl, rfl, rfl⟩

/-- `if BR_CNT = 0: Refill()` keeps the source, and raises only the end of the stream, with an empty
accumulator. -/
theorem BitReader.ensure_ok {m : Memory} {r q : BitReader} {u : Unit} (h : r.ensure m = .ok u q) :
    r.sameSource q := by
  unfold BitReader.ensure at h
  split at h
  · rcases r.refillUnit_cases m with ⟨-, e⟩ | ⟨-, e⟩ <;> rw [e] at h <;> cases h
    exact ⟨rfl, rfl, rfl, rfl, rfl⟩
  · cases h; exact r.sameSource_refl

theorem BitReader.ensure_raised {m : Memory} {r q : BitReader} {e : ErrorName} {info : Nat}
    (h : r.ensure m = .raised e info q) :
    e = .unexpectedEndOfStream ∧ info = r.pos.toNat ∧ q = { r with acc := 0, cnt := 0 } := by
  unfold BitReader.ensure at h
  split at h
  · rcases r.refillUnit_cases m with ⟨-, e⟩ | ⟨-, e⟩ <;> rw [e] at h <;> cases h
    exact ⟨rfl, rfl, rfl⟩
  · cases h

/-! ### GetBits, ReadByte (40_bitreader R145, R146) -/

/-- Reading a field keeps the source; it raises only the end of the stream, with ERRINFO at the position and an
empty accumulator. -/
theorem BitReader.getBitsLoop_cases (m : Memory) (n fuel got result : Nat) (r : BitReader) :
    (∃ v q, r.getBitsLoop m n fuel got result = .ok v q ∧ r.sameSource q)
    ∨ ∃ q, r.getBitsLoop m n fuel got result = .raised .unexpectedEndOfStream q.pos.toNat q
        ∧ r.sameSource q ∧ q.acc = 0 ∧ q.cnt = 0 := by
  induction fuel generalizing got result r with
  | zero => exact .inl ⟨_, _, rfl, r.sameSource_refl⟩
  | succ fuel ih =>
    unfold BitReader.getBitsLoop
    split
    · exact .inl ⟨_, _, rfl, r.sameSource_refl⟩
    · cases he : r.ensure m with
      | raised e info q =>
        obtain ⟨rfl, rfl, rfl⟩ := BitReader.ensure_raised he
        exact .inr ⟨{ r with acc := 0, cnt := 0 }, rfl, ⟨rfl, rfl, rfl, rfl, rfl⟩, rfl, rfl⟩
      | ok u q =>
        have hq := BitReader.sameSource_trans (BitReader.ensure_ok he) (q.sameSource_take (min (n - got) q.cnt.toNat))
        simp only [Res.bind_of_ok]
        rcases ih (got + min (n - got) q.cnt.toNat) _ (q.take (min (n - got) q.cnt.toNat)).2 with
          ⟨v, p, hp, hs⟩ | ⟨p, hp, hs, h0⟩
        · exact .inl ⟨v, p, hp, BitReader.sameSource_trans hq hs⟩
        · exact .inr ⟨p, hp, BitReader.sameSource_trans hq hs, h0⟩

/-- Reading a field on the state changes the bit reader alone. -/
theorem getBits_cases (n : Nat) (s : State) :
    (∃ v q, getBits n s = .ok v { s with br := q } ∧ s.br.sameSource q)
    ∨ ∃ q, getBits n s = .raised .unexpectedEndOfStream q.pos.toNat { s with br := q }
        ∧ s.br.sameSource q ∧ q.acc = 0 ∧ q.cnt = 0 := by
  unfold getBits BitReader.getBits
  rcases s.br.getBitsLoop_cases s.mem n n 0 0 with ⟨v, q, h, hs⟩ | ⟨q, h, hs⟩
  · exact .inl ⟨v, q, by rw [h]; rfl, hs⟩
  · exact .inr ⟨q, by rw [h]; rfl, hs⟩

/-- Reading a whole byte on the state moves the position alone, or raises and changes nothing. -/
theorem readByte_cases (s : State) :
    (s.br.pos.toNat < s.br.endAddr.toNat
      ∧ readByte s = .ok (s.mem.read s.br.pos.toNat)
          { s with br := { s.br with pos := BitVec.ofNat 32 (s.br.pos.toNat + 1) } })
    ∨ (s.br.endAddr.toNat ≤ s.br.pos.toNat
      ∧ readByte s = .raised .unexpectedEndOfStream s.br.pos.toNat s) := by
  unfold readByte BitReader.readByte
  split
  · exact .inr ⟨by omega, rfl⟩
  · exact .inl ⟨by omega, rfl⟩

/-- The bytes of an interleaved pair move the position alone. -/
theorem readBytes_cases (n : Nat) (s : State) :
    (∃ v q, readBytes n s = .ok v { s with br := q } ∧ s.br.sameSource q ∧ q.acc = s.br.acc ∧ q.cnt = s.br.cnt)
    ∨ ∃ q, readBytes n s = .raised .unexpectedEndOfStream q.pos.toNat { s with br := q }
        ∧ s.br.sameSource q ∧ q.acc = s.br.acc ∧ q.cnt = s.br.cnt := by
  induction n generalizing s with
  | zero => exact .inl ⟨0, s.br, rfl, s.br.sameSource_refl, rfl, rfl⟩
  | succ n ih =>
    unfold readBytes
    rcases readByte_cases s with ⟨-, h⟩ | ⟨-, h⟩ <;> rw [h]
    · simp only [Res.bind_of_ok]
      rcases ih { s with br := { s.br with pos := BitVec.ofNat 32 (s.br.pos.toNat + 1) } } with
        ⟨v, q, hv, hs⟩ | ⟨q, hv, hs⟩ <;> rw [hv]
      · exact .inl ⟨_, q, rfl, hs⟩
      · exact .inr ⟨q, rfl, hs⟩
    · exact .inr ⟨s.br, rfl, s.br.sameSource_refl, rfl, rfl⟩

end Sys2Proof.Machine
end

