-- ==== Sys2Proof/Laws/Decoders.lean ====
section
/-! SUPPORT. What the node store and the window copy can do, said once each. -/

namespace Sys2Proof.Machine

/-! ### The node store (42_huffman R192, R197) -/

/-- Alloc takes the next free node, fresh, or raises with nothing changed. -/
theorem alloc_cases (s : State) :
    (∃ h : s.tree.nnodes.toNat < 1023,
      alloc s = .ok ⟨s.tree.nnodes.toNat, h⟩
        { s with
          tree := { s.tree.setNode ⟨s.tree.nnodes.toNat, h⟩ Node.fresh with nnodes := s.tree.nnodes + 1 } })
    ∨ (s.tree.nnodes = 1023 ∧ alloc s = .raised .invalidFormat 1 s) := by
  unfold alloc
  split
  · rename_i h; exact .inl ⟨h, rfl⟩
  · rename_i h
    refine .inr ⟨BitVec.eq_of_toNat_eq ?_, rfl⟩
    have := s.tree.nnodes.isLt
    show s.tree.nnodes.toNat = 1023
    omega

/-- One level of Insert goes to the child there is, or allocates it; either way only the tree changes. -/
theorem childOrAlloc_cases (n : Fin 1023) (bit : Bool) (s : State) :
    (∃ c, (s.tree.nodeAt n).child bit = some c ∧ childOrAlloc n bit s = .ok c s)
    ∨ ((s.tree.nodeAt n).child bit = none
      ∧ ((∃ c t, alloc s = .ok c t ∧ childOrAlloc n bit s = .ok c (editNode n (Node.withChild bit c) t))
        ∨ (alloc s = .raised .invalidFormat 1 s ∧ childOrAlloc n bit s = .raised .invalidFormat 1 s))) := by
  unfold childOrAlloc
  cases h : (s.tree.nodeAt n).child bit with
  | some c => exact .inl ⟨c, rfl, rfl⟩
  | none =>
    refine .inr ⟨rfl, ?_⟩
    rcases alloc_cases s with ⟨_, ha⟩ | ⟨-, ha⟩ <;> rw [ha]
    · exact .inl ⟨_, _, rfl, rfl⟩
    · exact .inr ⟨rfl, rfl⟩

@[simp] theorem Node.child_withChild (n : Node) (bit : Bool) (c : Fin 1023) :
    (n.withChild bit c).child bit = some c := by cases bit <;> rfl

theorem Node.child_withChild_other (n : Node) (bit : Bool) (c : Fin 1023) :
    (n.withChild bit c).child (!bit) = n.child (!bit) := by cases bit <;> rfl

/-! ### Tree descriptions (30_encoding R121; 42_huffman R194) -/

theorem length_fieldBits (order : BitOrder) (w v : Nat) : (fieldBits order w v).length = w := by
  cases order <;> simp [fieldBits]

/-- A description is as long as its width says. -/
theorem CodeShape.length_bits (order : BitOrder) (shape : CodeShape) : (shape.bits order).length = shape.width := by
  induction shape with
  | leaf _ => simp [CodeShape.bits, CodeShape.width, length_fieldBits]
  | node l r hl hr => simp only [CodeShape.bits, CodeShape.width, List.length_cons, List.length_append, hl, hr]; omega

/-- Each node begins once. -/
theorem CodeShape.length_starts (shape : CodeShape) (a : Nat) : (shape.starts a).length = shape.size := by
  induction shape generalizing a with
  | leaf _ => rfl
  | node l r hl hr => simp only [CodeShape.starts, CodeShape.size, List.length_cons, List.length_append, hl, hr]; omega

/-- Every node begins inside the description. -/
theorem CodeShape.starts_lt (shape : CodeShape) (a : Nat) : ∀ x ∈ shape.starts a, a ≤ x ∧ x < a + shape.width := by
  induction shape generalizing a with
  | leaf _ =>
    intro x hx
    obtain rfl := List.mem_singleton.1 hx
    simp [CodeShape.width]
  | node l r hl hr =>
    intro x hx
    simp only [CodeShape.starts, List.mem_cons, List.mem_append] at hx
    simp only [CodeShape.width]
    rcases hx with rfl | hx | hx
    · omega
    · have := hl _ x hx; omega
    · have := hr _ x hx; omega

/-- A whole description begins all its nodes. -/
theorem CodeShape.begun_whole {shape : CodeShape} {n : Nat} (h : shape.width ≤ n) : shape.begun n = shape.size := by
  have hall : (shape.starts 0).filter (fun a => a ≤ n) = shape.starts 0 :=
    List.filter_eq_self.2 fun x hx => decide_eq_true (by have := shape.starts_lt 0 x hx; omega)
  rw [CodeShape.begun, hall, shape.length_starts]

/-! ### The window copy (41_lz R165, R170) -/

theorem lzCopy_zero (off : Nat) (s : State) : lzCopy off 0 s = s := rfl

theorem lzCopy_succ (off n : Nat) (s : State) :
    lzCopy off (n + 1) s = if s.hasRoom then lzCopy off n (emit (s.win.read (s.copyIndex off)) s) else s := rfl

/-- A copy keeps what emitting a byte keeps. -/
theorem lzCopy_keeps (p : State → Prop) (hp : ∀ b s, s.hasRoom = true → p s → p (emit b s)) (off n : Nat) (s : State)
    (h : p s) : p (lzCopy off n s) := by
  induction n generalizing s with
  | zero => exact h
  | succ n ih =>
    rw [lzCopy_succ]
    split
    · exact ih _ (hp _ _ ‹_› h)
    · exact h

/-- Every copy reads inside the window in use (41_lz R172). -/
theorem copyIndex_lt (s : State) (off : Nat) : s.copyIndex off < s.regs.lzCfg.windowSize := by
  have hw : (0 : Int) < (s.regs.lzCfg.windowSize : Int) := by
    have : 0 < s.regs.lzCfg.windowSize := Nat.two_pow_pos _
    omega
  have h1 := Int.emod_nonneg ((s.lzWPos.toNat : Int) - (off : Int)) (Int.ne_of_gt hw)
  have h2 := Int.emod_lt_of_pos ((s.lzWPos.toNat : Int) - (off : Int)) hw
  unfold State.copyIndex
  omega

end Sys2Proof.Machine
end

