-- ==== Sys2Proof/Laws/PerInstr.lean ====
section
/-! SUPPORT. The family `Encoding`: the word of every well-formed command selects its own row of the opcode map,
`(w & mask) = match` (30_encoding R115). -/

namespace Sys2Proof.Laws.Encoding

/-- The row of 30_encoding R115 for a command: match and mask. -/
def row : Instr → Word × Word
  | .nop => (0x00000000, 0xFFFFFFFF)
  | .clrerr => (0x01000000, 0xFFFFFFFF)
  | .sreset => (0x02000000, 0xFFFFFFFF)
  | .brinit => (0x10000000, 0xFFFFFFFF)
  | .getbits _ => (0x11000000, 0xFFFFFFC0)
  | .getbit => (0x12000000, 0xFFFFFFFF)
  | .lzdec => (0x20000000, 0xFFFFFFFF)
  | .huftree => (0x28000000, 0xFFFFFFFF)
  | .hufcanon => (0x29000000, 0xFFFFFFFF)
  | .hufdec => (0x2A000000, 0xFFFFFFFF)
  | .xorkey => (0x30000000, 0xFFFFFFFF)
  | .xorprng => (0x31000000, 0xFFFFFFFF)
  | .subload => (0x34000000, 0xFFFFFFFF)
  | .subgen => (0x35000000, 0xFFFFFFFF)
  | .subswap => (0x36000000, 0xFFFFFFFF)
  | .subtriple => (0x37000000, 0xFFFFFFFF)
  | .subapply => (0x38000000, 0xFFFFFFFF)
  | .substore => (0x39000000, 0xFFFFFFFF)
  | .cbcdec _ => (0x3C000000, 0xFFFFFFFE)

/-- The command's word selects its row. -/
def Statement (i : Instr) : Prop := i.wf = true → encode i &&& (row i).2 = (row i).1

theorem nop : Statement .nop := fun _ => rfl
theorem clrerr : Statement .clrerr := fun _ => rfl
theorem sreset : Statement .sreset := fun _ => rfl
theorem brinit : Statement .brinit := fun _ => rfl
theorem getbits (n : BitVec 6) : Statement (.getbits n) := by unfold Statement; revert n; decide
theorem getbit : Statement .getbit := fun _ => rfl
theorem lzdec : Statement .lzdec := fun _ => rfl
theorem huftree : Statement .huftree := fun _ => rfl
theorem hufcanon : Statement .hufcanon := fun _ => rfl
theorem hufdec : Statement .hufdec := fun _ => rfl
theorem xorkey : Statement .xorkey := fun _ => rfl
theorem xorprng : Statement .xorprng := fun _ => rfl
theorem subload : Statement .subload := fun _ => rfl
theorem subgen : Statement .subgen := fun _ => rfl
theorem subswap : Statement .subswap := fun _ => rfl
theorem subtriple : Statement .subtriple := fun _ => rfl
theorem subapply : Statement .subapply := fun _ => rfl
theorem substore : Statement .substore := fun _ => rfl
theorem cbcdec (p : Bool) : Statement (.cbcdec p) := by unfold Statement; revert p; decide

end Sys2Proof.Laws.Encoding
end

