-- ==== Sys2Proof/Laws/Port.lean ====
section
/-! SUPPORT. The register map and the host's step. -/

namespace Sys2Proof.Machine

/-- Every register is found at its own index of the port (10_state R25). -/
theorem Reg.ofIndex_index (r : Reg) : Reg.ofIndex r.index = some r := by cases r <;> decide

/-- A port index names a register only if it is that register's. -/
theorem Reg.index_of_ofIndex {index : BitVec 6} {r : Reg} (h : Reg.ofIndex index = some r) : r.index = index := by
  revert h
  revert index
  cases r <;> decide

theorem portRead_index (r : Reg) (s : State) : portRead r.index s = readReg r s := by
  simp [portRead, Reg.ofIndex_index]

theorem portWrite_index {r : Reg} (h : r ≠ .cmd) (v : Word) (s : State) :
    portWrite r.index v s = .next (writeReg r v s) := by
  cases r <;> first | exact absurd rfl h | (simp only [portWrite, Reg.ofIndex_index])

theorem portWrite_cmd (w : Word) (s : State) : portWrite Reg.cmd.index w s = commandWrite w s := by
  simp only [portWrite, Reg.ofIndex_index]

/-- With an action pending, the step performs it on the state without it. -/
theorem step_of_cons {s : State} {a : HostAction} {rest : List HostAction} (h : s.host = a :: rest) :
    step s = hostAct a { s with host := rest } := by
  unfold step hostStep
  rw [h]

theorem commandWrite_of_ok {w : Word} {i : Instr} (h : decode w = .ok i) (s : State) :
    commandWrite w s = exec i s := by simp [commandWrite, h]

theorem commandWrite_of_error {w : Word} {e : DecodeError} (h : decode w = .error e) (s : State) :
    commandWrite w s = .next (rejectWord e w s) := by simp [commandWrite, h]

end Sys2Proof.Machine
end

