-- ==== Sys2Proof/Tests/Slice0.lean ====
section
/-! SUPPORT. Tests: ill-formed commands refused, every command's word decoded, one or two steps of each command
(expected values from 95_test_vectors and the examples of the command rules), and for every obligation with
hypotheses a state and operands that meet them. -/

set_option Elab.async false

namespace Sys2Proof.Tests

open Sys2Proof Sys2Proof.Machine

/-! ### Helpers -/

/-- MEM_BYTES as 95_test_vectors assumes it, everything else as after reset. -/
def base : State := { State.reset with memBytes := 0x10000 }

/-- Bytes at consecutive addresses. -/
def bytesAt (a : Nat) (bs : List Byte) (m : Memory) : Memory :=
  forUp (fun i m => m.write (a + i) (bs.getD i 0)) bs.length 0 m

/-- The state with bytes loaded. -/
def load (a : Nat) (bs : List Byte) (s : State) : State := { s with mem := bytesAt a bs s.mem }

/-- The state after a command. -/
def after (i : Instr) (s : State) : State :=
  match exec i s with
  | .next t => t
  | .fault _ => s
  | .refused _ => s

/-- BRINIT over bytes at 0x100 with a BR_CFG word. -/
def source (cfg : Word) (bs : List Byte) (s : State) : State :=
  let t := load 0x100 bs s
  after .brinit
    { t with regs := { t.regs with srcAddr := 0x100, srcLen := BitVec.ofNat 32 bs.length, brCfg := BrCfg.ofWord cfg } }

/-- The output range. -/
def output (a cap : Word) (s : State) : State := { s with regs := { s.regs with outAddr := a, outCap := cap } }

/-- The buffer, key and phase registers. -/
def buffer (buf len key klen phase : Word) (s : State) : State :=
  { s with regs := { s.regs with bufAddr := buf, bufLen := len, keyAddr := key, keyLen := klen, keyPhase := phase } }

/-- An LZ configuration word. -/
def lz (cfg : Word) (s : State) : State := { s with regs := { s.regs with lzCfg := LzCfg.ofWord cfg } }

/-- A tree whose entries from a list on are blank. -/
def treeOf (kind : TreeKind) (nodes : List Node) : CodeTree where
  valid := true
  kind := kind
  nnodes := BitVec.ofNat 10 nodes.length
  node := Vector.ofFn fun i : Fin 1023 => nodes.getD i.val Node.fresh

/-- The table `(7*i + 3) mod 256` of 44_subst R237's example. -/
def sampleTable : Vector Byte 256 := Vector.ofFn fun i => BitVec.ofNat 8 (7 * i.val + 3)

/-- A filled table. -/
def filled (s : State) : State := { s with sbox := sampleTable, subValid := true }

/-! ### Ill-formed commands -/

theorem test_wf_getbits_0 : (Instr.getbits 0).wf = false := by decide
theorem test_wf_getbits_33 : (Instr.getbits 33).wf = false := by decide
theorem test_wf_getbits_63 : (Instr.getbits 63).wf = false := by decide
theorem test_wf_getbits_32 : (Instr.getbits 32).wf = true := by decide

/-! ### Decoding: the words of 30_encoding R115 and R118, written out -/

theorem test_decode_nop : decode 0x00000000 = .ok .nop := by decide
theorem test_decode_clrerr : decode 0x01000000 = .ok .clrerr := by decide
theorem test_decode_sreset : decode 0x02000000 = .ok .sreset := by decide
theorem test_decode_brinit : decode 0x10000000 = .ok .brinit := by decide
theorem test_decode_getbits_1 : decode 0x11000001 = .ok (.getbits 1) := by decide
theorem test_decode_getbits_32 : decode 0x11000020 = .ok (.getbits 32) := by decide
theorem test_decode_getbit : decode 0x12000000 = .ok .getbit := by decide
theorem test_decode_lzdec : decode 0x20000000 = .ok .lzdec := by decide
theorem test_decode_huftree : decode 0x28000000 = .ok .huftree := by decide
theorem test_decode_hufcanon : decode 0x29000000 = .ok .hufcanon := by decide
theorem test_decode_hufdec : decode 0x2A000000 = .ok .hufdec := by decide
theorem test_decode_xorkey : decode 0x30000000 = .ok .xorkey := by decide
theorem test_decode_xorprng : decode 0x31000000 = .ok .xorprng := by decide
theorem test_decode_subload : decode 0x34000000 = .ok .subload := by decide
theorem test_decode_subgen : decode 0x35000000 = .ok .subgen := by decide
theorem test_decode_subswap : decode 0x36000000 = .ok .subswap := by decide
theorem test_decode_subtriple : decode 0x37000000 = .ok .subtriple := by decide
theorem test_decode_subapply : decode 0x38000000 = .ok .subapply := by decide
theorem test_decode_substore : decode 0x39000000 = .ok .substore := by decide
theorem test_decode_cbcdec : decode 0x3C000000 = .ok (.cbcdec false) := by decide
theorem test_decode_cbcdec_p : decode 0x3C000001 = .ok (.cbcdec true) := by decide
theorem test_decode_zero_field : decode 0x12000001 = .error .illegalCommand := by decide
theorem test_decode_getbits_zero_field : decode 0x11000041 = .error .illegalCommand := by decide
theorem test_decode_cbcdec_zero_field : decode 0x3C000002 = .error .illegalCommand := by decide
theorem test_decode_cipher_group : decode 0x3F000000 = .error .unknownScheme := by decide
theorem test_decode_unassigned : decode 0x40000000 = .error .illegalCommand := by decide

/-! ### Commands -/

/-- 46_system R290, R291: NOP is ignored after a failed read, CLRERR ends the error state. -/
theorem test_nop_ignored :
    (after .nop (after (.getbits 5) base)).status = { done := false, err := true, term := false, errCode := 6 } := by
  decide +kernel
theorem test_nop : (after .nop base).status.word = 1 := by decide +kernel
theorem test_clrerr : (after .clrerr (after (.getbits 5) base)).status.word = 1 := by decide +kernel
theorem test_clrerr_info : (after .clrerr (after (.getbits 5) base)).errInfo = 0 := by decide +kernel

/-- 46_system R292's example. -/
theorem test_sreset : (after .getbit (after .sreset (source 0 [0xB4] base))).status.word = 0x602 := by decide +kernel
theorem test_sreset_keeps_mem : (after .sreset (source 0 [0xB4] base)).mem.read 0x100 = 0xB4 := by decide +kernel

/-- 40_bitreader R147's example: BR_CFG 2 over 8 bytes gives BR_STATE 5. -/
theorem test_brinit : (source 2 [1, 2, 3, 4, 5, 6, 7, 8] base).br.word = 0x00000005 := by decide +kernel
theorem test_brinit_range :
    (after .brinit { base with regs := { base.regs with srcAddr := 0x10001 } }).errInfo = 0x10001 := by decide +kernel

/-- 40_bitreader R148's example: B4 3C, MSB-first. -/
theorem test_getbits : (after (.getbits 3) (source 0 [0xB4, 0x3C] base)).result = 5 := by decide +kernel
theorem test_getbits_next :
    (after (.getbits 7) (after (.getbits 3) (source 0 [0xB4, 0x3C] base))).result = 0x50 := by decide +kernel

/-- 40_bitreader R149's example: the first bits of B4 in both orders. -/
theorem test_getbit_msb : (after .getbit (source 0 [0xB4] base)).result = 1 := by decide +kernel
theorem test_getbit_lsb : (after .getbit (source 1 [0xB4] base)).result = 0 := by decide +kernel

/-- 41_lz R163's example, cut to 4 bytes of output: a literal and the start of an overlapping copy. -/
def lzSample : State := output 0x400 4 (lz 0x2108 (source 0 [0xAC, 0x00, 0x4C, 0x80] base))

theorem test_lzdec :
    ([0, 1, 2, 3].map fun i => (after .lzdec lzSample).mem.read (0x400 + i)) = [0x58, 0x58, 0x58, 0x58] := by
  decide +kernel
theorem test_lzdec_unready : (after .lzdec base).errInfo = 0x44 := by decide +kernel

/-- 42_huffman R195's example (Scenario B): HUF_STATE and the bits left. -/
def scenarioB : State := after .huftree (source 0 [0x90, 0x48, 0x49] base)

theorem test_huftree : scenarioB.tree.word = 0x00000301 := by decide +kernel
theorem test_huftree_reader : (scenarioB.br.cnt, scenarioB.br.acc, scenarioB.br.pos) = (5, 9, 0x103) := by
  decide +kernel

/-- 42_huffman R200's example: lengths 2, 1, 3, 3 give 7 nodes. -/
def canonSample : State :=
  let s := source 0 [0x45, 0xB0] base
  { s with regs := { s.regs with hufCfg := HufCfg.ofWord 0x43 } }

theorem test_hufcanon : (after .hufcanon canonSample).tree.word = 0x00000703 := by decide +kernel
theorem test_hufcanon_config : (after .hufcanon (source 0 [0x45, 0xB0] base)).errInfo = 0x80 := by decide +kernel

/-- 42_huffman R204's example: "ABAAB". -/
theorem test_hufdec :
    ([0, 1, 2, 3, 4].map fun i => (after .hufdec (output 0x400 5 scenarioB)).mem.read (0x400 + i)) =
      [0x41, 0x42, 0x41, 0x41, 0x42] := by decide +kernel
theorem test_hufdec_end : (after .hufdec (output 0x400 6 scenarioB)).status.word = 0x102 := by decide +kernel

/-- 43_xor R221's example, with KEY_PHASE 2. -/
def xorSample : State :=
  buffer 0x200 4 0x300 3 2 (load 0x300 [0xA5, 0x5A, 0xFF] (load 0x200 [0x10, 0x11, 0x12, 0x13] base))

theorem test_xorkey :
    ([0, 1, 2, 3].map fun i => (after .xorkey xorSample).mem.read (0x200 + i)) = [0xEF, 0xB4, 0x48, 0xEC] := by
  decide +kernel
theorem test_xorkey_overlap : (after .xorkey (buffer 0x200 4 0x203 1 0 xorSample)).errInfo = 0x2C := by decide +kernel

/-- 43_xor R224's example, its first three bytes. -/
def prngSample : State :=
  let s := buffer 0x200 3 0 0 0 (load 0x200 [0, 0, 0] base)
  { s with prngState := 1, regs := { s.regs with prngMul := 0x343FD, prngAdd := 0x269EC3, prngShift := 16 } }

theorem test_xorprng :
    ([0, 1, 2].map fun i => (after .xorprng prngSample).mem.read (0x200 + i)) = [0x29, 0x23, 0xBE] := by
  decide +kernel
theorem test_xorprng_state : (after .xorprng (buffer 0 0 0 0 0 prngSample)).prngState = 1 := by decide +kernel

theorem test_subload : tableGet (after .subload (load 0 [3, 10, 17] base)).sbox 1 = 10 := by decide +kernel
theorem test_subload_range : (after .subload (buffer 0 0 0xFF01 0 0 base)).errInfo = 0x10000 := by decide +kernel
theorem test_subgen : (after .subgen base).subValid = true := by decide +kernel

/-- 44_subst R240's example: order bytes 05 00 02. -/
def swapSample : State := buffer 0 0 0x300 3 0 (load 0x300 [5, 0, 2] (filled base))

theorem test_subswap :
    ([0, 1, 2, 3, 4, 5].map fun b => tableGet (after .subswap swapSample).sbox b) = [0x0A, 0x26, 0x11, 0x18, 0x1F, 0x03] := by
  decide +kernel
theorem test_subswap_unready : (after .subswap base).errInfo = 0xB4 := by decide +kernel

/-- 44_subst R241's example. -/
theorem test_subtriple :
    ([0, 1, 2, 3].map fun b => tableGet (after .subtriple (filled base)).sbox b) = [0xAB, 0x02, 0x59, 0xB0] := by
  decide +kernel

/-- 44_subst R242's example. -/
theorem test_subapply :
    ([0, 1, 2, 3].map fun i =>
      (after .subapply (buffer 0x200 4 0 0 0 (load 0x200 [0, 1, 2, 0xFF] (filled base)))).mem.read (0x200 + i)) =
      [0x03, 0x0A, 0x11, 0xFC] := by decide +kernel

theorem test_substore : (after .substore (output 0x400 256 (filled base))).mem.read 0x4FF = 0xFC := by decide +kernel
theorem test_substore_cap : (after .substore (output 0x400 255 (filled base))).errInfo = 0x1C := by decide +kernel

/-- 45_cbc R270's AES-128 vector: the first and last plaintext bytes, and RESULT. -/
def cbcSample : State :=
  let s := load 0x300 ((List.range 16).map (BitVec.ofNat 8)) (load 0x340 (List.replicate 16 0) base)
  let t := load 0x200 [0x69, 0xC4, 0xE0, 0xD8, 0x6A, 0x7B, 0x04, 0x30, 0xD8, 0xCD, 0xB7, 0x80, 0x70, 0xB4, 0xC5, 0x5A] s
  let u := buffer 0x200 16 0x300 16 0 t
  { u with regs := { u.regs with ivAddr := 0x340 } }

theorem test_cbcdec :
    ([0, 1, 15].map fun i => (after (.cbcdec false) cbcSample).mem.read (0x200 + i)) = [0x00, 0x11, 0xFF] := by
  decide +kernel
theorem test_cbcdec_padding : (after (.cbcdec true) cbcSample).errInfo = 6 := by decide +kernel

/-- 45_cbc R267's check value: the last word of the AES-128 key schedule of 00 01 .. 0F. -/
theorem test_key_expansion :
    (keyExpansion ((List.range 16).map (BitVec.ofNat 8))).getD 43 zeroWord = #v[0x4D, 0x2B, 0x30, 0xC5] := by
  decide +kernel

/-- A table row's word is fetched and run as the first command after reset (log 5). -/
theorem test_fetch :
    (match step (State.reset.withFetchWord 32 0x11000005) with
      | .next t => (t.status.word, t.errInfo)
      | _ => (0, 0)) = (0x602, 0x44) := by decide +kernel

/-! ### Witnesses: states and operands that meet the hypotheses of each obligation -/

/-- MEM_BYTES in its bound and the reader's invariants, as many statements suppose. -/
abbrev sane (s : State) : Prop :=
  s.memBytes ≤ 2 ^ 31
    ∧ (s.br.valid = true →
        s.br.pos.toNat ≤ s.br.endAddr.toNat ∧ s.br.endAddr.toNat ≤ s.memBytes
          ∧ s.br.cnt.toNat ≤ 8 * s.br.refill.bytes ∧ s.br.acc.toNat < 2 ^ s.br.cnt.toNat)

theorem sane_readerOk {s : State} (h : sane s) : s.memBytes ≤ 2 ^ 31 ∧ s.readerOk := h

/-- A state in the error state. -/
def failed : State := base.refused .notReady 0x44

/-- A reader over B4 3C: 16 bits. -/
def reader : State := source 0 [0xB4, 0x3C] base

theorem reader_sane : sane reader := by decide +kernel

theorem witness_DecodeOfEncode : (Instr.getbits 1).wf = true ∧ (Instr.getbits 32).wf = true := by decide

theorem witness_EncodeOfDecode : decode 0x11000020 = .ok (.getbits 32) := by decide

theorem witness_ReservedEncodings :
    (∀ opc ∈ [0x32, 0x3F], (BitVec.ofNat 32 (opc * 2 ^ 24)).toNat / 2 ^ 24 = opc)
      ∧ (∀ opc ∈ [0x03, 0x0F, 0x13, 0x1F, 0x21, 0x27, 0x2B, 0x2F, 0x40, 0xFF],
          (BitVec.ofNat 32 (opc * 2 ^ 24)).toNat / 2 ^ 24 = opc)
      ∧ (0x00000001 : Word).toNat % 2 ^ 24 ≠ 0
      ∧ (0x11000000 : Word).toNat % 2 ^ 24 = 0 ∧ 32 < (0x11000021 : Word).toNat % 2 ^ 24
      ∧ 2 ≤ (0x3C000002 : Word).toNat % 2 ^ 24
      ∧ base.status.err = false ∧ decode 0x3F000000 = .error .unknownScheme
      ∧ decode 0xFF000000 = .error .illegalCommand := by decide

theorem witness_StepRunsDecodedCommand :
    ({ base with host := [.writeReg 0 0x02000000] } : State).host = .writeReg 0 0x02000000 :: []
      ∧ decode 0x02000000 = .ok .sreset ∧ decode 0x00000001 = .error .illegalCommand
      ∧ base.status.err = false ∧ failed.status.err = true ∧ base.host = [] := by decide

theorem witness_CommandAcceptance :
    (failed.status.err = true ∧ (0 : Word) ≠ 0x01000000 ∧ (0 : Word) ≠ 0x02000000)
      ∧ base.status.err = false ∧ decode 0x12000000 = .ok .getbit ∧ Reg.srcAddr ≠ .cmd
      ∧ (0xFFFF : Word).toNat < failed.memBytes := by decide

theorem witness_FetchWordRunsNext : decodeTableWord 32 0x11000020 = some (.getbits 32) := by decide

theorem witness_HostMemoryPort :
    ({ base with host := [.writeMem 0xFFFF 1] } : State).host = .writeMem 0xFFFF 1 :: []
      ∧ ({ base with host := [.readMem 0xFFFF] } : State).host = .readMem 0xFFFF :: []
      ∧ (0xFFFF : Word).toNat < base.memBytes ∧ base.memBytes ≤ (0x10000 : Word).toNat := by decide

theorem witness_RegisterPort :
    Reg.brCfg.storedBits = some 0x0000000F ∧ Reg.status.storedBits = none ∧ Reg.status ≠ .cmd
      ∧ (∀ r : Reg, r.index ≠ 15) ∧ ({ base with host := [.readReg 1] } : State).host = .readReg 1 :: [] :=
  ⟨rfl, rfl, by decide, fun r => by cases r <;> decide, rfl⟩

theorem witness_HardwareResetAction :
    ({ base with host := [.hardwareReset] } : State).host = .hardwareReset :: [] := rfl

theorem witness_NopRule :
    base.status.err = false ∧ failed.status.err = true
      ∧ (0x00000001 : Word).toNat / 2 ^ 24 = 0x00 ∧ (0x00000001 : Word) ≠ 0 := by decide

theorem witness_ClrerrRule :
    base.status.err = false ∧ base.status.errCode = 0 ∧ base.errInfo = 0
      ∧ (0x01000001 : Word).toNat / 2 ^ 24 = 0x01 ∧ (0x01000001 : Word) ≠ 0x01000000 := by decide

theorem witness_SresetRule :
    (0x02000001 : Word).toNat / 2 ^ 24 = 0x02 ∧ (0x02000001 : Word) ≠ 0x02000000 := by decide

theorem witness_ErrorsAreThoseListed :
    Instr.getbit.wf = true ∧ sane base ∧ base.status.err = false
      ∧ (∃ t, exec .getbit base = .next t ∧ t.status.err = true)
      ∧ (∃ t, exec (.getbits 17) reader = .next t ∧ t.status.err = true)
      ∧ ∃ t, exec .xorkey (buffer 0x200 4 0xFFFF 2 0 base) = .next t ∧ t.status.err = true ∧ t.status.errCode = 7 :=
  ⟨by decide, by decide, by decide, ⟨_, rfl, by decide +kernel⟩, ⟨_, rfl, by decide +kernel⟩,
    ⟨_, rfl, by decide +kernel, by decide +kernel⟩⟩

/-- 60_exceptions R301: the key range FFFF to 10000 starts inside MEM, so ERRINFO is MEM_BYTES. -/
theorem test_accessFault_info : (after .xorkey (buffer 0x200 4 0xFFFF 2 0 base)).errInfo = 0x10000 := by decide +kernel

theorem witness_CommandTouchesOnlyItsState :
    ∃ t, exec .hufdec base = .next t ∧ .window ∉ writtenPieces .hufdec ∧ t.status.err = true
      ∧ base.regs.hufCfg.rebuildEn = false :=
  ⟨_, rfl, by decide, by decide +kernel, by decide⟩

theorem witness_MemoryFrame :
    (∃ t, exec .xorkey xorSample = .next t) ∧ writtenRange .xorkey xorSample = some ⟨0x200, 4⟩
      ∧ (0x1FF < 0x200 ∨ 0x200 + 4 ≤ 0x1FF) ∧ (0x204 < 0x200 ∨ 0x200 + 4 ≤ 0x204) :=
  ⟨⟨_, rfl⟩, by decide +kernel, by decide, by decide⟩

theorem witness_BrinitRule :
    base.status.err = false ∧ base.memBytes ≤ 2 ^ 31
      ∧ (BrCfg.ofWord 6).refill = 3 ∧ base.regs.brCfg.refill ≠ 3
      ∧ base.memBytes < 0xFFFF + 2 ∧ ¬base.memBytes < 0xFFFF + 1 := by decide

theorem witness_GetbitsRule :
    reader.status.err = false ∧ sane reader ∧ (0 : BitVec 6).toNat = 0 ∧ 32 < (33 : BitVec 6).toNat
      ∧ base.br.valid = false ∧ sane base ∧ reader.br.valid = true
      ∧ (16 : BitVec 6).toNat ≤ reader.stream.length ∧ ¬(17 : BitVec 6).toNat ≤ reader.stream.length
      ∧ (0x11000040 : Word).toNat / 2 ^ 24 = 0x11 ∧ 64 ≤ (0x11000040 : Word).toNat % 2 ^ 24 := by
  decide +kernel

theorem witness_GetbitRule :
    base.status.err = false ∧ base.br.valid = false
      ∧ (0x12000001 : Word).toNat / 2 ^ 24 = 0x12 ∧ (0x12000001 : Word) ≠ 0x12000000
      ∧ reader.status.err = false ∧ sane reader ∧ reader.br.valid = true
      ∧ reader.stream = true :: [false, true, true, false, true, false, false, false, false, true, true, true, true, false, false] := by
  decide +kernel

theorem witness_SplitReads :
    1 ≤ (1 : BitVec 6).toNat ∧ (1 : BitVec 6).toNat + (15 : BitVec 6).toNat ≤ 32 ∧ reader.status.err = false
      ∧ sane reader ∧ reader.br.valid = true
      ∧ (1 : BitVec 6).toNat + (15 : BitVec 6).toNat ≤ reader.stream.length := by decide +kernel

/-- A reader of 16-bit little-endian units, MSB-first, three bits into the first of two whole units and a byte. -/
def wideReader : State := after (.getbits 3) (source 2 [1, 2, 3, 4, 5] base)

/-- An address below BR_POS, the first and the last byte of the unread unit, and the byte behind it. -/
theorem witness_ReadAhead :
    sane wideReader ∧ wideReader.br.valid = true ∧ wideReader.status.err = false
      ∧ 0x101 < wideReader.br.pos.toNat
      ∧ wideReader.br.pos.toNat ≤ 0x102
      ∧ 0x103 < wideReader.br.pos.toNat + wideReader.br.refill.bytes * wideReader.br.unitsLeft
      ∧ wideReader.br.pos.toNat + wideReader.br.refill.bytes * wideReader.br.unitsLeft ≤ 0x104
      ∧ 1 ≤ (29 : BitVec 6).toNat ∧ (29 : BitVec 6).toNat ≤ 32 ∧ (29 : BitVec 6).toNat ≤ wideReader.stream.length := by
  decide +kernel

/-- 40_bitreader R152's reversed case by hand: the unit 03 04 read little-endian, MSB-first, is 04 then 03, behind
the 13 bits left of the first unit. -/
theorem test_bitsBefore : wideReader.br.bitsBefore 0x103 = 13 ∧ wideReader.br.bitsBefore 0x102 = 21 := by
  decide +kernel

theorem witness_WidthIndependence :
    let s := source 2 [1, 2] base
    let t := source 0xA [1, 2] base
    s.status.err = false ∧ s.memBytes ≤ 2 ^ 31 ∧ s.regs.brCfg.refill = RefillUnit.bits16.code
      ∧ s.regs.srcAddr.toNat + s.regs.srcLen.toNat ≤ s.memBytes ∧ s.regs.srcLen.toNat % RefillUnit.bits16.bytes = 0
      ∧ ¬(s.regs.brCfg.order = .msbFirst ↔ s.regs.brCfg.bigEndian = true)
      ∧ (t.regs.brCfg.order = .msbFirst ↔ t.regs.brCfg.bigEndian = true) := by decide +kernel

theorem witness_EndOfStreamStays :
    1 ≤ (17 : BitVec 6).toNat ∧ (17 : BitVec 6).toNat ≤ 32 ∧ reader.status.err = false ∧ sane reader
      ∧ reader.br.valid = true ∧ reader.stream.length < (17 : BitVec 6).toNat := by decide +kernel

theorem witness_LzdecRefusals :
    let o := lzSample
    base.status.err = false ∧ base.br.valid = false ∧ o.status.err = false ∧ o.br.valid = true
      ∧ (LzCfg.ofWord 0x2100).wlog2.toNat < 1 ∧ 16 < (LzCfg.ofWord 0x2111).wlog2.toNat
      ∧ 2 ^ o.regs.lzCfg.wlog2.toNat ≤ (256 : BitVec 16).toNat
      ∧ o.memBytes < (0xFFFF : Word).toNat + (2 : Word).toNat
      ∧ rangesMeet 0x100 4 0x103 1 ∧ ¬rangesMeet 0x100 4 0x104 1 := by decide +kernel

theorem lzSample_ready : lzSample.lzReady := by unfold State.lzReady; decide +kernel

theorem witness_LzdecOutcome : lzSample.lzReady ∧ sane lzSample := ⟨lzSample_ready, by decide +kernel⟩

theorem witness_LzdecForgetsWindow : lzSample.lzReady := lzSample_ready

/-- The tokens of 41_lz R163's example. -/
def lzTokens : List LzToken := [.literal 0x58, .copy 1 50]

theorem lzTokens_plain : ∀ tok ∈ lzTokens, tok.plain lzSample.regs := by
  have h : LzToken.plain lzSample.regs (.copy 1 50) := by unfold LzToken.plain; decide +kernel
  intro tok hm
  rcases List.mem_cons.1 hm with rfl | hm
  · trivial
  · rcases List.mem_cons.1 hm with rfl | hm
    · exact h
    · cases hm

theorem witness_LzdecExpandsTokens :
    lzSample.lzReady ∧ sane lzSample ∧ lzSample.regs.lzCfg.mode = false
      ∧ (∀ tok ∈ lzTokens, tok.plain lzSample.regs)
      ∧ lzSample.stream = lzTokens.flatMap (LzToken.bits lzSample.br.order lzSample.regs.lzCfg)
          ++ [false, false, false, false, false, false]
      ∧ (lzTokens = [] ∨ (expandTokens lzSample.regs lzTokens.dropLast).length < lzSample.regs.outCap.toNat)
      ∧ lzSample.regs.outCap.toNat ≤ (expandTokens lzSample.regs lzTokens).length :=
  ⟨lzSample_ready, by decide +kernel, by decide +kernel, lzTokens_plain, by decide +kernel, by decide +kernel,
    by decide +kernel⟩

/-- A literal, then an offset field 0 with END_OFF0 = 1; and the example's pair as a marker of length 50. -/
def markerOff0 : State := output 0x400 2 (lz 0x22108 (source 0 [0xAC, 0x00, 0x00] base))

def markerLen : State :=
  let s := output 0x400 2 (lz 0x42108 (source 0 [0xAC, 0x00, 0x4C, 0x80] base))
  { s with regs := { s.regs with lzEndLen := 50 } }

theorem witness_LzdecStopsAtMarker_off0 :
    markerOff0.lzReady ∧ sane markerOff0 ∧ markerOff0.regs.lzCfg.mode = false
      ∧ (∀ tok ∈ [LzToken.literal 0x58], tok.plain markerOff0.regs)
      ∧ markerOff0.regs.lzCfg.endOff0 = true
      ∧ markerOff0.stream = [LzToken.literal 0x58].flatMap (LzToken.bits markerOff0.br.order markerOff0.regs.lzCfg)
          ++ (false :: fieldBits markerOff0.br.order markerOff0.regs.lzCfg.offBits.toNat 0)
          ++ [false, false, false, false, false, false]
      ∧ (expandTokens markerOff0.regs [.literal 0x58]).length < markerOff0.regs.outCap.toNat :=
  ⟨by unfold State.lzReady; decide +kernel, by decide +kernel, by decide +kernel,
    fun tok hm => by obtain rfl := List.mem_singleton.1 hm; trivial, by decide +kernel, by decide +kernel,
    by decide +kernel⟩

theorem witness_LzdecStopsAtMarker_len :
    markerLen.lzReady ∧ sane markerLen ∧ markerLen.regs.lzCfg.mode = false
      ∧ markerLen.regs.lzCfg.endLen = true ∧ 1 < 2 ^ markerLen.regs.lzCfg.offBits.toNat
      ∧ ¬(markerLen.regs.lzCfg.endOff0 = true ∧ 1 = 0)
      ∧ markerLen.regs.lzEndLen.toNat < 2 ^ markerLen.regs.lzCfg.lenBits.toNat
      ∧ markerLen.stream = [LzToken.literal 0x58].flatMap (LzToken.bits markerLen.br.order markerLen.regs.lzCfg)
          ++ LzToken.bits markerLen.br.order markerLen.regs.lzCfg (.copy 1 markerLen.regs.lzEndLen.toNat)
          ++ [false, false, false, false, false, false]
      ∧ (expandTokens markerLen.regs [.literal 0x58]).length < markerLen.regs.outCap.toNat :=
  ⟨by unfold State.lzReady; decide +kernel, by decide +kernel⟩

/-- The first 8 bits of a literal, then nothing. -/
def cutOff : State := output 0x400 1 (lz 0x2108 (source 0 [0xAC] base))

theorem witness_LzdecRunsOut :
    cutOff.lzReady ∧ sane cutOff ∧ cutOff.regs.lzCfg.mode = false
      ∧ (∀ tok ∈ ([] : List LzToken), tok.plain cutOff.regs) ∧ (LzToken.literal 0x58).plain cutOff.regs
      ∧ cutOff.stream <+: (LzToken.literal 0x58).bits cutOff.br.order cutOff.regs.lzCfg
      ∧ cutOff.stream ≠ (LzToken.literal 0x58).bits cutOff.br.order cutOff.regs.lzCfg
      ∧ (expandTokens cutOff.regs []).length < cutOff.regs.outCap.toNat :=
  ⟨by unfold State.lzReady; decide +kernel, by decide +kernel, by decide +kernel, by simp, trivial,
    by decide +kernel, by decide +kernel, by decide +kernel⟩

/-- Interleaved mode: one byte of control bits 10000000, a literal, and a pair of two bytes. -/
def interSample (cap : Word) : State :=
  output 0x400 cap (lz 0x52108 (source 0 [0x80, 0x58, 0x32, 0x01] base))

/-- Its reader behind the literal's control bit, behind the literal, and behind the pair's control bit. -/
def interReader (cnt : BitVec 6) (pos : Word) : BitReader :=
  { (interSample 1).br with cnt := cnt, acc := 0, pos := pos }

theorem interleaved_literal :
    interleaved (interSample 1).regs.lzCfg (interSample 1).mem [.literal 0x58] (interSample 1).br
      (interReader 7 0x102) :=
  ⟨interReader 7 0x101, by decide +kernel, by decide +kernel, by decide +kernel, by
    show (_ : BitReader) = _
    decide +kernel⟩

theorem witness_LzdecInterleaved_output :
    (interSample 1).lzReady ∧ sane (interSample 1) ∧ (interSample 1).regs.lzCfg.mode = true
      ∧ (∀ tok ∈ [LzToken.literal 0x58], tok.plain (interSample 1).regs)
      ∧ interleaved (interSample 1).regs.lzCfg (interSample 1).mem [.literal 0x58] (interSample 1).br
          (interReader 7 0x102)
      ∧ (expandTokens (interSample 1).regs [LzToken.literal 0x58].dropLast).length < (interSample 1).regs.outCap.toNat
      ∧ (interSample 1).regs.outCap.toNat ≤ (expandTokens (interSample 1).regs [.literal 0x58]).length :=
  ⟨by unfold State.lzReady; decide +kernel, by decide +kernel, by decide +kernel,
    fun tok hm => by obtain rfl := List.mem_singleton.1 hm; trivial, interleaved_literal, by decide +kernel,
    by decide +kernel⟩

/-- The pair as an end marker of length 50 (END_LEN = 1). -/
def interMarker : State := { interSample 2 with regs := { (interSample 2).regs with lzEndLen := 50 } }

theorem witness_LzdecInterleaved_marker :
    interMarker.lzReady ∧ sane interMarker ∧ interMarker.regs.lzCfg.mode = true
      ∧ interleaved interMarker.regs.lzCfg interMarker.mem [] interMarker.br interMarker.br
      ∧ (expandTokens interMarker.regs [LzToken.literal 0x58]).length < interMarker.regs.outCap.toNat
      ∧ (interReader 7 0x102).getBits interMarker.mem 1 = .ok 0 (interReader 6 0x102)
      ∧ (interReader 6 0x102).pairAt interMarker.mem interMarker.regs.lzCfg 1 50 (interReader 6 0x104)
      ∧ interMarker.regs.lzCfg.endLen = true ∧ 50 = interMarker.regs.lzEndLen.toNat :=
  ⟨by unfold State.lzReady; decide +kernel, by decide +kernel, by decide +kernel, rfl, by decide +kernel,
    by decide +kernel, by unfold BitReader.pairAt; decide +kernel, by decide +kernel, by decide +kernel⟩

/-- Interleaved mode with a source that ends before a control bit, before a literal, and inside a pair. -/
def interCut (bytes : List Byte) : State := output 0x400 1 (lz 0x12108 (source 0 bytes base))

theorem witness_LzdecInterleaved_runsOut :
    ((interCut []).lzReady ∧ sane (interCut []) ∧ (interCut []).regs.lzCfg.mode = true
        ∧ interleaved (interCut []).regs.lzCfg (interCut []).mem [] (interCut []).br (interCut []).br
        ∧ (expandTokens (interCut []).regs []).length < (interCut []).regs.outCap.toNat
        ∧ (interCut []).br.cnt = 0
        ∧ (interCut []).br.endAddr.toNat < (interCut []).br.pos.toNat + (interCut []).br.refill.bytes)
      ∧ ((interCut [0x80]).lzReady ∧ sane (interCut [0x80]) ∧ (interCut [0x80]).regs.lzCfg.mode = true
        ∧ (interCut [0x80]).br.getBits (interCut [0x80]).mem 1 = .ok 1 (interReader 7 0x101 |> fun r =>
            { r with endAddr := 0x101 }))
      ∧ ((interCut [0, 0x32]).lzReady ∧ sane (interCut [0, 0x32]) ∧ (interCut [0, 0x32]).regs.lzCfg.mode = true
        ∧ (interCut [0, 0x32]).br.getBits (interCut [0, 0x32]).mem 1 = .ok 0 (interReader 7 0x101 |> fun r =>
            { r with endAddr := 0x102 })
        ∧ 0x102 < 0x101 + ((interCut [0, 0x32]).regs.lzCfg.offBits.toNat
            + (interCut [0, 0x32]).regs.lzCfg.lenBits.toNat + 7) / 8) :=
  ⟨⟨by unfold State.lzReady; decide +kernel, by decide +kernel, by decide +kernel, rfl, by decide +kernel⟩,
    ⟨by unfold State.lzReady; decide +kernel, by decide +kernel⟩,
    ⟨by unfold State.lzReady; decide +kernel, by decide +kernel⟩⟩

/-- Scenario B's tree. -/
def shapeB : CodeShape := .node (.leaf 0x41) (.leaf 0x42)

theorem witness_HuftreeBuildsDescription :
    let s := source 0 [0x90, 0x48, 0x49] base
    s.status.err = false ∧ sane s ∧ s.br.valid = true ∧ shapeB.size ≤ 1023
      ∧ s.stream = shapeB.bits s.br.order ++ [false, true, false, false, true] := by decide +kernel

/-- A tree that is a chain to the left, with `n` inner nodes. -/
def chain : Nat → CodeShape
  | 0 => .leaf 0
  | n + 1 => .node (chain n) (.leaf 0)

theorem chain_size (n : Nat) : (chain n).size = 2 * n + 1 := by
  induction n with
  | zero => rfl
  | succ n ih => simp only [chain, CodeShape.size, ih]; omega

theorem chain_bits (n : Nat) :
    (chain n).bits .msbFirst = List.replicate n true ++ List.replicate (9 * (n + 1)) false := by
  induction n with
  | zero => decide
  | succ n ih =>
    have h9 : (CodeShape.leaf 0).bits .msbFirst = List.replicate 9 false := by decide
    simp only [chain, CodeShape.bits, ih] at h9 ⊢
    rw [h9, List.append_assoc, ← List.replicate_add, show 9 * (n + 1 + 1) = 9 * (n + 1) + 9 by omega]
    rfl

theorem lookupCell_map_range' (g : Nat → Byte) (a n c : Nat) :
    lookupCell ((List.range' a n).map fun i => (i, g i)) c = if a ≤ c ∧ c < a + n then some (g c) else none := by
  induction n generalizing a with
  | zero => rw [if_neg (by omega)]; rfl
  | succ n ih =>
    simp only [List.range'_succ, List.map_cons, lookupCell, ih]
    by_cases h : a = c
    · subst h; simp
    · rw [if_neg h]
      by_cases h' : a + 1 ≤ c ∧ c < a + 1 + n
      · rw [if_pos h', if_pos (by omega)]
      · rw [if_neg h', if_neg (by omega)]

/-- 64 bytes FF, then zeros. -/
def bigByte (a : Nat) : Byte := if a < 0x140 then 0xFF else 0x00

/-- A reader over the description of 512 inner nodes and 513 leaves of symbol 0, and 7 bits more. -/
def bigSource : State :=
  { base with
    mem := { epoch := 0, cells := (List.range' 0x100 642).map fun a => (a, bigByte a) }
    br := { BitReader.zero with valid := true, pos := 0x100, endAddr := 0x382 } }

theorem bigSource_unit (j : Nat) (h : j < 642) :
    fieldBits .msbFirst 8 (bigSource.br.unitAt bigSource.mem (0x100 + 1 * j)) =
      List.replicate 8 (decide (j < 64)) := by
  have hr : bigSource.mem.read (0x100 + 1 * j) = bigByte (0x100 + j) := by
    simp only [Memory.read, Memory.written, bigSource, lookupCell_map_range']
    rw [if_pos (by omega), Nat.one_mul]
    rfl
  have hu : bigSource.br.unitAt bigSource.mem (0x100 + 1 * j) = (bigByte (0x100 + j)).toNat := by
    show (bigSource.mem.read (0x100 + 1 * j)).toNat ||| (0 <<< 8) = _
    rw [hr]
    simp
  rw [hu, bigByte]
  by_cases h' : j < 64
  · rw [if_pos (by omega), decide_eq_true h']; decide
  · rw [if_neg (by omega), decide_eq_false h']; decide

theorem bigSource_bits (n : Nat) (h : n ≤ 642) :
    ((List.range n).flatMap fun j => fieldBits .msbFirst 8 (bigSource.br.unitAt bigSource.mem (0x100 + 1 * j))) =
      List.replicate (8 * min n 64) true ++ List.replicate (8 * (n - 64)) false := by
  induction n with
  | zero => rfl
  | succ n ih =>
    rw [List.range_succ, List.flatMap_append, ih (by omega)]
    simp only [List.flatMap_cons, List.flatMap_nil, List.append_nil]
    rw [bigSource_unit n (by omega)]
    by_cases h' : n < 64
    · rw [decide_eq_true h', show n - 64 = 0 by omega, show n + 1 - 64 = 0 by omega,
        show 8 * min (n + 1) 64 = 8 * min n 64 + 8 by omega, List.replicate_add]
      simp
    · rw [decide_eq_false h', show 8 * min (n + 1) 64 = 8 * min n 64 by omega,
        show 8 * (n + 1 - 64) = 8 * (n - 64) + 8 by omega, List.replicate_add, List.append_assoc]

theorem bigSource_stream :
    bigSource.stream = (chain 512).bits .msbFirst ++ List.replicate 7 false := by
  have hu : bigSource.br.unitsLeft = 642 := by decide
  unfold State.stream BitReader.bits
  rw [hu, chain_bits, List.append_assoc, ← List.replicate_add]
  rw [show bigSource.br.order = .msbFirst from rfl, show bigSource.br.refill.bytes = 1 from rfl,
    show bigSource.br.pos.toNat = 0x100 from rfl, show bigSource.br.cnt.toNat = 0 from rfl]
  have h := bigSource_bits 642 (Nat.le_refl _)
  rw [show 8 * min 642 64 = 512 by decide, show 8 * (642 - 64) = 9 * (512 + 1) + 7 by decide] at h
  rw [show 8 * 1 = 8 from rfl, h, show fieldBits .msbFirst 0 bigSource.br.acc.toNat = [] from rfl, List.nil_append]

theorem bigSource_sane : sane bigSource := by
  show bigSource.memBytes ≤ 2 ^ 31 ∧ _
  exact ⟨by decide, fun _ => by decide⟩

/-- 95_test_vectors 2.3.7: a stream of ones begins node after node and ends inside the description. -/
def ones : State := source 0 (List.replicate 128 0xFF) base

theorem ones_stream : ones.stream = List.replicate 1024 true := by decide +kernel

/-- A chain begins one node with each of its ones. -/
theorem chain_starts (n a : Nat) : ∃ tail, (chain n).starts a = List.range' a (n + 1) ++ tail := by
  induction n generalizing a with
  | zero => exact ⟨[], rfl⟩
  | succ n ih =>
    obtain ⟨tail, h⟩ := ih (a + 1)
    exact ⟨tail ++ (CodeShape.leaf 0).starts (a + 1 + (chain n).width), by
      show a :: ((chain n).starts (a + 1) ++ _) = List.range' a (n + 1 + 1) ++ _
      rw [h, List.append_assoc]
      rfl⟩

theorem ones_tooLarge : (chain 1100).tooLarge ones.br.order ones.stream := by
  rw [ones_stream, show ones.br.order = .msbFirst by decide +kernel]
  refine ⟨.inl ⟨List.replicate 76 true ++ List.replicate (9 * (1100 + 1)) false, ?_⟩, ?_⟩
  · rw [chain_bits, ← List.append_assoc, ← List.replicate_add]
  · obtain ⟨tail, h⟩ := chain_starts 1100 0
    rw [CodeShape.begun, h, List.length_replicate, show 1100 + 1 = 1024 + 77 from rfl, ← List.range'_append_1,
      List.append_assoc, List.filter_append, List.length_append]
    have h1 : (List.range' 0 1024).filter (fun a => decide (a ≤ 1024)) = List.range' 0 1024 :=
      List.filter_eq_self.2 fun x hx => decide_eq_true (by have := List.mem_range'_1.1 hx; omega)
    rw [h1, List.length_range']
    omega

/-- The description of scenario B cut off behind its first byte: the root and the first leaf have been begun. -/
theorem cutB : shapeB.cutOff (source 0 [0x90] base).br.order (source 0 [0x90] base).stream := by
  unfold CodeShape.cutOff
  decide +kernel

theorem test_begun : shapeB.begun 8 = 2 ∧ shapeB.begun 10 = 3 ∧ shapeB.begun 0 = 1 := by decide

theorem chain_tooLarge : (chain 512).tooLarge .msbFirst ((chain 512).bits .msbFirst ++ List.replicate 7 false) :=
  ⟨.inr ⟨_, rfl⟩, by
    rw [CodeShape.begun_whole (by rw [List.length_append, CodeShape.length_bits]; omega), chain_size]
    decide⟩

theorem witness_HuftreeFailures :
    (base.status.err = false ∧ base.br.valid = false)
      ∧ (let s := source 0 [0x90] base
        s.status.err = false ∧ sane s ∧ s.br.valid = true)
      ∧ shapeB.cutOff (source 0 [0x90] base).br.order (source 0 [0x90] base).stream
      ∧ bigSource.status.err = false ∧ sane bigSource ∧ bigSource.br.valid = true
      ∧ (chain 512).tooLarge bigSource.br.order bigSource.stream
      ∧ ones.status.err = false ∧ sane ones ∧ ones.br.valid = true
      ∧ (chain 1100).tooLarge ones.br.order ones.stream :=
  ⟨by decide +kernel, by decide +kernel, cutB, by decide, bigSource_sane, by decide,
    by rw [bigSource_stream]; exact chain_tooLarge, by decide +kernel, by decide +kernel, by decide +kernel,
    ones_tooLarge⟩

theorem witness_HufcanonFailures :
    (base.status.err = false ∧ base.br.valid = false)
      ∧ (HufCfg.ofWord 0x40).lenBits.toNat < 1 ∧ 5 < (HufCfg.ofWord 0x46).lenBits.toNat
      ∧ (HufCfg.ofWord 0x03).nsym.toNat < 1 ∧ 512 < (HufCfg.ofWord 0x2013).nsym.toNat
      ∧ (let s := { source 0 [0x45] base with regs := { base.regs with hufCfg := HufCfg.ofWord 0x43 } }
        s.status.err = false ∧ s.br.valid = true ∧ sane s
          ∧ ¬(s.regs.hufCfg.lenBits.toNat < 1 ∨ 5 < s.regs.hufCfg.lenBits.toNat ∨ s.regs.hufCfg.nsym.toNat < 1
              ∨ 512 < s.regs.hufCfg.nsym.toNat)
          ∧ s.stream.length < s.regs.hufCfg.lenBits.toNat * s.regs.hufCfg.nsym.toNat) := by decide +kernel

theorem witness_HufcanonAssignsCanonicalCodes :
    let s := canonSample
    s.status.err = false ∧ sane s ∧ s.br.valid = true
      ∧ 1 ≤ s.regs.hufCfg.lenBits.toNat ∧ s.regs.hufCfg.lenBits.toNat ≤ 5
      ∧ 1 ≤ s.regs.hufCfg.nsym.toNat ∧ s.regs.hufCfg.nsym.toNat ≤ 512
      ∧ [2, 1, 3, 3].length = s.regs.hufCfg.nsym.toNat
      ∧ (∀ l ∈ [2, 1, 3, 3], l < 2 ^ s.regs.hufCfg.lenBits.toNat)
      ∧ s.stream = [2, 1, 3, 3].flatMap (fieldBits s.br.order s.regs.hufCfg.lenBits.toNat)
          ++ [false, false, false, false]
      ∧ (∀ c ∈ canonCodes [2, 1, 3, 3], c.2.2 < 2 ^ c.2.1)
      ∧ (codePrefixes (canonCodes [2, 1, 3, 3])).length ≤ 1023 := by decide +kernel

/-- 42_huffman R200's example codes, from the rule's text: symbol, length, code. -/
theorem test_canonCodes : canonCodes [2, 1, 3, 3] = [(1, 1, 0), (0, 2, 2), (2, 3, 6), (3, 3, 7)] := by decide

/-- Lengths 1, 1, 1 of 42_huffman R201: one code too many. -/
def oversubscribed : State :=
  { source 0 [0xE0] base with regs := { base.regs with hufCfg := HufCfg.ofWord 0x31 } }

theorem witness_HufcanonRejectsTable :
    let s := oversubscribed
    s.status.err = false ∧ sane s ∧ s.br.valid = true
      ∧ 1 ≤ s.regs.hufCfg.lenBits.toNat ∧ s.regs.hufCfg.lenBits.toNat ≤ 5
      ∧ 1 ≤ s.regs.hufCfg.nsym.toNat ∧ s.regs.hufCfg.nsym.toNat ≤ 512
      ∧ [1, 1, 1].length = s.regs.hufCfg.nsym.toNat
      ∧ (∀ l ∈ [1, 1, 1], l < 2 ^ s.regs.hufCfg.lenBits.toNat)
      ∧ s.stream = [1, 1, 1].flatMap (fieldBits s.br.order s.regs.hufCfg.lenBits.toNat)
          ++ [false, false, false, false, false]
      ∧ (canonCodes [1, 1, 1]).takeWhile (fun c => decide (c.2.2 < 2 ^ c.2.1)) ≠ canonCodes [1, 1, 1] := by
  decide +kernel

/-- A one-leaf tree, a root without children, and a leaf with a pseudo-symbol. -/
def leafTree (kind : TreeKind) (sym : BitVec 9) : CodeTree :=
  treeOf kind [{ leaf := true, sym := sym, left := none, right := none }]

def emptyTree : CodeTree := treeOf .canonical [Node.fresh]

/-- Scenario B ready to decode its five symbols. -/
def decoding (cap : Word) : State := output 0x400 cap scenarioB

theorem decoding_ready (cap : Word) (h : cap = 5 ∨ cap = 6) : (decoding cap).hufReady := by
  rcases h with rfl | rfl <;> unfold State.hufReady <;> decide +kernel

def abaab : List (List Bool × Byte) :=
  [([false], 0x41), ([true], 0x42), ([false], 0x41), ([false], 0x41), ([true], 0x42)]

theorem witness_HufdecRefusals :
    (base.status.err = false ∧ base.br.valid = false) ∧ (reader.br.valid = true ∧ reader.tree.valid = false)
      ∧ (HufCfg.ofWord 0x10010).rebuildEn = true ∧ (HufCfg.ofWord 0x10010).lenBits.toNat < 1
      ∧ (leafTree .canonical 0).kind = .canonical
      ∧ reader.memBytes < (0xFFFF : Word).toNat + (2 : Word).toNat
      ∧ rangesMeet 0x100 2 0x101 1 ∧ ¬rangesMeet 0x100 2 0x101 0
      ∧ scenarioB.status.err = false ∧ scenarioB.br.valid = true ∧ scenarioB.tree.valid = true
      ∧ scenarioB.regs.hufCfg.rebuildEn = false ∧ (output 0x400 0 scenarioB).regs.outCap = 0 := by decide +kernel

theorem witness_HufdecDecodes :
    (decoding 5).hufReady ∧ sane (decoding 5) ∧ (decoding 5).codes (decoding 5).tree abaab
      ∧ abaab.length = (decoding 5).regs.outCap.toNat
      ∧ (decoding 5).stream = (abaab.flatMap fun p => p.1) ++ [] :=
  ⟨decoding_ready 5 (.inl rfl), by decide +kernel, by unfold State.codes; decide +kernel, by decide +kernel,
    by decide +kernel⟩

/-- Scenario B's stream in front of other trees. -/
def withTree (t : CodeTree) (cap : Word) (s : State) : State := { output 0x400 cap s with tree := t }

theorem witness_HufdecErrors :
    ((decoding 6).hufReady ∧ sane (decoding 6) ∧ (decoding 6).codes (decoding 6).tree abaab
        ∧ abaab.length < (decoding 6).regs.outCap.toNat
        ∧ (decoding 6).stream = (abaab.flatMap fun p => p.1) ++ []
        ∧ ((decoding 6).tree.innerAt 0 []).isSome = true)
      ∧ (let s := withTree emptyTree 1 (source 0 [0x80] base)
        s.status.err = false ∧ s.br.valid = true ∧ s.tree.valid = true ∧ sane s ∧ 0 < s.regs.outCap.toNat
          ∧ s.stream = true :: [false, false, false, false, false, false, false]
          ∧ s.tree.innerAt 0 [] = some 0 ∧ (s.tree.nodeAt 0).right = none)
      ∧ (let s := withTree (leafTree .canonical 256) 1 reader
        s.status.err = false ∧ s.br.valid = true ∧ s.tree.valid = true ∧ sane s ∧ 0 < s.regs.outCap.toNat
          ∧ s.tree.symbolAt 0 [] = some 256 ∧ 256 ≤ (256 : BitVec 9).toNat ∧ s.regs.hufCfg.rebuildEn = false) :=
  ⟨⟨decoding_ready 6 (.inr rfl), by decide +kernel, by unfold State.codes; decide +kernel, by decide +kernel,
      by decide +kernel, by decide +kernel⟩,
    by decide +kernel, by decide +kernel⟩

/-- A one-leaf tree whose symbol 41 is the rebuild signal, in front of the description of a leaf 42. -/
def rebuilding (cfg : Word) (kind : TreeKind) (s : State) : State :=
  let t := withTree (leafTree kind 0x41) 1 s
  { t with regs := { t.regs with hufCfg := HufCfg.ofWord cfg, hufRsym := 0x41 } }

def rebuildSmall : State := rebuilding 0x10000 .selfDescribing (source 0 [0x21, 0x00] base)

def rebuildBig : State := rebuilding 0x10000 .selfDescribing bigSource

theorem witness_HufdecRebuildsSelfDescribing :
    rebuildSmall.hufReady ∧ sane rebuildSmall ∧ rebuildSmall.regs.hufCfg.rebuildEn = true
      ∧ rebuildSmall.tree.kind = .selfDescribing ∧ rebuildSmall.codes rebuildSmall.tree []
      ∧ rebuildSmall.tree.symbolAt 0 [] = some rebuildSmall.regs.hufRsym
      ∧ ([] : List (List Bool × Byte)).length < rebuildSmall.regs.outCap.toNat
      ∧ (CodeShape.leaf 0x42).size ≤ 1023
      ∧ [(([] : List Bool), (0x42 : Byte))].length = rebuildSmall.regs.outCap.toNat
      ∧ (∀ p ∈ [(([] : List Bool), (0x42 : Byte))],
          (CodeShape.leaf 0x42).symbolAt p.1 = some p.2 ∧ p.2.setWidth 9 ≠ rebuildSmall.regs.hufRsym)
      ∧ rebuildSmall.stream = (CodeShape.leaf 0x42).bits rebuildSmall.br.order ++ List.replicate 7 false :=
  ⟨by unfold State.hufReady; decide +kernel, by decide +kernel, by decide +kernel, by decide +kernel,
    by unfold State.codes; decide +kernel, by decide +kernel⟩

theorem witness_HufdecRebuildsSelfDescribing_tooLarge :
    rebuildBig.hufReady ∧ sane rebuildBig ∧ rebuildBig.regs.hufCfg.rebuildEn = true
      ∧ rebuildBig.tree.kind = .selfDescribing ∧ rebuildBig.codes rebuildBig.tree []
      ∧ rebuildBig.tree.symbolAt 0 [] = some rebuildBig.regs.hufRsym
      ∧ ([] : List (List Bool × Byte)).length < rebuildBig.regs.outCap.toNat
      ∧ (chain 512).tooLarge rebuildBig.br.order rebuildBig.stream :=
  ⟨by unfold State.hufReady; decide +kernel, bigSource_sane, by decide +kernel, by decide +kernel,
    by unfold State.codes; decide +kernel, by decide +kernel, by decide +kernel,
    by rw [show rebuildBig.stream = bigSource.stream from rfl, bigSource_stream]; exact chain_tooLarge⟩

/-- The signal, then the beginning of scenario B's description. -/
def rebuildCut : State := rebuilding 0x10000 .selfDescribing (source 0 [0x90] base)

theorem witness_HufdecRebuildsSelfDescribing_cutOff :
    rebuildCut.hufReady ∧ sane rebuildCut ∧ rebuildCut.regs.hufCfg.rebuildEn = true
      ∧ rebuildCut.tree.kind = .selfDescribing ∧ rebuildCut.codes rebuildCut.tree []
      ∧ rebuildCut.tree.symbolAt 0 [] = some rebuildCut.regs.hufRsym
      ∧ ([] : List (List Bool × Byte)).length < rebuildCut.regs.outCap.toNat
      ∧ shapeB.cutOff rebuildCut.br.order rebuildCut.stream :=
  ⟨by unfold State.hufReady; decide +kernel, by decide +kernel, by decide +kernel, by decide +kernel,
    by unfold State.codes; decide +kernel, by decide +kernel, by decide +kernel, cutB⟩

/-- Canonical rebuilds in front of a table of two 3-bit lengths with 5 bits left, and of the lengths 1, 1, 1. -/
def rebuildShort : State := rebuilding 0x10023 .canonical (after (.getbits 3) (source 0 [0x80] base))

def rebuildOver : State := rebuilding 0x10031 .canonical (source 0 [0xE0] base)

theorem witness_HufdecRebuildsCanonical_failures :
    (rebuildShort.hufReady ∧ sane rebuildShort ∧ rebuildShort.regs.hufCfg.rebuildEn = true
        ∧ rebuildShort.tree.kind = .canonical ∧ rebuildShort.codes rebuildShort.tree []
        ∧ rebuildShort.tree.symbolAt 0 [] = some rebuildShort.regs.hufRsym
        ∧ 0 < rebuildShort.regs.outCap.toNat
        ∧ rebuildShort.stream.length < rebuildShort.regs.hufCfg.lenBits.toNat * rebuildShort.regs.hufCfg.nsym.toNat)
      ∧ (rebuildOver.hufReady ∧ sane rebuildOver ∧ rebuildOver.regs.hufCfg.rebuildEn = true
        ∧ rebuildOver.tree.kind = .canonical ∧ rebuildOver.codes rebuildOver.tree []
        ∧ rebuildOver.tree.symbolAt 0 [] = some rebuildOver.regs.hufRsym
        ∧ 0 < rebuildOver.regs.outCap.toNat
        ∧ [1, 1, 1].length = rebuildOver.regs.hufCfg.nsym.toNat
        ∧ (∀ l ∈ [1, 1, 1], l < 2 ^ rebuildOver.regs.hufCfg.lenBits.toNat)
        ∧ rebuildOver.stream = [1, 1, 1].flatMap (fieldBits rebuildOver.br.order rebuildOver.regs.hufCfg.lenBits.toNat)
            ++ [false, false, false, false, false]
        ∧ (canonCodes [1, 1, 1]).takeWhile (fun c => decide (c.2.2 < 2 ^ c.2.1)) ≠ canonCodes [1, 1, 1]) :=
  ⟨⟨by unfold State.hufReady; decide +kernel, by decide +kernel, by decide +kernel, by decide +kernel,
      by unfold State.codes; decide +kernel, by decide +kernel⟩,
    ⟨by unfold State.hufReady; decide +kernel, by decide +kernel, by decide +kernel, by decide +kernel,
      by unfold State.codes; decide +kernel, by decide +kernel⟩⟩

theorem witness_HufdecRebuildsCanonical :
    let s := rebuilding 0x10011 .canonical (source 0 [0x80] base)
    s.hufReady ∧ sane s ∧ s.regs.hufCfg.rebuildEn = true ∧ s.tree.kind = .canonical ∧ s.codes s.tree []
      ∧ s.tree.symbolAt 0 [] = some s.regs.hufRsym
      ∧ ([] : List (List Bool × Byte)).length < s.regs.outCap.toNat
      ∧ [([false], (0 : Byte))].length = s.regs.outCap.toNat
      ∧ [1].length = s.regs.hufCfg.nsym.toNat ∧ (∀ l ∈ [1], l < 2 ^ s.regs.hufCfg.lenBits.toNat)
      ∧ (canonCodes [1]).takeWhile (fun c => decide (c.2.2 < 2 ^ c.2.1)) = canonCodes [1]
      ∧ (codePrefixes (canonCodes [1])).length ≤ 1023
      ∧ (∀ p ∈ [([false], (0 : Byte))], p.2.setWidth 9 ≠ s.regs.hufRsym
          ∧ ∃ c ∈ canonCodes [1], c.1 = p.2.toNat ∧ codePath c.2.1 c.2.2 = p.1)
      ∧ s.stream = [1].flatMap (fieldBits s.br.order s.regs.hufCfg.lenBits.toNat)
          ++ [false] ++ [false, false, false, false, false, false] :=
  ⟨by unfold State.hufReady; decide +kernel, by decide +kernel, by decide +kernel, by decide +kernel,
    by unfold State.codes; decide +kernel, by decide +kernel⟩

theorem witness_XorkeyRule :
    xorSample.status.err = false ∧ (buffer 0 0 0 0 0 base).regs.keyLen = 0
      ∧ base.memBytes < (0xFFFF : Word).toNat + (2 : Word).toNat
      ∧ rangesMeet 0x200 4 0x203 1 ∧ ¬rangesMeet 0x200 4 0x204 1
      ∧ xorSample.regs.keyLen ≠ 0 ∧ ¬xorSample.memBytes < xorSample.regs.bufAddr.toNat + xorSample.regs.bufLen.toNat
      ∧ ¬xorSample.memBytes < xorSample.regs.keyAddr.toNat + xorSample.regs.keyLen.toNat := by decide +kernel

theorem witness_XorprngRule :
    prngSample.status.err = false ∧ 24 < (25 : BitVec 5).toNat ∧ ¬24 < (24 : BitVec 5).toNat
      ∧ ¬prngSample.memBytes < prngSample.regs.bufAddr.toNat + prngSample.regs.bufLen.toNat := by decide +kernel

theorem witness_XorSelfInverse :
    let s := xorSample
    s.status.err = false ∧ s.regs.bufAddr.toNat + s.regs.bufLen.toNat ≤ s.memBytes ∧ s.regs.keyLen ≠ 0
      ∧ s.regs.keyAddr.toNat + s.regs.keyLen.toNat ≤ s.memBytes
      ∧ ¬rangesMeet s.regs.bufAddr.toNat s.regs.bufLen.toNat s.regs.keyAddr.toNat s.regs.keyLen.toNat
      ∧ s.regs.prngShift.toNat ≤ 24 := by decide +kernel

theorem witness_XorkeySplit :
    let s := xorSample
    s.status.err = false ∧ s.memBytes ≤ 2 ^ 31 ∧ s.regs.keyLen ≠ 0
      ∧ s.regs.bufAddr.toNat + s.regs.bufLen.toNat ≤ s.memBytes
      ∧ s.regs.keyAddr.toNat + s.regs.keyLen.toNat ≤ s.memBytes
      ∧ ¬rangesMeet s.regs.bufAddr.toNat s.regs.bufLen.toNat s.regs.keyAddr.toNat s.regs.keyLen.toNat
      ∧ 4 ≤ s.regs.bufLen.toNat := by decide +kernel

theorem witness_SubloadRule :
    base.status.err = false ∧ base.memBytes < (0xFF01 : Word).toNat + 256 ∧ ¬base.memBytes < (0xFF00 : Word).toNat + 256 := by
  decide

theorem witness_SubgenRule :
    base.status.err = false ∧ ({ base with result := 1 } : State).status.err = false
      ∧ ({ base with result := 1 } : State).regs.subSeed = base.regs.subSeed
      ∧ ∃ v, exec .subgen { base with result := 1 } = .next v :=
  ⟨by decide, by decide, by decide, _, rfl⟩

theorem witness_SubswapRule :
    swapSample.status.err = false ∧ base.subValid = false ∧ swapSample.subValid = true
      ∧ base.memBytes < (0xFFFF : Word).toNat + (2 : Word).toNat
      ∧ ¬swapSample.memBytes < swapSample.regs.keyAddr.toNat + swapSample.regs.keyLen.toNat := by decide +kernel

theorem witness_SubtripleRule :
    base.status.err = false ∧ base.subValid = false ∧ (filled base).status.err = false ∧ (filled base).subValid = true := by
  decide +kernel

theorem witness_SubapplyRule :
    base.status.err = false ∧ base.subValid = false ∧ (filled base).subValid = true
      ∧ base.memBytes < (0xFFFF : Word).toNat + (2 : Word).toNat
      ∧ ¬base.memBytes < (0xFFFF : Word).toNat + (1 : Word).toNat := by decide +kernel

theorem witness_SubstoreRule :
    base.status.err = false ∧ base.subValid = false ∧ (filled base).subValid = true
      ∧ (255 : Word).toNat < 256 ∧ ¬(256 : Word).toNat < 256
      ∧ base.memBytes < (0xFF01 : Word).toNat + 256 ∧ ¬base.memBytes < (0xFF00 : Word).toNat + 256 := by decide +kernel

/-- The identity table. -/
def identityTable : Vector Byte 256 := Vector.ofFn fun i => BitVec.ofNat 8 i.val

theorem identityTable_bijective : Function.Bijective (tableGet identityTable) := by
  have h : tableGet identityTable = id := by
    funext b
    show identityTable[b.toNat]'b.isLt = b
    simp [identityTable]
  rw [h]
  exact Function.bijective_id

theorem witness_PermutationKept :
    (∃ t, exec .subtriple { base with sbox := identityTable, subValid := true } = .next t)
      ∧ Instr.subtriple ≠ .subload ∧ Instr.subtriple ≠ .subgen ∧ Instr.subtriple ≠ .sreset
      ∧ Function.Bijective (tableGet ({ base with sbox := identityTable, subValid := true } : State).sbox) :=
  ⟨⟨_, rfl⟩, by decide, by decide, by decide, identityTable_bijective⟩

theorem witness_CbcdecRefusals :
    cbcSample.status.err = false ∧ base.regs.keyLen.toNat ≠ 16 ∧ cbcSample.regs.keyLen.toNat = 16
      ∧ base.memBytes < (0xFFF1 : Word).toNat + 16 ∧ ¬base.memBytes < (0xFFF0 : Word).toNat + 16
      ∧ rangesMeet 0x200 16 0x20F 16 ∧ ¬rangesMeet 0x200 16 0x210 16
      ∧ (15 : Word).toNat % 16 ≠ 0 ∧ (buffer 0 0 0 16 0 base).regs.bufLen = 0 := by decide +kernel

theorem witness_CbcdecRule :
    let r := cbcSample.regs
    cbcSample.status.err = false ∧ r.keyLen.toNat = 16
      ∧ r.bufAddr.toNat + r.bufLen.toNat ≤ cbcSample.memBytes
      ∧ r.keyAddr.toNat + r.keyLen.toNat ≤ cbcSample.memBytes ∧ r.ivAddr.toNat + 16 ≤ cbcSample.memBytes
      ∧ ¬rangesMeet r.bufAddr.toNat r.bufLen.toNat r.keyAddr.toNat r.keyLen.toNat
      ∧ ¬rangesMeet r.bufAddr.toNat r.bufLen.toNat r.ivAddr.toNat 16
      ∧ r.bufLen.toNat % 16 = 0 ∧ r.bufLen ≠ 0 := by decide +kernel

theorem witness_AesDecryptInvertsEncrypt :
    (List.replicate 16 (0 : Byte)).length = 16 ∧ (List.replicate 24 (0 : Byte)).length = 24
      ∧ (List.replicate 32 (0 : Byte)).length = 32 := by decide

/-- A state that meets the invariant, with a NOP to come. -/
theorem witness_StepKeepsInvariant :
    ({ base with host := [.writeReg 0 0] } : State).Inv
      ∧ ∃ t, step { base with host := [.writeReg 0 0] } = .next t := by
  refine ⟨⟨by decide, by decide, by decide, ?_, by decide, ⟨?_, ?_⟩, by decide, by decide, ?_, ?_, ?_⟩, _, rfl⟩
  · intro c hc; cases hc
  · intro c hc; cases hc
  · intro f hf; cases hf
  · intro h; cases h
  · exact ⟨by decide, by decide, fun _ => rfl⟩
  · intro h; cases h

theorem witness_UnfilledTableUnread : base.subValid = false ∧ ∃ t, exec .subapply base = .next t := ⟨by decide, _, rfl⟩

/-- A valid one-leaf tree and one that differs from it in a node outside the tree. -/
theorem witness_UnbuiltTreeUnread :
    let s : State := withTree (leafTree .canonical 0x41) 1 reader
    let other : CodeTree := s.tree.setNode 1 { leaf := true, sym := 7, left := none, right := none }
    s.tree.ok ∧ other.valid = s.tree.valid ∧ other.kind = s.tree.kind ∧ other.nnodes = s.tree.nnodes
      ∧ s.tree.agree other ∧ ∃ t, exec .hufdec s = .next t := by
  have h0 : ∀ i : Fin 1023, i.val < (leafTree .canonical 0x41).nnodes.toNat → i = 0 := by
    intro i hi
    have : (leafTree .canonical 0x41).nnodes.toNat = 1 := by decide +kernel
    exact Fin.ext (by simp only [Fin.val_zero]; omega)
  refine ⟨fun _ => ⟨by decide +kernel, fun i hi hl => ?_⟩, by decide +kernel, by decide +kernel, by decide +kernel,
    ⟨by decide +kernel, by decide +kernel, by decide +kernel, fun i hi => ?_⟩, _, rfl⟩
  · rw [h0 i hi] at hl
    exact absurd hl (by decide +kernel)
  · rw [h0 i hi]
    decide +kernel

theorem witness_LoopBoundsNeverReached :
    sane scenarioB ∧ scenarioB.br.valid = true ∧ (source 0 [0x90] base).tree.nnodes = 0
      ∧ sane (source 0 [0x90] base) ∧ (HufCfg.ofWord 0x43).legal = true := by decide +kernel

end Sys2Proof.Tests
end

/-!
## Rules for parts of commands

The proofs about whole commands go through three rules, each stated once: what a part of a command leaves
(`Res.Ends`), how two runs of it correspond (`Res.Rel`), and which bytes of MEM it may have written
(`Memory.WritesIn`).
-/

namespace Sys2Proof.Machine

/-! ### What a part of a command leaves -/

/-- The part ends in a state with `Q`, or raises in a state with `E`. -/
def Res.Ends {σ α : Type} (Q E : σ → Prop) : Res σ α → Prop
  | .ok _ s => Q s
  | .raised _ _ s => E s

theorem Res.Ends.bind {σ α β : Type} {Q' Q E : σ → Prop} {x : Res σ α} {f : α → σ → Res σ β}
    (hx : x.Ends Q' E) (hf : ∀ a s, Q' s → (f a s).Ends Q E) : (x.bind f).Ends Q E := by
  cases x with
  | ok a s => exact hf a s hx
  | raised e info s => exact hx

theorem Res.Ends.mono {σ α : Type} {Q Q' E E' : σ → Prop} {x : Res σ α} (hx : x.Ends Q E)
    (hQ : ∀ s, Q s → Q' s) (hE : ∀ s, E s → E' s) : x.Ends Q' E' := by
  cases x with
  | ok a s => exact hQ s hx
  | raised e info s => exact hE s hx

/-! ### Two runs of a part of a command -/

/-- Two runs correspond: both succeed, with one value and states related by `Q`, or both raise one error, in
states related by `E`. A run that corresponds to itself says what it leaves. -/
inductive Res.Rel {σ α : Type} (Q : α → σ → σ → Prop) (E : σ → σ → Prop) : Res σ α → Res σ α → Prop
  | ok {a : α} {s t : σ} (h : Q a s t) : Res.Rel Q E (.ok a s) (.ok a t)
  | raised {e : ErrorName} {info : Nat} {s t : σ} (h : E s t) : Res.Rel Q E (.raised e info s) (.raised e info t)

/-- Two runs keep a relation of states, whether they succeed or raise. -/
abbrev Res.Sim {σ α : Type} (R : σ → σ → Prop) (x y : Res σ α) : Prop := Res.Rel (fun _ => R) R x y

theorem Res.Rel.bind {σ α β : Type} {Q' : α → σ → σ → Prop} {Q : β → σ → σ → Prop} {E : σ → σ → Prop}
    {x y : Res σ α} {f g : α → σ → Res σ β} (hx : Res.Rel Q' E x y)
    (hf : ∀ a s t, Q' a s t → Res.Rel Q E (f a s) (g a t)) : Res.Rel Q E (x.bind f) (y.bind g) := by
  cases hx with
  | ok h => exact hf _ _ _ h
  | raised h => exact .raised h

theorem Res.Rel.mono {σ α : Type} {Q Q' : α → σ → σ → Prop} {E E' : σ → σ → Prop} {x y : Res σ α}
    (hx : Res.Rel Q E x y) (hQ : ∀ a s t, Q a s t → Q' a s t) (hE : ∀ s t, E s t → E' s t) :
    Res.Rel Q' E' x y := by
  cases hx with
  | ok h => exact .ok (hQ _ _ _ h)
  | raised h => exact .raised (hE _ _ h)

/-- What a run that corresponds to itself leaves. -/
theorem Res.Rel.ends {σ α : Type} {Q : α → σ → σ → Prop} {E : σ → σ → Prop} {x y : Res σ α} {Q' E' : σ → Prop}
    (hx : Res.Rel Q E x y) (hQ : ∀ a s t, Q a s t → Q' s) (hE : ∀ s t, E s t → E' s) : x.Ends Q' E' := by
  cases hx with
  | ok h => exact hQ _ _ _ h
  | raised h => exact hE _ _ h

/-- Start-up checks with the same outcome raise in both runs or in neither (60_exceptions R304). -/
theorem withChecks_rel {checks : State → List Check} {body : State → Res State Unit} {s u : State}
    {Q : Unit → State → State → Prop} {E : State → State → Prop} (hc : checks u = checks s) (hE : E s u)
    (hbody : (∀ c ∈ checks s, c.pass = true) → Res.Rel Q E (body s) (body u)) :
    Res.Rel Q E (withChecks checks body s) (withChecks checks body u) := by
  unfold withChecks
  rw [hc]
  cases h : firstFailure (checks s) with
  | none => exact hbody (firstFailure_eq_none.1 h)
  | some c => exact .raised hE

/-- What a checked body leaves, given what the body leaves once every check has passed. -/
theorem withChecks_ends {checks : State → List Check} {body : State → Res State Unit} {s : State}
    {Q E : State → Prop} (hE : E s) (hbody : (∀ c ∈ checks s, c.pass = true) → (body s).Ends Q E) :
    (withChecks checks body s).Ends Q E := by
  rcases withChecks_cases checks body s with ⟨c, -, -, -, h⟩ | ⟨hpass, h⟩ <;> rw [h]
  · exact hE
  · exact hbody hpass

/-! ### Acceptance (60_exceptions R307) -/

/-- The three ways a command other than CLRERR and SRESET goes. -/
theorem runCommand_cases (body : State → Res State Unit) (s : State) :
    (s.status.err = true ∧ runCommand body s = s)
    ∨ (s.status.err = false ∧ ∃ t, body (accept s) = .ok () t ∧ runCommand body s = finish t)
    ∨ (s.status.err = false ∧ ∃ e info t, body (accept s) = .raised e info t
        ∧ runCommand body s = raiseError e info t) := by
  cases herr : s.status.err with
  | true => exact .inl ⟨rfl, runCommand_ignored herr⟩
  | false =>
    rw [runCommand_accepted herr]
    cases hb : body (accept s) with
    | ok a t => exact .inr (.inl ⟨rfl, t, rfl, rfl⟩)
    | raised e info t => exact .inr (.inr ⟨rfl, e, info, t, rfl, rfl⟩)

/-- Two runs of a command correspond when the runs of its body do. -/
theorem runCommand_rel {body : State → Res State Unit} {s u : State} {Q : Unit → State → State → Prop}
    {E F : State → State → Prop} (hst : u.status = s.status) (hignored : F s u)
    (hbody : s.status.err = false → Res.Rel Q E (body (accept s)) (body (accept u)))
    (hfinish : ∀ t v, Q () t v → F (finish t) (finish v))
    (hraise : ∀ e info t v, E t v → F (raiseError e info t) (raiseError e info v)) :
    F (runCommand body s) (runCommand body u) := by
  unfold runCommand
  rw [hst]
  cases herr : s.status.err with
  | true => exact hignored
  | false =>
    have h := hbody herr
    simp only [Bool.false_eq_true, if_false]
    generalize body (accept s) = x at h ⊢
    generalize body (accept u) = y at h ⊢
    cases h with
    | ok h => exact hfinish _ _ h
    | raised h => exact hraise _ _ _ _ h

/-! ### Which bytes of MEM may have been written -/

/-- The second memory comes from the first by byte writes at addresses in `W`. -/
inductive Memory.WritesIn (W : Nat → Prop) (m : Memory) : Memory → Prop
  | refl : Memory.WritesIn W m m
  | write {m' : Memory} {a : Nat} (b : Byte) (h : Memory.WritesIn W m m') (ha : W a) :
      Memory.WritesIn W m (m'.write a b)

theorem Memory.WritesIn.trans {W : Nat → Prop} {m m' m'' : Memory} (h : m.WritesIn W m') (h' : m'.WritesIn W m'') :
    m.WritesIn W m'' := by
  induction h' with
  | refl => exact h
  | write b _ ha ih => exact ih.write b ha

theorem Memory.WritesIn.mono {W W' : Nat → Prop} {m m' : Memory} (h : m.WritesIn W m') (hW : ∀ a, W a → W' a) :
    m.WritesIn W' m' := by
  induction h with
  | refl => exact .refl
  | write b _ ha ih => exact ih.write b (hW _ ha)

theorem Memory.WritesIn.read_eq {W : Nat → Prop} {m m' : Memory} (h : m.WritesIn W m') {a : Nat} (ha : ¬W a) :
    m'.read a = m.read a := by
  induction h with
  | refl => rfl
  | write b _ hc ih => rw [Memory.read_write_other _ _ (by rintro rfl; exact ha hc), ih]

theorem Memory.WritesIn.epoch_eq {W : Nat → Prop} {m m' : Memory} (h : m.WritesIn W m') : m'.epoch = m.epoch := by
  induction h with
  | refl => rfl
  | write b _ _ ih => exact ih

theorem Memory.WritesIn.wf {W : Nat → Prop} {m m' : Memory} (h : m.WritesIn W m') (hm : m.wf = true) :
    m'.wf = true := by
  induction h with
  | refl => exact hm
  | write b _ _ ih => exact Memory.wf_write _ b ih

theorem Memory.WritesIn.within {W : Nat → Prop} {m m' : Memory} {n : Nat} (h : m.WritesIn W m')
    (hW : ∀ a, W a → a < n) (hm : m.within n) : m'.within n := by
  induction h with
  | refl => exact hm
  | write b _ ha ih => exact Memory.within_write b ih (hW _ ha)

/-- A loop over MEM writes where its passes write. -/
theorem Memory.WritesIn.forUp {W : Nat → Prop} {f : Nat → Memory → Memory} {n start : Nat} (m : Memory)
    (hf : ∀ i (m : Memory), start ≤ i → i < start + n → m.WritesIn W (f i m)) :
    m.WritesIn W (Machine.forUp f n start m) :=
  forUp_keeps (fun m' => m.WritesIn W m') n start m (fun i m' h1 h2 h => h.trans (hf i m' h1 h2)) .refl

/-- The same for a loop that carries a second value beside MEM. -/
theorem Memory.WritesIn.forUp_fst {τ : Type} {W : Nat → Prop} {f : Nat → Memory × τ → Memory × τ} {n start : Nat}
    (p : Memory × τ) (hf : ∀ i (p : Memory × τ), start ≤ i → i < start + n → p.1.WritesIn W (f i p).1) :
    p.1.WritesIn W (Machine.forUp f n start p).1 :=
  forUp_keeps (fun p' : Memory × τ => p.1.WritesIn W p'.1) n start p
    (fun i p' h1 h2 h => h.trans (hf i p' h1 h2)) .refl

theorem Memory.WritesIn.xorAt {W : Nat → Prop} {a : Nat} (m : Memory) (k : Byte) (ha : W a) :
    m.WritesIn W (m.xorAt a k) := .write _ .refl ha

theorem Memory.WritesIn.writeBlock {W : Nat → Prop} {a : Nat} (m : Memory) (b : Block)
    (ha : ∀ i, i < 16 → W (a + i)) : m.WritesIn W (m.writeBlock a b) :=
  Memory.WritesIn.forUp m fun i _ _ hi => .write _ .refl (ha i (by omega))

end Sys2Proof.Machine

/-! ## The bit reader -/

namespace Sys2Proof.Machine

/-! ### Soundness (10_state R41) -/

/-- The reader invariants of 10_state R41 that speak of the reader alone. -/
def BitReader.sound (r : BitReader) : Prop :=
  r.pos.toNat ≤ r.endAddr.toNat ∧ r.cnt.toNat ≤ 8 * r.refill.bytes ∧ r.acc.toNat < 2 ^ r.cnt.toNat

/-- What reading does to the reader: the source stays, and so does soundness. -/
def BitReader.Advances (r q : BitReader) : Prop := r.sameSource q ∧ (r.sound → q.sound)

theorem BitReader.Advances.refl (r : BitReader) : r.Advances r := ⟨r.sameSource_refl, id⟩

theorem Memory.readLE_lt (m : Memory) (a n : Nat) : m.readLE a n < 2 ^ (8 * n) := by
  induction n generalizing a with
  | zero => simp [Memory.readLE]
  | succ n ih =>
    have hlow : (m.read a).toNat < 2 ^ (8 * (n + 1)) :=
      (m.read a).isLt.trans_le (Nat.pow_le_pow_right (by decide) (by omega))
    have hhigh : m.readLE (a + 1) n <<< 8 < 2 ^ (8 * (n + 1)) := by
      have := ih (a + 1)
      rw [Nat.shiftLeft_eq, Nat.mul_add, pow_add]
      omega
    exact Nat.or_lt_two_pow hlow hhigh

theorem Memory.readBE_lt (m : Memory) (a n : Nat) : m.readBE a n < 2 ^ (8 * n) := by
  induction n generalizing a with
  | zero => simp [Memory.readBE]
  | succ n ih =>
    have hhigh : (m.read a).toNat <<< (8 * n) < 2 ^ (8 * (n + 1)) := by
      have := (m.read a).isLt
      rw [Nat.shiftLeft_eq, Nat.mul_add, pow_add, Nat.mul_comm (2 ^ (8 * n))]
      exact Nat.mul_lt_mul_of_pos_right this (Nat.two_pow_pos _)
    have hlow : m.readBE (a + 1) n < 2 ^ (8 * (n + 1)) :=
      (ih (a + 1)).trans_le (Nat.pow_le_pow_right (by decide) (by omega))
    exact Nat.or_lt_two_pow hhigh hlow

/-- A unit fits its size. -/
theorem BitReader.unitAt_lt (r : BitReader) (m : Memory) (a : Nat) : r.unitAt m a < 2 ^ (8 * r.refill.bytes) := by
  unfold BitReader.unitAt
  split
  · exact m.readBE_lt a _
  · exact m.readLE_lt a _

theorem BitReader.sound_empty {r : BitReader} (h : r.sound) : ({ r with acc := 0, cnt := 0 } : BitReader).sound :=
  ⟨h.1, Nat.zero_le _, Nat.one_pos⟩

theorem BitReader.sound_ensure {m : Memory} {r : BitReader} (h : r.sound) : (r.ensure m).Ends sound sound := by
  unfold BitReader.ensure
  split
  · rcases r.refillUnit_cases m with ⟨-, e⟩ | ⟨hle, e⟩ <;> rw [e]
    · exact sound_empty h
    · have hpos := r.endAddr.isLt
      have hw := r.refill.bytes_le
      have hcnt : (BitVec.ofNat 6 (8 * r.refill.bytes)).toNat = 8 * r.refill.bytes := by
        rw [BitVec.toNat_ofNat]; omega
      refine ⟨?_, ?_, ?_⟩
      · show (BitVec.ofNat 32 (r.pos.toNat + r.refill.bytes)).toNat ≤ r.endAddr.toNat
        rw [BitVec.toNat_ofNat]; omega
      · exact hcnt.le
      · show (BitVec.ofNat 32 _).toNat < 2 ^ (BitVec.ofNat 6 _).toNat
        rw [hcnt, BitVec.toNat_ofNat]
        exact (Nat.mod_le _ _).trans_lt (r.unitAt_lt m _)
  · exact h

theorem BitReader.sound_take {k : Nat} {r : BitReader} (hk : k ≤ r.cnt.toNat) (h : r.sound) :
    (r.take k).2.sound := by
  obtain ⟨hpos, hcnt, hacc⟩ := h
  have hrest : (BitVec.ofNat 6 (r.cnt.toNat - k)).toNat = r.cnt.toNat - k := by
    have := r.cnt.isLt
    rw [BitVec.toNat_ofNat]; omega
  have hlt (v : Nat) (hv : v < 2 ^ (r.cnt.toNat - k)) :
      (BitVec.ofNat 32 v).toNat < 2 ^ (BitVec.ofNat 6 (r.cnt.toNat - k)).toNat := by
    rw [hrest, BitVec.toNat_ofNat]
    exact (Nat.mod_le _ _).trans_lt hv
  have hle : (BitVec.ofNat 6 (r.cnt.toNat - k)).toNat ≤ 8 * r.refill.bytes := by rw [hrest]; omega
  unfold BitReader.take
  cases r.order with
  | msbFirst => exact ⟨hpos, hle, hlt _ (Nat.mod_lt _ (Nat.two_pow_pos _))⟩
  | lsbFirst =>
    refine ⟨hpos, hle, hlt _ ?_⟩
    rw [Nat.shiftRight_eq_div_pow, Nat.div_lt_iff_lt_mul (Nat.two_pow_pos _), ← pow_add]
    rwa [Nat.sub_add_cancel hk]

theorem BitReader.sound_getBitsLoop {m : Memory} {n fuel got result : Nat} {r : BitReader} (h : r.sound) :
    (r.getBitsLoop m n fuel got result).Ends sound sound := by
  induction fuel generalizing got result r with
  | zero => exact h
  | succ fuel ih =>
    unfold BitReader.getBitsLoop
    split
    · exact h
    · exact (sound_ensure h).bind fun _ q hq => ih (sound_take (Nat.min_le_right _ _) hq)

/-- Reading a field advances the reader, also when it raises. -/
theorem BitReader.getBits_advances (m : Memory) (n : Nat) (r : BitReader) :
    (r.getBits m n).Ends r.Advances r.Advances := by
  have hsound : r.sound → (r.getBits m n).Ends sound sound := sound_getBitsLoop
  revert hsound
  unfold BitReader.getBits
  rcases r.getBitsLoop_cases m n n 0 0 with ⟨v, q, h, hs⟩ | ⟨q, h, hs, -⟩ <;> rw [h] <;> exact fun hq => ⟨hs, hq⟩

/-- Reading a byte advances the reader, or raises and leaves it. -/
theorem BitReader.readByte_advances (m : Memory) (r : BitReader) : (r.readByte m).Ends r.Advances r.Advances := by
  unfold BitReader.readByte
  split
  · exact .refl r
  · refine ⟨⟨rfl, rfl, rfl, rfl, rfl⟩, fun ⟨_, hcnt, hacc⟩ => ⟨?_, hcnt, hacc⟩⟩
    have := r.endAddr.isLt
    show (BitVec.ofNat 32 (r.pos.toNat + 1)).toNat ≤ r.endAddr.toNat
    rw [BitVec.toNat_ofNat]; omega

/-- The invariant of 10_state R41 as soundness of a valid reader whose source lies in MEM. -/
theorem State.readerOk_iff (s : State) :
    s.readerOk ↔ (s.br.valid = true → s.br.sound ∧ s.br.endAddr.toNat ≤ s.memBytes) := by
  unfold State.readerOk BitReader.sound
  exact forall_congr' fun _ => ⟨fun ⟨h1, h2, h3, h4⟩ => ⟨⟨h1, h3, h4⟩, h2⟩, fun ⟨⟨h1, h3, h4⟩, h2⟩ => ⟨h1, h2, h3, h4⟩⟩

theorem State.readerOk_advance {s : State} {q : BitReader} (h : s.readerOk) (hq : s.br.Advances q) :
    ({ s with br := q } : State).readerOk := by
  obtain ⟨⟨hvalid, -, -, -, hend⟩, hsound⟩ := hq
  rw [State.readerOk_iff] at h ⊢
  intro hv
  obtain ⟨hs, hin⟩ := h (hvalid.trans hv)
  exact ⟨hsound hs, hend ▸ hin⟩

/-! ### Two runs that read the same bits -/

/-- A relation of two states that reading keeps: both read the same bits under the same registers. -/
structure ReaderSim (R : State → State → Prop) : Prop where
  br_eq : ∀ {s u}, R s u → u.br = s.br
  mem_eq : ∀ {s u}, R s u → u.mem = s.mem
  regs_eq : ∀ {s u}, R s u → u.regs = s.regs
  advance : ∀ {s u q}, R s u → s.br.Advances q → R { s with br := q } { u with br := q }

/-- A condition that does not look at the reader joins such a relation. -/
theorem ReaderSim.and {R : State → State → Prop} (hR : ReaderSim R) (p : State → Prop)
    (hp : ∀ s q, p s → p { s with br := q }) : ReaderSim fun s u => R s u ∧ p s where
  br_eq h := hR.br_eq h.1
  mem_eq h := hR.mem_eq h.1
  regs_eq h := hR.regs_eq h.1
  advance h hq := ⟨hR.advance h.1 hq, hp _ _ h.2⟩

section
variable {R : State → State → Prop} {s u : State}

theorem ReaderSim.mapState {α : Type} (hR : ReaderSim R) (h : R s u) {x y : Res BitReader α} (hxy : y = x)
    (hx : x.Ends s.br.Advances s.br.Advances) :
    Res.Sim R (x.mapState fun q => { s with br := q }) (y.mapState fun q => { u with br := q }) := by
  subst hxy
  cases y with
  | ok a q => exact .ok (hR.advance h hx)
  | raised e info q => exact .raised (hR.advance h hx)

theorem getBits_sim (hR : ReaderSim R) (n : Nat) (h : R s u) : Res.Sim R (getBits n s) (getBits n u) :=
  hR.mapState h (by rw [hR.br_eq h, hR.mem_eq h]) (s.br.getBits_advances s.mem n)

theorem readByte_sim (hR : ReaderSim R) (h : R s u) : Res.Sim R (readByte s) (readByte u) :=
  hR.mapState h (by rw [hR.br_eq h, hR.mem_eq h]) (s.br.readByte_advances s.mem)

end

end Sys2Proof.Machine

/-! ## LZDEC: one walk over the decoder for every relation it keeps -/

namespace Sys2Proof.Machine

/-- A relation of two states that LZDEC's primitive operations keep: both runs read the same bits, have the same
room and cursor, and show the same bytes in the window in use. -/
structure LzSim (R : State → State → Prop) : Prop extends ReaderSim R where
  outLen_eq : ∀ {s u}, R s u → u.outLen = s.outLen
  lzWPos_eq : ∀ {s u}, R s u → u.lzWPos = s.lzWPos
  window_eq : ∀ {s u i}, R s u → i < s.regs.lzCfg.windowSize → u.win.read i = s.win.read i
  emit : ∀ {s u} (b : Byte), R s u → s.hasRoom = true → R (emit b s) (emit b u)
  setTerm : ∀ {s u}, R s u → R (setTerm true s) (setTerm true u)

section
variable {R : State → State → Prop} {s u : State}

theorem readBytes_sim (hR : ReaderSim R) (n : Nat) (h : R s u) : Res.Sim R (readBytes n s) (readBytes n u) := by
  induction n generalizing s u with
  | zero => exact .ok h
  | succ n ih => exact (readByte_sim hR h).bind fun _ _ _ h => (ih h).bind fun _ _ _ h => .ok h

theorem lzLiteral_sim (hR : ReaderSim R) (h : R s u) : Res.Sim R (lzLiteral s) (lzLiteral u) := by
  unfold lzLiteral
  rw [hR.regs_eq h]
  split
  · exact readByte_sim hR h
  · exact (getBits_sim hR 8 h).bind fun _ _ _ h => .ok h

theorem lzPairShared_sim (hR : ReaderSim R) (h : R s u) : Res.Sim R (lzPairShared s) (lzPairShared u) := by
  unfold lzPairShared
  rw [hR.regs_eq h]
  refine (getBits_sim hR _ h).bind fun off s u h => ?_
  rw [hR.regs_eq h]
  split
  · exact .ok h
  · exact (getBits_sim hR _ h).bind fun _ _ _ h => .ok h

theorem lzPairInterleaved_sim (hR : ReaderSim R) (h : R s u) :
    Res.Sim R (lzPairInterleaved s) (lzPairInterleaved u) := by
  unfold lzPairInterleaved
  rw [hR.regs_eq h]
  refine (readBytes_sim hR _ h).bind fun v s u h => ?_
  simp only [hR.regs_eq h]
  split <;> exact .ok h

theorem LzSim.hasRoom_eq (hR : LzSim R) (h : R s u) : u.hasRoom = s.hasRoom := by
  unfold State.hasRoom
  rw [hR.outLen_eq h, hR.regs_eq h]

/-- The copy reads inside the window in use only (41_lz R172), so both runs emit the same bytes. -/
theorem lzCopy_sim (hR : LzSim R) (off n : Nat) (h : R s u) : R (lzCopy off n s) (lzCopy off n u) := by
  induction n generalizing s u with
  | zero => exact h
  | succ n ih =>
    have hindex : u.copyIndex off = s.copyIndex off := by
      unfold State.copyIndex
      rw [hR.lzWPos_eq h, hR.regs_eq h]
    rw [lzCopy_succ, lzCopy_succ, hR.hasRoom_eq h, hindex, hR.window_eq h (copyIndex_lt s off)]
    split
    · exact ih (hR.emit _ h ‹_›)
    · exact h

theorem lzReference_sim (hR : LzSim R) (h : R s u) : Res.Sim R (lzReference s) (lzReference u) := by
  have hpair : Res.Sim R (if s.regs.lzCfg.mode then lzPairInterleaved s else lzPairShared s)
      (if u.regs.lzCfg.mode then lzPairInterleaved u else lzPairShared u) := by
    rw [hR.regs_eq h]
    split
    · exact lzPairInterleaved_sim hR.toReaderSim h
    · exact lzPairShared_sim hR.toReaderSim h
  refine hpair.bind fun pair s u h => ?_
  cases pair with
  | none => exact .ok (hR.setTerm h)
  | some p =>
    simp only [hR.regs_eq h]
    split
    · exact .ok (hR.setTerm h)
    · exact .ok (lzCopy_sim hR _ _ h)

theorem lzToken_sim (hR : LzSim R) (h : R s u) (hroom : s.hasRoom = true) :
    Res.Sim R (lzToken s) (lzToken u) := by
  have hRroom : ReaderSim fun s u => R s u ∧ s.hasRoom = true := hR.toReaderSim.and _ fun _ _ h => h
  refine ((getBits_sim hRroom 1 ⟨h, hroom⟩).mono (fun _ _ _ h => h) (fun _ _ h => h.1)).bind fun c s u h => ?_
  split
  · exact ((lzLiteral_sim hRroom h).mono (fun _ _ _ h => h) (fun _ _ h => h.1)).bind fun b _ _ h =>
      .ok (hR.emit b h.1 h.2)
  · exact lzReference_sim hR h.1

theorem lzLoop_sim (hR : LzSim R) (fuel : Nat) (h : R s u) : Res.Sim R (lzLoop fuel s) (lzLoop fuel u) := by
  induction fuel generalizing s u with
  | zero => exact .ok h
  | succ fuel ih =>
    unfold lzLoop
    rw [hR.hasRoom_eq h]
    split
    · refine (lzToken_sim hR h ‹_›).bind fun more s u h => ?_
      cases more with
      | true => exact ih h
      | false => exact .ok h
    · exact .ok h

/-- LZDEC's body on two states that its initialisation relates. -/
theorem lzdecBody_sim (hR : LzSim R) (h : R (lzInit s) (lzInit u)) : Res.Sim R (lzdecBody s) (lzdecBody u) := by
  show Res.Sim R (lzLoop ((lzInit s).br.bitsLeft + 1) (lzInit s)) (lzLoop ((lzInit u).br.bitsLeft + 1) (lzInit u))
  rw [hR.br_eq h]
  exact lzLoop_sim hR _ h

end

/-! ### LZDEC forgets the window (10_state R48; 41_lz R164) -/

/-- The second state differs from the first in RESULT, which it has as `res`, and in the window, but not at the
`size` positions in use. -/
def WindowTwin (size : Nat) (res : Word) (s u : State) : Prop :=
  s.regs.lzCfg.windowSize = size
    ∧ ∃ win : Window, u = { s with win := win, result := res } ∧ ∀ i, i < size → win.read i = s.win.read i

theorem WindowTwin.lzSim (size : Nat) (res : Word) : LzSim (WindowTwin size res) where
  br_eq := by rintro s u ⟨-, win, rfl, -⟩; rfl
  mem_eq := by rintro s u ⟨-, win, rfl, -⟩; rfl
  regs_eq := by rintro s u ⟨-, win, rfl, -⟩; rfl
  advance := by rintro s u q ⟨hsize, win, rfl, h⟩ -; exact ⟨hsize, win, rfl, h⟩
  outLen_eq := by rintro s u ⟨-, win, rfl, -⟩; rfl
  lzWPos_eq := by rintro s u ⟨-, win, rfl, -⟩; rfl
  window_eq := by rintro s u i ⟨hsize, win, rfl, h⟩ hi; exact h i (hsize ▸ hi)
  emit := by
    rintro s u b ⟨hsize, win, rfl, h⟩ -
    refine ⟨hsize, win.write s.lzWPos.toNat b, rfl, fun i hi => ?_⟩
    rw [emit_win, Window.read_write, Window.read_write, h i hi]
  setTerm := by rintro s u ⟨hsize, win, rfl, h⟩; exact ⟨hsize, win, rfl, h⟩

/-- The window initialisation makes twins of any two states that differ in the window, the cursor, the output
count and RESULT: it sets the cursor and the count, and fills the positions in use (41_lz R164). -/
theorem WindowTwin.of_lzInit (s : State) (win : Window) (wpos : BitVec 16) (len res : Word) :
    WindowTwin s.regs.lzCfg.windowSize res (lzInit s)
      (lzInit { s with win := win, lzWPos := wpos, outLen := len, result := res }) := by
  refine ⟨rfl, win.fill s.regs.lzCfg.windowSize s.regs.lzFill, rfl, fun i hi => ?_⟩
  rw [lzInit_win, Window.read_fill, Window.read_fill, if_pos hi, if_pos hi]

theorem WindowTwin.of_conclude {size : Nat} {res : Word} {x y : Res State Unit}
    (h : Res.Sim (WindowTwin size res) x y) : WindowTwin size res (conclude x) (conclude y) := by
  cases h with
  | ok h => obtain ⟨hsize, win, rfl, h⟩ := h; exact ⟨hsize, win, rfl, h⟩
  | raised h => obtain ⟨hsize, win, rfl, h⟩ := h; exact ⟨hsize, win, rfl, h⟩

/-- Twins in the words of the claim. -/
theorem WindowTwin.eq_and_read {size : Nat} {res : Word} {s u : State} (h : WindowTwin size res s u) :
    u = { s with win := u.win, result := res } ∧ ∀ i, i < size → u.win.read i = s.win.read i := by
  obtain ⟨-, win, rfl, h⟩ := h
  exact ⟨rfl, h⟩

theorem Range.overlaps_iff (a b : Range) : a.overlaps b = true ↔ rangesMeet a.addr a.len b.addr b.len := by
  simp [Range.overlaps, rangesMeet, and_assoc]

theorem apart_pass_iff (a b : Range) (reg : Reg) :
    (apart a b reg).pass = true ↔ ¬rangesMeet a.addr a.len b.addr b.len := by
  rw [← Range.overlaps_iff]
  simp [apart]

/-- What `lzReady` says: LZDEC is accepted and every check passes (41_lz R163). -/
theorem State.lzReady.checks_pass {s : State} (h : s.lzReady) : ∀ c ∈ lzdecChecks s, c.pass = true := by
  obtain ⟨-, hvalid, hw, ho, hl, hpos, hout, hmeet⟩ := h
  have hlegal : s.regs.lzCfg.legal = true := by simp [LzCfg.legal, hw, ho, hl]
  simp only [lzdecChecks, List.forall_mem_cons, List.not_mem_nil, false_implies, implies_true, and_true]
  exact ⟨hvalid, hlegal, decide_eq_true hpos, decide_eq_true hout, (apart_pass_iff _ _ _).2 hmeet⟩

/-- With every check passed LZDEC runs its body. -/
theorem execLzdec_of_ready {s : State} (h : s.lzReady) :
    exec .lzdec s = .next (conclude (lzdecBody (setTerm false (accept s)))) := by
  show Host.Outcome.next (runCommand _ s) = _
  rw [runCommand_accepted h.1]
  rcases withChecks_cases lzdecChecks lzdecBody (setTerm false (accept s)) with ⟨c, -, hc, hfail, -⟩ | ⟨-, h'⟩
  · exact absurd (h.checks_pass c hc) (by rw [hfail]; decide)
  · rw [h']

/-- Settles O31: the initialisation makes twins of the two states, and every operation of LZDEC keeps them so. -/
theorem lzdecForgetsWindow : Obligations.LzdecForgetsWindow := by
  intro s win wpos len res hs
  let s' : State := { s with win := win, lzWPos := wpos, outLen := len, result := res }
  have hs' : s'.lzReady := hs
  have htwin := lzdecBody_sim (WindowTwin.lzSim _ res)
    (WindowTwin.of_lzInit (setTerm false (accept s)) win wpos len res)
  obtain ⟨heq, hread⟩ := (WindowTwin.of_conclude htwin).eq_and_read
  exact ⟨_, _, execLzdec_of_ready hs, execLzdec_of_ready hs', heq, hread⟩

end Sys2Proof.Machine

/-! ## The tree builders and HUFDEC: one walk for every relation they keep -/

namespace Sys2Proof.Machine

/-! ### Order and agreement of trees -/

/-- Each child of a node of the tree is a node of the tree with a larger index (42_huffman R191); `CodeTree.ok` asks
this of valid trees, and the builders keep it while VALID is 0. -/
def CodeTree.ordered (t : CodeTree) : Prop :=
  ∀ i : Fin 1023, i.val < t.nnodes.toNat → ∀ (bit : Bool) (c : Fin 1023), (t.nodeAt i).child bit = some c →
    i.val < c.val ∧ c.val < t.nnodes.toNat

theorem CodeTree.ok_of_invalid {t : CodeTree} (h : t.valid = false) : t.ok :=
  fun hv => absurd hv (by rw [h]; decide)

theorem CodeTree.ordered_setNode {t : CodeTree} {n : Fin 1023} {v : Node} (h : t.ordered)
    (hv : n.val < t.nnodes.toNat → ∀ (bit : Bool) (c : Fin 1023), v.child bit = some c →
      n.val < c.val ∧ c.val < t.nnodes.toNat) : (t.setNode n v).ordered := by
  intro i hi bit c hc
  rw [CodeTree.nodeAt_setNode] at hc
  split at hc
  · subst i; exact hv hi bit c hc
  · exact h i hi bit c hc

theorem CodeTree.agree_refl (t : CodeTree) : t.agree t := ⟨rfl, rfl, rfl, fun _ _ => rfl⟩

theorem CodeTree.agree_setNode {t u : CodeTree} {n : Fin 1023} {v w : Node} (h : t.agree u)
    (hv : n.val < t.nnodes.toNat → v = w) : (t.setNode n v).agree (u.setNode n w) := by
  obtain ⟨hvalid, hkind, hn, hnodes⟩ := h
  refine ⟨hvalid, hkind, hn, fun i hi => ?_⟩
  rw [CodeTree.nodeAt_setNode, CodeTree.nodeAt_setNode]
  split
  · subst i; exact hv hi
  · exact hnodes i hi

/-- The tree after Alloc has taken node `i` (42_huffman R192). -/
def CodeTree.grown (t : CodeTree) (i : Fin 1023) : CodeTree :=
  { t.setNode i Node.fresh with nnodes := t.nnodes + 1 }

theorem CodeTree.nnodes_grown {t : CodeTree} {i : Fin 1023} (hi : t.nnodes.toNat = i.val) :
    (t.grown i).nnodes.toNat = i.val + 1 := by
  have hone : (1 : BitVec 10).toNat = 1 := rfl
  have := i.isLt
  show (t.nnodes + 1).toNat = _
  rw [BitVec.toNat_add, hi, hone]
  omega

theorem CodeTree.nodeAt_grown (t : CodeTree) (i j : Fin 1023) :
    (t.grown i).nodeAt j = if j = i then Node.fresh else t.nodeAt j :=
  CodeTree.nodeAt_setNode t i Node.fresh j

theorem CodeTree.ordered_grown {t : CodeTree} {i : Fin 1023} (h : t.ordered) (hi : t.nnodes.toNat = i.val) :
    (t.grown i).ordered := by
  intro j hj bit c hc
  rw [CodeTree.nnodes_grown hi] at hj ⊢
  rw [CodeTree.nodeAt_grown] at hc
  split at hc
  · cases bit <;> cases hc
  · rename_i hne
    have hji : j.val ≠ i.val := fun e => hne (Fin.ext e)
    have := h j (by omega) bit c hc
    omega

theorem CodeTree.agree_grown {t u : CodeTree} {i : Fin 1023} (h : t.agree u) (hi : t.nnodes.toNat = i.val) :
    (t.grown i).agree (u.grown i) := by
  obtain ⟨hvalid, hkind, hn, hnodes⟩ := h
  refine ⟨hvalid, hkind, congrArg (· + 1) hn, fun j hj => ?_⟩
  rw [CodeTree.nnodes_grown hi] at hj
  rw [CodeTree.nodeAt_grown, CodeTree.nodeAt_grown]
  split
  · rfl
  · rename_i hne
    have hji : j.val ≠ i.val := fun e => hne (Fin.ext e)
    exact hnodes j (by omega)

/-! ### Two runs of a build -/

/-- A relation of two states that the builders' primitive operations keep: of the trees it says at most that the
first is in order where it is valid. -/
structure BuildSim (R : State → State → Prop) : Prop extends ReaderSim R where
  tree : ∀ {s u}, R s u → ∀ x y : CodeTree, x.ok → R { s with tree := x } { u with tree := y }

/-- Two builds on their way: the trees are not valid, agree, keep the order of children and have at least `lo`
nodes. -/
structure Building (R : State → State → Prop) (lo : Nat) (s u : State) : Prop where
  rel : R s u
  invalid : s.tree.valid = false
  agree : s.tree.agree u.tree
  ordered : s.tree.ordered
  atLeast : lo ≤ s.tree.nnodes.toNat

section
variable {R : State → State → Prop} {s u : State} {lo : Nat}

theorem Building.mono {lo' : Nat} (h : Building R lo s u) (hlo : lo' ≤ lo) : Building R lo' s u :=
  ⟨h.rel, h.invalid, h.agree, h.ordered, hlo.trans h.atLeast⟩

theorem Building.readerSim (hR : ReaderSim R) (lo : Nat) : ReaderSim (Building R lo) where
  br_eq h := hR.br_eq h.rel
  mem_eq h := hR.mem_eq h.rel
  regs_eq h := hR.regs_eq h.rel
  advance h hq := ⟨hR.advance h.rel hq, h.invalid, h.agree, h.ordered, h.atLeast⟩

/-- ClearTree begins a build whatever the trees were (42_huffman R193). -/
theorem Building.of_clearTree (hR : BuildSim R) (h : R s u) (hkind : s.tree.kind = u.tree.kind) :
    Building R 0 (clearTree s) (clearTree u) where
  rel := hR.tree h _ _ (CodeTree.ok_of_invalid rfl)
  invalid := rfl
  agree := ⟨rfl, hkind, rfl, fun _ hi => absurd hi (Nat.not_lt_zero _)⟩
  ordered := fun _ hi => absurd hi (Nat.not_lt_zero _)
  atLeast := Nat.zero_le _

/-- Editing a node keeps the build, if the node's children stay or are later nodes of the tree. -/
theorem Building.edit (hR : BuildSim R) (h : Building R lo s u) {n : Fin 1023} {f : Node → Node}
    (hf : ∀ (m : Node) (bit : Bool) (c : Fin 1023), (f m).child bit = some c →
      m.child bit = some c ∨ (n.val < c.val ∧ c.val < lo)) :
    Building R lo (editNode n f s) (editNode n f u) where
  rel := hR.tree h.rel _ _ (CodeTree.ok_of_invalid h.invalid)
  invalid := h.invalid
  agree := CodeTree.agree_setNode h.agree fun hn => by
    obtain ⟨-, -, -, hnodes⟩ := h.agree
    rw [hnodes n hn]
  ordered := CodeTree.ordered_setNode h.ordered fun hn bit c hc => by
    rcases hf _ bit c hc with hold | ⟨hlt, hlo⟩
    · exact h.ordered n hn bit c hold
    · exact ⟨hlt, hlo.trans_le h.atLeast⟩
  atLeast := h.atLeast

/-- Alloc gives both builds the same node, behind all others (42_huffman R192). -/
theorem alloc_sim (hR : BuildSim R) (h : Building R lo s u) :
    Res.Rel (fun i t v => lo ≤ i.val ∧ Building R (i.val + 1) t v) (Building R lo) (alloc s) (alloc u) := by
  obtain ⟨-, -, hn, -⟩ := h.agree
  rcases alloc_cases s with ⟨hs, es⟩ | ⟨hs, es⟩ <;> rcases alloc_cases u with ⟨hu, eu⟩ | ⟨hu, eu⟩ <;> rw [es, eu]
  · have hidx : (⟨u.tree.nnodes.toNat, hu⟩ : Fin 1023) = ⟨s.tree.nnodes.toNat, hs⟩ :=
      Fin.ext (congrArg BitVec.toNat hn.symm)
    rw [hidx]
    exact .ok ⟨h.atLeast, hR.tree h.rel (s.tree.grown _) (u.tree.grown _) (CodeTree.ok_of_invalid h.invalid), h.invalid,
      CodeTree.agree_grown h.agree rfl, CodeTree.ordered_grown h.ordered rfl,
      (CodeTree.nnodes_grown (i := ⟨s.tree.nnodes.toNat, hs⟩) rfl).ge⟩
  · rw [hn, hu] at hs; exact absurd hs (by decide)
  · rw [← hn, hs] at hu; exact absurd hu (by decide)
  · exact .raised h

/-- BuildNode gives both builds the same node, and everything it allocates lies behind it (42_huffman R194). -/
theorem buildNode_sim (hR : BuildSim R) (fuel : Nat) (h : Building R lo s u) :
    Res.Rel (fun i t v => lo ≤ i.val ∧ Building R (i.val + 1) t v) (Building R 0)
      (buildNode fuel s) (buildNode fuel u) := by
  induction fuel generalizing lo s u with
  | zero => exact .raised (h.mono (Nat.zero_le _))
  | succ fuel ih =>
    unfold buildNode
    refine ((alloc_sim hR h).mono (fun _ _ _ h => h) fun _ _ h => h.mono (Nat.zero_le _)).bind
      fun i s u ⟨hi, h⟩ => ?_
    have hread (n : Nat) {s u : State} (h : Building R (i.val + 1) s u) :=
      (getBits_sim (Building.readerSim hR.toReaderSim _) n h).mono (fun _ _ _ h => h)
        fun _ _ h => h.mono (Nat.zero_le _)
    refine (hread 1 h).bind fun b s u h => ?_
    split
    · refine (ih h).bind fun l s u ⟨hl, h⟩ => ?_
      have hleft := h.edit hR (n := i) (f := fun n => { n with left := some l }) fun m bit c hc => by
        cases bit with
        | false => obtain rfl := Option.some.inj hc; exact .inr ⟨hl, Nat.lt_succ_self _⟩
        | true => exact .inl hc
      refine (ih hleft).bind fun r s u ⟨hr, h⟩ => ?_
      have hright := h.edit hR (n := i) (f := fun n => { n with right := some r }) fun m bit c hc => by
        cases bit with
        | false => exact .inl hc
        | true => obtain rfl := Option.some.inj hc; exact .inr ⟨by omega, Nat.lt_succ_self _⟩
      exact .ok ⟨hi, hright.mono (by omega)⟩
    · have hleaf := h.edit hR (n := i) (f := Node.asLeaf) fun _ bit _ hc => by cases bit <;> exact .inl hc
      refine (hread 8 hleaf).bind fun v s u h => ?_
      exact .ok ⟨hi, h.edit hR fun _ bit _ hc => by cases bit <;> exact .inl hc⟩

/-- One level of Insert stays on nodes of the tree, where both builds see the same children (42_huffman R197). -/
theorem childOrAlloc_sim (hR : BuildSim R) {n : Fin 1023} (bit : Bool) (h : Building R (n.val + 1) s u) :
    Res.Rel (fun c => Building R (c.val + 1)) (Building R 0) (childOrAlloc n bit s) (childOrAlloc n bit u) := by
  have hn : n.val < s.tree.nnodes.toNat := h.atLeast
  obtain ⟨-, -, -, hnodes⟩ := h.agree
  unfold childOrAlloc
  rw [← hnodes n hn]
  cases hc : (s.tree.nodeAt n).child bit with
  | some c => exact .ok { h with atLeast := (h.ordered n hn bit c hc).2 }
  | none =>
    refine ((alloc_sim hR h).mono (fun _ _ _ h => h) fun _ _ h => h.mono (Nat.zero_le _)).bind
      fun c s u ⟨hlt, h⟩ => ?_
    refine .ok (h.edit hR fun m b d hd => ?_)
    by_cases hb : b = bit
    · subst hb
      rw [Node.child_withChild] at hd
      obtain rfl := Option.some.inj hd
      exact .inr ⟨hlt, Nat.lt_succ_self _⟩
    · obtain rfl : b = !bit := by cases b <;> cases bit <;> simp_all
      exact .inl (by rwa [Node.child_withChild_other] at hd)

theorem insertPath_sim (hR : BuildSim R) (code len : Nat) {n : Fin 1023} (h : Building R (n.val + 1) s u) :
    Res.Rel (fun c => Building R (c.val + 1)) (Building R 0) (insertPath code len n s) (insertPath code len n u) := by
  induction len generalizing n s u with
  | zero => exact .ok h
  | succ i ih => exact (childOrAlloc_sim hR _ h).bind fun c _ _ h => ih h

theorem insertCode_sim (hR : BuildSim R) (code len : Nat) (sym : BitVec 9) (h : Building R 1 s u) :
    Res.Rel (fun _ => Building R 1) (Building R 0) (insertCode code len sym s) (insertCode code len sym u) :=
  (insertPath_sim hR code len (n := 0) h).bind fun n _ _ h =>
    .ok ((h.edit hR fun _ bit _ hc => by cases bit <;> exact .inl hc).mono (by omega))

theorem readLengths_sim (hR : ReaderSim R) (lenBits count sym : Nat) (h : R s u) :
    Res.Sim R (readLengths lenBits count sym s) (readLengths lenBits count sym u) := by
  induction count generalizing sym s u with
  | zero => exact .ok h
  | succ count ih => exact (getBits_sim hR _ h).bind fun _ _ _ h => (ih _ h).bind fun _ _ _ h => .ok h

theorem canonSymbols_sim (hR : BuildSim R) (len : Nat) (table : List (Nat × Nat)) (code : Nat)
    (h : Building R 1 s u) :
    Res.Rel (fun _ => Building R 1) (Building R 0) (canonSymbols len table code s)
      (canonSymbols len table code u) := by
  induction table generalizing code s u with
  | nil => exact .ok h
  | cons entry table ih =>
    obtain ⟨sym, l⟩ := entry
    unfold canonSymbols
    split
    · split
      · exact .raised (h.mono (by decide))
      · exact (insertCode_sim hR _ _ _ h).bind fun _ _ _ h => ih _ h
    · exact ih _ h

theorem canonLengths_sim (hR : BuildSim R) (table : List (Nat × Nat)) (lens : List Nat) (code : Nat)
    (h : Building R 1 s u) :
    Res.Rel (fun _ => Building R 1) (Building R 0) (canonLengths table lens code s)
      (canonLengths table lens code u) := by
  induction lens generalizing code s u with
  | nil => exact .ok h
  | cons len lens ih => exact (canonSymbols_sim hR _ _ _ h).bind fun _ _ _ h => ih _ h

/-! ### Whole builds -/

/-- Two states whose trees agree on everything the tree holds. Following children from its root does not leave it:
the first tree is in order, or the trees are the same altogether. -/
structure TreesAgree (R : State → State → Prop) (s u : State) : Prop where
  rel : R s u
  agree : s.tree.agree u.tree
  closed : s.tree.ok ∨ u.tree = s.tree

/-- The same with valid trees: two decodings on their way. -/
structure Decoding (R : State → State → Prop) (s u : State) : Prop extends TreesAgree R s u where
  valid : s.tree.valid = true

theorem Building.treesAgree (h : Building R lo s u) : TreesAgree R s u :=
  ⟨h.rel, h.agree, .inl (CodeTree.ok_of_invalid h.invalid)⟩

/-- The end of a build with a root makes the trees valid (42_huffman R194, R199). -/
theorem Building.decoding (hR : BuildSim R) (k : TreeKind) (h : Building R (lo + 1) s u) :
    Decoding R (finishTree k s) (finishTree k u) := by
  have hok : (finishTree k s).tree.ok :=
    fun _ => ⟨(Nat.succ_pos lo).trans_le h.atLeast, fun i hi _ => h.ordered i hi⟩
  obtain ⟨-, -, hn, hnodes⟩ := h.agree
  exact ⟨⟨hR.tree h.rel _ _ hok, ⟨rfl, rfl, hn, hnodes⟩, .inl hok⟩, rfl⟩

theorem buildTree_sim (hR : BuildSim R) (h : R s u) (hkind : s.tree.kind = u.tree.kind) :
    Res.Rel (fun _ => Decoding R) (TreesAgree R) (buildTree s) (buildTree u) :=
  ((buildNode_sim hR 1024 (Building.of_clearTree hR h hkind)).mono (fun _ _ _ h => h)
    fun _ _ h => h.treesAgree).bind fun _ _ _ h => .ok (h.2.decoding hR _)

theorem buildCanon_sim (hR : BuildSim R) (h : R s u) (hkind : s.tree.kind = u.tree.kind) :
    Res.Rel (fun _ => Decoding R) (TreesAgree R) (buildCanon s) (buildCanon u) := by
  have hsim : Res.Rel (fun _ => Decoding R) (Building R 0) (buildCanon s) (buildCanon u) := by
    unfold buildCanon
    rw [hR.regs_eq h]
    have hstart := Building.of_clearTree hR h hkind
    refine (readLengths_sim (Building.readerSim hR.toReaderSim 0) _ _ _ hstart).bind fun table s u h => ?_
    refine (alloc_sim hR h).bind fun root s u ⟨_, h⟩ => ?_
    exact (canonLengths_sim hR _ _ _ (h.mono (by omega))).bind fun _ _ _ h => .ok (h.decoding hR _)
  exact hsim.mono (fun _ _ _ h => h) fun _ _ h => h.treesAgree

/-! ### HUFDEC -/

/-- A relation of two states that HUFDEC's primitive operations keep; where rebuilds are enabled it says of the
trees at most that the first is in order where it is valid. -/
structure HufSim (R : State → State → Prop) : Prop extends ReaderSim R where
  outLen_eq : ∀ {s u}, R s u → u.outLen = s.outLen
  put : ∀ {s u} (b : Byte), R s u → s.hasRoom = true → R (putByte b s) (putByte b u)
  rebuild : ∀ {s u}, R s u → s.regs.hufCfg.rebuildEn = true → ∀ x y : CodeTree, x.ok →
    R { s with tree := x } { u with tree := y }

theorem Decoding.readerSim (hR : ReaderSim R) : ReaderSim (Decoding R) where
  br_eq h := hR.br_eq h.rel
  mem_eq h := hR.mem_eq h.rel
  regs_eq h := hR.regs_eq h.rel
  advance h hq := ⟨⟨hR.advance h.rel hq, h.agree, h.closed⟩, h.valid⟩

/-- Both trees have the same node where a walk from the root comes to. -/
theorem CodeTree.nodeAt_eq {t u : CodeTree} (hagree : t.agree u) (hclosed : t.ok ∨ u = t) {n : Fin 1023}
    (hn : t.ok → n.val < t.nnodes.toNat) : u.nodeAt n = t.nodeAt n := by
  obtain ⟨-, -, -, hnodes⟩ := hagree
  rcases hclosed with hok | rfl
  · exact (hnodes n (hn hok)).symm
  · rfl

/-- DecodeSymbol reads nodes of a valid tree only (42_huffman R202), so both runs take the same way. -/
theorem walkTree_sim {p : State → Prop} (hR : ReaderSim fun s u => Decoding R s u ∧ p s) (fuel : Nat)
    {n : Fin 1023} (h : Decoding R s u ∧ p s) (hn : s.tree.ok → n.val < s.tree.nnodes.toNat) :
    Res.Sim (fun s u => Decoding R s u ∧ p s) (walkTree fuel n s) (walkTree fuel n u) := by
  induction fuel generalizing n s u with
  | zero =>
    unfold walkTree
    rw [CodeTree.nodeAt_eq h.1.agree h.1.closed hn]
    exact .ok h
  | succ fuel ih =>
    unfold walkTree
    rw [CodeTree.nodeAt_eq h.1.agree h.1.closed hn]
    split
    · exact .ok h
    · rename_i hleaf
      have hat := hR.and (fun s => (s.tree.ok → n.val < s.tree.nnodes.toNat) ∧ (s.tree.nodeAt n).leaf = false)
        fun _ _ h => h
      refine ((getBits_sim hat 1 ⟨h, hn, Bool.eq_false_iff.2 hleaf⟩).mono (fun _ _ _ h => h) fun _ _ h => h.1).bind
        fun b s u ⟨h, hn, hleaf⟩ => ?_
      rw [CodeTree.nodeAt_eq h.1.agree h.1.closed hn]
      cases hc : (s.tree.nodeAt n).child (b == 1) with
      | none => exact .raised h
      | some c => exact ih h fun hok => ((hok h.1.valid).2 n (hn hok) hleaf _ c hc).2

theorem decodeSymbol_sim {p : State → Prop} (hR : ReaderSim fun s u => Decoding R s u ∧ p s)
    (h : Decoding R s u ∧ p s) :
    Res.Sim (fun s u => Decoding R s u ∧ p s) (decodeSymbol s) (decodeSymbol u) := by
  unfold decodeSymbol
  rw [hR.br_eq h]
  exact walkTree_sim hR _ h fun hok => (hok h.1.valid).1

theorem HufSim.buildSim (hR : HufSim R) : BuildSim fun s u => R s u ∧ s.regs.hufCfg.rebuildEn = true where
  toReaderSim := hR.toReaderSim.and _ fun _ _ h => h
  tree h x y hx := ⟨hR.rebuild h.1 h.2 x y hx, h.2⟩

theorem TreesAgree.mono {R' : State → State → Prop} (h : TreesAgree R s u) (hR : R s u → R' s u) :
    TreesAgree R' s u := ⟨hR h.rel, h.agree, h.closed⟩

theorem rebuildTree_sim (hR : HufSim R) (h : TreesAgree R s u) (hen : s.regs.hufCfg.rebuildEn = true) :
    Res.Rel (fun _ => Decoding R) (TreesAgree R) (rebuildTree s) (rebuildTree u) := by
  obtain ⟨-, hkind, -⟩ := h.agree
  have hbuild : Res.Rel (fun _ => Decoding fun s u => R s u ∧ s.regs.hufCfg.rebuildEn = true)
      (TreesAgree fun s u => R s u ∧ s.regs.hufCfg.rebuildEn = true) (rebuildTree s) (rebuildTree u) := by
    unfold rebuildTree
    rw [← hkind]
    cases s.tree.kind with
    | selfDescribing => exact buildTree_sim hR.buildSim ⟨h.rel, hen⟩ hkind
    | canonical => exact buildCanon_sim hR.buildSim ⟨h.rel, hen⟩ hkind
  exact hbuild.mono (fun _ _ _ h => ⟨h.toTreesAgree.mono And.left, h.valid⟩) fun _ _ h => h.mono And.left

theorem hufStep_sim (hR : HufSim R) (h : Decoding R s u) (hroom : s.hasRoom = true) :
    Res.Rel (fun _ => Decoding R) (TreesAgree R) (hufStep s) (hufStep u) := by
  have hread : ReaderSim fun s u => Decoding R s u ∧ s.hasRoom = true :=
    (Decoding.readerSim hR.toReaderSim).and _ fun _ _ h => h
  refine ((decodeSymbol_sim hread ⟨h, hroom⟩).mono (fun _ _ _ h => h)
    fun _ _ h => h.1.toTreesAgree).bind fun sym s u ⟨h, hroom⟩ => ?_
  rw [hR.regs_eq h.rel]
  split
  · rename_i hsignal
    exact rebuildTree_sim hR h.toTreesAgree (Bool.and_eq_true_iff.1 hsignal).1
  · split
    · exact .raised h.toTreesAgree
    · exact .ok ⟨⟨hR.put _ h.rel hroom, h.agree, h.closed⟩, h.valid⟩

theorem hufLoop_sim (hR : HufSim R) (fuel : Nat) (h : Decoding R s u) :
    Res.Rel (fun _ => Decoding R) (TreesAgree R) (hufLoop fuel s) (hufLoop fuel u) := by
  induction fuel generalizing s u with
  | zero => exact .ok h
  | succ fuel ih =>
    have hroom : u.hasRoom = s.hasRoom := by
      unfold State.hasRoom
      rw [hR.outLen_eq h.rel, hR.regs_eq h.rel]
    unfold hufLoop
    rw [hroom]
    split
    · exact (hufStep_sim hR h ‹_›).bind fun _ _ _ h => ih h
    · exact .ok h

/-- HUFDEC's body on two states related once OUT_LEN is 0. -/
theorem hufdecBody_sim (hR : HufSim R) (h : Decoding R { s with outLen := 0 } { u with outLen := 0 }) :
    Res.Rel (fun _ => Decoding R) (TreesAgree R) (hufdecBody s) (hufdecBody u) := by
  have hbr : u.br = s.br := hR.br_eq (s := { s with outLen := 0 }) (u := { u with outLen := 0 }) h.rel
  have hregs : u.regs = s.regs := hR.regs_eq (s := { s with outLen := 0 }) (u := { u with outLen := 0 }) h.rel
  have hfuel : u.regs.outCap.toNat + u.br.bitsLeft + 1 = s.regs.outCap.toNat + s.br.bitsLeft + 1 := by
    rw [hbr, hregs]
  show Res.Rel _ _ (hufLoop (s.regs.outCap.toNat + s.br.bitsLeft + 1) { s with outLen := 0 })
    (hufLoop (u.regs.outCap.toNat + u.br.bitsLeft + 1) { u with outLen := 0 })
  rw [hfuel]
  exact hufLoop_sim hR _ h

end

end Sys2Proof.Machine

/-! ## What a command does to the state -/

namespace Sys2Proof.Machine

/-! ### Effects -/

/-- STATUS but for TERM, ERRINFO and the model's own fields stay: what every command body leaves alone. -/
structure Kept (s t : State) : Prop where
  status : t.status = { s.status with term := t.status.term }
  errInfo : t.errInfo = s.errInfo
  epoch : t.epoch = s.epoch
  memBytes : t.memBytes = s.memBytes
  host : t.host = s.host
  lastRead : t.lastRead = s.lastRead

/-- The form, the bounds and the number of the free contents of WIN stay. -/
structure Window.Keeps (w v : Window) : Prop where
  wf : w.wf = true → v.wf = true
  within : w.within → v.within
  epoch : v.epoch = w.epoch

/-- What a command's body does from `s` to `t`: it changes the pieces `ps` alone, writes MEM at addresses in `W`
alone, and keeps the form of WIN and the reader invariants. -/
structure Effect (ps : List Piece) (W : Nat → Prop) (s t : State) : Prop where
  same : ∀ p, p ∉ ps → p.same s t
  kept : Kept s t
  mem : s.mem.WritesIn W t.mem
  win : s.win.Keeps t.win
  reader : s.memBytes ≤ 2 ^ 31 → s.readerOk → t.readerOk

theorem Piece.same_refl (p : Piece) (s : State) : p.same s s := by
  cases p with
  | window => exact ⟨rfl, rfl⟩
  | _ => rfl

theorem Piece.same_trans {p : Piece} {s t u : State} (h : p.same s t) (h' : p.same t u) : p.same s u := by
  cases p with
  | window => exact ⟨h'.1.trans h.1, h'.2.trans h.2⟩
  | _ => exact Eq.trans h' h

theorem Kept.refl (s : State) : Kept s s := ⟨rfl, rfl, rfl, rfl, rfl, rfl⟩

theorem Kept.trans {s t u : State} (h : Kept s t) (h' : Kept t u) : Kept s u where
  status := by rw [h'.status, h.status]
  errInfo := h'.errInfo.trans h.errInfo
  epoch := h'.epoch.trans h.epoch
  memBytes := h'.memBytes.trans h.memBytes
  host := h'.host.trans h.host
  lastRead := h'.lastRead.trans h.lastRead

theorem Window.Keeps.refl (w : Window) : w.Keeps w := ⟨id, id, rfl⟩

theorem Window.Keeps.trans {w v x : Window} (h : w.Keeps v) (h' : v.Keeps x) : w.Keeps x :=
  ⟨h'.wf ∘ h.wf, h'.within ∘ h.within, h'.epoch.trans h.epoch⟩

section
variable {ps : List Piece} {W : Nat → Prop} {s t u : State}

theorem Effect.refl (s : State) : Effect ps W s s :=
  ⟨fun p _ => p.same_refl s, .refl s, .refl, .refl _, fun _ h => h⟩

theorem Effect.trans (h : Effect ps W s t) (h' : Effect ps W t u) : Effect ps W s u where
  same p hp := Piece.same_trans (h.same p hp) (h'.same p hp)
  kept := h.kept.trans h'.kept
  mem := h.mem.trans h'.mem
  win := h.win.trans h'.win
  reader hm hs := h'.reader (h.kept.memBytes.trans_le hm) (h.reader hm hs)

theorem Effect.regs (h : Effect ps W s t) (hp : Piece.hostRegs ∉ ps) : t.regs = s.regs := h.same .hostRegs hp

/-- A change of one piece, given what it does to MEM, WIN and the reader. -/
theorem Effect.of_piece {q : Piece} (hq : q ∈ ps) (hsame : ∀ p, p ≠ q → p.same s t) (hkept : Kept s t)
    (hmem : q = .memory → s.mem.WritesIn W t.mem) (hwin : q = .window → s.win.Keeps t.win)
    (hreader : q = .reader → s.memBytes ≤ 2 ^ 31 → s.readerOk → t.readerOk) : Effect ps W s t where
  same p hp := hsame p fun e => hp (e ▸ hq)
  kept := hkept
  mem := by
    by_cases h : q = .memory
    · exact hmem h
    · rw [show t.mem = s.mem from hsame .memory (Ne.symm h)]
      exact .refl
  win := by
    by_cases h : q = .window
    · exact hwin h
    · rw [show t.win = s.win from (hsame .window (Ne.symm h)).1]
      exact .refl _
  reader := by
    by_cases h : q = .reader
    · exact hreader h
    · unfold State.readerOk
      rw [show t.br = s.br from hsame .reader (Ne.symm h), hkept.memBytes]
      exact fun _ h => h

theorem Effect.setReader (hp : Piece.reader ∈ ps) {q : BitReader}
    (hq : s.memBytes ≤ 2 ^ 31 → s.readerOk → ({ s with br := q } : State).readerOk) :
    Effect ps W s { s with br := q } :=
  .of_piece hp (fun p hn => by cases p <;> simp_all [Piece.same])
    ⟨rfl, rfl, rfl, rfl, rfl, rfl⟩ nofun nofun (fun _ => hq)

theorem Effect.advance (hp : Piece.reader ∈ ps) {q : BitReader} (hq : s.br.Advances q) :
    Effect ps W s { s with br := q } := .setReader hp fun _ h => State.readerOk_advance h hq

theorem Effect.setTree (hp : Piece.tree ∈ ps) (x : CodeTree) :
    Effect ps W s { s with tree := x } :=
  .of_piece hp (fun p hn => by cases p <;> simp_all [Piece.same])
    ⟨rfl, rfl, rfl, rfl, rfl, rfl⟩ nofun nofun nofun

theorem Effect.setResult (hp : Piece.result ∈ ps) (v : Word) :
    Effect ps W s { s with result := v } :=
  .of_piece hp (fun p hn => by cases p <;> simp_all [Piece.same])
    ⟨rfl, rfl, rfl, rfl, rfl, rfl⟩ nofun nofun nofun

theorem Effect.setOutLen (hp : Piece.outLen ∈ ps) (v : Word) :
    Effect ps W s { s with outLen := v } :=
  .of_piece hp (fun p hn => by cases p <;> simp_all [Piece.same])
    ⟨rfl, rfl, rfl, rfl, rfl, rfl⟩ nofun nofun nofun

theorem Effect.setTerm (hp : Piece.term ∈ ps) (b : Bool) :
    Effect ps W s (setTerm b s) :=
  .of_piece hp (fun p hn => by cases p <;> simp_all [Piece.same])
    ⟨rfl, rfl, rfl, rfl, rfl, rfl⟩ nofun nofun nofun

theorem Effect.setPrngState (hp : Piece.prngState ∈ ps) (v : Word) :
    Effect ps W s { s with prngState := v } :=
  .of_piece hp (fun p hn => by cases p <;> simp_all [Piece.same])
    ⟨rfl, rfl, rfl, rfl, rfl, rfl⟩ nofun nofun nofun

theorem Effect.setTable (hp : Piece.table ∈ ps) (v : Vector Byte 256) :
    Effect ps W s { s with sbox := v } :=
  .of_piece hp (fun p hn => by cases p <;> simp_all [Piece.same])
    ⟨rfl, rfl, rfl, rfl, rfl, rfl⟩ nofun nofun nofun

theorem Effect.setTableValid (hp : Piece.tableValid ∈ ps) (v : Bool) :
    Effect ps W s { s with subValid := v } :=
  .of_piece hp (fun p hn => by cases p <;> simp_all [Piece.same])
    ⟨rfl, rfl, rfl, rfl, rfl, rfl⟩ nofun nofun nofun

theorem Effect.setMem (hp : Piece.memory ∈ ps) {m : Memory} (hm : s.mem.WritesIn W m) :
    Effect ps W s { s with mem := m } :=
  .of_piece hp (fun p hn => by cases p <;> simp_all [Piece.same])
    ⟨rfl, rfl, rfl, rfl, rfl, rfl⟩ (fun _ => hm) nofun nofun

theorem Effect.setWindow (hp : Piece.window ∈ ps) {w : Window} (pos : BitVec 16) (hw : s.win.Keeps w) :
    Effect ps W s { s with win := w, lzWPos := pos } :=
  .of_piece hp (fun p hn => by cases p <;> simp_all [Piece.same])
    ⟨rfl, rfl, rfl, rfl, rfl, rfl⟩ nofun (fun _ => hw) nofun

theorem Effect.putByte (hm : Piece.memory ∈ ps) (hl : Piece.outLen ∈ ps) (b : Byte) (hW : W s.outputAddress) :
    Effect ps W s (putByte b s) :=
  (Effect.setMem hm (.write b .refl hW)).trans (Effect.setOutLen hl _)

theorem Effect.emit (hm : Piece.memory ∈ ps) (hl : Piece.outLen ∈ ps) (hw : Piece.window ∈ ps) (b : Byte)
    (hW : W s.outputAddress) : Effect ps W s (emit b s) :=
  (Effect.putByte hm hl b hW).trans
    (Effect.setWindow hw _ ⟨Window.wf_write _ b, fun h => Window.within_write b h s.lzWPos.isLt, rfl⟩)

end

/-! ### The addresses a command may write -/

/-- The addresses of MEM a command may write: those of its range that lie inside MEM (10_state R60). -/
def mayWrite (i : Instr) (s : State) (a : Nat) : Prop :=
  a < s.memBytes ∧ ∃ r, writtenRange i s = some r ∧ r.addr ≤ a ∧ a < r.addr + r.len

/-- Inside a range that passed its check a command may write everywhere. -/
theorem mayWrite_of_inMem {i : Instr} {s : State} {r : Range} {a : Nat} (hr : writtenRange i s = some r)
    (hcheck : (inMem r s).pass = true) (hlo : r.addr ≤ a) (hhi : a < r.addr + r.len) : mayWrite i s a :=
  ⟨hhi.trans_le (of_decide_eq_true hcheck), r, hr, hlo, hhi⟩

/-- With room left the next output byte lies in the output range. -/
theorem mayWrite_outputAddress {i : Instr} {s t : State} (hr : writtenRange i s = some s.outRange)
    (hcheck : (inMem s.outRange s).pass = true) (hregs : t.regs = s.regs) (hroom : t.hasRoom = true) :
    mayWrite i s t.outputAddress := by
  have hlt : t.outLen.toNat < t.regs.outCap.toNat := of_decide_eq_true hroom
  rw [hregs] at hlt
  refine mayWrite_of_inMem hr hcheck ?_ ?_
  · show s.regs.outAddr.toNat ≤ t.regs.outAddr.toNat + _
    rw [hregs]; omega
  · show t.regs.outAddr.toNat + _ < s.regs.outAddr.toNat + s.regs.outCap.toNat
    rw [hregs]; omega

/-- Every buffer byte may be written. -/
theorem mayWrite_bufAddress {i : Instr} {s : State} {k : Nat} (hr : writtenRange i s = some s.bufRange)
    (hcheck : (inMem s.bufRange s).pass = true) (hk : k < s.regs.bufLen.toNat) : mayWrite i s (s.bufAddress k) :=
  mayWrite_of_inMem hr hcheck (Nat.le_add_right _ _) (Nat.add_lt_add_left hk _)

/-! ### Effects of whole commands -/

/-- The body's effect under the column "Writes" of 10_state R60, with what it keeps of the tree. -/
structure CommandEffect (i : Instr) (s t : State) : Prop
    extends Effect (writtenPieces i) (mayWrite i s) s t where
  tree_ok : s.tree.ok → t.tree.ok
  fixed_tree : i = .hufdec → s.regs.hufCfg.rebuildEn = false → t.tree = s.tree

/-- What every body leaves; one that raises leaves RESULT (10_state R28). -/
abbrev Res.Effects (i : Instr) (s : State) (x : Res State Unit) : Prop :=
  x.Ends (CommandEffect i s) fun t => CommandEffect i s t ∧ t.result = s.result

section
variable {i : Instr} {s t : State}

/-- A command that writes no tree keeps it. -/
theorem CommandEffect.of_effect (h : Effect (writtenPieces i) (mayWrite i s) s t)
    (ht : Piece.tree ∉ writtenPieces i) : CommandEffect i s t where
  toEffect := h
  tree_ok hok := by
    have : t.tree = s.tree := h.same .tree ht
    rwa [this]
  fixed_tree _ _ := h.same .tree ht

/-- The effects of a command that writes neither the tree nor RESULT. -/
theorem Res.Effects.of_ends {x : Res State Unit} (ht : Piece.tree ∉ writtenPieces i)
    (hr : Piece.result ∉ writtenPieces i)
    (h : x.Ends (Effect (writtenPieces i) (mayWrite i s) s) (Effect (writtenPieces i) (mayWrite i s) s)) :
    x.Effects i s :=
  h.mono (fun _ h => .of_effect h ht) fun _ h => ⟨.of_effect h ht, h.same .result hr⟩

theorem CommandEffect.refl (i : Instr) (s : State) : CommandEffect i s s := ⟨.refl s, id, fun _ _ => rfl⟩

/-- A failed check leaves everything, so a checked body has the effects its body has once they pass. -/
theorem withChecks_effects {checks : State → List Check} {body : State → Res State Unit}
    (h : (∀ c ∈ checks s, c.pass = true) → (body s).Effects i s) : (withChecks checks body s).Effects i s :=
  withChecks_ends ⟨.refl i s, rfl⟩ h

end

/-! ### BRINIT, GETBITS, GETBIT -/

/-- The reader BRINIT latches on a source inside MEM meets 10_state R41. -/
theorem readerOk_latched {s : State} (unit : RefillUnit) (hmem : s.memBytes ≤ 2 ^ 31)
    (hsrc : (inMem s.sourceRange s).pass = true) :
    ({ s with br := latchedReader s.regs unit } : State).readerOk := by
  have hin : s.regs.srcAddr.toNat + s.regs.srcLen.toNat ≤ s.memBytes := of_decide_eq_true hsrc
  have hend : (BitVec.ofNat 32 (s.regs.srcAddr.toNat + s.regs.srcLen.toNat)).toNat
      = s.regs.srcAddr.toNat + s.regs.srcLen.toNat := by
    rw [BitVec.toNat_ofNat]; omega
  intro _
  refine ⟨?_, ?_, Nat.zero_le _, Nat.one_pos⟩
  · exact (Nat.le_add_right _ _).trans hend.ge
  · exact hend.trans_le hin

theorem brinit_effects (s : State) : (withChecks brinitChecks brinitBody s).Effects .brinit s := by
  refine withChecks_effects fun hpass => .of_ends (by decide) (by decide) ?_
  unfold brinitBody
  cases RefillUnit.ofCode s.regs.brCfg.refill with
  | none => exact Effect.refl s
  | some unit =>
    have hsrc : (inMem s.sourceRange s).pass = true := hpass _ (by simp [brinitChecks])
    exact Effect.setReader (List.mem_singleton.2 rfl) fun hm _ => readerOk_latched unit hm hsrc

/-- A field read advances the reader, and writes RESULT on success only (40_bitreader R148). -/
theorem readField_effects {i : Instr} (hps : writtenPieces i = [.reader, .result]) (n : Nat) (s : State) :
    (readField n s).Effects i s := by
  have ht : Piece.tree ∉ writtenPieces i := by rw [hps]; decide
  have hreader : Piece.reader ∈ writtenPieces i := by rw [hps]; decide
  have hresult : Piece.result ∈ writtenPieces i := by rw [hps]; decide
  have hread : (getBits n s).Ends (fun t => ∃ q, s.br.Advances q ∧ t = { s with br := q })
      fun t => ∃ q, s.br.Advances q ∧ t = { s with br := q } := by
    have h := s.br.getBits_advances s.mem n
    unfold getBits
    generalize s.br.getBits s.mem n = x at h ⊢
    cases x <;> exact ⟨_, h, rfl⟩
  refine Res.Ends.bind (Q' := fun t => ∃ q, s.br.Advances q ∧ t = { s with br := q })
    (hread.mono (fun _ h => h) ?_) ?_
  · rintro t ⟨q, hq, rfl⟩
    exact ⟨.of_effect (.advance hreader hq) ht, rfl⟩
  · rintro v t ⟨q, hq, rfl⟩
    exact .of_effect ((Effect.advance hreader hq).trans (.setResult hresult _)) ht

/-! ### LZDEC -/

theorem LzCfg.windowSize_le {c : LzCfg} (h : c.legal = true) : c.windowSize ≤ 2 ^ 16 := by
  simp only [LzCfg.legal, Bool.and_eq_true, decide_eq_true_eq] at h
  obtain ⟨⟨⟨-, hle⟩, -⟩, -⟩ := h
  exact Nat.pow_le_pow_right (by decide) hle

/-- LZDEC's operations have their effect, as one run related to itself. -/
theorem Effect.lzSim {W : Nat → Prop} {s : State}
    (hW : ∀ t : State, t.regs = s.regs → t.hasRoom = true → W t.outputAddress) :
    LzSim fun t u => u = t ∧ Effect (writtenPieces .lzdec) W s t where
  br_eq := by rintro t u ⟨rfl, -⟩; rfl
  mem_eq := by rintro t u ⟨rfl, -⟩; rfl
  regs_eq := by rintro t u ⟨rfl, -⟩; rfl
  outLen_eq := by rintro t u ⟨rfl, -⟩; rfl
  lzWPos_eq := by rintro t u ⟨rfl, -⟩; rfl
  window_eq := by rintro t u i ⟨rfl, -⟩ -; rfl
  advance := by rintro t u q ⟨rfl, h⟩ hq; exact ⟨rfl, h.trans (.advance (by decide) hq)⟩
  emit := by
    rintro t u b ⟨rfl, h⟩ hroom
    exact ⟨rfl, h.trans (.emit (by decide) (by decide) (by decide) b (hW _ (h.regs (by decide)) hroom))⟩
  setTerm := by rintro t u ⟨rfl, h⟩; exact ⟨rfl, h.trans (.setTerm (by decide) true)⟩

/-- The window initialisation fills at most 65,536 positions when the configuration is legal (10_state R42). -/
theorem Effect.lzInit {W : Nat → Prop} {s : State} (h : s.regs.lzCfg.legal = true) :
    Effect (writtenPieces .lzdec) W s (lzInit s) :=
  (Effect.setWindow (by decide) _
    ⟨Window.wf_fill _ _, fun hw => Window.within_fill _ hw (LzCfg.windowSize_le h), rfl⟩).trans
    (.setOutLen (by decide) 0)

theorem lzdec_effects (s : State) : (withChecks lzdecChecks lzdecBody (setTerm false s)).Effects .lzdec s := by
  have hterm : Effect (writtenPieces .lzdec) (mayWrite .lzdec s) s (setTerm false s) := .setTerm (by decide) false
  refine .of_ends (by decide) (by decide) (withChecks_ends hterm fun hpass => ?_)
  have hlegal : s.regs.lzCfg.legal = true := hpass (configOk s.regs.lzCfg.legal .lzCfg) (by simp [lzdecChecks])
  have hout : (inMem s.outRange s).pass = true :=
    hpass (inMem s.outRange s) (.tail _ (.tail _ (.tail _ (.head _))))
  have hsim := Effect.lzSim fun t hregs hroom =>
    mayWrite_outputAddress (i := .lzdec) (s := s) rfl hout hregs hroom
  exact (lzdecBody_sim hsim ⟨rfl, hterm.trans (.lzInit hlegal)⟩).ends (fun _ _ _ h => h.2) fun _ _ h => h.2

/-! ### HUFTREE, HUFCANON, HUFDEC -/

/-- A run of a tree command and its twin with another tree: the first has the command's effect and keeps a tree that
was in order so. -/
structure TreeTwin (i : Instr) (s t u : State) : Prop where
  twin : ∃ x, u = { t with tree := x }
  effect : Effect (writtenPieces i) (mayWrite i s) s t
  tree_ok : s.tree.ok → t.tree.ok

theorem TreeTwin.readerSim {i : Instr} (hr : Piece.reader ∈ writtenPieces i) (s : State) :
    ReaderSim (TreeTwin i s) where
  br_eq := by rintro t u ⟨⟨x, rfl⟩, -⟩; rfl
  mem_eq := by rintro t u ⟨⟨x, rfl⟩, -⟩; rfl
  regs_eq := by rintro t u ⟨⟨x, rfl⟩, -⟩; rfl
  advance := by rintro t u q ⟨⟨x, rfl⟩, h, hok⟩ hq; exact ⟨⟨x, rfl⟩, h.trans (.advance hr hq), hok⟩

theorem TreeTwin.buildSim {i : Instr} (hr : Piece.reader ∈ writtenPieces i) (ht : Piece.tree ∈ writtenPieces i)
    (s : State) : BuildSim (TreeTwin i s) where
  toReaderSim := TreeTwin.readerSim hr s
  tree := by rintro t u ⟨⟨x, rfl⟩, h, -⟩ y z hy; exact ⟨⟨z, rfl⟩, h.trans (.setTree ht y), fun _ => hy⟩

/-- For HUFDEC the first run also keeps its tree where rebuilds are disabled. -/
def HufTwin (s t u : State) : Prop :=
  TreeTwin .hufdec s t u ∧ (s.regs.hufCfg.rebuildEn = false → t.tree = s.tree)

theorem HufTwin.hufSim {s : State}
    (hW : ∀ t : State, t.regs = s.regs → t.hasRoom = true → mayWrite .hufdec s t.outputAddress) :
    HufSim (HufTwin s) where
  toReaderSim :=
    (TreeTwin.readerSim (by decide) s).and (fun t => s.regs.hufCfg.rebuildEn = false → t.tree = s.tree)
      fun _ _ h => h
  outLen_eq := by rintro t u ⟨⟨⟨x, rfl⟩, -⟩, -⟩; rfl
  put := by
    rintro t u b ⟨⟨⟨x, rfl⟩, h, hok⟩, hfix⟩ hroom
    exact ⟨⟨⟨x, rfl⟩, h.trans (.putByte (by decide) (by decide) b (hW _ (h.regs (by decide)) hroom)), hok⟩, hfix⟩
  rebuild := by
    rintro t u ⟨⟨⟨x, rfl⟩, h, -⟩, -⟩ hen y z hy
    rw [h.regs (by decide)] at hen
    exact ⟨⟨⟨z, rfl⟩, h.trans (.setTree (by decide) y), fun _ => hy⟩, fun hoff => absurd hen (by rw [hoff]; decide)⟩

theorem huftree_twin {s : State} {x : CodeTree} (hkind : x.kind = s.tree.kind) :
    Res.Sim (TreesAgree (TreeTwin .huftree s)) (buildTree s) (buildTree { s with tree := x }) :=
  (buildTree_sim (TreeTwin.buildSim (by decide) (by decide) s) ⟨⟨x, rfl⟩, .refl s, id⟩ hkind.symm).mono
    (fun _ _ _ h => h.toTreesAgree) fun _ _ h => h

theorem hufcanon_twin {s : State} {x : CodeTree} (hkind : x.kind = s.tree.kind) :
    Res.Sim (TreesAgree (TreeTwin .hufcanon s)) (buildCanon s) (buildCanon { s with tree := x }) :=
  (buildCanon_sim (TreeTwin.buildSim (by decide) (by decide) s) ⟨⟨x, rfl⟩, .refl s, id⟩ hkind.symm).mono
    (fun _ _ _ h => h.toTreesAgree) fun _ _ h => h

theorem hufdec_twin {s : State} {x : CodeTree} (hpass : ∀ c ∈ hufdecChecks s, c.pass = true)
    (hagree : s.tree.agree x) (hclosed : s.tree.ok ∨ x = s.tree) :
    Res.Sim (TreesAgree (HufTwin s)) (hufdecBody s) (hufdecBody { s with tree := x }) := by
  have hvalid : s.tree.valid = true := hpass (treeReady s) (.tail _ (.head _))
  have hout : (inMem s.outRange s).pass = true :=
    hpass (inMem s.outRange s) (.tail _ (.tail _ (.tail _ (.head _))))
  have hsim := HufTwin.hufSim fun t hregs hroom =>
    mayWrite_outputAddress (i := .hufdec) (s := s) rfl hout hregs hroom
  have hstart : HufTwin s { s with outLen := 0 } { s with outLen := 0, tree := x } :=
    ⟨⟨⟨x, rfl⟩, .setOutLen (by decide) 0, id⟩, fun _ => rfl⟩
  exact (hufdecBody_sim hsim ⟨⟨hstart, hagree, hclosed⟩, hvalid⟩).mono
    (fun _ _ _ h => h.toTreesAgree) fun _ _ h => h

end Sys2Proof.Machine

/-! ## The bodies of all commands -/

namespace Sys2Proof.Machine

section
variable {s : State}

/-! ### The ciphers -/

theorem xorkey_effects (s : State) : (withChecks xorkeyChecks xorkeyBody s).Effects .xorkey s :=
  withChecks_effects fun hpass => .of_ends (by decide) (by decide) <|
    Effect.setMem (by decide) <| .forUp _ fun _ m _ hi =>
      .xorAt m _ (mayWrite_bufAddress rfl (hpass (inMem s.bufRange s) (.tail _ (.head _))) (by omega))

theorem xorprng_effects (s : State) : (withChecks xorprngChecks xorprngBody s).Effects .xorprng s :=
  withChecks_effects fun hpass => .of_ends (by decide) (by decide) <|
    have hmem := Memory.WritesIn.forUp_fst (s.mem, s.prngState) fun i p _ hi =>
      .xorAt p.1 (prngByte s.regs.prngShift (prngStep s.regs.prngMul s.regs.prngAdd p.2))
        (mayWrite_bufAddress rfl (hpass (inMem s.bufRange s) (.tail _ (.head _))) (show i < s.regs.bufLen.toNat by omega))
    (Effect.setMem (by decide) hmem).trans (.setPrngState (by decide) _)

theorem subapply_effects (s : State) : (withChecks subapplyChecks subapplyBody s).Effects .subapply s :=
  withChecks_effects fun hpass => .of_ends (by decide) (by decide) <|
    Effect.setMem (by decide) <| .forUp _ fun _ _ _ hi =>
      .write _ .refl (mayWrite_bufAddress rfl (hpass (inMem s.bufRange s) (.tail _ (.head _))) (by omega))

/-- Every byte of the range SUBSTORE writes may be written (44_subst R243). -/
theorem mayWrite_storeAddress {k : Nat} (hcheck : (inMem s.storeRange s).pass = true) (hk : k < 256) :
    mayWrite .substore s (s.regs.outAddr.toNat + k) :=
  mayWrite_of_inMem rfl hcheck (Nat.le_add_right _ _) (Nat.add_lt_add_left hk _)

theorem substore_effects (s : State) : (withChecks substoreChecks substoreBody s).Effects .substore s := by
  refine withChecks_effects fun hpass => .of_ends (by decide) (by decide) ?_
  have hrange : (inMem s.storeRange s).pass = true := hpass (inMem s.storeRange s) (.tail _ (.tail _ (.head _)))
  have heffect {m : Memory} (hm : s.mem.WritesIn (mayWrite .substore s) m) :
      Effect (writtenPieces .substore) (mayWrite .substore s) s { s with mem := m, outLen := 256 } :=
    (Effect.setMem (by decide) hm).trans (.setOutLen (by decide) 256)
  refine heffect (.forUp _ fun k m _ (hk : k < 0 + 256) => ?_)
  rw [Nat.zero_add] at hk
  exact .write _ .refl (mayWrite_storeAddress hrange hk)

/-- CBCDEC's loop writes the blocks of the buffer (45_cbc R260). -/
theorem cbcBlocks_writesIn {W : Nat → Prop} (key : List Byte)
    (hW : ∀ k, k < s.regs.bufLen.toNat → W (s.bufAddress k)) : s.mem.WritesIn W (cbcBlocks key s).1 :=
  Memory.WritesIn.forUp_fst (s.mem, s.mem.readBlock s.regs.ivAddr.toNat) fun j p _ hj =>
    .writeBlock p.1 _ fun k hk => by
      have h := hW (16 * j + k) (by omega)
      rwa [State.bufAddress, ← Nat.add_assoc] at h

/-- CBCDEC succeeds with RESULT written, or its pad check fails; either way the buffer is decrypted (45_cbc R260). -/
theorem cbcdecBody_cases (p : Bool) (s : State) :
    (∃ v, cbcdecBody p s = .ok () { cbcDecrypt s with result := v })
    ∨ cbcdecBody p s = .raised .invalidFormat 6 (cbcDecrypt s) := by
  unfold cbcdecBody
  cases p with
  | false => exact .inl ⟨_, rfl⟩
  | true =>
    simp only [if_true]
    split
    · exact .inr rfl
    · exact .inl ⟨_, rfl⟩

theorem cbcdec_effects (p : Bool) (s : State) :
    (withChecks (cbcdecChecks p) (cbcdecBody p) s).Effects (.cbcdec p) s := by
  have htree : Piece.tree ∉ writtenPieces (.cbcdec p) := by simp [writtenPieces]
  refine withChecks_effects fun hpass => ?_
  have hdecrypt : Effect (writtenPieces (.cbcdec p)) (mayWrite (.cbcdec p) s) s (cbcDecrypt s) :=
    .setMem (by simp [writtenPieces]) <| cbcBlocks_writesIn _ fun k hk =>
      mayWrite_bufAddress rfl (hpass (inMem s.bufRange s) (.tail _ (.head _))) hk
  rcases cbcdecBody_cases p s with ⟨v, h⟩ | h <;> rw [h]
  · exact .of_effect (hdecrypt.trans (.setResult (by simp [writtenPieces]) v)) htree
  · exact ⟨.of_effect hdecrypt htree, rfl⟩

/-! ### The substitution table -/

theorem fillTable_effects {i : Instr} (hps : writtenPieces i = [.table, .tableValid]) (t : Vector Byte 256)
    (s : State) : Res.Effects i s (.ok () (fillTable t s)) := by
  refine .of_ends (by rw [hps]; decide) (by rw [hps]; decide) ?_
  rw [hps]
  exact (Effect.setTable (by decide) t).trans (.setTableValid (by decide) true)

theorem setTable_effects {i : Instr} (hps : writtenPieces i = [.table]) (t : Vector Byte 256) (s : State) :
    Res.Effects i s (.ok () { s with sbox := t }) := by
  refine .of_ends (by rw [hps]; decide) (by rw [hps]; decide) ?_
  rw [hps]
  exact Effect.setTable (by decide) t

/-! ### The trees -/

/-- A tree command has the effects of the first of two runs that `TreeTwin` relates. -/
theorem Res.Effects.of_treeTwin {i : Instr} {x y : Res State Unit} (h : Res.Sim (TreesAgree (TreeTwin i s)) x y)
    (hres : Piece.result ∉ writtenPieces i) (hi : i ≠ .hufdec) : x.Effects i s :=
  have heffect {t u : State} (h : TreeTwin i s t u) : CommandEffect i s t :=
    ⟨h.effect, h.tree_ok, fun e => absurd e hi⟩
  h.ends (fun _ _ _ h => heffect h.rel) fun _ _ h => ⟨heffect h.rel, h.rel.effect.same .result hres⟩

theorem huftree_effects (s : State) : (withChecks readerChecks buildTree s).Effects .huftree s :=
  withChecks_effects fun _ => .of_treeTwin (huftree_twin (x := s.tree) rfl) (by decide) nofun

theorem hufcanon_effects (s : State) : (withChecks hufcanonChecks buildCanon s).Effects .hufcanon s :=
  withChecks_effects fun _ => .of_treeTwin (hufcanon_twin (x := s.tree) rfl) (by decide) nofun

theorem hufdec_effects (s : State) : (withChecks hufdecChecks hufdecBody s).Effects .hufdec s :=
  withChecks_effects fun hpass =>
    have heffect {t u : State} : HufTwin s t u → CommandEffect .hufdec s t :=
      fun ⟨htwin, hfix⟩ => ⟨htwin.effect, htwin.tree_ok, fun _ => hfix⟩
    (hufdec_twin hpass s.tree.agree_refl (.inr rfl)).ends (fun _ _ _ h => heffect h.rel) fun _ _ h =>
      ⟨heffect h.rel, (heffect h.rel).same .result (by decide)⟩

end

/-! ### Every command but CLRERR and SRESET -/

/-- The body of a command that goes through acceptance and conclusion; CLRERR and SRESET do not (60_exceptions
R307). -/
def ordinaryBody : Instr → Option (State → Res State Unit)
  | .nop => some fun s => .ok () s
  | .clrerr | .sreset => none
  | .brinit => some (withChecks brinitChecks brinitBody)
  | .getbits n => some fun s =>
    if Instr.legalCount n then withChecks readerChecks (readField n.toNat) s
    else .raised .illegalCommand (encode (.getbits n)).toNat s
  | .getbit => some (withChecks readerChecks (readField 1))
  | .lzdec => some fun s => withChecks lzdecChecks lzdecBody (setTerm false s)
  | .huftree => some (withChecks readerChecks buildTree)
  | .hufcanon => some (withChecks hufcanonChecks buildCanon)
  | .hufdec => some (withChecks hufdecChecks hufdecBody)
  | .xorkey => some (withChecks xorkeyChecks xorkeyBody)
  | .xorprng => some (withChecks xorprngChecks xorprngBody)
  | .subload => some (withChecks subloadChecks fun s => .ok () (fillTable s.keyTable s))
  | .subgen => some fun s => .ok () (fillTable (subgenTable s.regs.subSeed s.regs.keyLen) s)
  | .subswap => some (withChecks subswapChecks subswapBody)
  | .subtriple => some (withChecks tableChecks fun s => .ok () { s with sbox := tripleTable s.sbox })
  | .subapply => some (withChecks subapplyChecks subapplyBody)
  | .substore => some (withChecks substoreChecks substoreBody)
  | .cbcdec p => some (withChecks (cbcdecChecks p) (cbcdecBody p))

/-- The three kinds of commands. -/
theorem exec_cases (i : Instr) (s : State) :
    (i = .clrerr ∧ exec i s = .next (finish (clearError (accept s))))
    ∨ (i = .sreset ∧ exec i s = .next (finish (clearRegisters (accept s))))
    ∨ ∃ body, ordinaryBody i = some body ∧ exec i s = .next (runCommand body s) := by
  cases i with
  | clrerr => exact .inl ⟨rfl, rfl⟩
  | sreset => exact .inr (.inl ⟨rfl, rfl⟩)
  | _ => exact .inr (.inr ⟨_, rfl, rfl⟩)

theorem getbits_effects (n : BitVec 6) (s : State) :
    Res.Effects (.getbits n) s
      (if Instr.legalCount n then withChecks readerChecks (readField n.toNat) s
        else .raised .illegalCommand (encode (.getbits n)).toNat s) := by
  split
  · exact withChecks_effects fun _ => readField_effects rfl _ s
  · exact ⟨.refl _ s, rfl⟩

/-- Every body has its command's effects. -/
theorem ordinaryBody_effects {i : Instr} {body : State → Res State Unit} (h : ordinaryBody i = some body)
    (s : State) : (body s).Effects i s := by
  cases i <;> cases h
  case nop => exact CommandEffect.refl _ s
  case brinit => exact brinit_effects s
  case getbits n => exact getbits_effects n s
  case getbit => exact withChecks_effects fun _ => readField_effects rfl 1 s
  case lzdec => exact lzdec_effects s
  case huftree => exact huftree_effects s
  case hufcanon => exact hufcanon_effects s
  case hufdec => exact hufdec_effects s
  case xorkey => exact xorkey_effects s
  case xorprng => exact xorprng_effects s
  case subload => exact withChecks_effects fun _ => fillTable_effects rfl _ s
  case subgen => exact fillTable_effects rfl _ s
  case subswap => exact withChecks_effects fun _ => setTable_effects rfl _ s
  case subtriple => exact withChecks_effects fun _ => setTable_effects rfl _ s
  case subapply => exact subapply_effects s
  case substore => exact substore_effects s
  case cbcdec p => exact cbcdec_effects p s

end Sys2Proof.Machine

/-! ## The claims about every command and every step -/

namespace Sys2Proof.Machine

/-! ### The frames of all commands -/

section
variable {i : Instr} {s t : State}

theorem Piece.same_accept (p : Piece) (s : State) : p.same s (accept s) := by cases p <;> simp [Piece.same]

theorem Piece.same_finish (p : Piece) (s : State) : p.same s (finish s) := by cases p <;> simp [Piece.same]

theorem Piece.same_raiseError (p : Piece) (e : ErrorName) (info : Nat) (s : State) :
    p.same s (raiseError e info s) := by cases p <;> simp [Piece.same]

theorem Piece.same_clearError (p : Piece) (s : State) : p.same s (clearError s) := by cases p <;> simp [Piece.same]

/-- Where an accepted command may write does not depend on its acceptance. -/
theorem mayWrite_accept {a : Nat} (h : mayWrite i (accept s) a) : mayWrite i s a := by
  obtain ⟨ha, r, hr, hin⟩ := h
  have hrange : writtenRange i (accept s) = writtenRange i s := by cases i <;> rfl
  exact ⟨ha, r, hrange ▸ hr, hin⟩

/-- What an ordinary command ends in: it is ignored, or its body has its effects on the accepted state, and the end
is recorded. -/
theorem runCommand_effect {body : State → Res State Unit} (hbody : ∀ s, (body s).Effects i s) (s : State) :
    (s.status.err = true ∧ runCommand body s = s)
    ∨ (s.status.err = false ∧ ∃ u, CommandEffect i (accept s) u ∧ runCommand body s = finish u)
    ∨ (s.status.err = false ∧ ∃ e info u, CommandEffect i (accept s) u ∧ u.result = s.result
        ∧ runCommand body s = raiseError e info u) := by
  have h := hbody (accept s)
  rcases runCommand_cases body s with hign | ⟨herr, u, hu, he⟩ | ⟨herr, e, info, u, hu, he⟩
  · exact .inl hign
  · rw [hu] at h; exact .inr (.inl ⟨herr, u, h, he⟩)
  · rw [hu] at h; exact .inr (.inr ⟨herr, e, info, u, h.1, h.2, he⟩)

/-- The one inversion of `exec`: CLRERR, SRESET, a command that is ignored, one that succeeds, one that raises. -/
theorem exec_effect (h : exec i s = .next t) :
    (i = .clrerr ∧ t = finish (clearError (accept s)))
    ∨ (i = .sreset ∧ t = finish (clearRegisters (accept s)))
    ∨ (s.status.err = true ∧ t = s)
    ∨ (s.status.err = false ∧ ∃ u, CommandEffect i (accept s) u ∧ t = finish u)
    ∨ (s.status.err = false ∧ ∃ e info u, CommandEffect i (accept s) u ∧ u.result = s.result
        ∧ t = raiseError e info u) := by
  rcases exec_cases i s with ⟨hi, he⟩ | ⟨hi, he⟩ | ⟨body, hbody, he⟩ <;> rw [he] at h <;> cases h
  · exact .inl ⟨hi, rfl⟩
  · exact .inr (.inl ⟨hi, rfl⟩)
  · exact .inr (.inr (runCommand_effect (ordinaryBody_effects hbody) s))

/-- A command writes MEM where it may. -/
theorem exec_writesIn (h : exec i s = .next t) : s.mem.WritesIn (mayWrite i s) t.mem := by
  have hmono {u : State} (hu : CommandEffect i (accept s) u) : s.mem.WritesIn (mayWrite i s) u.mem :=
    hu.mem.mono fun _ => mayWrite_accept
  rcases exec_effect h with ⟨-, rfl⟩ | ⟨-, rfl⟩ | ⟨-, rfl⟩ | ⟨-, u, hu, rfl⟩ | ⟨-, e, info, u, hu, -, rfl⟩
  · exact .refl
  · exact .refl
  · exact .refl
  · rw [finish_mem]; exact hmono hu
  · rw [raiseError_mem]; exact hmono hu

/-- Settles O17: outside its range a command may not write, so the byte stays. -/
theorem memoryFrame : Obligations.MemoryFrame := by
  intro i s t h a ha
  refine (exec_writesIn h).read_eq ?_
  rintro ⟨-, r, hr, hlo, hhi⟩
  rcases ha r hr with hlt | hge <;> omega

/-- The frame of a command on its way, once its end is recorded in `t` without touching the rest of the state. -/
theorem CommandEffect.touches {u : State} (hu : CommandEffect i (accept s) u) (hsame : ∀ p : Piece, p.same u t)
    (hown : t.epoch = u.epoch ∧ t.memBytes = u.memBytes ∧ t.host = u.host ∧ t.lastRead = u.lastRead) :
    (∀ p : Piece, p ∉ writtenPieces i → p.same s t)
    ∧ (i = .hufdec → s.regs.hufCfg.rebuildEn = false → t.tree = s.tree)
    ∧ (i ≠ .sreset → t.epoch = s.epoch)
    ∧ t.memBytes = s.memBytes ∧ t.host = s.host ∧ t.lastRead = s.lastRead := by
  obtain ⟨hepoch, hmemBytes, hhost, hread⟩ := hown
  have htree : t.tree = u.tree := hsame .tree
  exact ⟨fun p hp => Piece.same_trans (Piece.same_trans (p.same_accept s) (hu.same p hp)) (hsame p),
    fun hi hoff => htree.trans (hu.fixed_tree hi hoff), fun _ => hepoch.trans hu.kept.epoch,
    hmemBytes.trans hu.kept.memBytes, hhost.trans hu.kept.host, hread.trans hu.kept.lastRead⟩

/-- SRESET leaves MEM, the one piece it does not list (46_system R292). -/
theorem Piece.same_sreset {p : Piece} (hp : p ∉ writtenPieces .sreset) :
    p.same s (finish (clearRegisters (accept s))) := by
  have hmem : p = .memory := by revert hp; cases p <;> decide
  subst hmem
  rfl

/-- Settles O16, from the effects of every body (`exec_effect`). -/
theorem commandTouchesOnlyItsState : Obligations.CommandTouchesOnlyItsState := by
  intro i s t h
  rcases exec_effect h with ⟨rfl, rfl⟩ | ⟨rfl, rfl⟩ | ⟨-, rfl⟩ | ⟨herr, u, hu, rfl⟩ | ⟨-, e, info, u, hu, hres, rfl⟩
  · refine ⟨fun p _ => ?_, nofun, nofun, fun _ => rfl, rfl, rfl, rfl⟩
    exact Piece.same_trans (Piece.same_trans (p.same_accept s) (p.same_clearError _)) (p.same_finish _)
  · exact ⟨fun p hp => Piece.same_sreset hp, nofun, nofun, fun hne => absurd rfl hne, rfl, rfl, rfl⟩
  · exact ⟨fun p _ => p.same_refl _, fun _ => rfl, fun _ _ => rfl, fun _ => rfl, rfl, rfl, rfl⟩
  · obtain ⟨hpieces, hfix, hown⟩ := hu.touches (fun p => p.same_finish u) ⟨rfl, rfl, rfl, rfl⟩
    refine ⟨hpieces, fun hraised => ?_, hfix, hown⟩
    have hu_err : u.status.err = s.status.err := by rw [hu.kept.status]; rfl
    exact absurd (hu_err.symm.trans hraised) (by rw [herr]; decide)
  · obtain ⟨hpieces, hfix, hown⟩ := hu.touches (fun p => p.same_raiseError e info u) ⟨rfl, rfl, rfl, rfl⟩
    exact ⟨hpieces, fun _ => hres, hfix, hown⟩

/-! ### The invariant -/

theorem State.Inv.accept (h : s.Inv) : (accept s).Inv where
  __ := h
  status := by
    obtain ⟨-, hcode, hinfo⟩ := h.status
    exact ⟨by simp, hcode, hinfo⟩

theorem State.Inv.finish (h : s.Inv) (herr : s.status.err = false) : (finish s).Inv where
  __ := h
  status := by
    obtain ⟨-, hcode, hinfo⟩ := h.status
    exact ⟨by simp [herr], hcode, hinfo⟩

theorem ErrorName.code_ne_zero (e : ErrorName) : e.code ≠ 0 := by cases e <;> decide

theorem State.Inv.raiseError (h : s.Inv) (hdone : s.status.done = false) (e : ErrorName) (info : Nat) :
    (raiseError e info s).Inv where
  __ := h
  status := ⟨by simp [hdone], ⟨fun _ => e.code_ne_zero, fun _ => rfl⟩, by simp⟩

theorem State.Inv.clearError (h : s.Inv) : (clearError s).Inv where
  __ := h
  status := ⟨by simp, by simp, by simp⟩

/-- SRESET and hardware reset number the new free contents before the next ones (70_reset R341). -/
theorem State.Inv.clearRegisters (h : s.Inv) : (clearRegisters s).Inv where
  memBytes_pos := h.memBytes_pos
  memBytes_le := h.memBytes_le
  mem_wf := h.mem_wf
  mem_within := h.mem_within
  win_wf := rfl
  win_within := Window.within_unspecified _
  mem_epoch := h.mem_epoch.trans (Nat.lt_succ_self _)
  win_epoch := Nat.lt_succ_self _
  reader := nofun
  status := ⟨by simp [Status.zero], by simp [Status.zero], fun _ => rfl⟩
  tree := nofun

theorem State.Inv.hardwareReset (h : s.Inv) : (hardwareReset s).Inv where
  __ := h.clearRegisters
  mem_wf := rfl
  mem_within := nofun
  mem_epoch := Nat.lt_succ_self _

/-- The invariant does not speak of the host's registers, its list of actions and what it read last. -/
theorem State.Inv.ofPorts (h : s.Inv) (regs : HostRegs) (prng : Word) (host : List HostAction)
    (read : Option Word) :
    ({ s with regs := regs, prngState := prng, host := host, lastRead := read } : State).Inv where
  __ := h

theorem State.Inv.writeMem (h : s.Inv) {a : Nat} (ha : a < s.memBytes) (b : Byte) :
    ({ s with mem := s.mem.write a b } : State).Inv where
  __ := h
  mem_wf := Memory.wf_write a b h.mem_wf
  mem_within := Memory.within_write b h.mem_within ha

/-- The body of a command keeps the invariant. -/
theorem CommandEffect.inv (h : CommandEffect i s t) (hs : s.Inv) : t.Inv where
  memBytes_pos := hs.memBytes_pos.trans_eq h.kept.memBytes.symm
  memBytes_le := h.kept.memBytes.trans_le hs.memBytes_le
  mem_wf := h.mem.wf hs.mem_wf
  mem_within := by rw [h.kept.memBytes]; exact h.mem.within (fun _ ha => ha.1) hs.mem_within
  win_wf := h.win.wf hs.win_wf
  win_within := h.win.within hs.win_within
  mem_epoch := by rw [h.mem.epoch_eq, h.kept.epoch]; exact hs.mem_epoch
  win_epoch := by rw [h.win.epoch, h.kept.epoch]; exact hs.win_epoch
  reader := h.reader hs.memBytes_le hs.reader
  status := by
    unfold State.statusOk
    rw [h.kept.status, h.kept.errInfo]
    exact hs.status
  tree := h.tree_ok hs.tree

theorem runCommand_inv {body : State → Res State Unit} (hbody : ∀ s, (body s).Effects i s) (hs : s.Inv) :
    (runCommand body s).Inv := by
  rcases runCommand_effect hbody s with ⟨-, he⟩ | ⟨herr, u, hu, he⟩ | ⟨-, e, info, u, hu, -, he⟩ <;> rw [he]
  · exact hs
  · exact (hu.inv hs.accept).finish (by rw [hu.kept.status]; exact herr)
  · exact (hu.inv hs.accept).raiseError (by rw [hu.kept.status]; rfl) e info

theorem exec_inv (hs : s.Inv) (h : exec i s = .next t) : t.Inv := by
  rcases exec_cases i s with ⟨-, he⟩ | ⟨-, he⟩ | ⟨body, hbody, he⟩ <;> rw [he] at h <;> cases h
  · exact hs.accept.clearError.finish rfl
  · exact hs.accept.clearRegisters.finish rfl
  · exact runCommand_inv (ordinaryBody_effects hbody) hs

theorem commandWrite_inv {w : Word} (hs : s.Inv) (h : commandWrite w s = .next t) : t.Inv := by
  cases hd : decode w with
  | ok i => exact exec_inv hs ((commandWrite_of_ok hd s).symm.trans h)
  | error e =>
    rw [commandWrite_of_error hd] at h
    cases h
    exact runCommand_inv (i := .nop) (fun s => ⟨.refl _ s, rfl⟩) hs

/-- A register write changes the host's registers and PRNG_STATE alone (10_state R24, R25). -/
theorem writeReg_eq (r : Reg) (v : Word) (s : State) :
    writeReg r v s = { s with regs := (writeReg r v s).regs, prngState := (writeReg r v s).prngState } := by
  cases r <;> rfl

theorem writeReg_inv (r : Reg) (v : Word) (hs : s.Inv) : (writeReg r v s).Inv := by
  rw [writeReg_eq]
  exact hs.ofPorts _ _ s.host s.lastRead

/-- What a write at the port does: a command, a register, or nothing (10_state R24). -/
theorem portWrite_cases (index : BitVec 6) (v : Word) (s : State) :
    (index = Reg.cmd.index ∧ portWrite index v s = commandWrite v s)
    ∨ (∃ r, r ≠ .cmd ∧ index = r.index ∧ portWrite index v s = .next (writeReg r v s))
    ∨ (Reg.ofIndex index = none ∧ portWrite index v s = .next s) := by
  cases hr : Reg.ofIndex index with
  | none => exact .inr (.inr ⟨rfl, by simp [portWrite, hr]⟩)
  | some r =>
    obtain rfl := Reg.index_of_ofIndex hr
    by_cases hcmd : r = .cmd
    · subst hcmd; exact .inl ⟨rfl, portWrite_cmd v s⟩
    · exact .inr (.inl ⟨r, hcmd, rfl, portWrite_index hcmd v s⟩)

theorem hostAct_inv {a : HostAction} (hs : s.Inv) (h : hostAct a s = .next t) : t.Inv := by
  cases a with
  | writeReg index v =>
    replace h : portWrite index v s = .next t := h
    rcases portWrite_cases index v s with ⟨-, he⟩ | ⟨r, -, -, he⟩ | ⟨-, he⟩ <;> rw [he] at h
    · exact commandWrite_inv hs h
    · cases h; exact writeReg_inv r v hs
    · cases h; exact hs
  | readReg index => cases h; exact hs.ofPorts s.regs s.prngState s.host _
  | writeMem addr b =>
    simp only [hostAct] at h
    split at h
    · cases h; exact hs.writeMem ‹_› b
    · cases h
  | readMem addr =>
    simp only [hostAct] at h
    split at h
    · cases h; exact hs.ofPorts s.regs s.prngState s.host _
    · cases h
  | hardwareReset => cases h; exact hs.hardwareReset

/-- Settles O56: one action of the host at a time. -/
theorem stepKeepsInvariant : Obligations.StepKeepsInvariant := by
  intro s t hs h
  cases hhost : s.host with
  | nil =>
    unfold step hostStep at h
    rw [hhost] at h
    cases h
    exact hs
  | cons a rest =>
    rw [step_of_cons hhost] at h
    exact hostAct_inv (hs.ofPorts s.regs s.prngState rest s.lastRead) h

/-- Settles O57. -/
theorem resetHasInvariant : Obligations.ResetHasInvariant where
  memBytes_pos := Nat.succ_pos _
  memBytes_le := Config.memTopAddress.isLt
  mem_wf := rfl
  mem_within := nofun
  win_wf := rfl
  win_within := Window.within_unspecified 0
  mem_epoch := Nat.one_pos
  win_epoch := Nat.one_pos
  reader := nofun
  status := ⟨by decide, by decide, fun _ => rfl⟩
  tree := nofun

end

end Sys2Proof.Machine

/-! ## No command reads a node outside a valid tree (10_state R52, R59; 42_huffman R193) -/

namespace Sys2Proof.Machine

/-- Two states that differ in the tree alone, and there at most in nodes that are not part of a valid tree. -/
structure NodeTwin (s u : State) : Prop where
  eq : u = { s with tree := u.tree }
  valid : u.tree.valid = s.tree.valid
  kind : u.tree.kind = s.tree.kind
  nnodes : u.tree.nnodes = s.tree.nnodes
  agree : s.tree.valid = true → s.tree.agree u.tree

section
variable {s t u v : State} {x : CodeTree}

theorem NodeTwin.of_agree (h : u = { s with tree := x }) (hagree : s.tree.agree x) : NodeTwin s u := by
  subst h
  obtain ⟨hvalid, hkind, hn, hnodes⟩ := hagree
  exact ⟨rfl, hvalid.symm, hkind.symm, hn.symm, fun _ => ⟨hvalid, hkind, hn, hnodes⟩⟩

theorem NodeTwin.accept (h : NodeTwin s u) : NodeTwin (accept s) (accept u) :=
  ⟨by rw [h.eq]; rfl, h.valid, h.kind, h.nnodes, h.agree⟩

theorem NodeTwin.finish (h : NodeTwin s u) : NodeTwin (finish s) (finish u) :=
  ⟨by rw [h.eq]; rfl, h.valid, h.kind, h.nnodes, h.agree⟩

theorem NodeTwin.raiseError (h : NodeTwin s u) (e : ErrorName) (info : Nat) :
    NodeTwin (raiseError e info s) (raiseError e info u) :=
  ⟨by rw [h.eq]; rfl, h.valid, h.kind, h.nnodes, h.agree⟩

theorem NodeTwin.clearError (h : NodeTwin s u) : NodeTwin (clearError s) (clearError u) :=
  ⟨by rw [h.eq]; rfl, h.valid, h.kind, h.nnodes, h.agree⟩

theorem NodeTwin.clearRegisters (h : NodeTwin s u) : NodeTwin (clearRegisters s) (clearRegisters u) :=
  .of_agree (x := CodeTree.unspecified s.epoch) (by rw [h.eq]; rfl) (CodeTree.agree_refl _)

/-! ### Commands that do not touch the tree -/

/-- The first run has not touched its tree, and the second has `x` in its place. -/
def TreeUntouched (s : State) (x : CodeTree) (t v : State) : Prop := v = { t with tree := x } ∧ t.tree = s.tree

theorem TreeUntouched.refl (s : State) (x : CodeTree) : TreeUntouched s x s { s with tree := x } := ⟨rfl, rfl⟩

theorem TreeUntouched.lzSim (s : State) (x : CodeTree) : LzSim (TreeUntouched s x) where
  br_eq := by rintro t v ⟨rfl, -⟩; rfl
  mem_eq := by rintro t v ⟨rfl, -⟩; rfl
  regs_eq := by rintro t v ⟨rfl, -⟩; rfl
  outLen_eq := by rintro t v ⟨rfl, -⟩; rfl
  lzWPos_eq := by rintro t v ⟨rfl, -⟩; rfl
  window_eq := by rintro t v i ⟨rfl, -⟩ -; rfl
  advance := by rintro t v q ⟨rfl, h⟩ -; exact ⟨rfl, h⟩
  emit := by rintro t v b ⟨rfl, h⟩ -; exact ⟨rfl, h⟩
  setTerm := by rintro t v ⟨rfl, h⟩; exact ⟨rfl, h⟩

theorem TreeUntouched.nodeTwin (h : TreeUntouched s x t v) (hs : NodeTwin s { s with tree := x }) :
    NodeTwin t v := by
  obtain ⟨rfl, ht⟩ := h
  obtain ⟨-, hvalid, hkind, hn, hagree⟩ := hs
  rw [← ht] at hvalid hkind hn hagree
  exact ⟨rfl, hvalid, hkind, hn, hagree⟩

theorem readField_untouched (n : Nat) (s : State) (x : CodeTree) :
    Res.Sim (TreeUntouched s x) (readField n s) (readField n { s with tree := x }) :=
  (getBits_sim (TreeUntouched.lzSim s x).toReaderSim n (.refl s x)).bind fun _ _ _ h => by
    obtain ⟨rfl, ht⟩ := h
    exact .ok ⟨rfl, ht⟩

theorem brinit_untouched (s : State) (x : CodeTree) :
    Res.Sim (TreeUntouched s x) (brinitBody s) (brinitBody { s with tree := x }) := by
  unfold brinitBody
  cases RefillUnit.ofCode s.regs.brCfg.refill with
  | none => exact .raised ⟨rfl, rfl⟩
  | some unit => exact .ok ⟨rfl, rfl⟩

theorem cbcdecBody_of_bad_pad (h : padLength (cbcDecrypt s).mem (s.bufAddress s.regs.bufLen.toNat) = none) :
    cbcdecBody true s = .raised .invalidFormat 6 (cbcDecrypt s) := by
  simp only [cbcdecBody, if_true, h]

theorem cbcdecBody_of_pad {n : Nat}
    (h : padLength (cbcDecrypt s).mem (s.bufAddress s.regs.bufLen.toNat) = some n) :
    cbcdecBody true s = .ok () { cbcDecrypt s with result := BitVec.ofNat 32 (s.regs.bufLen.toNat - n) } := by
  simp only [cbcdecBody, if_true, h]

theorem cbcdec_untouched (p : Bool) (s : State) (x : CodeTree) :
    Res.Sim (TreeUntouched s x) (cbcdecBody p s) (cbcdecBody p { s with tree := x }) := by
  cases p with
  | false => exact .ok ⟨rfl, rfl⟩
  | true =>
    cases h : padLength (cbcDecrypt s).mem (s.bufAddress s.regs.bufLen.toNat) with
    | none =>
      rw [cbcdecBody_of_bad_pad h, cbcdecBody_of_bad_pad (s := { s with tree := x }) h]
      exact .raised ⟨rfl, rfl⟩
    | some n =>
      rw [cbcdecBody_of_pad h, cbcdecBody_of_pad (s := { s with tree := x }) h]
      exact .ok ⟨rfl, rfl⟩

theorem substore_untouched (s : State) (x : CodeTree) :
    Res.Sim (TreeUntouched s x) (substoreBody s) (substoreBody { s with tree := x }) := by
  simp only [substoreBody]
  generalize forUp _ 256 0 s.mem = m
  exact .ok ⟨rfl, rfl⟩

theorem getbits_untouched (n : BitVec 6) (s : State) (x : CodeTree) {body : State → Res State Unit}
    (h : ordinaryBody (.getbits n) = some body) : Res.Sim (TreeUntouched s x) (body s) (body { s with tree := x }) := by
  cases h
  dsimp only
  split
  · exact withChecks_rel rfl (.refl s x) fun _ => readField_untouched _ s x
  · exact .raised (.refl s x)

/-- A command that neither reads nor writes the tree runs the same with another tree. -/
theorem ordinaryBody_untouched {i : Instr} {body : State → Res State Unit} (h : ordinaryBody i = some body)
    (hi : Piece.tree ∉ writtenPieces i) (s : State) (x : CodeTree) :
    Res.Sim (TreeUntouched s x) (body s) (body { s with tree := x }) := by
  have hchecked {checks : State → List Check} {body : State → Res State Unit}
      (hc : checks { s with tree := x } = checks s)
      (hb : Res.Sim (TreeUntouched s x) (body s) (body { s with tree := x })) :
      Res.Sim (TreeUntouched s x) (withChecks checks body s) (withChecks checks body { s with tree := x }) :=
    withChecks_rel hc (.refl s x) fun _ => hb
  cases i
  case getbits n => exact getbits_untouched n s x h
  all_goals cases h
  case nop => exact .ok (.refl s x)
  case brinit => exact hchecked rfl (brinit_untouched s x)
  case getbit => exact hchecked rfl (readField_untouched 1 s x)
  case lzdec =>
    exact withChecks_rel rfl ⟨rfl, rfl⟩ fun _ => lzdecBody_sim (TreeUntouched.lzSim s x) ⟨rfl, rfl⟩
  case huftree => exact absurd hi (by decide)
  case hufcanon => exact absurd hi (by decide)
  case hufdec => exact absurd hi (by decide)
  case subgen => exact .ok ⟨rfl, rfl⟩
  case substore => exact hchecked rfl (substore_untouched s x)
  case cbcdec p => exact hchecked rfl (cbcdec_untouched p s x)
  all_goals exact hchecked rfl (.ok ⟨rfl, rfl⟩)

/-! ### Commands that build or read the tree -/

theorem TreesAgree.nodeTwin {i : Instr} (h : TreesAgree (TreeTwin i s) t v) : NodeTwin t v := by
  obtain ⟨⟨⟨y, rfl⟩, -, -⟩, hagree, -⟩ := h
  exact .of_agree rfl hagree

/-- The tree builders start by dropping the tree; HUFDEC reads it only where it is valid, and then only its nodes. -/
theorem treeCommand_nodeTwin {i : Instr} {body : State → Res State Unit} (h : ordinaryBody i = some body)
    (hi : Piece.tree ∈ writtenPieces i) (hok : s.tree.ok) (hs : NodeTwin s { s with tree := x }) :
    Res.Sim NodeTwin (body s) (body { s with tree := x }) := by
  have hmono {α : Type} {y z : Res State α} {R : State → State → Prop} (hyz : Res.Sim R y z)
      (hR : ∀ t v, R t v → NodeTwin t v) : Res.Sim NodeTwin y z := hyz.mono (fun _ => hR) hR
  have hchecks : hufdecChecks { s with tree := x } = hufdecChecks s := by
    have hready : treeReady { s with tree := x } = treeReady s := by rw [treeReady, hs.valid]; rfl
    have hkind : x.kind = s.tree.kind := hs.kind
    simp only [hufdecChecks, hready, hkind]
    rfl
  cases i
  case sreset => cases h
  case huftree =>
    cases h
    exact withChecks_rel rfl hs fun _ => hmono (huftree_twin hs.kind) fun _ _ h => h.nodeTwin
  case hufcanon =>
    cases h
    exact withChecks_rel rfl hs fun _ => hmono (hufcanon_twin hs.kind) fun _ _ h => h.nodeTwin
  case hufdec =>
    cases h
    refine withChecks_rel hchecks hs fun hpass => ?_
    have hvalid : s.tree.valid = true := hpass (treeReady s) (.tail _ (.head _))
    exact hmono (hufdec_twin hpass (hs.agree hvalid) (.inl hok)) fun _ _ h => (h.mono And.left).nodeTwin
  all_goals exact absurd hi (by simp [writtenPieces])

/-! ### All commands -/

theorem ordinaryBody_nodeTwin {i : Instr} {body : State → Res State Unit} (h : ordinaryBody i = some body)
    (hok : s.tree.ok) (hs : NodeTwin s u) : Res.Sim NodeTwin (body s) (body u) := by
  obtain ⟨x, rfl⟩ : ∃ x, u = { s with tree := x } := ⟨_, hs.eq⟩
  by_cases hi : Piece.tree ∈ writtenPieces i
  · exact treeCommand_nodeTwin h hi hok hs
  · exact (ordinaryBody_untouched h hi s _).mono (fun _ _ _ h => h.nodeTwin hs)
      fun _ _ h => h.nodeTwin hs

theorem exec_nodeTwin {i : Instr} (hok : s.tree.ok) (hs : NodeTwin s u) (h : exec i s = .next t) :
    ∃ v, exec i u = .next v ∧ NodeTwin t v := by
  rcases exec_cases i s with ⟨rfl, he⟩ | ⟨rfl, he⟩ | ⟨body, hbody, he⟩ <;> rw [he] at h <;> cases h
  · exact ⟨_, rfl, hs.accept.clearError.finish⟩
  · exact ⟨_, rfl, hs.accept.clearRegisters.finish⟩
  · have hu : exec i u = .next (runCommand body u) := by
      rcases exec_cases i u with ⟨rfl, -⟩ | ⟨rfl, -⟩ | ⟨body', hbody', he'⟩
      · cases hbody
      · cases hbody
      · obtain rfl := Option.some.inj (hbody.symm.trans hbody'); exact he'
    refine ⟨_, hu, runCommand_rel (by rw [hs.eq]) hs (fun _ => ordinaryBody_nodeTwin hbody ?_ hs.accept)
      (fun _ _ h => h.finish) fun e info _ _ h => h.raiseError e info⟩
    exact hok

end

/-- Settles O59: the two states are node twins, and every command keeps such twins (`exec_nodeTwin`). -/
theorem unbuiltTreeUnread : Obligations.UnbuiltTreeUnread := by
  intro i s t tree hok hvalid hkind hn hagree h
  obtain ⟨u, hu, heq, huvalid, hukind, hun, huagree⟩ :=
    exec_nodeTwin (u := { s with tree := tree }) hok ⟨rfl, hvalid, hkind, hn, hagree⟩ h
  exact ⟨u, hu, heq, huvalid, hukind, hun, huagree⟩

end Sys2Proof.Machine

/-! ## The register port, the step and the resets -/

namespace Sys2Proof.Machine

/-! ### Stored bits (10_state R24, R37, R42, R49) -/

theorem BitOrder.bit_ofBit (b : Bool) : (BitOrder.ofBit b).bit = b := by cases b <;> rfl

theorem BrCfg.word_ofWord (v : Word) : (BrCfg.ofWord v).word = v &&& 0x0000000F := by
  refine BitVec.eq_of_getLsbD_eq fun i hi => ?_
  simp only [BrCfg.word, BrCfg.ofWord, BitOrder.bit_ofBit, BitVec.getLsbD_append, BitVec.getLsbD_and]
  interval_cases i <;> simp

theorem LzCfg.word_ofWord (v : Word) : (LzCfg.ofWord v).word = v &&& 0x00077FFF := by
  refine BitVec.eq_of_getLsbD_eq fun i hi => ?_
  simp only [LzCfg.word, LzCfg.ofWord, BitVec.getLsbD_append, BitVec.getLsbD_and]
  interval_cases i <;> simp

theorem HufCfg.word_ofWord (v : Word) : (HufCfg.ofWord v).word = v &&& 0x00013FF7 := by
  refine BitVec.eq_of_getLsbD_eq fun i hi => ?_
  simp only [HufCfg.word, HufCfg.ofWord, BitVec.getLsbD_append, BitVec.getLsbD_and]
  interval_cases i <;> simp

/-- A register narrower than the port keeps the low bits. -/
theorem setWidth_setWidth_eq_and (w : Nat) (v : Word) :
    (v.setWidth w).setWidth 32 = v &&& BitVec.ofNat 32 (2 ^ w - 1) := by
  refine BitVec.eq_of_getLsbD_eq fun i hi => ?_
  rw [BitVec.getLsbD_and, BitVec.getLsbD_setWidth, BitVec.getLsbD_setWidth, BitVec.getLsbD_ofNat,
    Nat.testBit_two_pow_sub_one]
  simp only [hi, decide_true, Bool.true_and, Bool.and_comm]

/-- An RW register reads back the bits it stores. -/
theorem readReg_writeReg_same {r : Reg} {bits : Word} (h : r.storedBits = some bits) (v : Word) (s : State) :
    readReg r (writeReg r v s) = v &&& bits := by
  cases r <;> cases h
  case brCfg => exact BrCfg.word_ofWord v
  case lzCfg => exact LzCfg.word_ofWord v
  case hufCfg => exact HufCfg.word_ofWord v
  case lzInitPos => exact setWidth_setWidth_eq_and 16 v
  case lzLenBias => exact setWidth_setWidth_eq_and 16 v
  case lzEndLen => exact setWidth_setWidth_eq_and 16 v
  case lzFill => exact setWidth_setWidth_eq_and 8 v
  case hufRsym => exact setWidth_setWidth_eq_and 9 v
  case prngShift => exact setWidth_setWidth_eq_and 5 v
  all_goals exact (BitVec.and_allOnes (x := v)).symm

/-- A write shows at no other register. -/
theorem readReg_writeReg_other {q r : Reg} (h : q ≠ r) (v : Word) (s : State) :
    readReg q (writeReg r v s) = readReg q s := by
  cases r <;> cases q <;> first | rfl | exact absurd rfl h

theorem writeReg_of_readOnly {r : Reg} (h : r.storedBits = none) (v : Word) (s : State) : writeReg r v s = s := by
  cases r <;> first | rfl | cases h

/-- At a reserved offset the port finds no register. -/
theorem Reg.ofIndex_eq_none {index : BitVec 6} (h : ∀ r : Reg, r.index ≠ index) : Reg.ofIndex index = none := by
  cases hr : Reg.ofIndex index with
  | none => rfl
  | some r => exact absurd (Reg.index_of_ofIndex hr) (h r)

/-- Settles O9. -/
theorem registerPort : Obligations.RegisterPort := by
  intro s
  refine ⟨fun r bits v hbits => ?_, fun r v hnone hcmd => ?_, ?_, fun index v hres => ?_, fun index rest hhost => ?_⟩
  · have hcmd : r ≠ .cmd := by rintro rfl; cases hbits
    refine ⟨writeReg r v s, portWrite_index hcmd v s, ?_, fun q hq => ?_, writeReg_eq r v s⟩
    · rw [portRead_index, readReg_writeReg_same hbits]
    · rw [portRead_index, portRead_index, readReg_writeReg_other hq]
  · rw [portWrite_index hcmd, writeReg_of_readOnly hnone]
  · exact portRead_index .cmd s
  · have hnone := Reg.ofIndex_eq_none hres
    exact ⟨by simp [portWrite, hnone], by simp [portRead, hnone]⟩
  · rw [step_of_cons hhost]
    rfl

/-! ### The step (10_state R22, R23, R26) -/

/-- With a CMD write pending the step makes it, on the state without it. -/
theorem step_of_commandWrite {s : State} {w : Word} {rest : List HostAction} (h : s.host = .writeReg 0 w :: rest) :
    step s = commandWrite w { s with host := rest } :=
  (step_of_cons h).trans (portWrite_cmd w _)

theorem rejectWord_of_accepted {s : State} (e : DecodeError) (w : Word) (h : s.status.err = false) :
    rejectWord e w s = s.refused (errorOfDecode e) w.toNat :=
  (runCommand_accepted h).trans (raiseError_accept _ _ s)

theorem rejectWord_ignored {s : State} (e : DecodeError) (w : Word) (h : s.status.err = true) :
    rejectWord e w s = s := runCommand_ignored h

theorem step_of_no_action {s : State} (h : s.host = []) : step s = .next s := by
  unfold step hostStep
  rw [h]

/-- Settles O5. -/
theorem stepRunsDecodedCommand : Obligations.StepRunsDecodedCommand := by
  refine ⟨fun s w rest hhost => ?_, fun s => step_of_no_action⟩
  rw [step_of_commandWrite hhost]
  refine ⟨fun i hi => commandWrite_of_ok hi _, fun e he herr => ?_, fun e he herr => ?_⟩ <;>
    rw [commandWrite_of_error he]
  · rw [rejectWord_of_accepted e w (s := { s with host := rest }) herr]
  · rw [rejectWord_ignored e w (s := { s with host := rest }) herr]

/-- A word of the table decodes as its low bits on the port do. -/
theorem decode_of_decodeTableWord {nbits w : Nat} {i : Instr} (h : decodeTableWord nbits w = some i) :
    decode (BitVec.ofNat 32 (w % 2 ^ nbits)) = .ok i := by
  unfold decodeTableWord at h
  split at h
  · obtain rfl := Option.some.inj h; assumption
  · cases h

/-- Settles O7. -/
theorem fetchWordRunsNext : Obligations.FetchWordRunsNext := by
  intro s nbits w i h
  rw [withFetchWord_eq, step_of_commandWrite (queueCommand_host _ s)]
  exact commandWrite_of_ok (decode_of_decodeTableWord h) s

/-! ### The resets (70_reset R340, R341) -/

section
variable (s : State)

theorem readReg_hardwareReset (r : Reg) : readReg r (hardwareReset s) = 0 := by
  cases r
  case status => exact (show Status.zero.word = 0 by decide)
  case brCfg => exact (show HostRegs.zero.brCfg.word = 0 by decide)
  case brState => exact (show BitReader.zero.word = 0 by decide)
  case lzCfg => exact (show HostRegs.zero.lzCfg.word = 0 by decide)
  case hufCfg => exact (show HostRegs.zero.hufCfg.word = 0 by decide)
  case hufState => exact (show 0#14 ++ 0#10 ++ 0#6 ++ BitVec.ofBool false ++ BitVec.ofBool false = 0 by decide)
  case subState => exact (show subStateWord false = 0 by decide)
  all_goals rfl

theorem hardwareReset_mem_read (a : Nat) : (hardwareReset s).mem.read a = Config.unspecifiedMem s.epoch a := rfl

theorem hardwareReset_win_read (i : Nat) : (hardwareReset s).win.read i = Config.unspecifiedWin s.epoch i := rfl

theorem hardwareReset_nodeAt (i : Fin 1023) : (hardwareReset s).tree.nodeAt i = Node.unspecified s.epoch i :=
  Vector.getElem_ofFn i.isLt

theorem hardwareReset_sbox (i : Fin 256) : (hardwareReset s).sbox[i] = Config.unspecifiedSbox s.epoch i :=
  Vector.getElem_ofFn i.isLt

end

/-- Settles O11. -/
theorem hardwareResetAction : Obligations.HardwareResetAction := by
  intro s rest hhost
  let s' : State := { s with host := rest }
  refine ⟨hardwareReset s', step_of_cons hhost, fun r => ?_, hardwareReset_mem_read s', hardwareReset_win_read s',
    hardwareReset_nodeAt s', hardwareReset_sbox s', rfl, rfl, rfl, rfl⟩
  rw [portRead_index, readReg_hardwareReset]

/-- The state after reset is what a hardware reset numbered 0 leaves. -/
theorem reset_eq_hardwareReset : State.reset = hardwareReset { State.reset with epoch := 0 } := rfl

/-- Settles O10. -/
theorem resetState : Obligations.ResetState := by
  refine ⟨fun r => ?_, fun a => ?_, fun i => ?_, fun i => ?_, fun i => ?_, Nat.succ_pos _, Config.memTopAddress.isLt⟩
  · rw [portRead_index, reset_eq_hardwareReset, readReg_hardwareReset]
  · rw [reset_eq_hardwareReset, hardwareReset_mem_read]
  · rw [reset_eq_hardwareReset, hardwareReset_win_read]
  · rw [reset_eq_hardwareReset, hardwareReset_nodeAt]
  · rw [reset_eq_hardwareReset, hardwareReset_sbox]

end Sys2Proof.Machine

/-! ## The memory port -/

namespace Sys2Proof.Machine

/-! ### The host's accesses inside and outside MEM (20_memory R82)

A read or write of a byte inside MEM always completes; the port refuses any other. -/

section
variable {s : State} {a : Word}

theorem hostAct_writeMem_inside (h : a.toNat < s.memBytes) (b : Byte) :
    hostAct (.writeMem a b) s = .next { s with mem := s.mem.write a.toNat b } := if_pos h

theorem hostAct_readMem_inside (h : a.toNat < s.memBytes) :
    hostAct (.readMem a) s = .next { s with lastRead := some ((s.mem.read a.toNat).setWidth 32) } := if_pos h

theorem hostAct_writeMem_outside (h : s.memBytes ≤ a.toNat) (b : Byte) :
    hostAct (.writeMem a b) s = .refused (.hostAccessOutsideMem a) := if_neg h.not_gt

theorem hostAct_readMem_outside (h : s.memBytes ≤ a.toNat) :
    hostAct (.readMem a) s = .refused (.hostAccessOutsideMem a) := if_neg h.not_gt

end

/-- Settles O8: the step is the pending access, and the bytes around a written one are those of `Memory.write`. -/
theorem hostMemoryPort : Obligations.HostMemoryPort := by
  intro s a b rest
  let s' : State := { s with host := rest }
  refine ⟨fun hhost hin => ?write, fun hhost hin => ?read, fun hout => ⟨fun hhost => ?writeOut, fun hhost => ?readOut⟩⟩
  case write =>
    have hstep : step s = .next { s' with mem := s.mem.write a.toNat b } :=
      (step_of_cons hhost).trans (hostAct_writeMem_inside (s := s') hin b)
    exact ⟨_, hstep, rfl, s.mem.read_write_same a.toNat b, fun c hc => s.mem.read_write_other b hc⟩
  case read => exact (step_of_cons hhost).trans (hostAct_readMem_inside (s := s') hin)
  case writeOut => exact (step_of_cons hhost).trans (hostAct_writeMem_outside (s := s') hout b)
  case readOut => exact (step_of_cons hhost).trans (hostAct_readMem_outside (s := s') hout)

end Sys2Proof.Machine

/-! ## Command words (30_encoding R110 to R117) -/

namespace Sys2Proof.Machine

/-! ### The two fields of a word (30_encoding R110) -/

theorem opcodeField_append (opc : Byte) (arg : BitVec 24) : opcodeField (opc ++ arg) = opc := by
  refine BitVec.eq_of_getLsbD_eq fun i hi => ?_
  rw [opcodeField, BitVec.getLsbD_extractLsb', BitVec.getLsbD_append]
  simp [hi]

theorem argField_append (opc : Byte) (arg : BitVec 24) : argField (opc ++ arg) = arg := by
  refine BitVec.eq_of_getLsbD_eq fun i hi => ?_
  rw [argField, BitVec.getLsbD_extractLsb', BitVec.getLsbD_append]
  simp [hi]

theorem opcodeField_append_argField (w : Word) : opcodeField w ++ argField w = w := by
  refine BitVec.eq_of_getLsbD_eq fun i hi => ?_
  rw [BitVec.getLsbD_append, opcodeField, argField, BitVec.getLsbD_extractLsb', BitVec.getLsbD_extractLsb']
  by_cases h : i < 24
  · simp [h]
  · have hadd : 24 + (i - 24) = i := by omega
    have hlt : i - 24 < 8 := by omega
    simp [h, hadd, hlt]

theorem opcodeField_toNat (w : Word) : (opcodeField w).toNat = w.toNat / 2 ^ 24 := by
  have := w.isLt
  rw [opcodeField, BitVec.extractLsb'_toNat, Nat.shiftRight_eq_div_pow]
  omega

theorem argField_toNat (w : Word) : (argField w).toNat = w.toNat % 2 ^ 24 := by
  rw [argField, BitVec.extractLsb'_toNat, Nat.shiftRight_zero]

/-! ### The decoder, one equation per format (30_encoding R116) -/

section
variable {w : Word} {i : Instr}

/-- Format Z (30_encoding R111). -/
theorem decode_of_formatZ (h : formatZ (opcodeField w) = some i) :
    decode w = if argField w = 0 then .ok i else .error .illegalCommand := by
  simp only [decode, h]

/-- Format N (30_encoding R112): the argument is N itself, and N is from 1 to 32. -/
theorem decode_of_getbitsOpcode (h : opcodeField w = getbitsOpcode) :
    decode w = if 1 ≤ (argField w).toNat ∧ (argField w).toNat ≤ 32
      then .ok (.getbits (BitVec.ofNat 6 (argField w).toNat)) else .error .illegalCommand := by
  have hz : formatZ getbitsOpcode = none := rfl
  have hzero : (argField w).extractLsb' 6 18 = 0 ↔ (argField w).toNat < 64 := by
    have := (argField w).isLt
    rw [BitVec.toNat_eq, BitVec.extractLsb'_toNat, Nat.shiftRight_eq_div_pow]
    simp only [BitVec.ofNat_eq_ofNat, BitVec.toNat_ofNat]
    omega
  have hn : (argField w).extractLsb' 0 6 = BitVec.ofNat 6 (argField w).toNat := rfl
  simp only [decode, h, hz, hzero, hn, Instr.legalCount, if_true, BitVec.toNat_ofNat, Bool.and_eq_true,
    decide_eq_true_eq]
  by_cases hlt : (argField w).toNat < 64
  · simp only [hlt, if_true, Nat.mod_eq_of_lt hlt]
  · rw [if_neg hlt, if_neg (by omega)]

/-- Format F (30_encoding R113): the argument is P itself. -/
theorem decode_of_cbcdecOpcode (h : opcodeField w = cbcdecOpcode) :
    decode w = if (argField w).toNat < 2
      then .ok (.cbcdec ((argField w).getLsbD 0)) else .error .illegalCommand := by
  have hz : formatZ cbcdecOpcode = none := rfl
  have hzero : (argField w).extractLsb' 1 23 = 0 ↔ (argField w).toNat < 2 := by
    have := (argField w).isLt
    rw [BitVec.toNat_eq, BitVec.extractLsb'_toNat, Nat.shiftRight_eq_div_pow]
    simp only [BitVec.ofNat_eq_ofNat, BitVec.toNat_ofNat]
    omega
  simp only [decode, h, hz, hzero, if_neg (show cbcdecOpcode ≠ getbitsOpcode by decide), if_true]

/-- An unassigned opcode (30_encoding R117). -/
theorem decode_of_unassigned (hz : formatZ (opcodeField w) = none) (hn : opcodeField w ≠ getbitsOpcode)
    (hf : opcodeField w ≠ cbcdecOpcode) :
    decode w = .error (if inCipherGroup (opcodeField w) then .unknownScheme else .illegalCommand) := by
  simp only [decode, hz, if_neg hn, if_neg hf]
  split <;> rfl

end

/-! ### Encoder and decoder are inverse to each other -/

/-- The table of format Z inverts the opcode column; its commands carry no operand (30_encoding R111, R115). -/
theorem formatZ_sound {opc : Byte} {i : Instr} (h : formatZ opc = some i) :
    i.opcode = opc ∧ i.argument = 0 ∧ i.wf = true := by
  unfold formatZ at h
  split at h <;> cases h <;> exact ⟨BitVec.eq_of_toNat_eq (Eq.symm ‹opc.toNat = _›), rfl, rfl⟩

/-- A command of format Z is in the table; the other two have a format of their own. -/
theorem formatZ_opcode (i : Instr) :
    (formatZ i.opcode = some i ∧ i.argument = 0) ∨ (∃ n, i = .getbits n) ∨ ∃ p, i = .cbcdec p := by
  cases i
  case getbits n => exact .inr (.inl ⟨n, rfl⟩)
  case cbcdec p => exact .inr (.inr ⟨p, rfl⟩)
  all_goals exact .inl ⟨rfl, rfl⟩

theorem argument_getbits_toNat (n : BitVec 6) : (Instr.getbits n).argument.toNat = n.toNat := by
  show (0#18 ++ n).toNat = n.toNat
  rw [BitVec.toNat_append, BitVec.toNat_ofNat, Nat.zero_mod, Nat.zero_shiftLeft, Nat.zero_or]

theorem argument_cbcdec_toNat (p : Bool) : (Instr.cbcdec p).argument.toNat = p.toNat := by cases p <;> rfl

theorem wf_getbits_iff (n : BitVec 6) : (Instr.getbits n).wf = true ↔ 1 ≤ n.toNat ∧ n.toNat ≤ 32 := by
  simp [Instr.wf, Instr.legalCount]

theorem encode_eq_iff (i : Instr) (w : Word) :
    encode i = w ↔ i.opcode = opcodeField w ∧ i.argument = argField w := by
  constructor
  · rintro rfl
    exact ⟨(opcodeField_append _ _).symm, (argField_append _ _).symm⟩
  · rintro ⟨hopc, harg⟩
    rw [encode, hopc, harg, opcodeField_append_argField]

theorem decode_encode {i : Instr} (h : i.wf = true) : decode (encode i) = .ok i := by
  have hopc : opcodeField (encode i) = i.opcode := opcodeField_append _ _
  have harg : argField (encode i) = i.argument := argField_append _ _
  rcases formatZ_opcode i with ⟨hz, hzero⟩ | ⟨n, rfl⟩ | ⟨p, rfl⟩
  · rw [decode_of_formatZ (hopc.symm ▸ hz), harg, if_pos hzero]
  · rw [decode_of_getbitsOpcode hopc, harg, argument_getbits_toNat, if_pos ((wf_getbits_iff n).1 h),
      BitVec.ofNat_toNat, BitVec.setWidth_eq]
  · rw [decode_of_cbcdecOpcode hopc, harg, argument_cbcdec_toNat, if_pos p.toNat_lt]
    cases p <;> rfl

/-- Every word either is the word of a well-formed command or raises. -/
theorem encode_of_decode {w : Word} {i : Instr} (h : decode w = .ok i) : i.wf = true ∧ encode i = w := by
  rw [encode_eq_iff]
  cases hz : formatZ (opcodeField w) with
  | some j =>
    rw [decode_of_formatZ hz] at h
    split at h <;> cases h
    obtain ⟨hopc, harg, hwf⟩ := formatZ_sound hz
    exact ⟨hwf, hopc, harg.trans (Eq.symm ‹_›)⟩
  | none =>
    by_cases hn : opcodeField w = getbitsOpcode
    · rw [decode_of_getbitsOpcode hn] at h
      split at h <;> cases h
      rename_i hlegal
      have hmod : (BitVec.ofNat 6 (argField w).toNat).toNat = (argField w).toNat := by
        rw [BitVec.toNat_ofNat]; omega
      refine ⟨(wf_getbits_iff _).2 (hmod.symm ▸ hlegal), hn.symm, BitVec.eq_of_toNat_eq ?_⟩
      rw [argument_getbits_toNat, hmod]
    · by_cases hf : opcodeField w = cbcdecOpcode
      · rw [decode_of_cbcdecOpcode hf] at h
        split at h <;> cases h
        rename_i hlt
        refine ⟨rfl, hf.symm, BitVec.eq_of_toNat_eq ?_⟩
        rw [argument_cbcdec_toNat, ← BitVec.testBit_toNat]
        interval_cases (argField w).toNat <;> rfl
      · rw [decode_of_unassigned hz hn hf] at h
        cases h

theorem decode_eq_ok_iff {w : Word} {i : Instr} : decode w = .ok i ↔ i.wf = true ∧ encode i = w :=
  ⟨encode_of_decode, fun ⟨hwf, hw⟩ => hw ▸ decode_encode hwf⟩

/-- Settles O1. -/
theorem decodeOfEncode : Obligations.DecodeOfEncode := fun _ => decode_encode

/-- Settles O2. -/
theorem encodeOfDecode : Obligations.EncodeOfDecode := fun _ _ => encode_of_decode

/-- Settles O4: each sample is the word of its command. -/
theorem sampleWordsDecode : Obligations.SampleWordsDecode :=
  ⟨decode_encode (i := .nop) rfl, decode_encode (i := .sreset) rfl, decode_encode (i := .brinit) rfl,
    decode_encode (i := .getbits 32) rfl, decode_encode (i := .getbit) rfl, decode_encode (i := .lzdec) rfl,
    decode_encode (i := .hufcanon) rfl, decode_encode (i := .xorprng) rfl, decode_encode (i := .substore) rfl,
    decode_encode (i := .cbcdec false) rfl, decode_encode (i := .cbcdec true) rfl⟩

/-! ### Words that are refused (30_encoding R117) -/

/-- The opcodes of the format Z commands, as 30_encoding R115 lists them. -/
theorem formatZ_eq_none_iff (opc : Byte) :
    formatZ opc = none ↔ opc.toNat ∉ [0x00, 0x01, 0x02, 0x10, 0x12, 0x20, 0x28, 0x29, 0x2A, 0x30, 0x31, 0x34, 0x35,
      0x36, 0x37, 0x38, 0x39] := by
  unfold formatZ
  split <;> simp_all

/-- A word with an opcode in none of the rows of 30_encoding R115. -/
theorem decode_of_opcode_notMem {w : Word}
    (h : w.toNat / 2 ^ 24 ∉ [0x00, 0x01, 0x02, 0x10, 0x11, 0x12, 0x20, 0x28, 0x29, 0x2A, 0x30, 0x31, 0x34, 0x35,
      0x36, 0x37, 0x38, 0x39, 0x3C]) :
    decode w = .error (if 0x30 ≤ w.toNat / 2 ^ 24 ∧ w.toNat / 2 ^ 24 ≤ 0x3F
      then .unknownScheme else .illegalCommand) := by
  simp only [← opcodeField_toNat, List.mem_cons, List.not_mem_nil, or_false, not_or] at h ⊢
  have hz : formatZ (opcodeField w) = none := by
    rw [formatZ_eq_none_iff]
    simp only [List.mem_cons, List.not_mem_nil, or_false]
    omega
  have hn : opcodeField w ≠ getbitsOpcode := fun e => absurd (congrArg BitVec.toNat e) (by simp [getbitsOpcode, h])
  have hf : opcodeField w ≠ cbcdecOpcode := fun e => absurd (congrArg BitVec.toNat e) (by simp [cbcdecOpcode, h])
  rw [decode_of_unassigned hz hn hf]
  simp [inCipherGroup]

/-- A word that is no command, written without an error pending, is refused with itself as ERRINFO. -/
theorem commandWrite_refuses {w : Word} {e : DecodeError} (h : decode w = .error e) {s : State}
    (hs : s.status.err = false) : commandWrite w s = .next (s.refused (errorOfDecode e) w.toNat) := by
  rw [commandWrite_of_error h, rejectWord_of_accepted e w hs]

/-- Settles O3. -/
theorem reservedEncodings : Obligations.ReservedEncodings := by
  intro w opc arg
  refine ⟨fun h => ?cipher, fun h => ?unassigned, fun h harg => ?zeroField, fun h harg => ?illegalN,
    fun h harg => ?illegalP, ?nop, fun s hs => ?refused⟩
  case cipher =>
    simp only [List.mem_cons, List.not_mem_nil, or_false] at h
    rw [decode_of_opcode_notMem (by simp only [List.mem_cons, List.not_mem_nil, or_false]; omega), if_pos (by omega)]
  case unassigned =>
    rw [decode_of_opcode_notMem (by simp only [List.mem_cons, List.not_mem_nil, or_false]; omega), if_neg (by omega)]
  case zeroField =>
    rw [show opc = _ from (opcodeField_toNat w).symm] at h
    have harg' : argField w ≠ 0 := fun h0 => harg (by rw [show arg = _ from (argField_toNat w).symm, h0]; rfl)
    cases hz : formatZ (opcodeField w) with
    | none => exact absurd h ((formatZ_eq_none_iff _).1 hz)
    | some i => rw [decode_of_formatZ hz, if_neg harg']
  case illegalN =>
    have hopc : opcodeField w = getbitsOpcode := BitVec.eq_of_toNat_eq ((opcodeField_toNat w).trans h)
    rw [decode_of_getbitsOpcode hopc, argField_toNat, if_neg (by omega)]
  case illegalP =>
    have hopc : opcodeField w = cbcdecOpcode := BitVec.eq_of_toNat_eq ((opcodeField_toNat w).trans h)
    rw [decode_of_cbcdecOpcode hopc, argField_toNat, if_neg (by omega)]
  case nop =>
    have hnop : encode .nop = 0 := rfl
    rw [decode_eq_ok_iff, hnop]
    exact ⟨fun h => h.2.symm, fun h => ⟨rfl, h.symm⟩⟩
  case refused => exact ⟨fun h => commandWrite_refuses h hs, fun h => commandWrite_refuses h hs⟩

end Sys2Proof.Machine

/-! ## The bits of a reader (30_encoding R119; 40_bitreader R143 to R145) -/

namespace Sys2Proof.Machine

/-! ### Fields as lists of bits -/

theorem joinChunk_lt {order : BitOrder} {a b va vb : Nat} (ha : va < 2 ^ a) (hb : vb < 2 ^ b) :
    joinChunk order va a vb b < 2 ^ (a + b) := by
  have hshift {v c d : Nat} (hv : v < 2 ^ c) : v <<< d < 2 ^ (c + d) := by
    rw [Nat.shiftLeft_eq, pow_add]
    exact Nat.mul_lt_mul_of_pos_right hv (Nat.two_pow_pos d)
  cases order with
  | msbFirst => exact Nat.or_lt_two_pow (hshift ha) (hb.trans_le (Nat.pow_le_pow_right (by decide) (by omega)))
  | lsbFirst =>
    exact Nat.or_lt_two_pow (ha.trans_le (Nat.pow_le_pow_right (by decide) (by omega))) (Nat.add_comm a b ▸ hshift hb)

theorem shiftRight_shiftLeft_or_mod (v a : Nat) : (v >>> a) <<< a ||| v % 2 ^ a = v := by
  rw [← Nat.shiftLeft_add_eq_or_of_lt (Nat.mod_lt _ (Nat.two_pow_pos a)), Nat.shiftRight_eq_div_pow, Nat.shiftLeft_eq,
    Nat.div_add_mod']

theorem fieldBits_zero (order : BitOrder) (v : Nat) : fieldBits order 0 v = [] := by cases order <;> rfl

/-- Joining two fields puts their bits one behind the other (40_bitreader R145, R151). -/
theorem fieldBits_joinChunk {order : BitOrder} {a b va vb : Nat} (ha : va < 2 ^ a) (hb : vb < 2 ^ b) :
    fieldBits order (a + b) (joinChunk order va a vb b) = fieldBits order a va ++ fieldBits order b vb := by
  refine List.ext_getElem (by simp [length_fieldBits]) fun i hi _ => ?_
  rw [length_fieldBits] at hi
  rw [List.getElem_append]
  simp only [length_fieldBits]
  cases order with
  | msbFirst =>
    simp only [fieldBits, joinChunk, List.getElem_map, List.getElem_range, Nat.testBit_or, Nat.testBit_shiftLeft]
    split
    · rw [Nat.testBit_lt_two_pow (hb.trans_le (Nat.pow_le_pow_right (by decide) (show b ≤ a + b - 1 - i by omega))),
        show a + b - 1 - i - b = a - 1 - i by omega]
      simp only [ge_iff_le, show b ≤ a + b - 1 - i by omega, decide_true, Bool.true_and, Bool.or_false]
    · rw [show a + b - 1 - i = b - 1 - (i - a) by omega]
      simp only [ge_iff_le, show ¬b ≤ b - 1 - (i - a) by omega, decide_false, Bool.false_and, Bool.false_or]
  | lsbFirst =>
    simp only [fieldBits, joinChunk, List.getElem_map, List.getElem_range, Nat.testBit_or, Nat.testBit_shiftLeft]
    split
    · simp only [ge_iff_le, show ¬a ≤ i by omega, decide_false, Bool.false_and, Bool.or_false]
    · rw [Nat.testBit_lt_two_pow (ha.trans_le (Nat.pow_le_pow_right (by decide) (show a ≤ i by omega)))]
      simp only [ge_iff_le, show a ≤ i by omega, decide_true, Bool.true_and, Bool.false_or]

/-- A field is determined by its bits. -/
theorem fieldBits_injective {order : BitOrder} {w u v : Nat} (hu : u < 2 ^ w) (hv : v < 2 ^ w)
    (h : fieldBits order w u = fieldBits order w v) : u = v := by
  refine Nat.eq_of_testBit_eq fun i => ?_
  by_cases hi : i < w
  · cases order with
    | msbFirst =>
      have hbit := List.map_inj_left.1 h (w - 1 - i) (List.mem_range.2 (by omega))
      rwa [show w - 1 - (w - 1 - i) = i by omega] at hbit
    | lsbFirst => exact List.map_inj_left.1 h i (List.mem_range.2 hi)
  · have hle : 2 ^ w ≤ 2 ^ i := Nat.pow_le_pow_right (by decide) (by omega)
    rw [Nat.testBit_lt_two_pow (hu.trans_le hle), Nat.testBit_lt_two_pow (hv.trans_le hle)]

/-! ### The sequence of a reader -/

/-- The bits of `n` units from address `a` on. -/
def BitReader.unitBits (r : BitReader) (m : Memory) (a n : Nat) : List Bool :=
  (List.range n).flatMap fun j => fieldBits r.order (8 * r.refill.bytes) (r.unitAt m (a + r.refill.bytes * j))

theorem BitReader.bits_eq (r : BitReader) (m : Memory) :
    r.bits m = fieldBits r.order r.cnt.toNat r.acc.toNat ++ r.unitBits m r.pos.toNat r.unitsLeft := rfl

theorem BitReader.unitBits_succ (r : BitReader) (m : Memory) (a n : Nat) :
    r.unitBits m a (n + 1) =
      fieldBits r.order (8 * r.refill.bytes) (r.unitAt m a) ++ r.unitBits m (a + r.refill.bytes) n := by
  unfold BitReader.unitBits
  rw [List.range_succ_eq_map, List.flatMap_cons, List.flatMap_map]
  simp only [Nat.mul_zero, Nat.add_zero, Nat.mul_succ, Nat.add_assoc, Nat.add_comm r.refill.bytes]

theorem Memory.readLE_congr {m m' : Memory} {n a : Nat} (h : ∀ c, a ≤ c → c < a + n → m'.read c = m.read c) :
    m'.readLE a n = m.readLE a n := by
  induction n generalizing a with
  | zero => rfl
  | succ n ih =>
    rw [Memory.readLE, Memory.readLE, h a (by omega) (by omega), ih fun c h1 h2 => h c (by omega) (by omega)]

theorem Memory.readBE_congr {m m' : Memory} {n a : Nat} (h : ∀ c, a ≤ c → c < a + n → m'.read c = m.read c) :
    m'.readBE a n = m.readBE a n := by
  induction n generalizing a with
  | zero => rfl
  | succ n ih =>
    rw [Memory.readBE, Memory.readBE, h a (by omega) (by omega), ih fun c h1 h2 => h c (by omega) (by omega)]

theorem BitReader.unitBits_congr {r : BitReader} {m m' : Memory} {a n : Nat}
    (h : ∀ c, a ≤ c → c < a + r.refill.bytes * n → m'.read c = m.read c) :
    r.unitBits m' a n = r.unitBits m a n := by
  induction n generalizing a with
  | zero => rfl
  | succ n ih =>
    rw [Nat.mul_succ] at h
    have hunit : r.unitAt m' a = r.unitAt m a := by
      unfold BitReader.unitAt
      rw [Memory.readBE_congr fun c h1 h2 => h c h1 (by omega), Memory.readLE_congr fun c h1 h2 => h c h1 (by omega)]
    rw [BitReader.unitBits_succ, BitReader.unitBits_succ, hunit, ih fun c h1 h2 => h c (by omega) (by omega)]

theorem BitReader.bytes_unitsLeft_le (r : BitReader) :
    r.refill.bytes * r.unitsLeft ≤ r.endAddr.toNat - r.pos.toNat := Nat.mul_div_le _ _

/-- The bits depend on the bytes from BR_POS to BR_END alone. -/
theorem BitReader.bits_congr {r : BitReader} {m m' : Memory}
    (h : ∀ a, r.pos.toNat ≤ a → a < r.endAddr.toNat → m'.read a = m.read a) : r.bits m' = r.bits m := by
  have := r.bytes_unitsLeft_le
  rw [BitReader.bits_eq, BitReader.bits_eq, BitReader.unitBits_congr fun c h1 h2 => h c h1 (by omega)]

theorem BitReader.length_bits (r : BitReader) (m : Memory) :
    (r.bits m).length = r.cnt.toNat + 8 * r.refill.bytes * r.unitsLeft := by
  simp [BitReader.bits_eq, BitReader.unitBits, length_fieldBits, List.length_flatMap, Nat.mul_comm]

theorem BitReader.length_bits_le (r : BitReader) (m : Memory) : (r.bits m).length ≤ r.bitsLeft := by
  have := r.bytes_unitsLeft_le
  rw [BitReader.length_bits, BitReader.bitsLeft, Nat.mul_assoc]
  omega

/-! ### Reading a field takes its bits off the sequence -/

/-- A later reader of the same source: sound, and not behind. -/
structure BitReader.Later (r q : BitReader) : Prop where
  source : r.sameSource q
  sound : q.sound
  pos_le : r.pos.toNat ≤ q.pos.toNat

theorem BitReader.Later.refl {r : BitReader} (h : r.sound) : r.Later r := ⟨r.sameSource_refl, h, Nat.le_refl _⟩

theorem BitReader.Later.trans {r q p : BitReader} (h : r.Later q) (h' : q.Later p) : r.Later p :=
  ⟨BitReader.sameSource_trans h.source h'.source, h'.sound, h.pos_le.trans h'.pos_le⟩

theorem BitReader.Later.order_eq {r q : BitReader} (h : r.Later q) : q.order = r.order := by
  obtain ⟨-, horder, -⟩ := h.source
  exact horder.symm

theorem BitReader.Later.endAddr_eq {r q : BitReader} (h : r.Later q) : q.endAddr = r.endAddr := by
  obtain ⟨-, -, -, -, hend⟩ := h.source
  exact hend.symm

section
variable {m : Memory} {r q : BitReader}

/-- A refill loads the next unit without moving a bit of the sequence, and leaves something to take. -/
theorem BitReader.ensure_of_bits (hr : r.sound) (h : r.bits m ≠ []) :
    ∃ q, r.ensure m = .ok () q ∧ r.Later q ∧ q.bits m = r.bits m ∧ 0 < q.cnt.toNat := by
  unfold BitReader.ensure
  by_cases hcnt : r.cnt = 0
  · rw [if_pos hcnt]
    have hbits : r.bits m = r.unitBits m r.pos.toNat r.unitsLeft := by
      rw [BitReader.bits_eq, hcnt]
      exact congrArg (· ++ _) (fieldBits_zero _ _)
    have hbytes := r.refill.bytes_pos
    have hbytes_le := r.refill.bytes_le
    have hend := r.endAddr.isLt
    rcases r.refillUnit_cases m with ⟨hlt, -⟩ | ⟨hle, he⟩
    · have hnone : r.unitsLeft = 0 := Nat.div_eq_of_lt (by omega)
      exact absurd (by rw [hbits, hnone]; rfl) h
    · have hpos : (BitVec.ofNat 32 (r.pos.toNat + r.refill.bytes)).toNat = r.pos.toNat + r.refill.bytes := by
        rw [BitVec.toNat_ofNat]; omega
      have hcount : (BitVec.ofNat 6 (8 * r.refill.bytes)).toNat = 8 * r.refill.bytes := by
        rw [BitVec.toNat_ofNat]; omega
      have hunit : r.unitAt m r.pos.toNat < 2 ^ (8 * r.refill.bytes) := r.unitAt_lt m _
      have hacc : (BitVec.ofNat 32 (r.unitAt m r.pos.toNat)).toNat = r.unitAt m r.pos.toNat :=
        Nat.mod_eq_of_lt (hunit.trans_le (Nat.pow_le_pow_right (by decide) (by omega)))
      have hleft : r.unitsLeft = (r.endAddr.toNat - (r.pos.toNat + r.refill.bytes)) / r.refill.bytes + 1 := by
        rw [BitReader.unitsLeft, ← Nat.sub_sub, ← Nat.div_eq_sub_div hbytes (by omega)]
      refine ⟨_, he, ⟨⟨rfl, rfl, rfl, rfl, rfl⟩, ⟨?_, hcount.le, ?_⟩, ?_⟩, ?_, ?_⟩
      · exact hpos.trans_le hle
      · simp only [hacc, hcount, hunit]
      · show _ ≤ (BitVec.ofNat 32 (r.pos.toNat + r.refill.bytes)).toNat
        omega
      · rw [hbits, hleft, BitReader.unitBits_succ, BitReader.bits_eq]
        simp only [hpos, hcount, hacc, BitReader.unitsLeft]
        rfl
      · exact hcount.symm ▸ (by omega)
  · rw [if_neg hcnt]
    exact ⟨r, rfl, .refl hr, rfl, Nat.pos_of_ne_zero fun h0 => hcnt (BitVec.eq_of_toNat_eq h0)⟩

/-- The bits taken and the bits left, joined again, are the accumulator. -/
theorem BitReader.joinChunk_take {k : Nat} (hr : r.sound) (hk : k ≤ r.cnt.toNat) :
    joinChunk r.order (r.take k).1 k (r.take k).2.acc.toNat (r.cnt.toNat - k) = r.acc.toNat := by
  obtain ⟨-, -, hacc⟩ := hr
  have hlt := r.acc.isLt
  have hhigh : r.acc.toNat >>> (r.cnt.toNat - k) < 2 ^ k := by
    rw [Nat.shiftRight_eq_div_pow, Nat.div_lt_iff_lt_mul (Nat.two_pow_pos _), ← pow_add]
    rwa [Nat.add_sub_cancel' hk]
  unfold BitReader.take
  cases r.order with
  | msbFirst =>
    have hmod : r.acc.toNat % 2 ^ (r.cnt.toNat - k) < 2 ^ 32 := (Nat.mod_le _ _).trans_lt hlt
    simp only [joinChunk, BitVec.toNat_ofNat, Nat.mod_eq_of_lt hmod, Nat.mod_eq_of_lt hhigh]
    exact shiftRight_shiftLeft_or_mod _ _
  | lsbFirst =>
    have hshift : r.acc.toNat >>> k < 2 ^ 32 := (Nat.shiftRight_le _ _).trans_lt hlt
    simp only [joinChunk, BitVec.toNat_ofNat, Nat.mod_eq_of_lt hshift]
    rw [Nat.or_comm]
    exact shiftRight_shiftLeft_or_mod _ _

/-- Taking bits takes them off the sequence (40_bitreader R144). -/
theorem BitReader.take_bits {k : Nat} (hr : r.sound) (hk : k ≤ r.cnt.toNat) :
    r.Later (r.take k).2 ∧ r.bits m = fieldBits r.order k (r.take k).1 ++ (r.take k).2.bits m := by
  have hsound := BitReader.sound_take hk hr
  have hjoin := BitReader.joinChunk_take hr hk
  have hlt := r.take_lt k
  obtain ⟨acc, hq⟩ := r.take_reader k
  generalize r.take k = t at hsound hjoin hlt hq ⊢
  obtain ⟨v, q⟩ := t
  obtain rfl : q = _ := hq
  have hcnt : (BitVec.ofNat 6 (r.cnt.toNat - k)).toNat = r.cnt.toNat - k := by
    have := r.cnt.isLt
    rw [BitVec.toNat_ofNat]; omega
  refine ⟨⟨⟨rfl, rfl, rfl, rfl, rfl⟩, hsound, Nat.le_refl _⟩, ?_⟩
  have hfields : fieldBits r.order r.cnt.toNat r.acc.toNat
      = fieldBits r.order k v ++ fieldBits r.order (r.cnt.toNat - k) acc.toNat := by
    have hacc : acc.toNat < 2 ^ (r.cnt.toNat - k) := hcnt ▸ hsound.2.2
    rw [← fieldBits_joinChunk hlt hacc, Nat.add_sub_cancel' hk, hjoin]
  rw [BitReader.bits_eq, hfields, List.append_assoc, BitReader.bits_eq]
  simp only [hcnt]
  rfl

/-- The loop of GetBits, `got` bits into the field with value `result`: with enough bits left it completes the field
with the next ones. -/
theorem BitReader.getBitsLoop_of_bits {n fuel got result : Nat} (hr : r.sound) (hgot : got ≤ n)
    (hfuel : n ≤ got + fuel) (hresult : result < 2 ^ got) (hlen : n - got ≤ (r.bits m).length) :
    ∃ v q, r.getBitsLoop m n fuel got result = .ok v q ∧ r.Later q ∧ v < 2 ^ n
      ∧ fieldBits r.order got result ++ r.bits m = fieldBits r.order n v ++ q.bits m := by
  induction fuel generalizing got result r with
  | zero =>
    obtain rfl : got = n := by omega
    exact ⟨result, r, rfl, .refl hr, hresult, rfl⟩
  | succ fuel ih =>
    unfold BitReader.getBitsLoop
    split
    · obtain rfl : got = n := by omega
      exact ⟨result, r, rfl, .refl hr, hresult, rfl⟩
    · have hne : r.bits m ≠ [] := fun h0 => by rw [h0, List.length_nil] at hlen; omega
      obtain ⟨q, hq, hlater, hbits, hcnt⟩ := BitReader.ensure_of_bits hr hne
      rw [hq]
      simp only [Res.bind_of_ok]
      have hk : min (n - got) q.cnt.toNat ≤ q.cnt.toNat := Nat.min_le_right _ _
      have hk0 : 0 < min (n - got) q.cnt.toNat := by omega
      have hkn : got + min (n - got) q.cnt.toNat ≤ n := by omega
      generalize min (n - got) q.cnt.toNat = k at hk hk0 hkn ⊢
      obtain ⟨htake, htaken⟩ := BitReader.take_bits (m := m) hlater.sound hk
      have hlen' := congrArg List.length htaken
      rw [hbits, List.length_append, length_fieldBits] at hlen'
      obtain ⟨v, p, hv, hp, hlt, hfield⟩ := ih htake.sound hkn (by omega)
        (joinChunk_lt (order := q.order) hresult (q.take_lt k)) (by omega)
      refine ⟨v, p, hv, (hlater.trans htake).trans hp, hlt, ?_⟩
      rw [htake.order_eq, hlater.order_eq, fieldBits_joinChunk hresult (q.take_lt k), List.append_assoc] at hfield
      rw [← hfield, ← hbits, htaken, hlater.order_eq]

/-- GetBits on a sequence that begins with a field of `n` bits reads that field and leaves the rest (40_bitreader
R145, R148). -/
theorem BitReader.getBits_of_bits {n v : Nat} {rest : List Bool} (hr : r.sound) (hv : v < 2 ^ n)
    (h : r.bits m = fieldBits r.order n v ++ rest) :
    ∃ q, r.getBits m n = .ok v q ∧ r.Later q ∧ q.bits m = rest := by
  have hlen : n - 0 ≤ (r.bits m).length := by rw [h, List.length_append, length_fieldBits]; omega
  obtain ⟨u, q, hu, hlater, hlt, hfield⟩ :=
    BitReader.getBitsLoop_of_bits (n := n) (fuel := n) hr (Nat.zero_le n) (by omega) (Nat.one_pos) hlen
  have hsplit : fieldBits r.order n u ++ q.bits m = fieldBits r.order n v ++ rest := by
    rw [← hfield, ← h, fieldBits_zero, List.nil_append]
  obtain ⟨hfields, hrest⟩ := List.append_inj hsplit (by rw [length_fieldBits, length_fieldBits])
  obtain rfl := fieldBits_injective hlt hv hfields
  exact ⟨q, hu, hlater, hrest⟩

end

/-- The same on the state: only the bit reader changes. -/
theorem getBits_of_stream {s : State} {n v : Nat} {rest : List Bool} (hs : s.br.sound) (hv : v < 2 ^ n)
    (h : s.stream = fieldBits s.br.order n v ++ rest) :
    ∃ q, getBits n s = .ok v { s with br := q } ∧ s.br.Later q
      ∧ ({ s with br := q } : State).stream = rest := by
  obtain ⟨q, hq, hlater, hrest⟩ := BitReader.getBits_of_bits hs hv h
  exact ⟨q, by rw [getBits, hq]; rfl, hlater, hrest⟩

end Sys2Proof.Machine

/-! ## LZDEC in shared mode produces what its tokens stand for (41_lz R163 to R172) -/

namespace Sys2Proof.Machine

/-! ### What tokens expand to (41_lz R170, R172) -/

/-- The byte `back` positions behind the end of the output, the fill byte before its beginning. -/
def earlierByte (fill : Byte) (out : List Byte) (back : Nat) : Byte :=
  if back ≤ out.length then out.getD (out.length - back) 0 else fill

/-- How many positions a copy with offset `off` goes back in a window of `w` positions (41_lz R172). -/
def stepsBack (w off : Nat) : Nat := if off % w = 0 then w else off % w

theorem copiedByte_eq (w : Nat) (fill : Byte) (off : Nat) (out : List Byte) :
    copiedByte w fill off out = earlierByte fill out (stepsBack w off) := rfl

theorem stepsBack_pos {w : Nat} (hw : 0 < w) (off : Nat) : 1 ≤ stepsBack w off := by
  unfold stepsBack; split <;> omega

theorem stepsBack_le {w : Nat} (hw : 0 < w) (off : Nat) : stepsBack w off ≤ w := by
  have := Nat.mod_lt off hw
  unfold stepsBack; split <;> omega

theorem earlierByte_append_one (fill : Byte) (out : List Byte) (b : Byte) : earlierByte fill (out ++ [b]) 1 = b := by
  simp [earlierByte]

theorem earlierByte_append_succ (fill : Byte) (out : List Byte) (b : Byte) {k : Nat} (hk : 1 ≤ k) :
    earlierByte fill (out ++ [b]) (k + 1) = earlierByte fill out k := by
  simp only [earlierByte, List.length_append, List.length_singleton, Nat.add_le_add_iff_right, Nat.add_sub_add_right]
  split
  · rw [List.getD_append _ _ _ _ (by omega)]
  · rfl

theorem expandCopy_prefix (w : Nat) (fill : Byte) (off n : Nat) (out : List Byte) :
    out <+: expandCopy w fill off n out := by
  induction n generalizing out with
  | zero => exact List.prefix_rfl
  | succ n ih => exact (List.prefix_append out _).trans (ih _)

theorem expandToken_prefix (regs : HostRegs) (out : List Byte) (tok : LzToken) : out <+: expandToken regs out tok := by
  cases tok with
  | literal b => exact List.prefix_append _ _
  | copy off len => exact expandCopy_prefix _ _ _ _ _

theorem length_le_expandTokens (regs : HostRegs) (toks : List LzToken) (out : List Byte) :
    out.length ≤ (toks.foldl (expandToken regs) out).length := by
  induction toks generalizing out with
  | nil => exact Nat.le_refl _
  | cons tok toks ih => exact (expandToken_prefix regs out tok).length_le.trans (ih _)

/-- A token takes at least its control bit. -/
theorem LzToken.length_le_bits (order : BitOrder) (c : LzCfg) (toks : List LzToken) :
    toks.length ≤ (toks.flatMap (LzToken.bits order c)).length := by
  induction toks with
  | nil => exact Nat.le_refl _
  | cons tok toks ih =>
    have hpos : 1 ≤ (tok.bits order c).length := by cases tok <;> exact Nat.succ_pos _
    rw [List.length_cons, List.flatMap_cons, List.length_append]
    omega

/-! ### Positions of the window (41_lz R165, R170) -/

theorem LzCfg.windowSize_pos (c : LzCfg) : 0 < c.windowSize := Nat.two_pow_pos _

/-- Where a copy reads, counted back from the cursor. -/
theorem copyIndex_eq (t : State) (off : Nat) :
    t.copyIndex off = (t.lzWPos.toNat + t.regs.lzCfg.windowSize - stepsBack t.regs.lzCfg.windowSize off)
      % t.regs.lzCfg.windowSize := by
  have hw := t.regs.lzCfg.windowSize_pos
  unfold State.copyIndex
  generalize t.regs.lzCfg.windowSize = w at hw ⊢
  generalize t.lzWPos.toNat = p
  have hback := stepsBack_le hw off
  have hoff := Nat.div_add_mod off w
  obtain ⟨z, hz⟩ : ∃ z : Int, (p : Int) - off = ((p + w - stepsBack w off : Nat) : Int) + w * z := by
    rw [Nat.cast_sub (by omega), Nat.cast_add]
    unfold stepsBack
    split
    · refine ⟨-(off / w : Nat), ?_⟩
      rw [mul_neg, ← Nat.cast_mul]
      omega
    · refine ⟨-(off / w : Nat) - 1, ?_⟩
      rw [mul_sub, mul_neg, ← Nat.cast_mul]
      omega
  rw [hz, Int.add_mul_emod_self_left, ← Int.natCast_mod, Int.toNat_natCast]

/-- Moving the cursor forward by one moves every position one further back. -/
theorem back_of_next {p w back : Nat} (hp : p < w) (h1 : 1 ≤ back) (hle : back ≤ w) :
    ((p + 1) % w + w - back) % w = (p + w - (back - 1)) % w := by
  rcases Nat.lt_or_ge (p + 1) w with h | h
  · rw [Nat.mod_eq_of_lt h]
    congr 1
    omega
  · obtain rfl : w = p + 1 := by omega
    rw [Nat.mod_self, show p + (p + 1) - (back - 1) = 0 + (p + 1) - back + (p + 1) by omega, Nat.add_mod_right]

/-- Only a whole turn, or none, leads back to the cursor. -/
theorem back_ne_cursor {p w k : Nat} (hp : p < w) (h1 : 1 ≤ k) (hlt : k < w) : (p + w - k) % w ≠ p := by
  rcases Nat.lt_or_ge p k with h | h
  · rw [Nat.mod_eq_of_lt (by omega)]
    omega
  · rw [show p + w - k = p - k + w by omega, Nat.add_mod_right, Nat.mod_eq_of_lt (by omega)]
    omega

/-! ### The decoder after some output -/

/-- `t` is reached by LZDEC from `s` with the output `out`: the output is in MEM and counted, the window shows it
backwards from the cursor, and the reader has moved on in its source. -/
structure LzAt (s : State) (out : List Byte) (t : State) : Prop where
  status : t.status = s.status
  regs : t.regs = s.regs
  reader : s.br.Later t.br
  wrote : s.wrote t out
  outLen : t.outLen.toNat = out.length
  fits : out.length ≤ s.regs.outCap.toNat
  cursor : t.lzWPos.toNat < s.regs.lzCfg.windowSize
  window : ∀ back, 1 ≤ back → back ≤ s.regs.lzCfg.windowSize →
    t.win.read ((t.lzWPos.toNat + s.regs.lzCfg.windowSize - back) % s.regs.lzCfg.windowSize)
      = earlierByte s.regs.lzFill out back

theorem State.lzReady.valid {s : State} (hs : s.lzReady) : s.br.valid = true := by
  obtain ⟨-, hvalid, -⟩ := hs
  exact hvalid

section
variable {s t : State} {out : List Byte}

/-- The initialisation leaves LZDEC with no output (41_lz R164). -/
theorem LzAt.init (hs : s.lzReady) (hr : s.br.sound) : LzAt s [] (lzInit s) where
  status := rfl
  regs := rfl
  reader := .refl hr
  wrote := ⟨nofun, fun _ _ => rfl⟩
  outLen := rfl
  fits := Nat.zero_le _
  cursor := by
    obtain ⟨-, -, -, -, -, hpos, -⟩ := hs
    exact hpos
  window back h1 _ := by
    have hlt := Nat.mod_lt ((lzInit s).lzWPos.toNat + s.regs.lzCfg.windowSize - back) s.regs.lzCfg.windowSize_pos
    rw [lzInit_win, Window.read_fill, if_pos hlt]
    exact (if_neg (by simp only [List.length_nil]; omega)).symm

theorem LzAt.hasRoom_iff (h : LzAt s out t) : t.hasRoom = true ↔ out.length < s.regs.outCap.toNat := by
  rw [State.hasRoom, h.outLen, h.regs, decide_eq_true_eq]

theorem LzAt.outputAddress_eq (h : LzAt s out t) : t.outputAddress = s.regs.outAddr.toNat + out.length := by
  rw [State.outputAddress, h.outLen, h.regs]

/-- Emitting adds a byte to the output and leaves the bits to be read, for output and source are apart (41_lz R163,
R165). -/
theorem LzAt.emit (hs : s.lzReady) (h : LzAt s out t) (hroom : out.length < s.regs.outCap.toNat) (b : Byte) :
    LzAt s (out ++ [b]) (emit b t) ∧ (emit b t).stream = t.stream := by
  obtain ⟨-, -, ⟨-, hwlog⟩, -, -, -, -, hapart⟩ := hs
  obtain ⟨hin, hout⟩ := h.wrote
  have haddr := h.outputAddress_eq
  have hsize : s.regs.lzCfg.windowSize ≤ 2 ^ 16 := Nat.pow_le_pow_right (by decide) hwlog
  have hnext : (Machine.emit b t).lzWPos.toNat = (t.lzWPos.toNat + 1) % s.regs.lzCfg.windowSize := by
    have := Nat.mod_lt (t.lzWPos.toNat + 1) s.regs.lzCfg.windowSize_pos
    rw [emit_lzWPos, h.regs, BitVec.toNat_ofNat, Nat.mod_eq_of_lt (by omega)]
  refine ⟨⟨h.status, h.regs, h.reader, ⟨fun i hi => ?inside, fun a ha => ?outside⟩, ?outLen, ?fits, ?cursor,
    fun back h1 hle => ?window⟩, ?stream⟩
  case inside =>
    rw [List.length_append, List.length_singleton] at hi
    rw [emit_mem, Memory.read_write, haddr]
    by_cases hlast : i = out.length
    · subst hlast; simp
    · rw [if_neg (by omega), hin i (by omega), List.getD_append _ _ _ _ (by omega)]
  case outside =>
    rw [List.length_append, List.length_singleton] at ha
    rw [emit_mem, Memory.read_write_other _ _ (by omega), hout a (by omega)]
  case outLen =>
    have hcap := s.regs.outCap.isLt
    have hlen := h.outLen
    rw [emit_outLen, List.length_append, List.length_singleton, BitVec.toNat_add,
      show (1 : Word).toNat = 1 from rfl]
    omega
  case fits => rw [List.length_append, List.length_singleton]; omega
  case cursor => rw [hnext]; exact Nat.mod_lt _ s.regs.lzCfg.windowSize_pos
  case window =>
    rw [hnext, emit_win, back_of_next h.cursor h1 hle, Window.read_write]
    obtain ⟨k, rfl⟩ := Nat.exists_eq_add_of_le' h1
    rw [Nat.add_sub_cancel]
    rcases Nat.eq_zero_or_pos k with rfl | hk
    · rw [Nat.sub_zero, Nat.add_mod_right, Nat.mod_eq_of_lt h.cursor, if_pos rfl, Nat.zero_add, earlierByte_append_one]
    · rw [if_neg (back_ne_cursor h.cursor hk (by omega)), earlierByte_append_succ _ _ _ hk, h.window k hk (by omega)]
  case stream =>
    refine BitReader.bits_congr fun a hlo hhi => ?_
    have hpos := h.reader.pos_le
    rw [emit_br] at hlo hhi
    rw [h.reader.endAddr_eq] at hhi
    exact Memory.read_write_other _ _ (by omega)

/-- The copy adds its expansion, cut at OUT_CAP (41_lz R170, R171). -/
theorem LzAt.copy (hs : s.lzReady) (h : LzAt s out t) (off n : Nat) :
    LzAt s ((expandCopy s.regs.lzCfg.windowSize s.regs.lzFill off n out).take s.regs.outCap.toNat) (lzCopy off n t)
      ∧ (lzCopy off n t).stream = t.stream := by
  induction n generalizing out t with
  | zero =>
    rw [lzCopy_zero, expandCopy, List.take_of_length_le h.fits]
    exact ⟨h, rfl⟩
  | succ n ih =>
    rw [lzCopy_succ]
    split
    · have hw := s.regs.lzCfg.windowSize_pos
      have hread : t.win.read (t.copyIndex off) = copiedByte s.regs.lzCfg.windowSize s.regs.lzFill off out := by
        rw [copyIndex_eq, h.regs, h.window _ (stepsBack_pos hw off) (stepsBack_le hw off), copiedByte_eq]
      obtain ⟨hat, hstream⟩ := h.emit hs (h.hasRoom_iff.1 ‹_›) (t.win.read (t.copyIndex off))
      obtain ⟨hat', hstream'⟩ := ih hat
      rw [expandCopy, ← hread]
      exact ⟨hat', hstream'.trans hstream⟩
    · have hfull : out.length = s.regs.outCap.toNat := by
        have := h.hasRoom_iff.not.1 ‹_›
        have := h.fits
        omega
      rw [← hfull, ← List.prefix_iff_eq_take.1 (expandCopy_prefix _ _ _ _ _)]
      exact ⟨h, rfl⟩

/-- Reading a field that comes next moves the reader alone. -/
theorem LzAt.getBits (h : LzAt s out t) {n v : Nat} {rest : List Bool} (hv : v < 2 ^ n)
    (hstream : t.stream = fieldBits s.br.order n v ++ rest) :
    ∃ u, getBits n t = .ok v u ∧ LzAt s out u ∧ u.stream = rest := by
  obtain ⟨q, hq, hlater, hrest⟩ := getBits_of_stream h.reader.sound hv (h.reader.order_eq ▸ hstream)
  exact ⟨_, hq, { h with reader := h.reader.trans hlater }, hrest⟩

/-! ### Tokens of shared mode (30_encoding R120; 41_lz R166, R167) -/

theorem fieldBits_one (order : BitOrder) (c : Bool) : fieldBits order 1 c.toNat = [c] := by
  cases order <;> cases c <;> rfl

theorem LzAt.control (h : LzAt s out t) {c : Bool} {rest : List Bool} (hstream : t.stream = c :: rest) :
    ∃ u, Machine.getBits 1 t = .ok c.toNat u ∧ LzAt s out u ∧ u.stream = rest :=
  h.getBits (by cases c <;> decide) (by rw [fieldBits_one]; exact hstream)

theorem LzAt.literal (h : LzAt s out t) (hmode : s.regs.lzCfg.mode = false) {b : Byte} {rest : List Bool}
    (hstream : t.stream = fieldBits s.br.order 8 b.toNat ++ rest) :
    ∃ u, lzLiteral t = .ok b u ∧ LzAt s out u ∧ u.stream = rest := by
  obtain ⟨u, hu, hat, hrest⟩ := h.getBits b.isLt hstream
  refine ⟨u, ?_, hat, hrest⟩
  rw [lzLiteral, h.regs, hmode, if_neg Bool.false_ne_true, hu, Res.bind_of_ok, BitVec.ofNat_toNat, BitVec.setWidth_eq]

/-- A pair whose offset does not end the stream. -/
theorem LzAt.pair (h : LzAt s out t) {off len : Nat} {rest : List Bool}
    (hoff : off < 2 ^ s.regs.lzCfg.offBits.toNat) (hlen : len < 2 ^ s.regs.lzCfg.lenBits.toNat)
    (hend : ¬(s.regs.lzCfg.endOff0 = true ∧ off = 0))
    (hstream : t.stream = fieldBits s.br.order s.regs.lzCfg.offBits.toNat off
      ++ (fieldBits s.br.order s.regs.lzCfg.lenBits.toNat len ++ rest)) :
    ∃ u, lzPairShared t = .ok (some (off, len)) u ∧ LzAt s out u ∧ u.stream = rest := by
  obtain ⟨u, hu, hat, hstream'⟩ := h.getBits hoff hstream
  obtain ⟨v, hv, hat', hrest⟩ := hat.getBits hlen hstream'
  refine ⟨v, ?_, hat', hrest⟩
  have hgo : ¬((s.regs.lzCfg.endOff0 && off == 0) = true) := by simpa using hend
  rw [lzPairShared, h.regs, hu, Res.bind_of_ok, hat.regs, if_neg hgo, hv, Res.bind_of_ok]

/-- One pass of the loop on a token that comes next and is no end marker adds what the token stands for, cut at
OUT_CAP. -/
theorem LzAt.token (hs : s.lzReady) (hmode : s.regs.lzCfg.mode = false) (h : LzAt s out t)
    (hroom : out.length < s.regs.outCap.toNat) {tok : LzToken} (htok : tok.plain s.regs) {rest : List Bool}
    (hstream : t.stream = tok.bits s.br.order s.regs.lzCfg ++ rest) :
    ∃ u, lzToken t = .ok true u ∧ LzAt s ((expandToken s.regs out tok).take s.regs.outCap.toNat) u
      ∧ u.stream = rest := by
  cases tok with
  | literal b =>
    rw [LzToken.bits, List.cons_append] at hstream
    obtain ⟨u, hu, hat, hrest⟩ := h.control hstream
    obtain ⟨v, hv, hat', hrest'⟩ := hat.literal hmode hrest
    obtain ⟨hemit, hkeep⟩ := hat'.emit hs hroom b
    refine ⟨Machine.emit b v, ?_, ?_, hkeep.trans hrest'⟩
    · rw [lzToken, hu, Res.bind_of_ok, if_pos Bool.toNat_true, hv, Res.bind_of_ok]
    · rw [expandToken, List.take_of_length_le hemit.fits]
      exact hemit
  | copy off len =>
    obtain ⟨hoff, hlen, hend0, hendLen⟩ := htok
    rw [LzToken.bits, List.cons_append, List.append_assoc] at hstream
    obtain ⟨u, hu, hat, hrest⟩ := h.control hstream
    obtain ⟨v, hv, hat', hrest'⟩ := hat.pair hoff hlen hend0 hrest
    obtain ⟨hcopy, hkeep⟩ := hat'.copy hs off (len + s.regs.lzLenBias.toNat)
    refine ⟨_, ?_, hcopy, hkeep.trans hrest'⟩
    have hgo : ¬((s.regs.lzCfg.endLen && len == s.regs.lzEndLen.toNat) = true) := by simpa using hendLen
    rw [lzToken, hu, Res.bind_of_ok, if_neg (by decide), lzReference, hat.regs, hmode, if_neg Bool.false_ne_true, hv,
      Res.bind_of_ok]
    simp only [hat'.regs, if_neg hgo]

/-! ### The loop -/

theorem lzLoop_succ (fuel : Nat) (t : State) :
    lzLoop (fuel + 1) t =
      if t.hasRoom then (lzToken t).bind fun more t => if more then lzLoop fuel t else .ok () t else .ok () t := rfl

/-- At OUT_CAP the loop stops. -/
theorem LzAt.loop_full (h : LzAt s out t) (hfull : s.regs.outCap.toNat ≤ out.length) (fuel : Nat) :
    lzLoop fuel t = .ok () t := by
  cases fuel with
  | zero => rfl
  | succ fuel => rw [lzLoop_succ, if_neg (mt h.hasRoom_iff.1 (by omega))]

/-- A token in front of the loop. -/
theorem LzAt.loop_token (hs : s.lzReady) (hmode : s.regs.lzCfg.mode = false) (h : LzAt s out t)
    (hroom : out.length < s.regs.outCap.toNat) {tok : LzToken} (htok : tok.plain s.regs) {rest : List Bool}
    (hstream : t.stream = tok.bits s.br.order s.regs.lzCfg ++ rest) :
    ∃ u, (∀ fuel, lzLoop (fuel + 1) t = lzLoop fuel u)
      ∧ LzAt s ((expandToken s.regs out tok).take s.regs.outCap.toNat) u ∧ u.stream = rest := by
  obtain ⟨u, hu, hat, hrest⟩ := h.token hs hmode hroom htok hstream
  refine ⟨u, fun fuel => ?_, hat, hrest⟩
  rw [lzLoop_succ, if_pos (h.hasRoom_iff.2 hroom), hu, Res.bind_of_ok, if_pos rfl]

/-- Tokens in front of the loop whose expansion leaves room. -/
theorem LzAt.loop_tokens (hs : s.lzReady) (hmode : s.regs.lzCfg.mode = false) {toks : List LzToken}
    (htoks : ∀ tok ∈ toks, tok.plain s.regs) {rest : List Bool} (h : LzAt s out t)
    (hstream : t.stream = toks.flatMap (LzToken.bits s.br.order s.regs.lzCfg) ++ rest)
    (hroom : (toks.foldl (expandToken s.regs) out).length < s.regs.outCap.toNat) :
    ∃ u, (∀ fuel, lzLoop (toks.length + fuel) t = lzLoop fuel u)
      ∧ LzAt s (toks.foldl (expandToken s.regs) out) u ∧ u.stream = rest := by
  induction toks generalizing out t with
  | nil => exact ⟨t, fun fuel => by rw [List.length_nil, Nat.zero_add], h, hstream⟩
  | cons tok toks ih =>
    obtain ⟨htok, htoks⟩ := List.forall_mem_cons.1 htoks
    rw [List.flatMap_cons, List.append_assoc] at hstream
    have hle := length_le_expandTokens s.regs toks (expandToken s.regs out tok)
    have hle' := (expandToken_prefix s.regs out tok).length_le
    rw [List.foldl_cons] at hroom
    obtain ⟨u, hu, hat, hrest⟩ := h.loop_token hs hmode (by omega) htok hstream
    rw [List.take_of_length_le (by omega)] at hat
    obtain ⟨v, hv, hat', hrest'⟩ := ih htoks hat hrest hroom
    refine ⟨v, fun fuel => ?_, hat', hrest'⟩
    rw [List.length_cons, Nat.add_right_comm, hu, hv]

end

/-- LZDEC's body over tokens that reach OUT_CAP with the last of them: the tokens before it leave room, the last one
is cut, and the loop stops. -/
theorem lzdecBody_of_tokens {s : State} {toks : List LzToken} {rest : List Bool} (hs : s.lzReady) (hr : s.br.sound)
    (hmode : s.regs.lzCfg.mode = false) (htoks : ∀ tok ∈ toks, tok.plain s.regs)
    (hstream : s.stream = toks.flatMap (LzToken.bits s.br.order s.regs.lzCfg) ++ rest)
    (hroom : toks = [] ∨ (expandTokens s.regs toks.dropLast).length < s.regs.outCap.toNat)
    (hfull : s.regs.outCap.toNat ≤ (expandTokens s.regs toks).length) :
    ∃ t, lzdecBody s = .ok () t ∧ LzAt s ((expandTokens s.regs toks).take s.regs.outCap.toNat) t
      ∧ t.stream = rest := by
  have hinit := LzAt.init hs hr
  have hbody : lzdecBody s = lzLoop (s.br.bitsLeft + 1) (lzInit s) := rfl
  rcases List.eq_nil_or_concat' toks with rfl | ⟨front, last, rfl⟩
  · exact ⟨_, hinit.loop_full hfull _, by rw [expandTokens, List.foldl_nil, List.take_nil]; exact hinit, hstream⟩
  · obtain ⟨hfront, hlast⟩ := List.forall_mem_append.1 htoks
    have hroom' : (expandTokens s.regs front).length < s.regs.outCap.toNat := by
      simpa [List.dropLast_concat] using hroom
    have hfuel : front.length ≤ s.br.bitsLeft := by
      have hlen := congrArg List.length hstream
      have := s.br.length_bits_le s.mem
      have := LzToken.length_le_bits s.br.order s.regs.lzCfg (front ++ [last])
      rw [List.length_append] at hlen this
      unfold State.stream at hlen
      omega
    obtain ⟨k, hk⟩ := Nat.exists_eq_add_of_le hfuel
    rw [List.flatMap_append, List.append_assoc, List.flatMap_singleton] at hstream
    obtain ⟨u, hu, hat, hrest⟩ := hinit.loop_tokens hs hmode hfront hstream hroom'
    obtain ⟨v, hv, hat', hrest'⟩ := hat.loop_token hs hmode hroom' (hlast last (List.mem_singleton.2 rfl)) hrest
    have hexpand : expandTokens s.regs (front ++ [last]) = expandToken s.regs (expandTokens s.regs front) last :=
      List.foldl_append
    rw [hexpand] at hfull ⊢
    have hcut : s.regs.outCap.toNat
        ≤ ((expandToken s.regs (expandTokens s.regs front) last).take s.regs.outCap.toNat).length := by
      rw [List.length_take, Nat.min_eq_left hfull]
    exact ⟨v, by rw [hbody, hk, Nat.add_assoc, hu, hv, hat'.loop_full hcut], hat', hrest'⟩

/-- Settles O27: LZDEC is accepted with TERM cleared, and its body does what `lzdecBody_of_tokens` says. -/
theorem lzdecExpandsTokens : Obligations.LzdecExpandsTokens := by
  intro s toks rest hs _ hreader hmode htoks hstream hroom hfull
  obtain ⟨hsound, -⟩ := s.readerOk_iff.1 hreader hs.valid
  obtain ⟨t, ht, hat, hrest⟩ :=
    lzdecBody_of_tokens (s := setTerm false (accept s)) hs hsound hmode htoks hstream hroom hfull
  refine ⟨finish t, by rw [execLzdec_of_ready hs, ht, conclude_ok], ?_, ?_, hat.wrote, hrest⟩
  · rw [finish_status, hat.status]
    rfl
  · refine BitVec.eq_of_toNat_eq ?_
    rw [finish_outLen, hat.outLen, List.length_take]
    exact Nat.min_eq_left hfull

end Sys2Proof.Machine

/-! ## BRINIT, GETBITS and GETBIT read fields off a source (30_encoding R119; 40_bitreader R145 to R152) -/

namespace Sys2Proof.Machine

/-! ### The field that bits make (30_encoding R119) -/

theorem fieldBits_msbFirst_succ (w v : Nat) :
    fieldBits .msbFirst (w + 1) v = fieldBits .msbFirst w (v / 2) ++ [v.testBit 0] := by
  have hhigh : ∀ i ∈ List.range w, v.testBit (w - i) = (v / 2).testBit (w - 1 - i) := fun i hi => by
    have := List.mem_range.1 hi
    rw [← Nat.testBit_succ]
    congr 1
    omega
  simp [fieldBits, List.range_succ, List.map_congr_left hhigh]

theorem fieldBits_lsbFirst_succ (w v : Nat) :
    fieldBits .lsbFirst (w + 1) v = v.testBit 0 :: fieldBits .lsbFirst w (v / 2) := by
  simp [fieldBits, List.range_succ_eq_map, Function.comp_def, Nat.testBit_succ]

/-- A field's value is read back from its bits. -/
theorem fieldValue_fieldBits {order : BitOrder} {w v : Nat} (h : v < 2 ^ w) :
    fieldValue order (fieldBits order w v) = v := by
  have hbit (v : Nat) : (v.testBit 0).toNat = v % 2 := by rcases Nat.mod_two_eq_zero_or_one v with h | h <;> simp [h]
  induction w generalizing v with
  | zero =>
    obtain rfl : v = 0 := Nat.lt_one_iff.1 h
    cases order <;> rfl
  | succ w ih =>
    have hhalf := ih (v := v / 2) (by omega)
    cases order with
    | msbFirst =>
      rw [fieldBits_msbFirst_succ]
      simp only [fieldValue, List.foldl_append, List.foldl_cons, List.foldl_nil] at hhalf ⊢
      rw [hhalf, hbit, Nat.div_add_mod]
    | lsbFirst =>
      rw [fieldBits_lsbFirst_succ]
      simp only [fieldValue, List.foldr_cons] at hhalf ⊢
      rw [hhalf, hbit, Nat.mod_add_div]

/-- Bits that begin with a field, cut behind it. -/
theorem fieldValue_take {order : BitOrder} {n v : Nat} {bits rest : List Bool} (hv : v < 2 ^ n)
    (h : bits = fieldBits order n v ++ rest) : fieldValue order (bits.take n) = v ∧ bits.drop n = rest := by
  have hlen : (fieldBits order n v).length = n := length_fieldBits order n v
  subst h
  exact ⟨by rw [List.take_left' hlen, fieldValue_fieldBits hv], List.drop_left' hlen⟩

/-! ### A whole number of units on -/

theorem BitReader.sameSource_symm {r q : BitReader} (h : r.sameSource q) : q.sameSource r := by
  obtain ⟨hvalid, horder, hrefill, hbe, hend⟩ := h
  exact ⟨hvalid.symm, horder.symm, hrefill.symm, hbe.symm, hend.symm⟩

/-- A later reader of the same source, `j` units on. -/
structure BitReader.Ahead (r q : BitReader) (j : Nat) : Prop extends r.Later q where
  pos_eq : q.pos.toNat = r.pos.toNat + r.refill.bytes * j

section
variable {m : Memory} {r q p : BitReader} {i j k : Nat}

theorem BitReader.Ahead.refl (h : r.sound) : r.Ahead r 0 := ⟨.refl h, rfl⟩

theorem BitReader.Ahead.refill_eq (h : r.Ahead q j) : q.refill = r.refill := by
  obtain ⟨-, -, hrefill, -⟩ := h.source
  exact hrefill.symm

theorem BitReader.Ahead.trans (h : r.Ahead q i) (h' : q.Ahead p j) : r.Ahead p (i + j) where
  toLater := h.toLater.trans h'.toLater
  pos_eq := by rw [h'.pos_eq, h.pos_eq, h.refill_eq, Nat.mul_add, Nat.add_assoc]

theorem BitReader.Ahead.unitsLeft_add (h : r.Ahead q j) : q.unitsLeft + j = r.unitsLeft := by
  have hpos := h.pos_eq
  obtain ⟨hle, -⟩ := h.sound
  rw [h.endAddr_eq] at hle
  rw [BitReader.unitsLeft, BitReader.unitsLeft, h.refill_eq, h.endAddr_eq, hpos, ← Nat.sub_sub,
    ← Nat.add_mul_div_left _ _ r.refill.bytes_pos, Nat.sub_add_cancel (by omega)]

/-- Readers of one source that stand whole units apart reach its end at the same place. -/
theorem BitReader.Ahead.atEnd_eq (h : r.Ahead q j) : q.atEnd = r.atEnd := by
  have hpos : q.pos.toNat + q.refill.bytes * q.unitsLeft = r.pos.toNat + r.refill.bytes * r.unitsLeft := by
    rw [h.pos_eq, h.refill_eq, ← h.unitsLeft_add, Nat.add_comm q.unitsLeft, Nat.mul_add, Nat.add_assoc]
  obtain ⟨hvalid, horder, hrefill, hbe, hend⟩ := h.source
  simp only [BitReader.atEnd, hpos, hvalid, horder, hrefill, hbe, hend]

/-- What was loaded and not delivered is in the accumulator. -/
theorem BitReader.Ahead.cnt_add (h : r.Ahead q j) {n : Nat} (hbits : (r.bits m).length = n + (q.bits m).length) :
    q.cnt.toNat + n = r.cnt.toNat + 8 * r.refill.bytes * j := by
  rw [BitReader.length_bits, BitReader.length_bits, ← h.unitsLeft_add, h.refill_eq, Nat.mul_add] at hbits
  omega

/-- No more units are loaded than the bits delivered need (40_bitreader R148). -/
theorem BitReader.Ahead.units_eq (h : r.Ahead q j) (hcnt : q.cnt.toNat < 8 * r.refill.bytes) {n : Nat}
    (hbits : (r.bits m).length = n + (q.bits m).length) :
    j = (n - r.cnt.toNat + (8 * r.refill.bytes - 1)) / (8 * r.refill.bytes) := by
  have hadd := h.cnt_add hbits
  refine (Nat.div_eq_of_lt_le ?_ ?_).symm
  · rw [Nat.mul_comm]; omega
  · rw [Nat.add_mul, Nat.mul_comm j]; omega

/-- With less than a unit in the accumulator, the length of the sequence tells how many units are left. -/
theorem BitReader.length_bits_div (h : r.cnt.toNat < 8 * r.refill.bytes) :
    (r.bits m).length / (8 * r.refill.bytes) = r.unitsLeft := by
  rw [BitReader.length_bits, Nat.add_mul_div_left _ _ (by omega), Nat.div_eq_of_lt h, Nat.zero_add]

/-- A sound reader is determined by its source, its position and the bits it still delivers. -/
theorem BitReader.eq_of_bits (hsource : q.sameSource p) (hpos : q.pos.toNat = p.pos.toNat) (hq : q.sound)
    (hp : p.sound) (hbits : q.bits m = p.bits m) : q = p := by
  obtain ⟨hvalid, horder, hrefill, hbe, hend⟩ := hsource
  obtain ⟨-, -, hq⟩ := hq
  obtain ⟨-, -, hp⟩ := hp
  have hleft : q.unitsLeft = p.unitsLeft := by rw [BitReader.unitsLeft, BitReader.unitsLeft, hpos, hrefill, hend]
  have hlen := congrArg List.length hbits
  rw [BitReader.length_bits, BitReader.length_bits, hleft, hrefill] at hlen
  have hcnt : q.cnt = p.cnt := BitVec.eq_of_toNat_eq (by omega)
  rw [BitReader.bits_eq, BitReader.bits_eq] at hbits
  obtain ⟨hfields, -⟩ := List.append_inj hbits (by rw [length_fieldBits, length_fieldBits, hcnt])
  rw [← hcnt] at hp hfields
  rw [← horder] at hfields
  have hacc : q.acc = p.acc := BitVec.eq_of_toNat_eq (fieldBits_injective hq hp hfields)
  obtain ⟨_, _, _, _, _, _, _, _⟩ := q
  obtain ⟨_, _, _, _, _, _, _, _⟩ := p
  simp only at hvalid horder hrefill hbe hend hcnt hacc hpos
  rw [hvalid, horder, hrefill, hbe, hend, hcnt, hacc, BitVec.eq_of_toNat_eq hpos]

/-- Two readers that have read the same bits off one source, each holding less than a unit, are equal. -/
theorem BitReader.Ahead.eq_of_bits (h : r.Ahead q i) (h' : r.Ahead p j) (hq : q.cnt.toNat < 8 * r.refill.bytes)
    (hp : p.cnt.toNat < 8 * r.refill.bytes) (hbits : q.bits m = p.bits m) : q = p := by
  rw [← h.refill_eq] at hq
  rw [← h'.refill_eq] at hp
  have hleft : q.unitsLeft = p.unitsLeft := by
    rw [← BitReader.length_bits_div (m := m) hq, ← BitReader.length_bits_div (m := m) hp, hbits, h.refill_eq,
      h'.refill_eq]
  have hij : i = j := Nat.add_left_cancel (h.unitsLeft_add.trans (hleft ▸ h'.unitsLeft_add.symm))
  have hsource : q.sameSource p := BitReader.sameSource_trans (BitReader.sameSource_symm h.source) h'.source
  exact BitReader.eq_of_bits hsource (by rw [h.pos_eq, h'.pos_eq, hij]) h.sound h'.sound hbits

theorem BitReader.take_cnt (k : Nat) (r : BitReader) : (r.take k).2.cnt.toNat = r.cnt.toNat - k := by
  obtain ⟨acc, h⟩ := r.take_reader k
  have := r.cnt.isLt
  rw [h]
  show (BitVec.ofNat 6 _).toNat = _
  rw [BitVec.toNat_ofNat]
  omega

theorem BitReader.take_ahead (hr : r.sound) (hk : k ≤ r.cnt.toNat) : r.Ahead (r.take k).2 0 := by
  have hpos : (r.take k).2.pos = r.pos := by
    obtain ⟨acc, h⟩ := r.take_reader k
    rw [h]
  exact ⟨⟨r.sameSource_take k, BitReader.sound_take hk hr, by rw [hpos]⟩, by rw [hpos]; rfl⟩

/-- `if BR_CNT = 0: Refill()` moves one unit on or none. -/
theorem BitReader.ensure_ahead (hr : r.sound) (h : r.ensure m = .ok () q) : ∃ j, r.Ahead q j := by
  have hsource := BitReader.ensure_ok h
  have hsound : (r.ensure m).Ends BitReader.sound BitReader.sound := BitReader.sound_ensure hr
  rw [h] at hsound
  unfold BitReader.ensure at h
  split at h
  · rcases r.refillUnit_cases m with ⟨-, e⟩ | ⟨hle, e⟩ <;> rw [e] at h <;> cases h
    have hpos : (BitVec.ofNat 32 (r.pos.toNat + r.refill.bytes)).toNat = r.pos.toNat + r.refill.bytes := by
      have := r.endAddr.isLt
      rw [BitVec.toNat_ofNat]; omega
    exact ⟨1, ⟨hsource, hsound, hpos.symm ▸ Nat.le_add_right _ _⟩, by rw [hpos, Nat.mul_one]⟩
  · cases h
    exact ⟨0, .refl hr⟩

/-- With no bit left a refill raises, and leaves the reader at the end of its source. -/
theorem BitReader.ensure_of_no_bits (h : r.bits m = []) :
    r.ensure m = .raised .unexpectedEndOfStream r.atEnd.pos.toNat r.atEnd := by
  have hlen := r.length_bits m
  have hbytes := r.refill.bytes_pos
  rw [h, List.length_nil, eq_comm, Nat.add_eq_zero_iff, Nat.mul_eq_zero] at hlen
  obtain ⟨hcnt, hleft⟩ := hlen
  replace hleft : r.unitsLeft = 0 := by omega
  have hend : r.atEnd = { r with acc := 0, cnt := 0 } := by simp [BitReader.atEnd, hleft]
  rw [BitReader.ensure, if_pos (BitVec.eq_of_toNat_eq hcnt), hend]
  rcases r.refillUnit_cases m with ⟨-, he⟩ | ⟨hle, -⟩
  · exact he
  · have := (Nat.div_eq_zero_iff_lt hbytes).1 hleft
    omega

/-! ### Reading a field (40_bitreader R145, R148) -/

/-- A field read stops whole units on, with less than a unit in the accumulator if it took a bit. -/
theorem BitReader.getBitsLoop_ahead {n fuel got result v : Nat} (hr : r.sound)
    (h : r.getBitsLoop m n fuel got result = .ok v q) :
    ∃ j, r.Ahead q j ∧ (q = r ∨ q.cnt.toNat < 8 * r.refill.bytes) := by
  induction fuel generalizing got result r with
  | zero => cases h; exact ⟨0, .refl hr, .inl rfl⟩
  | succ fuel ih =>
    unfold BitReader.getBitsLoop at h
    split at h
    · cases h; exact ⟨0, .refl hr, .inl rfl⟩
    · obtain ⟨⟨⟩, p, he, hloop⟩ := Res.bind_eq_ok.1 h
      obtain ⟨i, hp⟩ := BitReader.ensure_ahead hr he
      have htake := hp.trans (BitReader.take_ahead hp.sound (Nat.min_le_right (n - got) _))
      have hcnt : (p.take (min (n - got) p.cnt.toNat)).2.cnt.toNat < 8 * r.refill.bytes := by
        have hbytes := r.refill.bytes_pos
        obtain ⟨-, hle, -⟩ := hp.sound
        rw [hp.refill_eq] at hle
        rw [BitReader.take_cnt]
        omega
      obtain ⟨j, hq, hlast⟩ := ih htake.sound hloop
      refine ⟨_, htake.trans hq, .inr ?_⟩
      rcases hlast with rfl | hlast
      · exact hcnt
      · rwa [htake.refill_eq] at hlast

/-- With too few bits left the loop takes them all and raises at the end of the source (40_bitreader R150). -/
theorem BitReader.getBitsLoop_of_few_bits {n fuel got result : Nat} (hr : r.sound) (hfuel : n ≤ got + fuel)
    (hlen : (r.bits m).length < n - got) :
    r.getBitsLoop m n fuel got result = .raised .unexpectedEndOfStream r.atEnd.pos.toNat r.atEnd := by
  induction fuel generalizing got result r with
  | zero => omega
  | succ fuel ih =>
    rw [BitReader.getBitsLoop, if_neg (by omega)]
    by_cases hbits : r.bits m = []
    · rw [BitReader.ensure_of_no_bits hbits, Res.bind_of_raised]
    · obtain ⟨p, he, -, hsame, hcnt⟩ := BitReader.ensure_of_bits hr hbits
      obtain ⟨i, hp⟩ := BitReader.ensure_ahead hr he
      rw [he, Res.bind_of_ok, ← hp.atEnd_eq]
      have hk : min (n - got) p.cnt.toNat ≤ p.cnt.toNat := Nat.min_le_right _ _
      have hk0 : 0 < min (n - got) p.cnt.toNat := by omega
      dsimp only
      generalize min (n - got) p.cnt.toNat = k at hk hk0 ⊢
      have htake := BitReader.take_ahead hp.sound hk
      obtain ⟨-, htaken⟩ := BitReader.take_bits (m := m) hp.sound hk
      have hlen' := congrArg List.length htaken
      rw [hsame, List.length_append, length_fieldBits] at hlen'
      rw [ih htake.sound (by omega) (by omega), htake.atEnd_eq]

/-- What a read of `n` bits with value `v` leaves: the rest of the sequence, in a reader that has loaded no unit it
did not need (40_bitreader R148). -/
structure BitReader.FieldRead (m : Memory) (r : BitReader) (n v : Nat) (q : BitReader) : Prop where
  value_lt : v < 2 ^ n
  bits_eq : r.bits m = fieldBits r.order n v ++ q.bits m
  ahead : ∃ j, r.Ahead q j
  cnt_lt : q.cnt.toNat < 8 * r.refill.bytes

theorem BitReader.FieldRead.length_eq {n v : Nat} (h : r.FieldRead m n v q) :
    (r.bits m).length = n + (q.bits m).length := by
  rw [h.bits_eq, List.length_append, length_fieldBits]

/-- With enough bits left GetBits reads the next ones as one field. -/
theorem BitReader.getBits_of_enough {n : Nat} (hr : r.sound) (hn : 1 ≤ n) (hlen : n ≤ (r.bits m).length) :
    ∃ v q, r.getBits m n = .ok v q ∧ r.FieldRead m n v q := by
  obtain ⟨v, q, hq, -, hlt, hfield⟩ :=
    BitReader.getBitsLoop_of_bits (n := n) (fuel := n) hr (Nat.zero_le n) (by omega) Nat.one_pos hlen
  rw [fieldBits_zero, List.nil_append] at hfield
  obtain ⟨j, hj, hcnt⟩ := BitReader.getBitsLoop_ahead hr hq
  refine ⟨v, q, hq, hlt, hfield, ⟨j, hj⟩, hcnt.resolve_left ?_⟩
  rintro rfl
  have := congrArg List.length hfield
  rw [List.length_append, length_fieldBits] at this
  omega

/-- With too few it raises at the end of the source (40_bitreader R150). -/
theorem BitReader.getBits_of_few {n : Nat} (hr : r.sound) (hlen : (r.bits m).length < n) :
    r.getBits m n = .raised .unexpectedEndOfStream r.atEnd.pos.toNat r.atEnd :=
  BitReader.getBitsLoop_of_few_bits hr (by omega) hlen

/-- The same bits read as one field leave the same reader, and their value (40_bitreader R151). -/
theorem BitReader.FieldRead.unique {n v w : Nat} (h : r.FieldRead m n v q) (h' : r.FieldRead m n w p) :
    v = w ∧ q = p := by
  obtain ⟨hfields, hrest⟩ := List.append_inj (h.bits_eq.symm.trans h'.bits_eq)
    (by rw [length_fieldBits, length_fieldBits])
  obtain ⟨i, hi⟩ := h.ahead
  obtain ⟨j, hj⟩ := h'.ahead
  exact ⟨fieldBits_injective h.value_lt h'.value_lt hfields, hi.eq_of_bits hj h.cnt_lt h'.cnt_lt hrest⟩

/-- Two fields read one behind the other are one field (40_bitreader R151). -/
theorem BitReader.FieldRead.join {a b va vb : Nat} (h : r.FieldRead m a va q) (h' : q.FieldRead m b vb p) :
    r.FieldRead m (a + b) (joinChunk r.order va a vb b) p := by
  obtain ⟨i, hi⟩ := h.ahead
  obtain ⟨j, hj⟩ := h'.ahead
  refine ⟨joinChunk_lt h.value_lt h'.value_lt, ?_, ⟨_, hi.trans hj⟩, hi.refill_eq ▸ h'.cnt_lt⟩
  rw [fieldBits_joinChunk h.value_lt h'.value_lt, h.bits_eq, h'.bits_eq, hi.order_eq, List.append_assoc]

end

/-! ### The reader at the end of its source (40_bitreader R150) -/

section
variable {m : Memory} {r : BitReader}

theorem BitReader.atEnd_pos (h : r.sound) :
    r.atEnd.pos.toNat = r.pos.toNat + r.refill.bytes * r.unitsLeft := by
  have hunits := r.bytes_unitsLeft_le
  have hend := r.endAddr.isLt
  obtain ⟨hle, -⟩ := h
  show (BitVec.ofNat 32 _).toNat = _
  rw [BitVec.toNat_ofNat]
  omega

theorem BitReader.ahead_atEnd (h : r.sound) : r.Ahead r.atEnd r.unitsLeft := by
  have hpos := BitReader.atEnd_pos h
  have hunits := r.bytes_unitsLeft_le
  obtain ⟨hle, -⟩ := h
  exact ⟨⟨⟨rfl, rfl, rfl, rfl, rfl⟩, ⟨show r.atEnd.pos.toNat ≤ r.endAddr.toNat by omega, Nat.zero_le _, Nat.one_pos⟩,
    by omega⟩, hpos⟩

theorem BitReader.atEnd_bits (h : r.sound) : r.atEnd.bits m = [] := by
  have hleft : r.atEnd.unitsLeft = 0 := by
    have := (BitReader.ahead_atEnd h).unitsLeft_add
    omega
  rw [← List.length_eq_zero_iff, BitReader.length_bits, hleft]
  rfl

end

/-! ### GETBITS (40_bitreader R148) -/

/-- The premises of a field read: the command is accepted, and the reader is valid and sound. -/
structure State.CanRead (s : State) : Prop where
  accepted : s.status.err = false
  valid : s.br.valid = true
  sound : s.br.sound

theorem State.canRead_of_readerOk {s : State} (herr : s.status.err = false) (hvalid : s.br.valid = true)
    (h : s.readerOk) : s.CanRead := ⟨herr, hvalid, (s.readerOk_iff.1 h hvalid).1⟩

section
variable {s : State} {n : BitVec 6}

theorem exec_getbits_of_illegal (herr : s.status.err = false) (hn : n.toNat = 0 ∨ 32 < n.toNat) :
    exec (.getbits n) s = .next (s.refused .illegalCommand (0x11000000 + n.toNat)) := by
  have hlegal : Instr.legalCount n = false := by
    simp only [Instr.legalCount, Bool.and_eq_false_iff, decide_eq_false_iff_not]
    omega
  have hword : (encode (.getbits n)).toNat = 0x11000000 + n.toNat := by
    have hopc := opcodeField_toNat (encode (.getbits n))
    have harg := argField_toNat (encode (.getbits n))
    have hlt := n.isLt
    rw [encode, opcodeField_append] at hopc
    rw [encode, argField_append, argument_getbits_toNat] at harg
    have h11 : (Instr.getbits n).opcode.toNat = 0x11 := rfl
    rw [encode]
    omega
  show Host.Outcome.next (runCommand _ s) = _
  rw [runCommand_accepted herr, hlegal, hword]
  rfl

/-- With a legal N, GETBITS is the checked read. -/
theorem exec_getbits_of_legal (hn : 1 ≤ n.toNat ∧ n.toNat ≤ 32) (s : State) :
    exec (.getbits n) s = .next (runCommand (withChecks readerChecks (readField n.toNat)) s) := by
  have hlegal : Instr.legalCount n = true := by simp [Instr.legalCount, hn]
  show Host.Outcome.next (runCommand _ s) = _
  simp only [hlegal, if_true]

/-- Without a reader the read is refused. -/
theorem runCommand_readField_of_invalid (herr : s.status.err = false) (hvalid : s.br.valid = false) (k : Nat) :
    runCommand (withChecks readerChecks (readField k)) s = s.refused .notReady 0x44 := by
  rw [runCommand_accepted herr]
  have hfail : firstFailure (readerChecks (accept s)) = some (readerReady (accept s)) := by
    simp [readerChecks, readerReady, firstFailure_cons, hvalid]
  simp only [withChecks, hfail]
  rfl

theorem exec_getbits_of_canRead (hs : s.CanRead) (hn : 1 ≤ n.toNat ∧ n.toNat ≤ 32) :
    exec (.getbits n) s = .next (conclude (readField n.toNat (accept s))) := by
  have hpass : firstFailure (readerChecks (accept s)) = none := by
    simp [readerChecks, readerReady, firstFailure_cons, hs.valid]
  rw [exec_getbits_of_legal hn, runCommand_accepted hs.accepted]
  simp only [withChecks, hpass]

/-- The state a completed GETBITS leaves. -/
def State.afterRead (s : State) (v : Nat) (q : BitReader) : State :=
  { s with status := s.doneStatus, result := BitVec.ofNat 32 v, br := q }

/-- The state GETBITS leaves that has run out of bits. -/
def State.ranOut (s : State) : State :=
  { s with status := s.errStatus .unexpectedEndOfStream, errInfo := s.br.atEnd.pos, br := s.br.atEnd }

theorem exec_getbits_of_enough (hs : s.CanRead) (hn : 1 ≤ n.toNat ∧ n.toNat ≤ 32)
    (hlen : n.toNat ≤ s.stream.length) :
    ∃ v q, exec (.getbits n) s = .next (s.afterRead v q) ∧ s.br.FieldRead s.mem n.toNat v q := by
  obtain ⟨v, q, hq, hread⟩ := BitReader.getBits_of_enough hs.sound hn.1 hlen
  refine ⟨v, q, ?_, hread⟩
  rw [exec_getbits_of_canRead hs hn, readField, getBits, accept_br, accept_mem, hq]
  rfl

theorem exec_getbits_of_few (hs : s.CanRead) (hn : 1 ≤ n.toNat ∧ n.toNat ≤ 32)
    (hlen : s.stream.length < n.toNat) :
    exec (.getbits n) s = .next s.ranOut := by
  have hq : s.br.getBits s.mem n.toNat = _ := BitReader.getBits_of_few hs.sound hlen
  have hinfo : BitVec.ofNat 32 s.br.atEnd.pos.toNat = s.br.atEnd.pos := by simp
  rw [exec_getbits_of_canRead hs hn, readField, getBits, accept_br, accept_mem, hq]
  show Host.Outcome.next { s with status := _, errInfo := BitVec.ofNat 32 s.br.atEnd.pos.toNat, br := s.br.atEnd } = _
  rw [hinfo]
  rfl

/-- A word of GETBITS' opcode with a bit above N is refused (30_encoding R112). -/
theorem decode_getbits_zeroField {w : Word} (hopc : w.toNat / 2 ^ 24 = 0x11) (harg : 64 ≤ w.toNat % 2 ^ 24) :
    decode w = .error .illegalCommand := by
  obtain ⟨-, -, -, hillegal, -⟩ := reservedEncodings w
  exact hillegal hopc (by omega)

end

/-- Settles O19, one branch of R148 after the other. -/
theorem getbitsRule : Obligations.GetbitsRule := by
  refine ⟨fun s n herr _ hreader => ?_, fun s w herr hopc harg =>
    commandWrite_refuses (decode_getbits_zeroField hopc harg) herr⟩
  intro k w
  split
  next hillegal => exact exec_getbits_of_illegal herr hillegal
  next hlegal =>
    have hn : 1 ≤ n.toNat ∧ n.toNat ≤ 32 := by omega
    split
    next hinvalid => rw [exec_getbits_of_legal hn, runCommand_readField_of_invalid herr hinvalid]
    next hvalid =>
      have hs := State.canRead_of_readerOk herr (eq_true_of_ne_false hvalid) hreader
      split
      next hlen =>
        obtain ⟨v, q, hexec, hread⟩ := exec_getbits_of_enough hs hn hlen
        obtain ⟨j, hj⟩ := hread.ahead
        obtain ⟨hvalue, hrest⟩ := fieldValue_take hread.value_lt hread.bits_eq
        have hv : v < 2 ^ 32 := hread.value_lt.trans_le (Nat.pow_le_pow_right (by decide) hn.2)
        refine ⟨_, hexec, rfl, ?result, hrest.symm, hj.source, ?position, ?count, ?invariant⟩
        case result => exact (Nat.mod_eq_of_lt hv).trans hvalue.symm
        case position => exact hj.units_eq hread.cnt_lt hread.length_eq ▸ hj.pos_eq
        case count =>
          show q.cnt.toNat + n.toNat = s.br.cnt.toNat + 8 * (q.pos.toNat - s.br.pos.toNat)
          rw [hj.pos_eq, Nat.add_sub_cancel_left, ← Nat.mul_assoc, hj.cnt_add hread.length_eq]
        case invariant => exact State.readerOk_advance (s := s) hreader ⟨hj.source, fun _ => hj.sound⟩
      next hlen => exact exec_getbits_of_few hs hn (Nat.lt_of_not_le hlen)

/-! ### GETBIT (40_bitreader R149) -/

/-- GETBIT is GETBITS with N = 1. -/
theorem exec_getbit (s : State) : exec .getbit s = exec (.getbits 1) s := rfl

theorem decode_getbit_zeroField {w : Word} (hopc : w.toNat / 2 ^ 24 = 0x12) (hw : w ≠ 0x12000000) :
    decode w = .error .illegalCommand := by
  have harg : w.toNat % 2 ^ 24 ≠ 0 := fun h0 => hw (BitVec.eq_of_toNat_eq (by
    show w.toNat = 0x12000000
    omega))
  obtain ⟨-, -, hzero, -⟩ := reservedEncodings w
  exact hzero (by rw [hopc]; decide) harg

/-- Settles O20: everything is said of GETBITS with N = 1. -/
theorem getbitRule : Obligations.GetbitRule := by
  intro s
  have hone : (1 : BitVec 6).toNat = 1 := rfl
  refine ⟨exec_getbit s, commandWrite_of_ok (decode_encode (i := .getbit) rfl) s,
    fun herr w hopc hw => commandWrite_refuses (decode_getbit_zeroField hopc hw) herr, ?refused, ?bit⟩
  case refused =>
    intro herr hvalid
    rw [exec_getbit, exec_getbits_of_legal (by decide), runCommand_readField_of_invalid herr hvalid]
  case bit =>
    intro herr _ hreader hvalid b rest hstream
    have hs := State.canRead_of_readerOk herr hvalid hreader
    obtain ⟨v, q, hexec, hread⟩ :=
      exec_getbits_of_enough (n := 1) hs (by decide) (by rw [hstream, hone, List.length_cons]; omega)
    have hbits : b :: rest = fieldBits s.br.order 1 v ++ q.bits s.mem := hstream ▸ hread.bits_eq
    rw [← List.singleton_append, ← fieldBits_one s.br.order b] at hbits
    obtain ⟨hb, hrest⟩ := List.append_inj hbits (by rw [length_fieldBits, length_fieldBits])
    obtain rfl := fieldBits_injective (by cases b <;> decide) hread.value_lt hb
    exact ⟨_, hexec, rfl, by cases b <;> rfl, hrest.symm⟩

/-! ### Splitting (40_bitreader R151) -/

theorem ofNat_shiftLeft (v k : Nat) : BitVec.ofNat 32 (v <<< k) = BitVec.ofNat 32 v <<< k := by
  refine BitVec.eq_of_toNat_eq ?_
  rw [BitVec.toNat_shiftLeft, BitVec.toNat_ofNat, BitVec.toNat_ofNat, Nat.shiftLeft_eq, Nat.shiftLeft_eq,
    Nat.mod_mul_mod]

/-- How the RESULTs of two reads join to that of one. -/
theorem ofNat_joinChunk (order : BitOrder) (va a vb b : Nat) :
    BitVec.ofNat 32 (joinChunk order va a vb b) =
      match order with
      | .msbFirst => (BitVec.ofNat 32 va <<< b) ||| BitVec.ofNat 32 vb
      | .lsbFirst => BitVec.ofNat 32 va ||| (BitVec.ofNat 32 vb <<< a) := by
  cases order <;> rw [joinChunk, BitVec.ofNat_or, ofNat_shiftLeft]

/-- Settles O21: both ways read the same bits, and these determine the reader and the value. -/
theorem splitReads : Obligations.SplitReads := by
  intro s a b ha hb hab herr _ hreader hvalid hlen
  have hs := State.canRead_of_readerOk herr hvalid hreader
  have hsum : (a + b).toNat = a.toNat + b.toNat := by rw [BitVec.toNat_add]; omega
  obtain ⟨va, q, hexec, hread⟩ := exec_getbits_of_enough hs ⟨ha, by omega⟩ (by omega)
  obtain ⟨j, hj⟩ := hread.ahead
  have ht : (s.afterRead va q).CanRead := ⟨herr, by obtain ⟨hv, -⟩ := hj.source; exact hv ▸ hvalid, hj.sound⟩
  have hrest : b.toNat ≤ (s.afterRead va q).stream.length := by
    have : s.stream.length = a.toNat + (s.afterRead va q).stream.length := hread.length_eq
    omega
  obtain ⟨vb, p, hexec', hread'⟩ := exec_getbits_of_enough ht ⟨hb, by omega⟩ hrest
  obtain ⟨v, p', hexec'', hread''⟩ := exec_getbits_of_enough (n := a + b) hs (by omega) (by omega)
  rw [hsum] at hread''
  obtain ⟨rfl, rfl⟩ := (hread.join hread').unique hread''
  exact ⟨_, _, _, hexec, hexec', hexec'', rfl, ofNat_joinChunk ..⟩

/-! ### After the end of the stream (40_bitreader R150) -/

/-- The reader at the end of its source stays there. -/
theorem BitReader.atEnd_atEnd {r : BitReader} (h : r.sound) : r.atEnd.atEnd = r.atEnd :=
  (BitReader.ahead_atEnd h).atEnd_eq

/-- Settles O24: the first read runs out, and so does the second, for the reader at the end has no bit left. -/
theorem endOfStreamStays : Obligations.EndOfStreamStays := by
  intro s n m hn hn' hm hm' herr _ hreader hvalid hlen
  have hs := State.canRead_of_readerOk herr hvalid hreader
  let u := finish (clearError (accept s.ranOut))
  have hu : u.CanRead := ⟨rfl, hvalid, (BitReader.ahead_atEnd hs.sound).sound⟩
  have hnone : u.stream = [] := BitReader.atEnd_bits hs.sound
  have hend : u.br.atEnd = s.br.atEnd := BitReader.atEnd_atEnd hs.sound
  refine ⟨_, u, _, exec_getbits_of_few hs ⟨hn, hn'⟩ hlen, rfl,
    exec_getbits_of_few hu ⟨hm, hm'⟩ (by rw [hnone]; exact hm), rfl, rfl, rfl, rfl, rfl, hvalid, rfl, rfl, ?_, hend,
    rfl⟩
  exact congrArg BitReader.pos hend

/-! ### BRINIT (40_bitreader R147) -/

theorem RefillUnit.code_of_ofCode {c : BitVec 2} {unit : RefillUnit} (h : RefillUnit.ofCode c = some unit) :
    unit.code = c := by
  revert h
  revert c
  cases unit <;> decide

theorem RefillUnit.ofCode_eq_none_iff (c : BitVec 2) : RefillUnit.ofCode c = none ↔ c = 3 := by
  revert c
  decide

section
variable {s : State}

theorem exec_brinit_of_accepted (herr : s.status.err = false) :
    exec .brinit s = .next (conclude (withChecks brinitChecks brinitBody (accept s))) := by
  show Host.Outcome.next (runCommand _ s) = _
  rw [runCommand_accepted herr]

/-- A legal refill code and a source inside MEM: BRINIT latches the reader. -/
theorem exec_brinit_of_inside (herr : s.status.err = false) {unit : RefillUnit}
    (hunit : RefillUnit.ofCode s.regs.brCfg.refill = some unit)
    (hin : s.regs.srcAddr.toNat + s.regs.srcLen.toNat ≤ s.memBytes) :
    exec .brinit s = .next { s with status := s.doneStatus, br := latchedReader s.regs unit } := by
  have hpass : firstFailure (brinitChecks (accept s)) = none := by
    simp [brinitChecks, firstFailure_cons, configOk, inMem, Range.inside, State.sourceRange, hunit, hin]
  rw [exec_brinit_of_accepted herr, withChecks, hpass]
  simp only [brinitBody, accept_regs, hunit]
  rfl

theorem exec_brinit_of_reserved (herr : s.status.err = false)
    (hcode : RefillUnit.ofCode s.regs.brCfg.refill = none) :
    exec .brinit s = .next (s.refused .badConfig 0x40) := by
  have hfail : firstFailure (brinitChecks (accept s)) = some ⟨false, .badConfig, 0x40⟩ := by
    simp [brinitChecks, firstFailure_cons, configOk, hcode, Reg.offset]
  rw [exec_brinit_of_accepted herr, withChecks, hfail]
  rfl

theorem exec_brinit_of_outside (herr : s.status.err = false) {unit : RefillUnit}
    (hunit : RefillUnit.ofCode s.regs.brCfg.refill = some unit)
    (hout : s.memBytes < s.regs.srcAddr.toNat + s.regs.srcLen.toNat) :
    exec .brinit s = .next (s.refused .accessFault (max s.regs.srcAddr.toNat s.memBytes)) := by
  have hfail : firstFailure (brinitChecks (accept s)) =
      some ⟨false, .accessFault, max s.regs.srcAddr.toNat s.memBytes⟩ := by
    simp [brinitChecks, firstFailure_cons, configOk, inMem, Range.inside, State.sourceRange, hunit, Nat.not_le.2 hout]
  rw [exec_brinit_of_accepted herr, withChecks, hfail]
  rfl

/-- BR_END does not wrap when the source lies in MEM. -/
theorem latchedReader_endAddr (unit : RefillUnit) (hmem : s.memBytes ≤ 2 ^ 31)
    (hin : s.regs.srcAddr.toNat + s.regs.srcLen.toNat ≤ s.memBytes) :
    (latchedReader s.regs unit).endAddr.toNat = s.regs.srcAddr.toNat + s.regs.srcLen.toNat := by
  show (BitVec.ofNat 32 _).toNat = _
  rw [BitVec.toNat_ofNat]
  omega

end

/-- Settles O18: the checks of R147 in their order, then the latched reader. -/
theorem brinitRule : Obligations.BrinitRule := by
  refine ⟨decode_encode (i := .brinit) rfl, fun s herr hmem => ?_⟩
  split
  next hcode => exact exec_brinit_of_reserved herr ((RefillUnit.ofCode_eq_none_iff _).2 hcode)
  next hcode =>
    obtain ⟨unit, hunit⟩ := Option.ne_none_iff_exists'.1 (mt (RefillUnit.ofCode_eq_none_iff _).1 hcode)
    split
    next hout => exact exec_brinit_of_outside herr hunit hout
    next hin =>
      replace hin : s.regs.srcAddr.toNat + s.regs.srcLen.toNat ≤ s.memBytes := Nat.le_of_not_lt hin
      exact ⟨_, exec_brinit_of_inside herr hunit hin, rfl, rfl, rfl, RefillUnit.code_of_ofCode hunit, rfl, rfl, rfl,
        rfl, latchedReader_endAddr unit hmem hin⟩

/-! ### The bytes of a unit (40_bitreader R152) -/

/-- `n` bytes as one number in either byte order (00_scope R14). -/
def Memory.readUnit (m : Memory) (be : Bool) (a n : Nat) : Nat := if be then m.readBE a n else m.readLE a n

theorem BitReader.unitAt_eq (r : BitReader) (m : Memory) (a : Nat) :
    r.unitAt m a = m.readUnit r.bigEndian a r.refill.bytes := rfl

section
variable {order : BitOrder} {be : Bool} {m : Memory}

theorem Memory.readUnit_lt (a n : Nat) : m.readUnit be a n < 2 ^ (8 * n) := by
  cases be with
  | false => exact m.readLE_lt a n
  | true => exact m.readBE_lt a n

/-- Where the bit order meets the byte order, the first byte of a unit comes first. -/
theorem Memory.readUnit_succ_of_match (h : order = .msbFirst ↔ be = true) (a n : Nat) :
    m.readUnit be a (n + 1) = joinChunk order (m.read a).toNat 8 (m.readUnit be (a + 1) n) (8 * n) := by
  cases order with
  | msbFirst =>
    obtain rfl : be = true := h.1 rfl
    rfl
  | lsbFirst =>
    obtain rfl : be = false := by simpa using h
    rfl

/-- Where it does not, the first byte of a unit comes last. -/
theorem Memory.readUnit_succ_of_mismatch (h : ¬(order = .msbFirst ↔ be = true)) (a n : Nat) :
    m.readUnit be a (n + 1) = joinChunk order (m.readUnit be (a + 1) n) (8 * n) (m.read a).toNat 8 := by
  cases order with
  | msbFirst =>
    obtain rfl : be = false := by simpa using h
    exact Nat.or_comm _ _
  | lsbFirst =>
    obtain rfl : be = true := by simpa using h
    exact Nat.or_comm _ _

/-- The bits of a unit are those of its bytes in address order. -/
theorem fieldBits_readUnit_of_match (h : order = .msbFirst ↔ be = true) (a n : Nat) :
    fieldBits order (8 * n) (m.readUnit be a n) =
      (List.range n).flatMap fun k => fieldBits order 8 (m.read (a + k)).toNat := by
  induction n generalizing a with
  | zero => exact fieldBits_zero order _
  | succ n ih =>
    rw [Memory.readUnit_succ_of_match h, show 8 * (n + 1) = 8 + 8 * n by omega,
      fieldBits_joinChunk (m.read a).isLt (Memory.readUnit_lt (a + 1) n), ih, List.range_succ_eq_map, List.flatMap_cons,
      List.flatMap_map]
    simp only [Nat.add_zero, Nat.succ_eq_add_one, Nat.add_assoc, Nat.add_comm 1]

/-- The bits of a unit are those of its bytes in the reverse of address order. -/
theorem fieldBits_readUnit_of_mismatch (h : ¬(order = .msbFirst ↔ be = true)) (a n : Nat) :
    fieldBits order (8 * n) (m.readUnit be a n) =
      (List.range n).flatMap fun k => fieldBits order 8 (m.read (a + (n - 1 - k))).toNat := by
  induction n generalizing a with
  | zero => exact fieldBits_zero order _
  | succ n ih =>
    rw [Memory.readUnit_succ_of_mismatch h, Nat.mul_succ,
      fieldBits_joinChunk (Memory.readUnit_lt (a + 1) n) (m.read a).isLt, ih, List.range_succ, List.flatMap_append,
      List.flatMap_singleton, Nat.add_sub_cancel, Nat.sub_self]
    congr 1
    refine List.flatMap_congr fun k hk => ?_
    have := List.mem_range.1 hk
    rw [show a + 1 + (n - 1 - k) = a + (n - k) by omega]

end

/-- A list over `u` runs of `w` indices is one over `w * u` indices. -/
theorem flatMap_range_mul {α : Type} (f : Nat → List α) (w u : Nat) :
    ((List.range u).flatMap fun j => (List.range w).flatMap fun k => f (w * j + k)) = (List.range (w * u)).flatMap f := by
  induction u with
  | zero => rfl
  | succ u ih =>
    rw [List.range_succ, List.flatMap_append, ih, List.flatMap_singleton, Nat.mul_succ, List.range_add,
      List.flatMap_append, List.flatMap_map]

/-- The sequence before the host after BRINIT: the units of the source. -/
theorem latchedReader_bits {s : State} (unit : RefillUnit) (hmem : s.memBytes ≤ 2 ^ 31)
    (hin : s.regs.srcAddr.toNat + s.regs.srcLen.toNat ≤ s.memBytes) :
    (latchedReader s.regs unit).bits s.mem =
      (List.range (s.regs.srcLen.toNat / unit.bytes)).flatMap fun j =>
        fieldBits s.regs.brCfg.order (8 * unit.bytes)
          (s.mem.readUnit s.regs.brCfg.bigEndian (s.regs.srcAddr.toNat + unit.bytes * j) unit.bytes) := by
  have hleft : (latchedReader s.regs unit).unitsLeft = s.regs.srcLen.toNat / unit.bytes := by
    rw [BitReader.unitsLeft, latchedReader_endAddr unit hmem hin]
    exact congrArg (· / unit.bytes) (Nat.add_sub_cancel_left ..)
  rw [BitReader.bits_eq, hleft]
  exact congrArg (· ++ _) (fieldBits_zero _ _)

/-- Settles O23: the sequence is that of the units, and each unit's bits are those of its bytes. -/
theorem widthIndependence : Obligations.WidthIndependence := by
  intro s unit herr hmem hcode hin hwhole
  refine ⟨_, exec_brinit_of_inside herr (hcode ▸ unit.ofCode_code) hin, ?_⟩
  refine (latchedReader_bits unit hmem hin).trans ?_
  split
  next hdirect =>
    have hunit (a : Nat) : fieldBits s.regs.brCfg.order (8 * unit.bytes)
        (s.mem.readUnit s.regs.brCfg.bigEndian a unit.bytes) =
          (List.range unit.bytes).flatMap fun k => fieldBits s.regs.brCfg.order 8 (s.mem.read (a + k)).toNat := by
      by_cases hmatch : s.regs.brCfg.order = .msbFirst ↔ s.regs.brCfg.bigEndian = true
      · exact fieldBits_readUnit_of_match hmatch a _
      · obtain rfl : unit = .bits8 := hdirect.resolve_right hmatch
        exact fieldBits_readUnit_of_mismatch hmatch a 1
    simp only [hunit, Nat.add_assoc]
    rw [flatMap_range_mul fun i => fieldBits s.regs.brCfg.order 8 (s.mem.read (s.regs.srcAddr.toNat + i)).toNat,
      Nat.mul_div_cancel' (Nat.dvd_of_mod_eq_zero hwhole)]
  next hreversed => simp only [fieldBits_readUnit_of_mismatch fun hmatch => hreversed (Or.inr hmatch)]

end Sys2Proof.Machine

/-! ## Every LZDEC: refused, full, at an end marker, or out of input (41_lz R163, R171, R173, R174) -/

namespace Sys2Proof.Machine

/-! ### What reading does to the reader -/

/-- Reading `d` bits or more leaves a sound reader whole units on, with at least `d` bits less to deliver. -/
def BitReader.Passes (m : Memory) (d : Nat) (r q : BitReader) : Prop :=
  r.sound → (∃ j, r.Ahead q j) ∧ (q.bits m).length + d ≤ (r.bits m).length

/-- The reader behind the next `n` whole bytes (40_bitreader R146). -/
def BitReader.skip (n : Nat) (r : BitReader) : BitReader := { r with pos := BitVec.ofNat 32 (r.pos.toNat + n) }

section
variable {m : Memory} {r q : BitReader} {n d : Nat}

theorem BitReader.Passes.mono (h : r.Passes m n q) (hd : d ≤ n) : r.Passes m d q := fun hr => by
  obtain ⟨hahead, hlen⟩ := h hr
  exact ⟨hahead, by omega⟩

theorem BitReader.Passes.later (h : r.Passes m d q) (hr : r.sound) : r.Later q := by
  obtain ⟨⟨j, hj⟩, -⟩ := h hr
  exact hj.toLater

/-- A field that is read takes its bits. -/
theorem BitReader.passes_of_getBits_ok {v : Nat} (h : r.getBits m n = .ok v q) : r.Passes m n q := by
  intro hr
  have hlen : n ≤ (r.bits m).length := by
    by_contra hfew
    rw [BitReader.getBits_of_few hr (Nat.lt_of_not_le hfew)] at h
    cases h
  obtain ⟨v', q', hq, -, -, hfield⟩ :=
    BitReader.getBitsLoop_of_bits (n := n) (fuel := n) hr (Nat.zero_le n) (by omega) Nat.one_pos hlen
  obtain ⟨-, rfl⟩ := Res.ok.inj (h.symm.trans hq)
  obtain ⟨j, hj, -⟩ := BitReader.getBitsLoop_ahead hr hq
  refine ⟨⟨j, hj⟩, ?_⟩
  rw [fieldBits_zero, List.nil_append] at hfield
  rw [hfield, List.length_append, length_fieldBits, Nat.add_comm]

/-- A field that is not there raises the end of the stream, with ERRINFO = BR_POS (40_bitreader R150). -/
theorem BitReader.passes_of_getBits_raised {e : ErrorName} {info : Nat} (h : r.getBits m n = .raised e info q) :
    e = .unexpectedEndOfStream ∧ info = q.pos.toNat ∧ r.Passes m 0 q := by
  rcases r.getBitsLoop_cases m n n 0 0 with ⟨v, p, hp, -⟩ | ⟨p, hp, -⟩
  · cases h.symm.trans hp
  obtain ⟨rfl, rfl, rfl⟩ := Res.raised.inj (h.symm.trans hp)
  refine ⟨rfl, rfl, fun hr => ?_⟩
  have hfew : (r.bits m).length < n := by
    by_contra henough
    obtain ⟨v, p, hp, -⟩ := BitReader.getBitsLoop_of_bits (n := n) (fuel := n) hr (Nat.zero_le n) (by omega)
      Nat.one_pos (Nat.le_of_not_lt henough)
    cases h.symm.trans hp
  obtain ⟨-, -, rfl⟩ := Res.raised.inj (h.symm.trans (BitReader.getBits_of_few hr hfew))
  exact ⟨⟨_, BitReader.ahead_atEnd hr⟩, by rw [BitReader.atEnd_bits hr]; exact Nat.zero_le _⟩

theorem BitReader.skip_pos (h : r.pos.toNat + n ≤ r.endAddr.toNat) : (r.skip n).pos.toNat = r.pos.toNat + n := by
  have := r.endAddr.isLt
  show (BitVec.ofNat 32 _).toNat = _
  rw [BitVec.toNat_ofNat]
  omega

theorem BitReader.skip_zero (r : BitReader) : r.skip 0 = r := by simp [BitReader.skip]

theorem BitReader.skip_skip {k : Nat} (h : r.pos.toNat + n ≤ r.endAddr.toNat) :
    (r.skip n).skip k = r.skip (n + k) := by
  rw [BitReader.skip, BitReader.skip_pos h, Nat.add_assoc]
  rfl

/-- Whole bytes read move the reader on and load no bit. -/
theorem BitReader.later_skip (hr : r.sound) (h : r.pos.toNat + n ≤ r.endAddr.toNat) : r.Later (r.skip n) := by
  have hpos := BitReader.skip_pos h
  obtain ⟨-, hcnt, hacc⟩ := hr
  exact ⟨⟨rfl, rfl, rfl, rfl, rfl⟩, ⟨hpos.trans_le h, hcnt, hacc⟩, by omega⟩

theorem BitReader.length_bits_skip_le (h : r.pos.toNat + n ≤ r.endAddr.toNat) :
    ((r.skip n).bits m).length ≤ (r.bits m).length := by
  have hleft : (r.skip n).unitsLeft ≤ r.unitsLeft := by
    rw [BitReader.unitsLeft, BitReader.skip_pos h]
    exact Nat.div_le_div_right (Nat.sub_le_sub_left (Nat.le_add_right _ _) _)
  rw [BitReader.length_bits, BitReader.length_bits]
  exact Nat.add_le_add_left (Nat.mul_le_mul_left _ hleft) _

end

/-! ### One walk over the decoder for every property it keeps -/

/-- A part of LZDEC succeeds in a state with `P`, or runs out of input in a state with `E`: UnexpectedEndOfStream
with ERRINFO = BR_POS (41_lz R174). -/
inductive Res.Reads {α : Type} (P E : State → Prop) : Res State α → Prop
  | ok {a : α} {t : State} (h : P t) : Res.Reads P E (.ok a t)
  | runsOut {t : State} (h : E t) : Res.Reads P E (.raised .unexpectedEndOfStream t.br.pos.toNat t)

/-- What holds of every way a part goes on and of running out holds of the sequence. -/
theorem Res.Reads.bind {α β : Type} {P E : State → Prop} {x : Res State α} {f : α → State → Res State β}
    {Q : Res State β → Prop} (hx : x.Reads P E) (hok : ∀ a t, P t → Q (f a t))
    (hout : ∀ t, E t → Q (.raised .unexpectedEndOfStream t.br.pos.toNat t)) : Q (x.bind f) := by
  cases hx with
  | ok h => exact hok _ _ h
  | runsOut h => exact hout _ h

/-- A property that LZDEC's reads and output keep. `P n t` may count on at most `n` passes being left; a bit that is
read is one pass less. -/
structure LzKept (P : Nat → State → Prop) : Prop where
  bits : ∀ {n d t q}, P (n + d) t → t.br.Passes t.mem d q → P n { t with br := q }
  byte : ∀ {n t}, P n t → t.regs.lzCfg.mode = true → t.br.pos.toNat < t.br.endAddr.toNat →
    P n { t with br := t.br.skip 1 }
  emit : ∀ {n t} (b : Byte), P n t → t.hasRoom = true → P n (emit b t)

/-- The property, with room left in the output. -/
def InRoom (P : Nat → State → Prop) (n : Nat) (t : State) : Prop := P n t ∧ t.hasRoom = true

/-- How one pass of the loop ends (41_lz R163, R171, R174). -/
inductive LzPass (P : Nat → State → Prop) (n : Nat) : Res State Bool → Prop
  | more {t : State} (h : P n t) : LzPass P n (.ok true t)
  | marker {t : State} (h : InRoom P n t) : LzPass P n (.ok false (setTerm true t))
  | runsOut {k : Nat} {t : State} (h : InRoom P k t) :
      LzPass P n (.raised .unexpectedEndOfStream t.br.pos.toNat t)

/-- How the loop ends: at OUT_CAP (or at its bound, log 10), at an end marker, or out of input. -/
inductive LzEnd (P : Nat → State → Prop) : Res State Unit → Prop
  | full {n : Nat} {t : State} (h : P n t) (hfull : t.hasRoom = false ∨ n = 0) : LzEnd P (.ok () t)
  | marker {n : Nat} {t : State} (h : InRoom P n t) : LzEnd P (.ok () (setTerm true t))
  | runsOut {n : Nat} {t : State} (h : InRoom P n t) :
      LzEnd P (.raised .unexpectedEndOfStream t.br.pos.toNat t)

/-- What LZDEC keeps holds where it runs out of input. -/
theorem LzEnd.of_raised {P : Nat → State → Prop} {x : Res State Unit} (h : LzEnd P x) {e : ErrorName} {info : Nat}
    {t : State} (hx : x = .raised e info t) : ∃ n, P n t := by
  cases h with
  | full _ _ => cases hx
  | marker _ => cases hx
  | runsOut h =>
    cases hx
    obtain ⟨h, -⟩ := h
    exact ⟨_, h⟩

section
variable {P : Nat → State → Prop} {n : Nat} {t : State}

/-- A field read: `d` of its bits count as passes. -/
theorem getBits_reads (hP : LzKept P) {d k : Nat} (hd : d ≤ k) (h : InRoom P (n + d) t) :
    (getBits k t).Reads (InRoom P n) fun u => ∃ n, InRoom P n u := by
  obtain ⟨h, hroom⟩ := h
  unfold getBits
  cases hread : t.br.getBits t.mem k with
  | ok v q => exact .ok ⟨hP.bits h ((BitReader.passes_of_getBits_ok hread).mono hd), hroom⟩
  | raised e info q =>
    obtain ⟨rfl, rfl, hq⟩ := BitReader.passes_of_getBits_raised hread
    exact .runsOut (t := { t with br := q }) ⟨n + d, hP.bits (d := 0) h hq, hroom⟩

theorem readByte_reads (hP : LzKept P) (hmode : t.regs.lzCfg.mode = true) (h : InRoom P n t) :
    (readByte t).Reads (InRoom P n) fun u => ∃ n, InRoom P n u := by
  rcases readByte_cases t with ⟨hlt, he⟩ | ⟨-, he⟩ <;> rw [he]
  · exact .ok ⟨hP.byte h.1 hmode hlt, h.2⟩
  · exact .runsOut ⟨n, h⟩

theorem readBytes_reads (hP : LzKept P) (k : Nat) (hmode : t.regs.lzCfg.mode = true) (h : InRoom P n t) :
    (readBytes k t).Reads (InRoom P n) fun u => ∃ n, InRoom P n u := by
  induction k generalizing t with
  | zero => exact .ok h
  | succ k ih =>
    unfold readBytes
    rcases readByte_cases t with ⟨hlt, he⟩ | ⟨-, he⟩ <;> rw [he]
    · exact (ih (t := { t with br := t.br.skip 1 }) hmode ⟨hP.byte h.1 hmode hlt, h.2⟩).bind
        (fun _ _ h => .ok h) fun _ h => .runsOut h
    · exact .runsOut ⟨n, h⟩

theorem lzLiteral_reads (hP : LzKept P) (h : InRoom P n t) :
    (lzLiteral t).Reads (InRoom P n) fun u => ∃ n, InRoom P n u := by
  unfold lzLiteral
  split
  next hmode => exact readByte_reads hP hmode h
  next => exact (getBits_reads hP (Nat.zero_le 8) h).bind (fun _ _ h => .ok h) fun _ h => .runsOut h

theorem lzPairShared_reads (hP : LzKept P) (h : InRoom P n t) :
    (lzPairShared t).Reads (InRoom P n) fun u => ∃ n, InRoom P n u := by
  refine (getBits_reads hP (Nat.zero_le _) h).bind (fun off u h => ?_) fun _ h => .runsOut h
  split
  · exact .ok h
  · exact (getBits_reads hP (Nat.zero_le _) h).bind (fun _ _ h => .ok h) fun _ h => .runsOut h

theorem lzPairInterleaved_reads (hP : LzKept P) (hmode : t.regs.lzCfg.mode = true) (h : InRoom P n t) :
    (lzPairInterleaved t).Reads (InRoom P n) fun u => ∃ n, InRoom P n u := by
  refine (readBytes_reads hP _ hmode h).bind (fun v u h => ?_) fun _ h => .runsOut h
  dsimp only
  split <;> exact .ok h

/-- What LZDEC does with a pair: end at a marker, or copy (41_lz R171). -/
def lzAnswer (pair : Option (Nat × Nat)) (t : State) : Res State Bool :=
  match pair with
  | none => .ok false (setTerm true t)
  | some (off, len) =>
    if t.regs.lzCfg.endLen && len == t.regs.lzEndLen.toNat then .ok false (setTerm true t)
    else .ok true (lzCopy off (len + t.regs.lzLenBias.toNat) t)

theorem lzReference_eq (t : State) :
    lzReference t = (if t.regs.lzCfg.mode then lzPairInterleaved t else lzPairShared t).bind lzAnswer := rfl

theorem lzToken_eq (t : State) :
    lzToken t = (getBits 1 t).bind fun c t =>
      if c = 1 then (lzLiteral t).bind fun b t => .ok true (emit b t) else lzReference t := rfl

theorem lzAnswer_pass (hP : LzKept P) (h : InRoom P n t) (pair : Option (Nat × Nat)) :
    LzPass P n (lzAnswer pair t) := by
  unfold lzAnswer
  split
  · exact .marker h
  · split
    · exact .marker h
    · exact .more (lzCopy_keeps (P n) (fun b _ hroom h => hP.emit b h hroom) _ _ t h.1)

theorem lzReference_pass (hP : LzKept P) (h : InRoom P n t) : LzPass P n (lzReference t) := by
  have hpair : (if t.regs.lzCfg.mode then lzPairInterleaved t else lzPairShared t).Reads (InRoom P n)
      fun u => ∃ n, InRoom P n u := by
    split
    next hmode => exact lzPairInterleaved_reads hP hmode h
    next => exact lzPairShared_reads hP h
  rw [lzReference_eq]
  exact hpair.bind (fun pair _ h => lzAnswer_pass hP h pair) fun _ ⟨_, h⟩ => .runsOut h

/-- The control bit is the pass counted. -/
theorem lzToken_pass (hP : LzKept P) (h : InRoom P (n + 1) t) : LzPass P n (lzToken t) := by
  rw [lzToken_eq]
  refine (getBits_reads hP (Nat.le_refl 1) h).bind (fun c u h => ?_) fun _ ⟨_, h⟩ => .runsOut h
  split
  · exact (lzLiteral_reads hP h).bind (fun b _ h => .more (hP.emit b h.1 h.2)) fun _ ⟨_, h⟩ => .runsOut h
  · exact lzReference_pass hP h

theorem lzLoop_end (hP : LzKept P) (h : P n t) : LzEnd P (lzLoop n t) := by
  induction n generalizing t with
  | zero => exact .full h (.inr rfl)
  | succ n ih =>
    rw [lzLoop_succ]
    split
    next hroom =>
      have hpass := lzToken_pass hP ⟨h, hroom⟩
      generalize lzToken t = x at hpass
      cases hpass with
      | more h => exact ih h
      | marker h => exact .marker h
      | runsOut h => exact .runsOut h
    next hfull => exact .full h (.inl (Bool.eq_false_iff.2 hfull))

end

/-! ### The start-up checks (41_lz R163; 60_exceptions R304) -/

theorem configOk_legal_pass_iff (c : LzCfg) (reg : Reg) :
    (configOk c.legal reg).pass = true ↔
      ¬(c.wlog2.toNat < 1 ∨ 16 < c.wlog2.toNat ∨ c.offBits.toNat < 1 ∨ 16 < c.offBits.toNat
        ∨ c.lenBits.toNat < 1 ∨ 16 < c.lenBits.toNat) := by
  simp only [configOk, LzCfg.legal, Bool.and_eq_true, decide_eq_true_eq]
  omega

theorem configOk_lt_pass_iff (a b : Nat) (reg : Reg) : (configOk (a < b) reg).pass = true ↔ ¬b ≤ a :=
  decide_eq_true_iff.trans Nat.not_le.symm

theorem inMem_pass_iff (r : Range) (s : State) : (inMem r s).pass = true ↔ ¬s.memBytes < r.addr + r.len :=
  decide_eq_true_iff.trans Nat.not_lt.symm

/-- The first failing check refuses LZDEC, TERM cleared. -/
theorem exec_lzdec_of_failure {s : State} (herr : s.status.err = false) {c : Check}
    (hfail : firstFailure (lzdecChecks s) = some c) :
    exec .lzdec s
      = .next (({ s with status := { s.status with term := false } } : State).refused c.err c.info) := by
  have hfail' : firstFailure (lzdecChecks (setTerm false (accept s))) = some c := hfail
  show Host.Outcome.next (runCommand _ s) = _
  rw [runCommand_accepted herr, withChecks, hfail']
  rfl

/-- LZDEC changes nothing of STATUS before it ends. -/
theorem lzKept_status (status : Status) : LzKept fun _ t => t.status = status :=
  ⟨fun h _ => h, fun h _ _ => h, fun _ h _ => h⟩

/-- Past its checks LZDEC completes or runs out of input. -/
theorem exec_lzdec_of_ready_status {s : State} (hs : s.lzReady) :
    ∃ t, exec .lzdec s = .next t
      ∧ ((t.status.done = true ∧ t.status.err = false)
        ∨ (t.status.done = false ∧ t.status.err = true ∧ t.status.errCode = 1)) := by
  refine ⟨_, execLzdec_of_ready hs, ?_⟩
  have hend : LzEnd (fun _ t => t.status = (setTerm false (accept s)).status)
      (lzdecBody (setTerm false (accept s))) := lzLoop_end (lzKept_status _) rfl
  have herr : s.status.err = false := hs.1
  generalize lzdecBody (setTerm false (accept s)) = x at hend ⊢
  cases hend with
  | full h _ => exact .inl ⟨rfl, by rw [conclude_ok, finish_status, h]; exact herr⟩
  | marker h => exact .inl ⟨rfl, by rw [conclude_ok, finish_status]; exact (congrArg Status.err h.1).trans herr⟩
  | runsOut h => exact .inr ⟨congrArg Status.done h.1, rfl, rfl⟩

/-- Settles O25: each check fails in its turn, with those before it passed. -/
theorem lzdecRefusals : Obligations.LzdecRefusals := by
  intro s herr u c
  have hrefused (c : Check) := exec_lzdec_of_failure herr (c := c)
  have hlegal := configOk_legal_pass_iff s.regs.lzCfg .lzCfg
  have hstart := configOk_lt_pass_iff s.regs.lzInitPos.toNat s.regs.lzCfg.windowSize .lzInitPos
  have hin := inMem_pass_iff s.outRange s
  have hapart := apart_pass_iff s.unreadRange s.outRange .outAddr
  simp only [lzdecChecks, firstFailure_cons] at hrefused
  split
  next hinvalid =>
    have hfail : ¬(readerReady s).pass = true := Bool.eq_false_iff.1 hinvalid
    exact hrefused (readerReady s) (if_neg hfail)
  next hvalid =>
  have hready : (readerReady s).pass = true := eq_true_of_ne_false hvalid
  simp only [if_pos hready] at hrefused
  split
  next hbad => exact hrefused (configOk _ .lzCfg) (if_neg fun h => hlegal.1 h hbad)
  next hfields =>
  simp only [if_pos (hlegal.2 hfields)] at hrefused
  split
  next hbad => exact hrefused (configOk _ .lzInitPos) (if_neg fun h => hstart.1 h hbad)
  next hpos =>
  simp only [if_pos (hstart.2 hpos)] at hrefused
  split
  next hbad => exact hrefused (inMem s.outRange s) (if_neg fun h => hin.1 h hbad)
  next hout =>
  simp only [if_pos (hin.2 hout)] at hrefused
  split
  next hbad => exact hrefused (apart _ _ .outAddr) (if_neg fun h => hapart.1 h hbad)
  next hmeet =>
  simp only [not_or, Nat.not_lt] at hfields
  obtain ⟨hw, hw', ho, ho', hl, hl'⟩ := hfields
  exact exec_lzdec_of_ready_status ⟨herr, hready, ⟨hw, hw'⟩, ⟨ho, ho'⟩, ⟨hl, hl'⟩, Nat.lt_of_not_le hpos,
    Nat.le_of_not_lt hout, hmeet⟩

end Sys2Proof.Machine

/-! ## What every LZDEC leaves (41_lz R164, R165, R171, R174; 10_state R32, R47, R48) -/

namespace Sys2Proof.Machine

/-- LZDEC changes these fields alone (10_state R60). -/
def LzFrame (s t : State) : Prop :=
  ∃ u : State, t = { s with status := u.status, errInfo := u.errInfo, outLen := u.outLen, lzWPos := u.lzWPos,
                            win := u.win, br := u.br, mem := u.mem }

/-- `t` is reached by LZDEC from `s` with the output `out`, and what the tokens do not tell: the frame, where the
cursor stands (41_lz R165), the window from W on (10_state R48), and that shared mode reads whole units only. -/
structure LzRun (s : State) (out : List Byte) (t : State) : Prop extends LzAt s out t where
  frame : LzFrame s t
  errInfo : t.errInfo = s.errInfo
  cursor_eq : t.lzWPos.toNat = (s.regs.lzInitPos.toNat + out.length) % s.regs.lzCfg.windowSize
  above : ∀ i, s.regs.lzCfg.windowSize ≤ i → t.win.read i = s.win.read i
  units : s.regs.lzCfg.mode = false → ∃ j, s.br.Ahead t.br j

/-- The frame in the words of the claim. -/
theorem LzFrame.eq {s t : State} (h : LzFrame s t) :
    t = { s with status := t.status, errInfo := t.errInfo, outLen := t.outLen, lzWPos := t.lzWPos, win := t.win,
                 br := t.br, mem := t.mem } := by
  obtain ⟨u, rfl⟩ := h
  rfl

theorem LzFrame.trans {s t v : State} (h : LzFrame s t) (h' : LzFrame t v) : LzFrame s v := by
  obtain ⟨u, rfl⟩ := h
  obtain ⟨w, rfl⟩ := h'
  exact ⟨w, rfl⟩

/-- The position `back` steps behind the cursor is that of the output byte `back` from the end. -/
theorem back_of_cursor {p w k n : Nat} (hk : k < n) (hle : n ≤ k + w) :
    ((p + n) % w + w - (n - k)) % w = (p + k) % w := by
  have hmod := Nat.mod_add_div (p + n) w
  have heq : (p + n) % w + w - (n - k) + w * ((p + n) / w) = p + k + w := by omega
  rw [← Nat.add_mul_mod_self_left _ w ((p + n) / w), heq, Nat.add_mod_right]

/-- Every position of the window is some steps behind the cursor. -/
theorem exists_back {p w i : Nat} (hp : p < w) (hi : i < w) :
    ∃ back, 1 ≤ back ∧ back ≤ w ∧ (p + w - back) % w = i := by
  rcases Nat.lt_or_ge i p with h | h
  · exact ⟨p - i, by omega, by omega, by
      rw [show p + w - (p - i) = i + w by omega, Nat.add_mod_right, Nat.mod_eq_of_lt hi]⟩
  · exact ⟨p + w - i, by omega, by omega, by
      rw [show p + w - (p + w - i) = i by omega, Nat.mod_eq_of_lt hi]⟩

section
variable {s t : State} {out : List Byte}

theorem LzAt.advance {q : BitReader} (h : LzAt s out t) (hq : t.br.Later q) : LzAt s out { t with br := q } :=
  { h with reader := h.reader.trans hq }

theorem LzRun.init (hs : s.lzReady) (hr : s.br.sound) : LzRun s [] (lzInit s) where
  toLzAt := .init hs hr
  frame := ⟨lzInit s, rfl⟩
  errInfo := rfl
  cursor_eq := (Nat.mod_eq_of_lt (LzAt.init hs hr).cursor).symm
  above i hi := by rw [lzInit_win, Window.read_fill, if_neg (Nat.not_lt.2 hi)]
  units _ := ⟨0, .refl hr⟩

/-- Reading moves the reader alone. -/
theorem LzRun.advance {q : BitReader} (h : LzRun s out t) (hq : t.br.Later q)
    (hunits : s.regs.lzCfg.mode = false → ∃ j, t.br.Ahead q j) : LzRun s out { t with br := q } where
  toLzAt := h.toLzAt.advance hq
  frame := h.frame.trans ⟨{ t with br := q }, rfl⟩
  errInfo := h.errInfo
  cursor_eq := h.cursor_eq
  above := h.above
  units hmode := by
    obtain ⟨i, hi⟩ := h.units hmode
    obtain ⟨j, hj⟩ := hunits hmode
    exact ⟨i + j, hi.trans hj⟩

theorem LzRun.emit (hs : s.lzReady) (h : LzRun s out t) (hroom : t.hasRoom = true) (b : Byte) :
    LzRun s (out ++ [b]) (Machine.emit b t) where
  toLzAt := (h.toLzAt.emit hs (h.hasRoom_iff.1 hroom) b).1
  frame := h.frame.trans ⟨Machine.emit b t, rfl⟩
  errInfo := h.errInfo
  cursor_eq := by
    have hlt : (t.lzWPos.toNat + 1) % s.regs.lzCfg.windowSize < 2 ^ 16 := by
      obtain ⟨-, -, ⟨-, hwlog⟩, -⟩ := hs
      exact (Nat.mod_lt _ s.regs.lzCfg.windowSize_pos).trans_le (Nat.pow_le_pow_right (by decide) hwlog)
    rw [emit_lzWPos, h.regs, BitVec.toNat_ofNat, Nat.mod_eq_of_lt hlt, h.cursor_eq, Nat.mod_add_mod,
      List.length_append, List.length_singleton, Nat.add_assoc]
  above i hi := by
    have := h.cursor
    rw [emit_win, Window.read_write, if_neg (by omega), h.above i hi]
  units := h.units

/-- LZDEC's reads and output keep the run, and each bit read shortens what is left to read. -/
theorem lzKept_run (hs : s.lzReady) :
    LzKept fun n t => (∃ out, LzRun s out t) ∧ t.stream.length < n where
  bits := by
    rintro n d t q ⟨⟨out, h⟩, hlen⟩ hq
    obtain ⟨hahead, hlen'⟩ := hq h.reader.sound
    refine ⟨⟨out, h.advance (hq.later h.reader.sound) fun _ => hahead⟩, ?_⟩
    show (q.bits t.mem).length < n
    have : t.stream.length = (t.br.bits t.mem).length := rfl
    omega
  byte := by
    rintro n t ⟨⟨out, h⟩, hlen⟩ hmode hlt
    refine ⟨⟨out, h.advance (BitReader.later_skip h.reader.sound hlt) fun hshared => ?_⟩,
      (BitReader.length_bits_skip_le hlt).trans_lt hlen⟩
    rw [h.regs, hshared] at hmode
    cases hmode
  emit := by
    rintro n t b ⟨⟨out, h⟩, hlen⟩ hroom
    refine ⟨⟨_, h.emit hs hroom b⟩, ?_⟩
    rw [(h.toLzAt.emit hs (h.hasRoom_iff.1 hroom) b).2]
    exact hlen

/-- LZDEC's body ends in a run, and its bound is never reached (70_reset R358). -/
theorem lzdecBody_end (hs : s.lzReady) (hr : s.br.sound) :
    LzEnd (fun n t => (∃ out, LzRun s out t) ∧ t.stream.length < n) (lzdecBody s) :=
  lzLoop_end (lzKept_run hs) ⟨⟨[], .init hs hr⟩, Nat.lt_succ_of_le (s.br.length_bits_le s.mem)⟩

theorem LzRun.readerOk (h : LzRun s out t) (hreader : s.readerOk) : t.readerOk := by
  obtain ⟨u, hu⟩ := h.frame
  have hok := State.readerOk_advance hreader ⟨h.reader.source, fun _ => h.reader.sound⟩
  subst hu
  exact hok

/-- The window in use shows the last W bytes of the output. -/
theorem LzRun.window_output (h : LzRun s out t) {k : Nat} (hk : k < out.length)
    (hle : out.length ≤ k + s.regs.lzCfg.windowSize) :
    t.win.read ((s.regs.lzInitPos.toNat + k) % s.regs.lzCfg.windowSize)
      = t.mem.read (s.regs.outAddr.toNat + k) := by
  have hback := h.window (out.length - k) (by omega) (by omega)
  rw [h.cursor_eq, back_of_cursor hk hle] at hback
  rw [hback, h.wrote.1 k hk, earlierByte, if_pos (Nat.sub_le _ _), Nat.sub_sub_self hk.le]

/-- It shows the fill byte where no output has come. -/
theorem LzRun.window_fill (h : LzRun s out t) {i : Nat} (hi : i < s.regs.lzCfg.windowSize)
    (hnone : ∀ k, k < out.length → (s.regs.lzInitPos.toNat + k) % s.regs.lzCfg.windowSize ≠ i) :
    t.win.read i = s.regs.lzFill := by
  obtain ⟨back, h1, hle, rfl⟩ := exists_back h.cursor hi
  rw [h.window back h1 hle, earlierByte, if_neg]
  intro hout
  refine hnone (out.length - back) (by omega) ?_
  rw [h.cursor_eq, ← back_of_cursor (k := out.length - back) (n := out.length) (by omega) (by omega),
    Nat.sub_sub_self hout]

/-- What a run leaves beside STATUS and ERRINFO. -/
theorem LzRun.leaves (h : LzRun s out t) (hreader : s.readerOk) :
    s.br.sameSource t.br ∧ s.br.pos.toNat ≤ t.br.pos.toNat ∧ t.readerOk
      ∧ (∀ a, a < s.regs.outAddr.toNat ∨ s.regs.outAddr.toNat + t.outLen.toNat ≤ a → t.mem.read a = s.mem.read a)
      ∧ t.lzWPos.toNat = (s.regs.lzInitPos.toNat + t.outLen.toNat) % s.regs.lzCfg.windowSize
      ∧ (∀ k, k < t.outLen.toNat → t.outLen.toNat ≤ k + s.regs.lzCfg.windowSize →
          t.win.read ((s.regs.lzInitPos.toNat + k) % s.regs.lzCfg.windowSize) = t.mem.read (s.regs.outAddr.toNat + k))
      ∧ (∀ i, i < s.regs.lzCfg.windowSize →
          (∀ k, k < t.outLen.toNat → (s.regs.lzInitPos.toNat + k) % s.regs.lzCfg.windowSize ≠ i) →
          t.win.read i = s.regs.lzFill)
      ∧ (∀ i, s.regs.lzCfg.windowSize ≤ i → t.win.read i = s.win.read i) := by
  rw [h.outLen]
  exact ⟨h.reader.source, h.reader.pos_le, h.readerOk hreader, h.wrote.2, h.cursor_eq,
    fun k hk hle => h.window_output hk hle, fun i hi hnone => h.window_fill hi hnone, h.above⟩

/-! ### The end of LZDEC (60_exceptions R306, R307) -/

theorem LzAt.status_finish (h : LzAt (setTerm false (accept s)) out t) :
    (finish t).status = { s.status with done := true, term := false } := by
  rw [finish_status, h.status]
  rfl

theorem LzAt.status_marker (h : LzAt (setTerm false (accept s)) out t) :
    (finish (setTerm true t)).status = { s.status with done := true, term := true } := by
  rw [finish_status, setTerm_status, h.status]
  rfl

theorem LzAt.status_raised (h : LzAt (setTerm false (accept s)) out t) (info : Nat) :
    (raiseError .unexpectedEndOfStream info t).status = { done := false, err := true, term := false, errCode := 1 } := by
  rw [raiseError_status, h.status]
  rfl

theorem LzAt.outLen_eq_cap (h : LzAt s out t) (hfull : s.regs.outCap.toNat ≤ out.length) :
    t.outLen = s.regs.outCap :=
  BitVec.eq_of_toNat_eq (h.outLen.trans (Nat.le_antisymm h.fits hfull))

end

/-- Settles O26: the body ends in a run (`lzdecBody_end`), and recording its end changes STATUS and ERRINFO alone. -/
theorem lzdecOutcome : Obligations.LzdecOutcome := by
  intro s hs _ hreader
  obtain ⟨hsound, -⟩ := s.readerOk_iff.1 hreader hs.valid
  have hend := lzdecBody_end (s := setTerm false (accept s)) hs hsound
  have hstart : LzFrame s (setTerm false (accept s)) := ⟨setTerm false (accept s), rfl⟩
  refine ⟨_, execLzdec_of_ready hs, ?_⟩
  generalize lzdecBody (setTerm false (accept s)) = x at hend ⊢
  cases hend with
  | @full n t h hfull =>
    obtain ⟨⟨out, h⟩, hlen⟩ := h
    have hcap : s.regs.outCap.toNat ≤ out.length := by
      have hroom : t.hasRoom = false := hfull.resolve_right (by omega)
      exact Nat.le_of_not_lt fun hlt => Bool.eq_false_iff.1 hroom (h.hasRoom_iff.2 hlt)
    exact ⟨((hstart.trans h.frame).trans ⟨finish t, rfl⟩).eq,
      .inl ⟨h.status_finish, h.errInfo, h.outLen_eq_cap hcap⟩, h.leaves hreader⟩
  | @marker n t h =>
    obtain ⟨⟨⟨out, h⟩, -⟩, hroom⟩ := h
    exact ⟨((hstart.trans h.frame).trans ⟨finish (setTerm true t), rfl⟩).eq,
      .inr (.inl ⟨h.status_marker, h.errInfo, h.outLen.trans_lt (h.hasRoom_iff.1 hroom)⟩), h.leaves hreader⟩
  | @runsOut n t h =>
    obtain ⟨⟨⟨out, h⟩, -⟩, hroom⟩ := h
    exact ⟨((hstart.trans h.frame).trans ⟨raiseError _ _ t, rfl⟩).eq,
      .inr (.inr ⟨h.status_raised _, by simp, h.outLen.trans_lt (h.hasRoom_iff.1 hroom)⟩), h.leaves hreader⟩

end Sys2Proof.Machine

/-! ## LZDEC ends at a marker or inside a token (41_lz R163, R167, R171, R173, R174) -/

namespace Sys2Proof.Machine

/-! ### One pass, from what its parts read -/

section
variable {t u v : State}

theorem lzAnswer_none (t : State) : lzAnswer none t = .ok false (setTerm true t) := rfl

theorem lzAnswer_some (off len : Nat) (t : State) :
    lzAnswer (some (off, len)) t =
      if t.regs.lzCfg.endLen && len == t.regs.lzEndLen.toNat then .ok false (setTerm true t)
      else .ok true (lzCopy off (len + t.regs.lzLenBias.toNat) t) := rfl

theorem lzToken_of_literal {b : Byte} (hcontrol : getBits 1 t = .ok 1 u) (hbyte : lzLiteral u = .ok b v) :
    lzToken t = .ok true (emit b v) := by
  rw [lzToken_eq, hcontrol, Res.bind_of_ok, if_pos rfl, hbyte, Res.bind_of_ok]

theorem lzToken_of_reference (hcontrol : getBits 1 t = .ok 0 u) : lzToken t = lzReference u := by
  rw [lzToken_eq, hcontrol, Res.bind_of_ok, if_neg Nat.zero_ne_one]

theorem lzReference_shared (hmode : t.regs.lzCfg.mode = false) :
    lzReference t = (lzPairShared t).bind lzAnswer := by
  rw [lzReference_eq, hmode, if_neg Bool.false_ne_true]

theorem lzReference_interleaved (hmode : t.regs.lzCfg.mode = true) :
    lzReference t = (lzPairInterleaved t).bind lzAnswer := by
  rw [lzReference_eq, if_pos hmode]

end

/-! ### The end of the loop -/

section
variable {s t u : State} {out : List Byte} {fuel : Nat}

/-- An end marker ends LZDEC. -/
theorem exec_lzdec_of_marker (hs : s.lzReady)
    (hbody : lzdecBody (setTerm false (accept s)) = lzLoop (fuel + 1) t)
    (h : LzAt (setTerm false (accept s)) out t) (hroom : out.length < s.regs.outCap.toNat)
    (hmarker : lzToken t = .ok false (setTerm true u)) :
    exec .lzdec s = .next (finish (setTerm true u)) := by
  rw [execLzdec_of_ready hs, hbody, lzLoop_succ, if_pos (h.hasRoom_iff.2 hroom), hmarker]
  rfl

/-- A token that is not there ends LZDEC with the output so far (41_lz R174). -/
theorem exec_lzdec_of_runsOut (hs : s.lzReady)
    (hbody : lzdecBody (setTerm false (accept s)) = .raised .unexpectedEndOfStream u.br.pos.toNat u)
    (h : LzAt (setTerm false (accept s)) out u) :
    ∃ v, exec .lzdec s = .next v
      ∧ v.status = { done := false, err := true, term := false, errCode := 1 }
      ∧ v.errInfo = u.br.pos ∧ v.br = u.br ∧ v.outLen.toNat = out.length ∧ s.wrote v out := by
  refine ⟨raiseError .unexpectedEndOfStream u.br.pos.toNat u, ?_, h.status_raised u.br.pos.toNat, by simp, rfl,
    h.outLen, h.wrote⟩
  rw [execLzdec_of_ready hs, hbody, conclude_raised]

/-- A pass that runs out of input ends the loop. -/
theorem LzAt.loop_runsOut (h : LzAt s out t) (hroom : out.length < s.regs.outCap.toNat)
    (htoken : lzToken t = .raised .unexpectedEndOfStream u.br.pos.toNat u) :
    lzLoop (fuel + 1) t = .raised .unexpectedEndOfStream u.br.pos.toNat u := by
  rw [lzLoop_succ, if_pos (h.hasRoom_iff.2 hroom), htoken, Res.bind_of_raised]

end

/-! ### Shared mode -/

section
variable {s t : State} {out : List Byte}

/-- LZDEC's body over tokens that leave room comes to the pass behind them. -/
theorem lzdecBody_of_tokens_inRoom {toks : List LzToken} {rest : List Bool} (hs : s.lzReady) (hr : s.br.sound)
    (hmode : s.regs.lzCfg.mode = false) (htoks : ∀ tok ∈ toks, tok.plain s.regs)
    (hstream : s.stream = toks.flatMap (LzToken.bits s.br.order s.regs.lzCfg) ++ rest)
    (hroom : (expandTokens s.regs toks).length < s.regs.outCap.toNat) :
    ∃ t fuel, lzdecBody s = lzLoop (fuel + 1) t ∧ LzAt s (expandTokens s.regs toks) t ∧ t.stream = rest := by
  obtain ⟨t, ht, hat, hrest⟩ := (LzAt.init hs hr).loop_tokens hs hmode htoks hstream hroom
  have hfuel : toks.length ≤ s.br.bitsLeft := by
    have hlen : (s.br.bits s.mem).length = _ := congrArg List.length hstream
    have := s.br.length_bits_le s.mem
    have := LzToken.length_le_bits s.br.order s.regs.lzCfg toks
    rw [List.length_append] at hlen
    omega
  obtain ⟨k, hk⟩ := Nat.exists_eq_add_of_le hfuel
  refine ⟨t, k, ?_, hat, hrest⟩
  rw [← ht]
  show lzLoop (s.br.bitsLeft + 1) (lzInit s) = _
  rw [hk, Nat.add_assoc]

/-- The bits of an end marker in shared mode (41_lz R167, R171). -/
def IsMarker (order : BitOrder) (regs : HostRegs) (marker : List Bool) : Prop :=
  (regs.lzCfg.endOff0 = true ∧ marker = false :: fieldBits order regs.lzCfg.offBits.toNat 0)
    ∨ (regs.lzCfg.endLen = true
        ∧ ∃ off, off < 2 ^ regs.lzCfg.offBits.toNat
          ∧ ¬(regs.lzCfg.endOff0 = true ∧ off = 0)
          ∧ regs.lzEndLen.toNat < 2 ^ regs.lzCfg.lenBits.toNat
          ∧ marker = LzToken.bits order regs.lzCfg (.copy off regs.lzEndLen.toNat))

/-- An offset field 0 that ends the stream: the length field is not read (41_lz R167). -/
theorem LzAt.pair_endOff0 (h : LzAt s out t) (hend : s.regs.lzCfg.endOff0 = true) {rest : List Bool}
    (hstream : t.stream = fieldBits s.br.order s.regs.lzCfg.offBits.toNat 0 ++ rest) :
    ∃ u, lzPairShared t = .ok none u ∧ LzAt s out u ∧ u.stream = rest := by
  obtain ⟨u, hu, hat, hrest⟩ := h.getBits (Nat.two_pow_pos _) hstream
  refine ⟨u, ?_, hat, hrest⟩
  rw [lzPairShared, h.regs, hu, Res.bind_of_ok, hat.regs, hend]
  rfl

theorem LzAt.marker (hmode : s.regs.lzCfg.mode = false) (h : LzAt s out t) {marker rest : List Bool}
    (hmarker : IsMarker s.br.order s.regs marker) (hstream : t.stream = marker ++ rest) :
    ∃ u, lzToken t = .ok false (setTerm true u) ∧ LzAt s out u ∧ u.stream = rest := by
  rcases hmarker with ⟨hend, rfl⟩ | ⟨hend, off, hoff, hoff0, hlen, rfl⟩
  · obtain ⟨u, hu, hat, hrest⟩ := h.control hstream
    obtain ⟨v, hv, hat', hrest'⟩ := hat.pair_endOff0 hend hrest
    refine ⟨v, ?_, hat', hrest'⟩
    rw [lzToken_of_reference hu, lzReference_shared (hat.regs ▸ hmode), hv, Res.bind_of_ok, lzAnswer_none]
  · rw [LzToken.bits, List.cons_append, List.append_assoc] at hstream
    obtain ⟨u, hu, hat, hrest⟩ := h.control hstream
    obtain ⟨v, hv, hat', hrest'⟩ := hat.pair hoff hlen hoff0 hrest
    refine ⟨v, ?_, hat', hrest'⟩
    rw [lzToken_of_reference hu, lzReference_shared (hat.regs ▸ hmode), hv, Res.bind_of_ok, lzAnswer_some, hat'.regs,
      if_pos (by simp [hend])]

theorem length_lt_of_prefix_ne {α : Type} {l l' : List α} (h : l <+: l') (hne : l ≠ l') : l.length < l'.length :=
  lt_of_le_of_ne h.length_le (mt h.eq_of_length hne)

/-- A field that is not there whole leaves the reader at the end of its source (40_bitreader R150). -/
theorem LzAt.getBits_runsOut (h : LzAt s out t) {n : Nat} (hfew : t.stream.length < n) :
    ∃ u, Machine.getBits n t = .raised .unexpectedEndOfStream u.br.pos.toNat u ∧ LzAt s out u
      ∧ u.br.atEnd = u.br := by
  have hsound := h.reader.sound
  refine ⟨{ t with br := t.br.atEnd }, ?_, h.advance (BitReader.ahead_atEnd hsound).toLater,
    BitReader.atEnd_atEnd hsound⟩
  rw [Machine.getBits, BitReader.getBits_of_few hsound hfew]
  rfl

theorem LzAt.literal_runsOut (hmode : s.regs.lzCfg.mode = false) (h : LzAt s out t) (hfew : t.stream.length < 8) :
    ∃ u, lzLiteral t = .raised .unexpectedEndOfStream u.br.pos.toNat u ∧ LzAt s out u ∧ u.br.atEnd = u.br := by
  obtain ⟨u, hu, hat, hend⟩ := h.getBits_runsOut hfew
  refine ⟨u, ?_, hat, hend⟩
  rw [lzLiteral, h.regs, hmode, if_neg Bool.false_ne_true, hu, Res.bind_of_raised]

/-- A pair breaks off in its offset, or in its length where the offset does not end the stream. -/
theorem LzAt.pair_runsOut (h : LzAt s out t) {off len : Nat} (hoff : off < 2 ^ s.regs.lzCfg.offBits.toNat)
    (hend : ¬(s.regs.lzCfg.endOff0 = true ∧ off = 0))
    (hfrag : t.stream <+: fieldBits s.br.order s.regs.lzCfg.offBits.toNat off
      ++ fieldBits s.br.order s.regs.lzCfg.lenBits.toNat len)
    (hne : t.stream ≠ fieldBits s.br.order s.regs.lzCfg.offBits.toNat off
      ++ fieldBits s.br.order s.regs.lzCfg.lenBits.toNat len) :
    ∃ u, lzPairShared t = .raised .unexpectedEndOfStream u.br.pos.toNat u ∧ LzAt s out u ∧ u.br.atEnd = u.br := by
  have hlen := length_lt_of_prefix_ne hfrag hne
  rw [List.length_append, length_fieldBits, length_fieldBits] at hlen
  by_cases hfew : t.stream.length < s.regs.lzCfg.offBits.toNat
  · obtain ⟨u, hu, hat, hatEnd⟩ := h.getBits_runsOut hfew
    exact ⟨u, by rw [lzPairShared, h.regs, hu, Res.bind_of_raised], hat, hatEnd⟩
  · obtain ⟨frag, hstream⟩ := List.prefix_of_prefix_length_le (List.prefix_append _ _) hfrag
      (by rw [length_fieldBits]; omega)
    obtain ⟨u, hu, hat, hrest⟩ := h.getBits hoff hstream.symm
    have hgo : ¬((s.regs.lzCfg.endOff0 && off == 0) = true) := by simpa using hend
    have hfew' : u.stream.length < s.regs.lzCfg.lenBits.toNat := by
      rw [← hstream, List.length_append, length_fieldBits] at hlen
      rw [hrest]
      omega
    obtain ⟨v, hv, hat', hatEnd⟩ := hat.getBits_runsOut hfew'
    exact ⟨v, by rw [lzPairShared, h.regs, hu, Res.bind_of_ok, hat.regs, if_neg hgo, hv, Res.bind_of_raised], hat',
      hatEnd⟩

/-- A token that breaks off runs out of input, with the reader at the end of its source (41_lz R174). -/
theorem LzAt.token_runsOut (hmode : s.regs.lzCfg.mode = false) (h : LzAt s out t) {tok : LzToken}
    (htok : tok.plain s.regs) (hfrag : t.stream <+: tok.bits s.br.order s.regs.lzCfg)
    (hne : t.stream ≠ tok.bits s.br.order s.regs.lzCfg) :
    ∃ u, lzToken t = .raised .unexpectedEndOfStream u.br.pos.toNat u ∧ LzAt s out u ∧ u.br.atEnd = u.br := by
  have hnone (hnil : t.stream = []) : ∃ u, lzToken t = .raised .unexpectedEndOfStream u.br.pos.toNat u
      ∧ LzAt s out u ∧ u.br.atEnd = u.br := by
    obtain ⟨u, hu, hat, hend⟩ := h.getBits_runsOut (n := 1) (by rw [hnil]; exact Nat.one_pos)
    exact ⟨u, by rw [lzToken_eq, hu, Res.bind_of_raised], hat, hend⟩
  cases tok with
  | literal b =>
    rcases List.prefix_cons_iff.1 hfrag with hnil | ⟨frag, hstream, hfrag'⟩
    · exact hnone hnil
    obtain ⟨u, hu, hat, hrest⟩ := h.control hstream
    have hfew := length_lt_of_prefix_ne hfrag' fun he => hne (hstream.trans (congrArg _ he))
    rw [length_fieldBits, ← hrest] at hfew
    obtain ⟨v, hv, hat', hend⟩ := hat.literal_runsOut hmode hfew
    exact ⟨v, by rw [lzToken_eq, hu, Res.bind_of_ok, if_pos Bool.toNat_true, hv, Res.bind_of_raised], hat', hend⟩
  | copy off len =>
    obtain ⟨hoff, -, hoff0, -⟩ := htok
    rcases List.prefix_cons_iff.1 hfrag with hnil | ⟨frag, hstream, hfrag'⟩
    · exact hnone hnil
    obtain ⟨u, hu, hat, hrest⟩ := h.control hstream
    obtain ⟨v, hv, hat', hend⟩ := hat.pair_runsOut hoff hoff0 (hrest ▸ hfrag')
      fun he => hne (hstream.trans (congrArg _ (hrest.symm.trans he)))
    exact ⟨v, by rw [lzToken_of_reference hu, lzReference_shared (hat.regs ▸ hmode), hv, Res.bind_of_raised], hat',
      hend⟩

/-- Where shared mode runs out at the end of a source, that is the end of the source it began with. -/
theorem lzdecBody_atEnd (hs : s.lzReady) (hr : s.br.sound) (hmode : s.regs.lzCfg.mode = false) {e : ErrorName}
    {info : Nat} (hbody : lzdecBody s = .raised e info t) (hend : t.br.atEnd = t.br) : t.br = s.br.atEnd := by
  obtain ⟨-, ⟨out, hrun⟩, -⟩ := (lzdecBody_end hs hr).of_raised hbody
  obtain ⟨j, hj⟩ := hrun.units hmode
  rw [← hend, hj.atEnd_eq]

end

/-- Settles O28: behind the tokens comes the marker (`LzAt.marker`). -/
theorem lzdecStopsAtMarker : Obligations.LzdecStopsAtMarker := by
  intro s toks marker rest hs _ hreader hmode htoks hmarker hstream hroom
  obtain ⟨hsound, -⟩ := s.readerOk_iff.1 hreader hs.valid
  rw [List.append_assoc] at hstream
  obtain ⟨t, fuel, hbody, hat, hrest⟩ :=
    lzdecBody_of_tokens_inRoom (s := setTerm false (accept s)) hs hsound hmode htoks hstream hroom
  obtain ⟨u, hu, hat', hrest'⟩ := LzAt.marker (s := setTerm false (accept s)) hmode hat hmarker hrest
  exact ⟨_, exec_lzdec_of_marker hs hbody hat hroom hu, hat'.status_marker, hat'.outLen, hat'.wrote, hrest'⟩

/-- Settles O29: behind the tokens comes one that breaks off (`LzAt.token_runsOut`). -/
theorem lzdecRunsOut : Obligations.LzdecRunsOut := by
  intro s toks next frag hs _ hreader hmode htoks hnext hfrag hne hstream hroom
  obtain ⟨hsound, -⟩ := s.readerOk_iff.1 hreader hs.valid
  obtain ⟨t, fuel, hbody, hat, hrest⟩ :=
    lzdecBody_of_tokens_inRoom (s := setTerm false (accept s)) hs hsound hmode htoks hstream hroom
  rw [← hrest] at hfrag hne
  obtain ⟨u, hu, hat', hatEnd⟩ :=
    LzAt.token_runsOut (s := setTerm false (accept s)) hmode hat hnext hfrag hne
  have hraised : lzdecBody (setTerm false (accept s)) = .raised .unexpectedEndOfStream u.br.pos.toNat u := by
    rw [hbody, hat.loop_runsOut hroom hu]
  have hend : u.br = s.br.atEnd := lzdecBody_atEnd (s := setTerm false (accept s)) hs hsound hmode hraised hatEnd
  rw [← hend]
  exact exec_lzdec_of_runsOut hs hraised hat'

end Sys2Proof.Machine

/-! ## LZDEC in interleaved mode (41_lz R168, R169, R171, R174; 40_bitreader R146, R150) -/

namespace Sys2Proof.Machine

/-! ### Reading depends on the bytes of the source alone -/

section
variable {m m' : Memory} {r q : BitReader} {n : Nat}

theorem BitReader.refillUnit_congr (h : ∀ a, r.pos.toNat ≤ a → a < r.endAddr.toNat → m'.read a = m.read a) :
    r.refillUnit m' = r.refillUnit m := by
  unfold BitReader.refillUnit
  split
  · rfl
  next hin =>
    rw [Memory.readBE_congr fun a h1 h2 => h a h1 (by omega), Memory.readLE_congr fun a h1 h2 => h a h1 (by omega)]

theorem BitReader.ensure_congr (h : ∀ a, r.pos.toNat ≤ a → a < r.endAddr.toNat → m'.read a = m.read a) :
    r.ensure m' = r.ensure m := by
  unfold BitReader.ensure
  rw [BitReader.refillUnit_congr h]

theorem BitReader.getBitsLoop_congr {fuel got result : Nat} (hr : r.sound)
    (h : ∀ a, r.pos.toNat ≤ a → a < r.endAddr.toNat → m'.read a = m.read a) :
    r.getBitsLoop m' n fuel got result = r.getBitsLoop m n fuel got result := by
  induction fuel generalizing got result r with
  | zero => rfl
  | succ fuel ih =>
    unfold BitReader.getBitsLoop
    rw [BitReader.ensure_congr h]
    split
    · rfl
    · cases he : r.ensure m with
      | raised e info p => rfl
      | ok x p =>
        obtain ⟨j, hp⟩ := BitReader.ensure_ahead hr he
        have hlater := hp.toLater.trans (BitReader.take_ahead hp.sound (Nat.min_le_right (n - got) _)).toLater
        exact ih hlater.sound fun a h1 h2 => h a (hlater.pos_le.trans h1) (hlater.endAddr_eq ▸ h2)

theorem BitReader.getBits_congr (hr : r.sound)
    (h : ∀ a, r.pos.toNat ≤ a → a < r.endAddr.toNat → m'.read a = m.read a) : r.getBits m' n = r.getBits m n :=
  BitReader.getBitsLoop_congr hr h

/-- A control bit whose unit is not there whole (40_bitreader R143). -/
theorem BitReader.getBits_one_of_short (hcnt : r.cnt = 0) (hshort : r.endAddr.toNat < r.pos.toNat + r.refill.bytes) :
    r.getBits m 1 = .raised .unexpectedEndOfStream r.pos.toNat { r with acc := 0 } := by
  have hrefill := (r.refillUnit_cases m).resolve_right fun h => absurd h.1 (Nat.not_le.2 hshort)
  rw [BitReader.getBits, BitReader.getBitsLoop, if_neg (by decide), BitReader.ensure, if_pos hcnt, hrefill.2,
    Res.bind_of_raised, ← hcnt]

end

/-! ### Whole bytes -/

theorem readByte_of_inside {t : State} (h : t.br.pos.toNat < t.br.endAddr.toNat) :
    readByte t = .ok (t.mem.read t.br.pos.toNat) { t with br := t.br.skip 1 } := by
  rcases readByte_cases t with ⟨-, he⟩ | ⟨hout, -⟩
  · exact he
  · omega

theorem readByte_of_outside {t : State} (h : t.br.endAddr.toNat ≤ t.br.pos.toNat) :
    readByte t = .raised .unexpectedEndOfStream t.br.pos.toNat t := by
  rcases readByte_cases t with ⟨hin, -⟩ | ⟨-, he⟩
  · omega
  · exact he

theorem readBytes_succ (n : Nat) (t : State) :
    readBytes (n + 1) t =
      (readByte t).bind fun b t => (readBytes n t).bind fun v t => .ok (b.toNat ||| (v <<< 8)) t := rfl

/-- The bytes of a pair that are all there (41_lz R169). -/
theorem readBytes_of_inside {n : Nat} {t : State} (h : t.br.pos.toNat + n ≤ t.br.endAddr.toNat) :
    readBytes n t = .ok (t.mem.readLE t.br.pos.toNat n) { t with br := t.br.skip n } := by
  induction n generalizing t with
  | zero => rw [BitReader.skip_zero]; rfl
  | succ n ih =>
    have hpos : (t.br.skip 1).pos.toNat = t.br.pos.toNat + 1 := BitReader.skip_pos (by omega)
    have hrest := ih (t := { t with br := t.br.skip 1 }) (show _ ≤ t.br.endAddr.toNat by rw [hpos]; omega)
    rw [readBytes_succ, readByte_of_inside (by omega), Res.bind_of_ok, hrest, Res.bind_of_ok]
    dsimp only
    rw [hpos, BitReader.skip_skip (by omega), Nat.add_comm 1 n]
    rfl

/-- Bytes that are not all there: those that are there are consumed (41_lz R174). -/
theorem readBytes_of_outside {n : Nat} {t : State} (hle : t.br.pos.toNat ≤ t.br.endAddr.toNat)
    (h : t.br.endAddr.toNat < t.br.pos.toNat + n) :
    readBytes n t = .raised .unexpectedEndOfStream t.br.endAddr.toNat
      { t with br := { t.br with pos := t.br.endAddr } } := by
  induction n generalizing t with
  | zero => omega
  | succ n ih =>
    rw [readBytes_succ]
    rcases Nat.lt_or_ge t.br.pos.toNat t.br.endAddr.toNat with hlt | hge
    · have hpos : (t.br.skip 1).pos.toNat = t.br.pos.toNat + 1 := BitReader.skip_pos hlt
      have hrest := ih (t := { t with br := t.br.skip 1 }) (show _ ≤ t.br.endAddr.toNat by rw [hpos]; omega)
        (show t.br.endAddr.toNat < _ by rw [hpos]; omega)
      rw [readByte_of_inside hlt, Res.bind_of_ok, hrest]
      rfl
    · have heq : t.br.pos = t.br.endAddr := BitVec.eq_of_toNat_eq (Nat.le_antisymm hle hge)
      rw [readByte_of_outside hge, Res.bind_of_raised, ← heq]

/-! ### Interleaved streams -/

section
variable {c : LzCfg} {m : Memory} {r q : BitReader}

/-- A pair in the decoder's terms. -/
theorem BitReader.pairAt_iff {off len : Nat} :
    r.pairAt m c off len q ↔
      r.pos.toNat + c.pairBytes ≤ r.endAddr.toNat
        ∧ m.readLE r.pos.toNat c.pairBytes % 2 ^ c.lenBits.toNat = len
        ∧ m.readLE r.pos.toNat c.pairBytes / 2 ^ c.lenBits.toNat % 2 ^ c.offBits.toNat = off
        ∧ q = r.skip c.pairBytes := Iff.rfl

/-- Every token takes a control bit off the sequence. -/
theorem interleaved_length {toks : List LzToken} (hr : r.sound) (h : interleaved c m toks r q) :
    toks.length ≤ (r.bits m).length := by
  induction toks generalizing r with
  | nil => exact Nat.zero_le _
  | cons tok toks ih =>
    have hstep {v k : Nat} {r1 : BitReader} (hbit : r.getBits m 1 = .ok v r1)
        (hin : r1.pos.toNat + k ≤ r1.endAddr.toNat) (hrest : interleaved c m toks (r1.skip k) q) :
        (tok :: toks).length ≤ (r.bits m).length := by
      have hpasses := BitReader.passes_of_getBits_ok hbit
      obtain ⟨-, hlen⟩ := hpasses hr
      have hskip := BitReader.length_bits_skip_le (m := m) hin
      have := ih (BitReader.later_skip (hpasses.later hr).sound hin).sound hrest
      rw [List.length_cons]
      omega
    cases tok with
    | literal b =>
      obtain ⟨r1, hbit, hin, -, hrest⟩ := h
      exact hstep hbit hin hrest
    | copy off len =>
      obtain ⟨r1, r2, hbit, hpair, hrest⟩ := h
      obtain ⟨hin, -, -, rfl⟩ := BitReader.pairAt_iff.1 hpair
      exact hstep hbit hin hrest

end

/-! ### Tokens of interleaved mode -/

section
variable {s t : State} {out : List Byte} {q : BitReader}

/-- The source is as it was: output and source are apart (41_lz R163). -/
theorem LzAt.source_eq (hs : s.lzReady) (h : LzAt s out t) (a : Nat) (hlo : t.br.pos.toNat ≤ a)
    (hhi : a < t.br.endAddr.toNat) : t.mem.read a = s.mem.read a := by
  obtain ⟨-, -, -, -, -, -, -, hapart⟩ := hs
  have hpos := h.reader.pos_le
  have hfits := h.fits
  rw [h.reader.endAddr_eq] at hhi
  exact h.wrote.2 a (by omega)

theorem LzAt.getBits_source (hs : s.lzReady) (h : LzAt s out t) {n v : Nat}
    (hread : t.br.getBits s.mem n = .ok v q) :
    Machine.getBits n t = .ok v { t with br := q } ∧ LzAt s out { t with br := q } := by
  refine ⟨?_, h.advance ((BitReader.passes_of_getBits_ok hread).later h.reader.sound)⟩
  rw [Machine.getBits, BitReader.getBits_congr h.reader.sound (h.source_eq hs), hread]
  rfl

theorem LzAt.literal_interleaved (hs : s.lzReady) (hmode : s.regs.lzCfg.mode = true) (h : LzAt s out t)
    (hin : t.br.pos.toNat < t.br.endAddr.toNat) :
    lzLiteral t = .ok (s.mem.read t.br.pos.toNat) { t with br := t.br.skip 1 }
      ∧ LzAt s out { t with br := t.br.skip 1 } := by
  refine ⟨?_, h.advance (BitReader.later_skip h.reader.sound hin)⟩
  rw [lzLiteral, if_pos (h.regs.symm ▸ hmode), readByte_of_inside hin, h.source_eq hs _ (Nat.le_refl _) hin]

/-- The pair at BR_POS: its bytes are consumed whether it ends the stream or not. -/
theorem LzAt.pair_interleaved (hs : s.lzReady) (h : LzAt s out t) {off len : Nat}
    (hpair : t.br.pairAt s.mem s.regs.lzCfg off len q) :
    lzPairInterleaved t
        = .ok (if s.regs.lzCfg.endOff0 && off == 0 then none else some (off, len)) { t with br := q }
      ∧ LzAt s out { t with br := q } := by
  obtain ⟨hin, rfl, rfl, rfl⟩ := BitReader.pairAt_iff.1 hpair
  refine ⟨?_, h.advance (BitReader.later_skip h.reader.sound hin)⟩
  have hbytes : t.mem.readLE t.br.pos.toNat s.regs.lzCfg.pairBytes
      = s.mem.readLE t.br.pos.toNat s.regs.lzCfg.pairBytes :=
    Memory.readLE_congr fun a h1 h2 => h.source_eq hs a h1 (by omega)
  rw [lzPairInterleaved, h.regs, readBytes_of_inside hin, Res.bind_of_ok, hbytes]
  simp only [h.regs, Nat.shiftRight_eq_div_pow]
  split <;> rfl

theorem lzCopy_br (off n : Nat) (t : State) : (lzCopy off n t).br = t.br :=
  lzCopy_keeps (fun u => u.br = t.br) (fun _ _ _ h => h) off n t rfl

/-- One pass of the loop on an interleaved token adds what the token stands for, cut at OUT_CAP. -/
theorem LzAt.token_interleaved (hs : s.lzReady) (hmode : s.regs.lzCfg.mode = true) (h : LzAt s out t)
    (hroom : out.length < s.regs.outCap.toNat) {tok : LzToken} (htok : tok.plain s.regs) {toks : List LzToken}
    (hstream : interleaved s.regs.lzCfg s.mem (tok :: toks) t.br q) :
    ∃ u, lzToken t = .ok true u ∧ LzAt s ((expandToken s.regs out tok).take s.regs.outCap.toNat) u
      ∧ interleaved s.regs.lzCfg s.mem toks u.br q := by
  cases tok with
  | literal b =>
    obtain ⟨r1, hbit, hin, rfl, hrest⟩ := hstream
    obtain ⟨hu, hat⟩ := h.getBits_source hs hbit
    obtain ⟨hv, hat'⟩ := hat.literal_interleaved hs hmode hin
    obtain ⟨hemit, -⟩ := hat'.emit hs hroom (s.mem.read r1.pos.toNat)
    refine ⟨_, lzToken_of_literal hu hv, ?_, hrest⟩
    rw [expandToken, List.take_of_length_le hemit.fits]
    exact hemit
  | copy off len =>
    obtain ⟨-, -, hend0, hendLen⟩ := htok
    obtain ⟨r1, r2, hbit, hpair, hrest⟩ := hstream
    obtain ⟨hu, hat⟩ := h.getBits_source hs hbit
    obtain ⟨hv, hat'⟩ := hat.pair_interleaved hs hpair
    have hgo0 : ¬((s.regs.lzCfg.endOff0 && off == 0) = true) := by simpa using hend0
    have hgo : ¬((s.regs.lzCfg.endLen && len == s.regs.lzEndLen.toNat) = true) := by simpa using hendLen
    refine ⟨_, ?_, (hat'.copy hs off (len + s.regs.lzLenBias.toNat)).1, ?_⟩
    · rw [lzToken_of_reference hu, lzReference_interleaved (hat.regs ▸ hmode), hv, Res.bind_of_ok, if_neg hgo0,
        lzAnswer_some, hat'.regs, if_neg hgo]
    · rw [lzCopy_br]
      exact hrest

/-- The passes over interleaved tokens of which only the last may reach OUT_CAP. -/
theorem LzAt.loop_interleaved (hs : s.lzReady) (hmode : s.regs.lzCfg.mode = true) {toks : List LzToken}
    (htoks : ∀ tok ∈ toks, tok.plain s.regs) (h : LzAt s out t)
    (hstream : interleaved s.regs.lzCfg s.mem toks t.br q)
    (hroom : ∀ front, front <+: toks → front ≠ toks →
      (front.foldl (expandToken s.regs) out).length < s.regs.outCap.toNat) :
    ∃ u, (∀ fuel, lzLoop (toks.length + fuel) t = lzLoop fuel u)
      ∧ LzAt s ((toks.foldl (expandToken s.regs) out).take s.regs.outCap.toNat) u ∧ u.br = q := by
  induction toks generalizing out t with
  | nil =>
    refine ⟨t, fun fuel => by rw [List.length_nil, Nat.zero_add], ?_, hstream⟩
    rw [List.foldl_nil, List.take_of_length_le h.fits]
    exact h
  | cons tok toks ih =>
    obtain ⟨htok, htoks⟩ := List.forall_mem_cons.1 htoks
    have hroom0 := hroom [] (List.nil_prefix) (List.cons_ne_nil _ _).symm
    obtain ⟨u, hu, hat, hrest⟩ := h.token_interleaved hs hmode hroom0 htok hstream
    have hpass (fuel : Nat) : lzLoop (fuel + 1) t = lzLoop fuel u := by
      rw [lzLoop_succ, if_pos (h.hasRoom_iff.2 hroom0), hu, Res.bind_of_ok, if_pos rfl]
    cases toks with
    | nil => exact ⟨u, fun fuel => by rw [List.length_singleton, Nat.add_comm, hpass], hat, hrest⟩
    | cons tok' toks =>
      have hroom1 := hroom [tok] (List.cons_prefix_cons.2 ⟨rfl, List.nil_prefix⟩) (by simp)
      rw [List.foldl_cons, List.foldl_nil] at hroom1
      rw [List.take_of_length_le hroom1.le] at hat
      obtain ⟨v, hv, hat', hq⟩ := ih htoks hat hrest fun front hfront hne =>
        hroom (tok :: front) (List.cons_prefix_cons.2 ⟨rfl, hfront⟩) fun he => hne (List.cons.inj he).2
      exact ⟨v, fun fuel => by rw [List.length_cons, Nat.add_right_comm, hpass, hv], hat', hq⟩

/-- A pair that ends the stream, by its offset or by its length (41_lz R169, R171). -/
theorem LzAt.marker_interleaved (hs : s.lzReady) (hmode : s.regs.lzCfg.mode = true) (h : LzAt s out t) {off len : Nat}
    {q1 : BitReader} (hbit : t.br.getBits s.mem 1 = .ok 0 q1) (hpair : q1.pairAt s.mem s.regs.lzCfg off len q)
    (hmarker : (s.regs.lzCfg.endOff0 = true ∧ off = 0)
      ∨ (s.regs.lzCfg.endLen = true ∧ len = s.regs.lzEndLen.toNat)) :
    lzToken t = .ok false (setTerm true { t with br := q }) ∧ LzAt s out { t with br := q } := by
  obtain ⟨hu, hat⟩ := h.getBits_source hs hbit
  obtain ⟨hv, hat'⟩ := hat.pair_interleaved hs hpair
  refine ⟨?_, hat'⟩
  rw [lzToken_of_reference hu, lzReference_interleaved (hat.regs ▸ hmode), hv, Res.bind_of_ok]
  split
  next => rfl
  next hoff =>
    have hend : s.regs.lzCfg.endLen = true ∧ len = s.regs.lzEndLen.toNat :=
      hmarker.resolve_left fun hm => hoff (by simp [hm])
    rw [lzAnswer_some, hat'.regs, if_pos (by simp [hend])]

/-- How an interleaved stream breaks off: at a refill for a control bit, at a literal, or inside a pair; `q'` is the
reader it leaves (41_lz R174). -/
def BreaksOff (c : LzCfg) (m : Memory) (q q' : BitReader) : Prop :=
  (q.cnt = 0 ∧ q.endAddr.toNat < q.pos.toNat + q.refill.bytes ∧ q' = { q with acc := 0 })
    ∨ (q.getBits m 1 = .ok 1 q' ∧ q'.endAddr.toNat ≤ q'.pos.toNat)
    ∨ (∃ q1 : BitReader, q.getBits m 1 = .ok 0 q1
        ∧ q1.endAddr.toNat < q1.pos.toNat + c.pairBytes ∧ q' = { q1 with pos := q1.endAddr })

theorem LzAt.token_breaksOff (hs : s.lzReady) (hmode : s.regs.lzCfg.mode = true) (h : LzAt s out t)
    (hbreak : BreaksOff s.regs.lzCfg s.mem t.br q) :
    lzToken t = .raised .unexpectedEndOfStream q.pos.toNat { t with br := q } ∧ LzAt s out { t with br := q } := by
  rcases hbreak with ⟨hcnt, hshort, rfl⟩ | ⟨hbit, hend⟩ | ⟨q1, hbit, hend, rfl⟩
  · have hread := BitReader.getBits_one_of_short (m := t.mem) hcnt hshort
    obtain ⟨-, -, hpasses⟩ := BitReader.passes_of_getBits_raised hread
    refine ⟨?_, h.advance (hpasses.later h.reader.sound)⟩
    rw [lzToken_eq, Machine.getBits, hread]
    rfl
  · obtain ⟨hu, hat⟩ := h.getBits_source hs hbit
    refine ⟨?_, hat⟩
    rw [lzToken_eq, hu, Res.bind_of_ok, if_pos rfl, lzLiteral, if_pos (h.regs.symm ▸ hmode), readByte_of_outside hend]
    rfl
  · obtain ⟨hu, hat⟩ := h.getBits_source hs hbit
    obtain ⟨hle, hcnt, hacc⟩ := hat.reader.sound
    have hlater : q1.Later { q1 with pos := q1.endAddr } :=
      ⟨⟨rfl, rfl, rfl, rfl, rfl⟩, ⟨Nat.le_refl _, hcnt, hacc⟩, hle⟩
    refine ⟨?_, hat.advance hlater⟩
    rw [← hat.regs] at hend hmode
    rw [lzToken_of_reference hu, lzReference_interleaved hmode, lzPairInterleaved, readBytes_of_outside hle hend]
    rfl

end

/-! ### The claim -/

section
variable {s : State} {toks : List LzToken} {q : BitReader}

/-- LZDEC's body over interleaved tokens of which only the last may reach OUT_CAP comes behind them, with a pass to
spare. -/
theorem lzdecBody_of_interleaved (hs : s.lzReady) (hr : s.br.sound) (hmode : s.regs.lzCfg.mode = true)
    (htoks : ∀ tok ∈ toks, tok.plain s.regs) (hstream : interleaved s.regs.lzCfg s.mem toks s.br q)
    (hroom : ∀ front, front <+: toks → front ≠ toks → (expandTokens s.regs front).length < s.regs.outCap.toNat) :
    ∃ t fuel, lzdecBody s = lzLoop (fuel + 1) t
      ∧ LzAt s ((expandTokens s.regs toks).take s.regs.outCap.toNat) t ∧ t.br = q := by
  obtain ⟨t, ht, hat, hq⟩ := (LzAt.init hs hr).loop_interleaved hs hmode htoks hstream hroom
  obtain ⟨k, hk⟩ := Nat.exists_eq_add_of_le ((interleaved_length hr hstream).trans (s.br.length_bits_le s.mem))
  refine ⟨t, k, ?_, hat, hq⟩
  rw [← ht]
  show lzLoop (s.br.bitsLeft + 1) (lzInit s) = _
  rw [hk, Nat.add_assoc]

/-- Fewer tokens, no longer an expansion. -/
theorem length_expandTokens_le {regs : HostRegs} {front toks : List LzToken} (h : front <+: toks) :
    (expandTokens regs front).length ≤ (expandTokens regs toks).length := by
  obtain ⟨back, rfl⟩ := h
  rw [expandTokens, expandTokens, List.foldl_append]
  exact length_le_expandTokens _ _ _

/-- A proper beginning of the tokens lacks the last of them. -/
theorem prefix_dropLast_of_ne {α : Type} {front toks : List α} (h : front <+: toks) (hne : front ≠ toks) :
    toks ≠ [] ∧ front <+: toks.dropLast := by
  rcases List.eq_nil_or_concat' toks with rfl | ⟨init, last, rfl⟩
  · exact absurd (List.prefix_nil.1 h) hne
  · refine ⟨by simp, ?_⟩
    rw [List.dropLast_concat]
    exact (List.prefix_concat_iff.1 h).resolve_left hne

/-- Tokens that leave room: the body comes behind them with the whole expansion. -/
theorem lzdecBody_of_interleaved_inRoom (hs : s.lzReady) (hr : s.br.sound) (hmode : s.regs.lzCfg.mode = true)
    (htoks : ∀ tok ∈ toks, tok.plain s.regs) (hstream : interleaved s.regs.lzCfg s.mem toks s.br q)
    (hroom : (expandTokens s.regs toks).length < s.regs.outCap.toNat) :
    ∃ t fuel, lzdecBody s = lzLoop (fuel + 1) t ∧ LzAt s (expandTokens s.regs toks) t ∧ t.br = q := by
  obtain ⟨t, fuel, hbody, hat, hq⟩ := lzdecBody_of_interleaved hs hr hmode htoks hstream
    fun front hfront _ => (length_expandTokens_le hfront).trans_lt hroom
  rw [List.take_of_length_le hroom.le] at hat
  exact ⟨t, fuel, hbody, hat, hq⟩

/-- Tokens that reach OUT_CAP with the last of them: LZDEC stops there. -/
theorem exec_lzdec_of_interleaved_full (hs : s.lzReady) (hr : s.br.sound) (hmode : s.regs.lzCfg.mode = true)
    (htoks : ∀ tok ∈ toks, tok.plain s.regs) (hstream : interleaved s.regs.lzCfg s.mem toks s.br q)
    (hroom : toks = [] ∨ (expandTokens s.regs toks.dropLast).length < s.regs.outCap.toNat)
    (hfull : s.regs.outCap.toNat ≤ (expandTokens s.regs toks).length) :
    ∃ t, exec .lzdec s = .next (finish t)
      ∧ LzAt (setTerm false (accept s)) ((expandTokens s.regs toks).take s.regs.outCap.toNat) t ∧ t.br = q
      ∧ t.outLen = s.regs.outCap := by
  obtain ⟨t, fuel, hbody, hat, hq⟩ := lzdecBody_of_interleaved (s := setTerm false (accept s)) hs hr hmode htoks hstream
    fun front hfront hne => by
      obtain ⟨hnil, hfront'⟩ := prefix_dropLast_of_ne hfront hne
      exact (length_expandTokens_le hfront').trans_lt (hroom.resolve_left hnil)
  have hcut : s.regs.outCap.toNat ≤ ((expandTokens s.regs toks).take s.regs.outCap.toNat).length := by
    rw [List.length_take, Nat.min_eq_left hfull]
  refine ⟨t, ?_, hat, hq, hat.outLen_eq_cap hcut⟩
  rw [execLzdec_of_ready hs, hbody, hat.loop_full hcut, conclude_ok]

end

/-- Settles O30: behind the tokens LZDEC is full, finds a marker (`LzAt.marker_interleaved`), or finds no whole token
(`LzAt.token_breaksOff`). -/
theorem lzdecInterleaved : Obligations.LzdecInterleaved := by
  intro s toks q hs _ hreader hmode htoks hstream
  obtain ⟨hsound, -⟩ := s.readerOk_iff.1 hreader hs.valid
  refine ⟨fun hroom hfull => ?full, fun hroom q1 q2 off len hbit hpair hmarker => ?marker,
    fun hroom q' hbreak => ?breaksOff⟩
  case full =>
    obtain ⟨t, hexec, hat, hq, hcap⟩ := exec_lzdec_of_interleaved_full hs hsound hmode htoks hstream hroom hfull
    exact ⟨_, hexec, hat.status_finish, hcap, hat.wrote, hq⟩
  case marker =>
    obtain ⟨t, fuel, hbody, hat, rfl⟩ :=
      lzdecBody_of_interleaved_inRoom (s := setTerm false (accept s)) hs hsound hmode htoks hstream hroom
    obtain ⟨hu, hat'⟩ :=
      LzAt.marker_interleaved (s := setTerm false (accept s)) hs hmode hat hbit hpair hmarker
    exact ⟨_, exec_lzdec_of_marker hs hbody hat hroom hu, hat'.status_marker, hat'.outLen, hat'.wrote, rfl⟩
  case breaksOff =>
    obtain ⟨t, fuel, hbody, hat, rfl⟩ :=
      lzdecBody_of_interleaved_inRoom (s := setTerm false (accept s)) hs hsound hmode htoks hstream hroom
    obtain ⟨hu, hat'⟩ := LzAt.token_breaksOff (s := setTerm false (accept s)) hs hmode hat hbreak
    exact exec_lzdec_of_runsOut hs (hbody.trans (hat.loop_runsOut hroom hu)) hat'

end Sys2Proof.Machine

/-! ## What reading and building do to the state (40_bitreader R145, R150; 42_huffman R193 to R199) -/

namespace Sys2Proof.Machine

/-- A later reader of the same source, whole units on. -/
def BitReader.ReadsOn (r q : BitReader) : Prop := ∃ j, r.Ahead q j

section
variable {r q p : BitReader}

theorem BitReader.ReadsOn.refl (h : r.sound) : r.ReadsOn r := ⟨0, .refl h⟩

theorem BitReader.ReadsOn.trans (h : r.ReadsOn q) (h' : q.ReadsOn p) : r.ReadsOn p := by
  obtain ⟨i, hi⟩ := h
  obtain ⟨j, hj⟩ := h'
  exact ⟨_, hi.trans hj⟩

theorem BitReader.ReadsOn.later (h : r.ReadsOn q) : r.Later q := by
  obtain ⟨j, hj⟩ := h
  exact hj.toLater

theorem BitReader.ReadsOn.atEnd_eq (h : r.ReadsOn q) : q.atEnd = r.atEnd := by
  obtain ⟨j, hj⟩ := h
  exact hj.atEnd_eq

end

/-- `u` is reached from `t` by reading bits and editing the tree: the reader is whole units on, and all but reader and
tree is as before. -/
structure TreeStep (t u : State) : Prop where
  frame : u = { t with br := u.br, tree := u.tree }
  reader : t.br.ReadsOn u.br

/-- The same by reading alone. -/
structure Reads (t u : State) : Prop extends TreeStep t u where
  tree : u.tree = t.tree

section
variable {s t u v : State}

theorem TreeStep.refl (ht : t.br.sound) : TreeStep t t := ⟨rfl, .refl ht⟩

theorem TreeStep.trans (h : TreeStep t u) (h' : TreeStep u v) : TreeStep t v where
  frame := h'.frame.trans (by rw [h.frame])
  reader := h.reader.trans h'.reader

theorem TreeStep.sound (h : TreeStep t u) : u.br.sound := h.reader.later.sound

theorem TreeStep.order_eq (h : TreeStep t u) : u.br.order = t.br.order := h.reader.later.order_eq

theorem TreeStep.atEnd_eq (h : TreeStep t u) : u.br.atEnd = t.br.atEnd := h.reader.atEnd_eq

/-- A change of the tree alone behind it. -/
theorem TreeStep.setTree (h : TreeStep t u) (x : CodeTree) : TreeStep t { u with tree := x } where
  frame := by rw [h.frame]
  reader := h.reader

theorem Reads.refl (ht : t.br.sound) : Reads t t := ⟨.refl ht, rfl⟩

theorem Reads.trans (h : Reads t u) (h' : Reads u v) : Reads t v :=
  ⟨h.toTreeStep.trans h'.toTreeStep, h'.tree.trans h.tree⟩

/-- A field that comes next is read. -/
theorem reads_of_stream {n w : Nat} {rest : List Bool} (ht : t.br.sound) (hw : w < 2 ^ n)
    (hstream : t.stream = fieldBits t.br.order n w ++ rest) :
    ∃ u, getBits n t = .ok w u ∧ Reads t u ∧ u.stream = rest := by
  obtain ⟨q, hq, -, hrest⟩ := BitReader.getBits_of_bits ht hw hstream
  obtain ⟨j, hj, -⟩ := BitReader.getBitsLoop_ahead ht hq
  exact ⟨{ t with br := q }, by rw [getBits, hq]; rfl, ⟨⟨rfl, j, hj⟩, rfl⟩, hrest⟩

/-- A bit that comes next is read. -/
theorem reads_bit_of_stream {b : Bool} {rest : List Bool} (ht : t.br.sound) (hstream : t.stream = b :: rest) :
    ∃ u, getBits 1 t = .ok b.toNat u ∧ Reads t u ∧ u.stream = rest :=
  reads_of_stream ht (by cases b <;> decide) (by rw [fieldBits_one]; exact hstream)

/-- A field that is not there whole leaves the reader at the end of its source (40_bitreader R150). -/
theorem reads_runsOut {n : Nat} (ht : t.br.sound) (hfew : t.stream.length < n) :
    ∃ u, getBits n t = .raised .unexpectedEndOfStream u.br.pos.toNat u ∧ Reads t u ∧ u.br = t.br.atEnd := by
  refine ⟨{ t with br := t.br.atEnd }, ?_, ⟨⟨rfl, _, BitReader.ahead_atEnd ht⟩, rfl⟩, rfl⟩
  rw [getBits, BitReader.getBits_of_few ht hfew]
  rfl

theorem State.length_stream_le (t : State) : t.stream.length ≤ t.br.bitsLeft := t.br.length_bits_le t.mem

end

end Sys2Proof.Machine

/-! ## Walking a tree, and HUFDEC on a coded message (42_huffman R202 to R206, R208) -/

namespace Sys2Proof.Machine

/-! ### Paths in a tree -/

/-- The node a path from node `n` leads to, through inner nodes. -/
def CodeTree.descend (t : CodeTree) : Fin 1023 → List Bool → Option (Fin 1023)
  | n, [] => some n
  | n, b :: bs =>
    if (t.nodeAt n).leaf then none
    else
      match (t.nodeAt n).child b with
      | none => none
      | some c => t.descend c bs

/-- A path with a first bit leads through an inner node and its child. -/
theorem CodeTree.descend_cons_eq_some {t : CodeTree} {n m : Fin 1023} {b : Bool} {bs : List Bool} :
    t.descend n (b :: bs) = some m ↔
      (t.nodeAt n).leaf = false ∧ ∃ c, (t.nodeAt n).child b = some c ∧ t.descend c bs = some m := by
  rw [CodeTree.descend]
  cases (t.nodeAt n).leaf <;> cases (t.nodeAt n).child b <;> simp

/-- A symbol is that of the leaf its path leads to. -/
theorem CodeTree.symbolAt_eq_some {t : CodeTree} {n : Fin 1023} {path : List Bool} {sym : BitVec 9} :
    t.symbolAt n path = some sym ↔
      ∃ m, t.descend n path = some m ∧ (t.nodeAt m).leaf = true ∧ (t.nodeAt m).sym = sym := by
  induction path generalizing n with
  | nil => cases h : (t.nodeAt n).leaf <;> simp [CodeTree.symbolAt, CodeTree.descend, h]
  | cons b bs ih =>
    simp only [CodeTree.symbolAt, CodeTree.descend, Node.child]
    cases (t.nodeAt n).leaf with
    | true => simp
    | false =>
      simp only [Bool.false_eq_true, if_false]
      cases (if b then (t.nodeAt n).right else (t.nodeAt n).left) with
      | none => simp
      | some c => exact ih

/-- An inner node is one its path leads to. -/
theorem CodeTree.innerAt_eq_some {t : CodeTree} {n m : Fin 1023} {path : List Bool} :
    t.innerAt n path = some m ↔ t.descend n path = some m ∧ (t.nodeAt m).leaf = false := by
  induction path generalizing n with
  | nil =>
    simp only [CodeTree.innerAt, CodeTree.descend]
    cases h : (t.nodeAt n).leaf with
    | true => simpa using fun e : n = m => e ▸ h
    | false => simpa using fun e : n = m => e ▸ h
  | cons b bs ih =>
    simp only [CodeTree.innerAt, CodeTree.descend, Node.child]
    cases (t.nodeAt n).leaf with
    | true => simp
    | false =>
      simp only [Bool.false_eq_true, if_false]
      cases (if b then (t.nodeAt n).right else (t.nodeAt n).left) with
      | none => simp
      | some c => exact ih

/-! ### DecodeSymbol (42_huffman R202) -/

section
variable {t u : State} {n m : Fin 1023} {path more : List Bool} {fuel : Nat}

theorem walkTree_of_leaf (h : (t.tree.nodeAt n).leaf = true) (fuel : Nat) :
    walkTree fuel n t = .ok (t.tree.nodeAt n).sym t := by
  cases fuel with
  | zero => rfl
  | succ fuel => rw [walkTree, if_pos h]

theorem toNat_beq_one (b : Bool) : (b.toNat == 1) = b := by cases b <;> rfl

/-- At an inner node the walk reads a bit and goes to the child on it. -/
theorem walkTree_of_child (hinner : (t.tree.nodeAt n).leaf = false) {b : Bool} (hbit : getBits 1 t = .ok b.toNat u)
    (hchild : (u.tree.nodeAt n).child b = some m) (fuel : Nat) : walkTree (fuel + 1) n t = walkTree fuel m u := by
  rw [walkTree, hinner, if_neg Bool.false_ne_true, hbit, Res.bind_of_ok]
  simp only [toNat_beq_one, hchild]

theorem walkTree_of_noChild (hinner : (t.tree.nodeAt n).leaf = false) {b : Bool} (hbit : getBits 1 t = .ok b.toNat u)
    (hchild : (u.tree.nodeAt n).child b = none) (fuel : Nat) :
    walkTree (fuel + 1) n t = .raised .invalidFormat 3 u := by
  rw [walkTree, hinner, if_neg Bool.false_ne_true, hbit, Res.bind_of_ok]
  simp only [toNat_beq_one, hchild]

theorem walkTree_of_raised (hinner : (t.tree.nodeAt n).leaf = false) {e : ErrorName} {info : Nat}
    (hbit : getBits 1 t = .raised e info u) (fuel : Nat) : walkTree (fuel + 1) n t = .raised e info u := by
  rw [walkTree, hinner, if_neg Bool.false_ne_true, hbit, Res.bind_of_raised]

/-- The walk follows a path that comes next, a level for each of its bits. -/
theorem walkTree_of_descend (ht : t.br.sound) (hpath : t.tree.descend n path = some m)
    (hstream : t.stream = path ++ more) :
    ∃ u, (∀ fuel, walkTree (path.length + fuel) n t = walkTree fuel m u) ∧ Reads t u ∧ u.stream = more := by
  induction path generalizing n t with
  | nil =>
    obtain rfl := Option.some.inj hpath
    exact ⟨t, fun fuel => by rw [List.length_nil, Nat.zero_add], .refl ht, hstream⟩
  | cons b bs ih =>
    obtain ⟨hinner, c, hc, hpath'⟩ := CodeTree.descend_cons_eq_some.1 hpath
    obtain ⟨u, hu, hreads, hrest⟩ := reads_bit_of_stream ht hstream
    rw [← hreads.tree] at hc hpath'
    obtain ⟨v, hv, hreads', hrest'⟩ := ih hreads.sound hpath' hrest
    refine ⟨v, fun fuel => ?_, hreads.trans hreads', hrest'⟩
    rw [List.length_cons, Nat.add_right_comm, walkTree_of_child hinner hu hc, hv]

/-- DecodeSymbol has levels enough for any path that comes next, and one more. -/
theorem decodeSymbol_of_descend (ht : t.br.sound) (hpath : t.tree.descend 0 path = some m)
    (hstream : t.stream = path ++ more) :
    ∃ u fuel, decodeSymbol t = walkTree (fuel + 1) m u ∧ Reads t u ∧ u.stream = more := by
  obtain ⟨u, hu, hreads, hrest⟩ := walkTree_of_descend ht hpath hstream
  have hlen : path.length ≤ t.br.bitsLeft := by
    have := t.length_stream_le
    rw [hstream, List.length_append] at this
    omega
  obtain ⟨k, hk⟩ := Nat.exists_eq_add_of_le hlen
  exact ⟨u, k, by rw [decodeSymbol, hk, Nat.add_assoc, hu], hreads, hrest⟩

/-- A code that comes next gives its symbol. -/
theorem decodeSymbol_of_code {sym : BitVec 9} (ht : t.br.sound) (hcode : t.tree.symbolAt 0 path = some sym)
    (hstream : t.stream = path ++ more) :
    ∃ u, decodeSymbol t = .ok sym u ∧ Reads t u ∧ u.stream = more := by
  obtain ⟨m, hpath, hleaf, rfl⟩ := CodeTree.symbolAt_eq_some.1 hcode
  obtain ⟨u, fuel, hu, hreads, hrest⟩ := decodeSymbol_of_descend ht hpath hstream
  refine ⟨u, ?_, hreads, hrest⟩
  rw [← hreads.tree] at hleaf ⊢
  rw [hu, walkTree_of_leaf hleaf]

/-- Bits that end at an inner node. -/
theorem decodeSymbol_runsOut (ht : t.br.sound) (hpath : t.tree.innerAt 0 path = some m) (hstream : t.stream = path) :
    ∃ u, decodeSymbol t = .raised .unexpectedEndOfStream u.br.pos.toNat u ∧ Reads t u ∧ u.br = t.br.atEnd := by
  obtain ⟨hpath, hinner⟩ := CodeTree.innerAt_eq_some.1 hpath
  obtain ⟨u, fuel, hu, hreads, hrest⟩ := decodeSymbol_of_descend ht hpath (hstream.trans path.append_nil.symm)
  obtain ⟨v, hv, hreads', hend⟩ := reads_runsOut (n := 1) hreads.sound (by rw [hrest]; exact Nat.one_pos)
  refine ⟨v, ?_, hreads.trans hreads', hend.trans hreads.atEnd_eq⟩
  rw [hu, walkTree_of_raised (hreads.tree ▸ hinner) hv]

/-- A bit that leads to no child. -/
theorem decodeSymbol_of_noChild {b : Bool} (ht : t.br.sound) (hpath : t.tree.innerAt 0 path = some m)
    (hchild : (t.tree.nodeAt m).child b = none) (hstream : t.stream = path ++ b :: more) :
    ∃ u, decodeSymbol t = .raised .invalidFormat 3 u ∧ Reads t u ∧ u.stream = more := by
  obtain ⟨hpath, hinner⟩ := CodeTree.innerAt_eq_some.1 hpath
  obtain ⟨u, fuel, hu, hreads, hrest⟩ := decodeSymbol_of_descend ht hpath hstream
  obtain ⟨v, hv, hreads', hrest'⟩ := reads_bit_of_stream hreads.sound hrest
  refine ⟨v, ?_, hreads.trans hreads', hrest'⟩
  rw [hu, walkTree_of_noChild (hreads.tree ▸ hinner) hv ((hreads.trans hreads').tree ▸ hchild)]

end

/-! ### HUFDEC after some output -/

/-- `t` is reached by HUFDEC from `s` with the output `out`: the output is in MEM and counted, the reader is whole units
on, and all else but the tree is as before. -/
structure HufAt (s : State) (out : List Byte) (t : State) : Prop where
  frame : t = { s with br := t.br, tree := t.tree, mem := t.mem, outLen := t.outLen }
  reader : s.br.ReadsOn t.br
  wrote : s.wrote t out
  outLen : t.outLen.toNat = out.length
  fits : out.length ≤ s.regs.outCap.toNat

section
variable {s t u : State} {out : List Byte}

/-- HUFDEC begins with no output. -/
theorem HufAt.init (hs : s.br.sound) : HufAt s [] { s with outLen := 0 } where
  frame := rfl
  reader := .refl hs
  wrote := ⟨nofun, fun _ _ => rfl⟩
  outLen := rfl
  fits := Nat.zero_le _

theorem HufAt.regs (h : HufAt s out t) : t.regs = s.regs := by rw [h.frame]

theorem HufAt.sound (h : HufAt s out t) : t.br.sound := h.reader.later.sound

theorem HufAt.order_eq (h : HufAt s out t) : t.br.order = s.br.order := h.reader.later.order_eq

theorem HufAt.atEnd_eq (h : HufAt s out t) : t.br.atEnd = s.br.atEnd := h.reader.atEnd_eq

theorem HufAt.hasRoom_iff (h : HufAt s out t) : t.hasRoom = true ↔ out.length < s.regs.outCap.toNat := by
  rw [State.hasRoom, h.outLen, h.regs, decide_eq_true_eq]

theorem HufAt.outLen_eq (h : HufAt s out t) : t.outLen = BitVec.ofNat 32 out.length := by
  rw [← h.outLen, BitVec.ofNat_toNat, BitVec.setWidth_eq]

theorem HufAt.outLen_eq_cap (h : HufAt s out t) (hfull : out.length = s.regs.outCap.toNat) :
    t.outLen = s.regs.outCap := BitVec.eq_of_toNat_eq (h.outLen.trans hfull)

/-- Reading and building keep the output. -/
theorem HufAt.step (h : HufAt s out t) (hstep : TreeStep t u) : HufAt s out u where
  frame := by rw [hstep.frame, h.frame]
  reader := h.reader.trans hstep.reader
  wrote := by rw [hstep.frame]; exact h.wrote
  outLen := by rw [hstep.frame]; exact h.outLen
  fits := h.fits

/-- A byte more is written, and the bits to be read stay, for output and source are apart (42_huffman R204). -/
theorem HufAt.putByte (hs : s.hufReady) (h : HufAt s out t) (hroom : out.length < s.regs.outCap.toNat) (b : Byte) :
    HufAt s (out ++ [b]) (putByte b t) ∧ (putByte b t).stream = t.stream := by
  obtain ⟨-, -, -, -, -, hapart⟩ := hs
  obtain ⟨hin, hout⟩ := h.wrote
  have hlater := h.reader.later
  have haddr : t.outputAddress = s.regs.outAddr.toNat + out.length := by
    rw [State.outputAddress, h.outLen, h.regs]
  have hlen : (out ++ [b]).length = out.length + 1 := by rw [List.length_append, List.length_singleton]
  refine ⟨⟨?frame, h.reader, ⟨fun i hi => ?inside, fun a ha => ?outside⟩, ?outLen, hlen ▸ hroom⟩, ?stream⟩
  case frame => rw [h.frame]; rfl
  case inside =>
    rw [hlen] at hi
    rw [putByte_mem, Memory.read_write, haddr]
    by_cases hlast : i = out.length
    · subst hlast; simp
    · rw [if_neg (by omega), hin i (by omega), List.getD_append _ _ _ _ (by omega)]
  case outside =>
    rw [hlen] at ha
    rw [putByte_mem, Memory.read_write_other _ _ (by omega), hout a (by omega)]
  case outLen =>
    have hcap := s.regs.outCap.isLt
    have := h.outLen
    rw [putByte_outLen, hlen, BitVec.toNat_add, show (1 : Word).toNat = 1 from rfl]
    omega
  case stream =>
    refine BitReader.bits_congr fun a hlo hhi => ?_
    have hpos := hlater.pos_le
    rw [putByte_br] at hlo hhi
    rw [hlater.endAddr_eq] at hhi
    exact Memory.read_write_other _ _ (by omega)

/-! ### The loop (42_huffman R204) -/

theorem hufLoop_succ (fuel : Nat) (t : State) :
    hufLoop (fuel + 1) t = if t.hasRoom then (hufStep t).bind fun _ t => hufLoop fuel t else .ok () t := rfl

/-- At OUT_CAP the loop stops. -/
theorem HufAt.loop_full (h : HufAt s out t) (hfull : out.length = s.regs.outCap.toNat) (fuel : Nat) :
    hufLoop fuel t = .ok () t := by
  cases fuel with
  | zero => rfl
  | succ fuel => rw [hufLoop_succ, if_neg (mt h.hasRoom_iff.1 (by omega))]

/-- Below it the loop makes a pass. -/
theorem HufAt.loop_pass (h : HufAt s out t) (hroom : out.length < s.regs.outCap.toNat) (fuel : Nat) :
    hufLoop (fuel + 1) t = (hufStep t).bind fun _ t => hufLoop fuel t := by
  rw [hufLoop_succ, if_pos (h.hasRoom_iff.2 hroom)]

/-- A pass on a symbol that is no enabled rebuild signal. -/
theorem hufStep_of_symbol {sym : BitVec 9} (hsym : decodeSymbol t = .ok sym u)
    (hplain : ¬(u.regs.hufCfg.rebuildEn = true ∧ sym = u.regs.hufRsym)) :
    hufStep t = if 256 ≤ sym.toNat then .raised .invalidFormat 4 u
      else .ok () (Machine.putByte (BitVec.ofNat 8 sym.toNat) u) := by
  rw [hufStep, hsym, Res.bind_of_ok, if_neg (by simpa using hplain)]
  rfl

/-- A pass on the rebuild signal. -/
theorem hufStep_of_signal (hsym : decodeSymbol t = .ok u.regs.hufRsym u)
    (hen : u.regs.hufCfg.rebuildEn = true) : hufStep t = rebuildTree u := by
  rw [hufStep, hsym, Res.bind_of_ok, if_pos (by simp [hen])]

theorem hufStep_of_raised {e : ErrorName} {info : Nat} (h : decodeSymbol t = .raised e info u) :
    hufStep t = .raised e info u := by rw [hufStep, h, Res.bind_of_raised]

/-- A byte's code in front of the loop. -/
theorem HufAt.step_byte (hs : s.hufReady) (h : HufAt s out t) (hroom : out.length < s.regs.outCap.toNat)
    {path : List Bool} {b : Byte} (hcode : t.tree.symbolAt 0 path = some (b.setWidth 9))
    (hplain : ¬(s.regs.hufCfg.rebuildEn = true ∧ b.setWidth 9 = s.regs.hufRsym)) {rest : List Bool}
    (hstream : t.stream = path ++ rest) :
    ∃ u, hufStep t = .ok () u ∧ HufAt s (out ++ [b]) u ∧ u.tree = t.tree ∧ u.stream = rest := by
  obtain ⟨u, hu, hreads, hrest⟩ := decodeSymbol_of_code h.sound hcode hstream
  have hat := h.step hreads.toTreeStep
  obtain ⟨hat', hkeep⟩ := hat.putByte hs hroom b
  refine ⟨Machine.putByte b u, ?_, hat', hreads.tree, hkeep.trans hrest⟩
  have hlt := b.isLt
  have hnat : (b.setWidth 9).toNat = b.toNat := by rw [BitVec.toNat_setWidth]; omega
  rw [hufStep_of_symbol hu (by rwa [hat.regs]), hnat, if_neg (by omega), BitVec.ofNat_toNat, BitVec.setWidth_eq]

/-- A coded message in front of the loop. -/
theorem HufAt.loop_message (hs : s.hufReady) {msg : List (List Bool × Byte)} (h : HufAt s out t)
    (hcodes : s.codes t.tree msg) (hfits : out.length + msg.length ≤ s.regs.outCap.toNat) {rest : List Bool}
    (hstream : t.stream = (msg.flatMap fun p => p.1) ++ rest) :
    ∃ u, (∀ fuel, hufLoop (msg.length + fuel) t = hufLoop fuel u)
      ∧ HufAt s (out ++ msg.map fun p => p.2) u ∧ u.tree = t.tree ∧ u.stream = rest := by
  induction msg generalizing out t with
  | nil => exact ⟨t, fun fuel => by rw [List.length_nil, Nat.zero_add], by simpa using h, rfl, hstream⟩
  | cons p msg ih =>
    obtain ⟨⟨hcode, hplain⟩, hcodes'⟩ := List.forall_mem_cons.1 hcodes
    rw [List.flatMap_cons, List.append_assoc] at hstream
    rw [List.length_cons] at hfits
    have hroom : out.length < s.regs.outCap.toNat := by omega
    obtain ⟨u, hu, hat, htree, hrest⟩ := h.step_byte hs hroom hcode hplain hstream
    have hfits' : (out ++ [p.2]).length + msg.length ≤ s.regs.outCap.toNat := by
      rw [List.length_append, List.length_singleton]; omega
    obtain ⟨v, hv, hat', htree', hrest'⟩ := ih hat (htree ▸ hcodes') hfits' hrest
    refine ⟨v, fun fuel => ?_, ?_, htree'.trans htree, hrest'⟩
    · rw [List.length_cons, Nat.add_right_comm, h.loop_pass hroom, hu, Res.bind_of_ok, hv]
    · rwa [List.map_cons, List.append_cons]

end

/-! ### HUFDEC's checks (42_huffman R204; 60_exceptions R304) -/

section
variable {s t u : State} {out : List Byte}

theorem HufCfg.legal_iff (c : HufCfg) :
    c.legal = true ↔
      (1 ≤ c.lenBits.toNat ∧ c.lenBits.toNat ≤ 5) ∧ (1 ≤ c.nsym.toNat ∧ c.nsym.toNat ≤ 512) := by
  simp [HufCfg.legal]

/-- A command refused by its first failing check. -/
theorem runCommand_of_failure {checks : State → List Check} {body : State → Res State Unit} (herr : s.status.err = false)
    {c : Check} (hfail : firstFailure (checks (accept s)) = some c) :
    runCommand (withChecks checks body) s = s.refused c.err c.info := by
  rw [runCommand_accepted herr, withChecks, hfail]
  rfl

/-- A command whose checks all pass. -/
theorem runCommand_of_checks {checks : State → List Check} {body : State → Res State Unit}
    (herr : s.status.err = false) (hpass : ∀ c ∈ checks (accept s), c.pass = true) :
    runCommand (withChecks checks body) s = conclude (body (accept s)) := by
  rw [runCommand_accepted herr, withChecks, firstFailure_eq_none.2 hpass]

/-- HUFDEC's check of HUF_CFG passes unless a canonical tree may be rebuilt from illegal fields. -/
theorem configOk_rebuild_pass_iff (s : State) :
    (configOk (!(s.regs.hufCfg.rebuildEn && s.tree.kind == .canonical) || s.regs.hufCfg.legal) .hufCfg).pass = true ↔
      (s.regs.hufCfg.rebuildEn = true → s.tree.kind = .canonical →
        (1 ≤ s.regs.hufCfg.lenBits.toNat ∧ s.regs.hufCfg.lenBits.toNat ≤ 5)
          ∧ (1 ≤ s.regs.hufCfg.nsym.toNat ∧ s.regs.hufCfg.nsym.toNat ≤ 512)) := by
  rw [← HufCfg.legal_iff]
  cases hen : s.regs.hufCfg.rebuildEn <;> cases hkind : s.tree.kind <;> simp [configOk]

/-- What `hufReady` says: HUFDEC is accepted and every check passes. -/
theorem State.hufReady.checks_pass (hs : s.hufReady) : ∀ c ∈ hufdecChecks s, c.pass = true := by
  obtain ⟨-, hvalid, htree, hcfg, hout, hmeet⟩ := hs
  simp only [hufdecChecks, List.forall_mem_cons]
  exact ⟨hvalid, htree, (configOk_rebuild_pass_iff s).2 hcfg, (inMem_pass_iff _ s).2 (Nat.not_lt.2 hout),
    (apart_pass_iff _ _ _).2 hmeet, nofun⟩

theorem State.hufReady.accepted (hs : s.hufReady) : s.status.err = false := by
  obtain ⟨herr, -⟩ := hs
  exact herr

theorem State.hufReady.valid (hs : s.hufReady) : s.br.valid = true := by
  obtain ⟨-, hvalid, -⟩ := hs
  exact hvalid

theorem State.hufReady.legal (hs : s.hufReady) (hen : s.regs.hufCfg.rebuildEn = true)
    (hkind : s.tree.kind = .canonical) :
    (1 ≤ s.regs.hufCfg.lenBits.toNat ∧ s.regs.hufCfg.lenBits.toNat ≤ 5)
      ∧ (1 ≤ s.regs.hufCfg.nsym.toNat ∧ s.regs.hufCfg.nsym.toNat ≤ 512) := by
  obtain ⟨-, -, -, hcfg, -⟩ := hs
  exact hcfg hen hkind

/-- With every check passed HUFDEC runs its loop with no output yet. -/
theorem exec_hufdec_of_ready (hs : s.hufReady) :
    exec .hufdec s = .next (conclude
      (hufLoop (s.regs.outCap.toNat + s.br.bitsLeft + 1) { accept s with outLen := 0 })) := by
  have hpass : ∀ c ∈ hufdecChecks (accept s), c.pass = true := hs.checks_pass
  exact congrArg Host.Outcome.next (runCommand_of_checks hs.accepted hpass)

/-- Settles O37: each check fails in its turn, with those before it passed. -/
theorem hufdecRefusals : Obligations.HufdecRefusals := by
  intro s herr
  dsimp only
  have hrefused {c : Check} (hfail : firstFailure (hufdecChecks s) = some c) :
      exec .hufdec s = .next (s.refused c.err c.info) :=
    congrArg Host.Outcome.next (runCommand_of_failure herr hfail)
  have hcfg := configOk_rebuild_pass_iff s
  have hin := inMem_pass_iff s.outRange s
  have hapart := apart_pass_iff s.unreadRange s.outRange .outAddr
  simp only [hufdecChecks, firstFailure_cons] at hrefused
  split
  next hinvalid => exact hrefused (c := readerReady s) (if_neg (Bool.eq_false_iff.1 hinvalid))
  next hvalid =>
  have hreader : (readerReady s).pass = true := eq_true_of_ne_false hvalid
  simp only [if_pos hreader] at hrefused
  split
  next hnone => exact hrefused (c := treeReady s) (if_neg (Bool.eq_false_iff.1 hnone))
  next hsome =>
  have htree : (treeReady s).pass = true := eq_true_of_ne_false hsome
  simp only [if_pos htree] at hrefused
  split
  next hbad =>
    obtain ⟨hen, hkind, hfields⟩ := hbad
    refine hrefused (c := configOk _ .hufCfg) (if_neg fun h => ?_)
    have := hcfg.1 h hen hkind
    omega
  next hgood =>
  have hfields : s.regs.hufCfg.rebuildEn = true → s.tree.kind = .canonical →
      (1 ≤ s.regs.hufCfg.lenBits.toNat ∧ s.regs.hufCfg.lenBits.toNat ≤ 5)
        ∧ (1 ≤ s.regs.hufCfg.nsym.toNat ∧ s.regs.hufCfg.nsym.toNat ≤ 512) := fun hen hkind => by
    by_contra hbad
    exact hgood ⟨hen, hkind, by omega⟩
  simp only [if_pos (hcfg.2 hfields)] at hrefused
  split
  next hbad => exact hrefused (c := inMem s.outRange s) (if_neg fun h => hin.1 h hbad)
  next hout =>
  simp only [if_pos (hin.2 hout)] at hrefused
  split
  next hbad => exact hrefused (c := apart _ _ .outAddr) (if_neg fun h => hapart.1 h hbad)
  next hmeet =>
  intro hcap
  have hs : s.hufReady := ⟨herr, hreader, htree, hfields, Nat.le_of_not_lt hout, hmeet⟩
  have hfull : ({ accept s with outLen := 0 } : State).hasRoom = false := by
    simp [State.hasRoom, hcap]
  rw [exec_hufdec_of_ready hs, hufLoop_succ, hfull]
  rfl

/-! ### HUFDEC behind a message -/

/-- HUFDEC over a message comes to the pass behind it. -/
theorem exec_hufdec_of_message {msg : List (List Bool × Byte)} {rest : List Bool} (hs : s.hufReady)
    (hreader : s.readerOk) (hcodes : s.codes s.tree msg) (hfits : msg.length ≤ s.regs.outCap.toNat)
    (hstream : s.stream = (msg.flatMap fun p => p.1) ++ rest) :
    ∃ t fuel, exec .hufdec s = .next (conclude (hufLoop (fuel + 1) t))
      ∧ s.regs.outCap.toNat ≤ msg.length + fuel
      ∧ HufAt (accept s) (msg.map fun p => p.2) t ∧ t.tree = s.tree ∧ t.stream = rest := by
  obtain ⟨hsound, -⟩ := s.readerOk_iff.1 hreader hs.valid
  have hinit : HufAt (accept s) [] { accept s with outLen := 0 } := .init hsound
  have hready : (accept s).hufReady := hs
  obtain ⟨t, ht, hat, htree, hrest⟩ :=
    hinit.loop_message hready hcodes (by rw [List.length_nil]; exact (Nat.zero_add _).trans_le hfits) hstream
  obtain ⟨k, hk⟩ := Nat.exists_eq_add_of_le (hfits.trans (Nat.le_add_right _ s.br.bitsLeft))
  refine ⟨t, k, ?_, by omega, hat, htree, hrest⟩
  rw [exec_hufdec_of_ready hs, hk, Nat.add_assoc, ht]

/-- HUFDEC's end at OUT_CAP. -/
theorem HufAt.finished (h : HufAt (accept s) out t) (hfull : out.length = s.regs.outCap.toNat) :
    finish t = { s with status := s.doneStatus, br := t.br, outLen := s.regs.outCap, mem := t.mem,
                        tree := t.tree } := by
  have hlen : t.outLen = s.regs.outCap := h.outLen_eq_cap hfull
  rw [← hlen, h.frame]
  rfl

/-- HUFDEC's end by an error. -/
theorem HufAt.stopped (h : HufAt (accept s) out t) (e : ErrorName) (info : Nat) :
    raiseError e info t = { s with status := s.errStatus e, errInfo := BitVec.ofNat 32 info, br := t.br,
                                   outLen := BitVec.ofNat 32 out.length, mem := t.mem, tree := t.tree } := by
  rw [← h.outLen_eq, h.frame]
  rfl

/-- A pass that raises ends HUFDEC. -/
theorem exec_hufdec_of_raised {e : ErrorName} {info fuel : Nat}
    (hexec : exec .hufdec s = .next (conclude (hufLoop (fuel + 1) t))) (h : HufAt (accept s) out t)
    (hroom : out.length < s.regs.outCap.toNat) (hraised : hufStep t = .raised e info u) :
    exec .hufdec s = .next (raiseError e info u) := by
  rw [hexec, h.loop_pass hroom, hraised]
  rfl

end

/-- Settles O38: the message is decoded code by code (`HufAt.loop_message`), and the loop stops behind it. -/
theorem hufdecDecodes : Obligations.HufdecDecodes := by
  intro s msg rest hs _ hreader hcodes hlen hstream
  obtain ⟨t, fuel, hexec, -, hat, htree, hrest⟩ := exec_hufdec_of_message hs hreader hcodes hlen.le hstream
  have hfull : (msg.map fun p => p.2).length = s.regs.outCap.toNat := (List.length_map _).trans hlen
  refine ⟨finish t, by rw [hexec, hat.loop_full hfull, conclude_ok], ?_, hat.wrote, hrest⟩
  rw [finish_br, finish_mem, hat.finished hfull, htree]

/-- Settles O39: behind the message DecodeSymbol raises, or gives a symbol that is no byte. -/
theorem hufdecErrors : Obligations.HufdecErrors := by
  intro s msg path rest hs _ hreader hcodes hlen
  have hmessage {more : List Bool} (hstream : s.stream = (msg.flatMap fun p => p.1) ++ more) :=
    exec_hufdec_of_message hs hreader hcodes hlen.le hstream
  have hroom : (msg.map fun p => p.2).length < s.regs.outCap.toNat := by rwa [List.length_map]
  refine ⟨fun hstream hinner => ?runsOut, fun b n hstream hinner hchild => ?noChild,
    fun sym hstream hcode hbig hplain => ?noByte⟩
  case runsOut =>
    obtain ⟨n, hn⟩ := Option.isSome_iff_exists.1 hinner
    obtain ⟨t, fuel, hexec, -, hat, htree, hrest⟩ := hmessage hstream
    obtain ⟨u, hu, hreads, hend⟩ := decodeSymbol_runsOut hat.sound (htree ▸ hn) hrest
    have hat' := hat.step hreads.toTreeStep
    have hbr : u.br = s.br.atEnd := hend.trans hat.atEnd_eq
    refine ⟨_, exec_hufdec_of_raised hexec hat hroom (hufStep_of_raised hu), ?_, hat'.wrote⟩
    rw [raiseError_mem, hat'.stopped, List.length_map, BitVec.ofNat_toNat, BitVec.setWidth_eq, hbr, hreads.tree,
      htree]
  case noChild =>
    rw [List.append_assoc] at hstream
    obtain ⟨t, fuel, hexec, -, hat, htree, hrest⟩ := hmessage hstream
    obtain ⟨u, hu, hreads, hrest'⟩ := decodeSymbol_of_noChild hat.sound (htree ▸ hinner) (htree ▸ hchild) hrest
    have hat' := hat.step hreads.toTreeStep
    refine ⟨_, exec_hufdec_of_raised hexec hat hroom (hufStep_of_raised hu), ?_, hat'.wrote, hrest'⟩
    rw [raiseError_mem, raiseError_br, hat'.stopped, List.length_map, hreads.tree, htree]
    rfl
  case noByte =>
    rw [List.append_assoc] at hstream
    obtain ⟨t, fuel, hexec, -, hat, htree, hrest⟩ := hmessage hstream
    obtain ⟨u, hu, hreads, hrest'⟩ := decodeSymbol_of_code hat.sound (htree ▸ hcode) hrest
    have hat' := hat.step hreads.toTreeStep
    have hraised : hufStep t = .raised .invalidFormat 4 u := by
      rw [hufStep_of_symbol hu (by rw [hat'.regs]; exact hplain), if_pos hbig]
    refine ⟨_, exec_hufdec_of_raised hexec hat hroom hraised, ?_, hat'.wrote, hrest'⟩
    rw [raiseError_mem, raiseError_br, hat'.stopped, List.length_map, hreads.tree, htree]
    rfl

end Sys2Proof.Machine

/-! ## HUFTREE on a description (30_encoding R121; 42_huffman R192 to R195) -/

namespace Sys2Proof.Machine

/-! ### The nodes a part of a description begins -/

theorem CodeShape.size_pos (shape : CodeShape) : 0 < shape.size := by
  cases shape with
  | leaf _ => exact Nat.one_pos
  | node l r => rw [CodeShape.size]; omega

theorem CodeShape.starts_eq_map (shape : CodeShape) (a : Nat) : shape.starts a = (shape.starts 0).map (· + a) := by
  induction shape generalizing a with
  | leaf _ => simp [CodeShape.starts]
  | node l r hl hr =>
    simp only [CodeShape.starts, List.map_cons, List.map_append, Nat.zero_add]
    rw [hl (a + 1), hl 1, hr (a + 1 + l.width), hr (1 + l.width), List.map_map, List.map_map]
    congr 2 <;> refine List.map_congr_left fun x _ => ?_ <;> simp only [Function.comp_apply] <;> omega

/-- Where the nodes behind the root begin. -/
theorem CodeShape.starts_node (l r : CodeShape) :
    (CodeShape.node l r).starts 0
      = 0 :: ((l.starts 0).map (· + 1) ++ (r.starts 0).map (· + (1 + l.width))) := by
  rw [CodeShape.starts, l.starts_eq_map, r.starts_eq_map, Nat.zero_add]

/-- The number of nodes that begin on `n` bits, for a description behind `k` bits of others. -/
theorem CodeShape.length_filter_shifted (shape : CodeShape) (k n : Nat) :
    (((shape.starts 0).map (· + k)).filter fun a => a ≤ n + k).length = shape.begun n := by
  rw [List.filter_map, List.length_map, CodeShape.begun]
  refine congrArg List.length (List.filter_congr fun a _ => ?_)
  simp

theorem CodeShape.length_filter_unreached (shape : CodeShape) {k n : Nat} (h : n < k) :
    (((shape.starts 0).map (· + k)).filter fun a => a ≤ n).length = 0 := by
  rw [List.length_eq_zero_iff, List.filter_eq_nil_iff]
  intro a ha
  obtain ⟨x, -, rfl⟩ := List.mem_map.1 ha
  rw [decide_eq_true_eq]
  omega

/-- Without a bit only the root begins. -/
theorem CodeShape.begun_zero (shape : CodeShape) : shape.begun 0 = 1 := by
  cases shape with
  | leaf _ => rfl
  | node l r =>
    rw [CodeShape.begun, CodeShape.starts_node, List.filter_cons_of_pos (by simp), List.filter_append,
      List.length_cons, List.length_append, l.length_filter_unreached Nat.one_pos,
      r.length_filter_unreached (by omega)]

theorem CodeShape.begun_pos (shape : CodeShape) (n : Nat) : 0 < shape.begun n := by
  cases shape with
  | leaf _ => simp [CodeShape.begun, CodeShape.starts]
  | node l r =>
    rw [CodeShape.begun, CodeShape.starts_node, List.filter_cons_of_pos (by simp)]
    exact Nat.succ_pos _

/-- Inside the left subtree. -/
theorem CodeShape.begun_node_left {l r : CodeShape} {n : Nat} (h : n < l.width) :
    (CodeShape.node l r).begun (n + 1) = 1 + l.begun n := by
  rw [CodeShape.begun, CodeShape.starts_node, List.filter_cons_of_pos (by simp), List.filter_append,
    List.length_cons, List.length_append, l.length_filter_shifted, r.length_filter_unreached (by omega), Nat.add_comm,
    Nat.add_zero]

/-- Behind the left subtree. -/
theorem CodeShape.begun_node_right (l r : CodeShape) (n : Nat) :
    (CodeShape.node l r).begun (l.width + n + 1) = 1 + l.size + r.begun n := by
  have hright := r.length_filter_shifted (1 + l.width) n
  rw [show n + (1 + l.width) = l.width + n + 1 by omega] at hright
  rw [CodeShape.begun, CodeShape.starts_node, List.filter_cons_of_pos (by simp), List.filter_append,
    List.length_cons, List.length_append, l.length_filter_shifted, hright, CodeShape.begun_whole (by omega)]
  omega

/-- Where the `k`-th node of the left subtree begins. -/
theorem CodeShape.starts_node_left {l r : CodeShape} {k : Nat} (h : k < l.size) :
    ((CodeShape.node l r).starts 0).getD (k + 1) 0 = (l.starts 0).getD k 0 + 1 := by
  have hlen := l.length_starts 0
  rw [CodeShape.starts_node, List.getD_cons_succ, List.getD_append _ _ _ _ (by rwa [List.length_map, hlen]),
    List.getD_eq_getElem _ _ (by rwa [List.length_map, hlen]), List.getElem_map,
    List.getD_eq_getElem _ _ (by rwa [hlen])]

/-- Where the `k`-th node of the right subtree begins. -/
theorem CodeShape.starts_node_right {l r : CodeShape} {k : Nat} (h : k < r.size) :
    ((CodeShape.node l r).starts 0).getD (l.size + k + 1) 0 = (r.starts 0).getD k 0 + (1 + l.width) := by
  have hlen := r.length_starts 0
  rw [CodeShape.starts_node, List.getD_cons_succ,
    List.getD_append_right _ _ _ _ (by rw [List.length_map, l.length_starts]; omega), List.length_map,
    l.length_starts, Nat.add_sub_cancel_left, List.getD_eq_getElem _ _ (by rwa [List.length_map, hlen]),
    List.getElem_map, List.getD_eq_getElem _ _ (by rwa [hlen])]

theorem CodeShape.begun_le_size (shape : CodeShape) (n : Nat) : shape.begun n ≤ shape.size :=
  (List.length_filter_le _ _).trans_eq (shape.length_starts 0)

/-! ### Descriptions in NODE -/

/-- A description in NODE depends on its own nodes alone. -/
theorem CodeTree.holds_congr {t u : CodeTree} {shape : CodeShape} {i : Nat}
    (h : ∀ j : Fin 1023, i ≤ j.val → j.val < i + shape.size → u.nodeAt j = t.nodeAt j) (ht : t.holds shape i) :
    u.holds shape i := by
  induction shape generalizing i with
  | leaf sym =>
    obtain ⟨hi, hleaf, hsym⟩ := ht
    rw [← h ⟨i, hi⟩ (Nat.le_refl _) (Nat.lt_succ_self _)] at hleaf hsym
    exact ⟨hi, hleaf, hsym⟩
  | node l r hl hr =>
    obtain ⟨⟨hi, hroot⟩, hleft, hright⟩ := ht
    rw [CodeShape.size] at h
    rw [← h ⟨i, hi⟩ (Nat.le_refl _) (show i < _ by omega)] at hroot
    exact ⟨⟨hi, hroot⟩, hl (fun j h1 h2 => h j (by omega) (by omega)) hleft,
      hr (fun j h1 h2 => h j (by omega) (by omega)) hright⟩

/-- A path of the described tree leads to its symbol in NODE. -/
theorem CodeTree.symbolAt_of_holds {t : CodeTree} {shape : CodeShape} {n : Fin 1023} (h : t.holds shape n.val)
    {path : List Bool} {b : Byte} (hpath : shape.symbolAt path = some b) :
    t.symbolAt n path = some (b.setWidth 9) := by
  induction shape generalizing n path with
  | leaf sym =>
    obtain ⟨hi, hleaf, hsym⟩ := h
    cases path with
    | nil =>
      obtain rfl := Option.some.inj hpath
      exact CodeTree.symbolAt_eq_some.2 ⟨n, rfl, hleaf, hsym⟩
    | cons c bs => cases hpath
  | node l r hl hr =>
    obtain ⟨⟨hi, hinner, hleft, hright⟩, hl', hr'⟩ := h
    cases path with
    | nil => cases hpath
    | cons c bs =>
      obtain ⟨x, hx, hxval⟩ := Option.map_eq_some_iff.1 hleft
      obtain ⟨y, hy, hyval⟩ := Option.map_eq_some_iff.1 hright
      have hchild : (t.nodeAt n).child c = some (if c then y else x) := by
        cases c
        · exact hx
        · exact hy
      have hbelow : t.symbolAt (if c then y else x) bs = some (b.setWidth 9) := by
        cases c with
        | false => exact hl (n := x) (by rw [hxval]; exact hl') hpath
        | true => exact hr (n := y) (by rw [hyval]; exact hr') hpath
      obtain ⟨m, hm, hleaf⟩ := CodeTree.symbolAt_eq_some.1 hbelow
      exact CodeTree.symbolAt_eq_some.2 ⟨m, CodeTree.descend_cons_eq_some.2 ⟨hinner, _, hchild, hm⟩, hleaf⟩

/-! ### A build on its way -/

/-- `t` is reached in a build that began in `s`: only bits were read and nodes allocated and edited, so VALID is still
cleared and KIND still the old one (42_huffman R193). -/
structure BuildAt (s t : State) : Prop extends TreeStep s t where
  invalid : t.tree.valid = false
  kind : t.tree.kind = s.tree.kind

section
variable {s t u : State}

theorem BuildAt.init (hs : s.br.sound) : BuildAt s (clearTree s) := ⟨⟨rfl, .refl hs⟩, rfl, rfl⟩

theorem BuildAt.reads (h : BuildAt s t) (hreads : Reads t u) : BuildAt s u :=
  ⟨h.toTreeStep.trans hreads.toTreeStep, hreads.tree ▸ h.invalid, hreads.tree ▸ h.kind⟩

theorem BuildAt.editNode (h : BuildAt s t) (n : Fin 1023) (f : Node → Node) : BuildAt s (editNode n f t) :=
  ⟨h.toTreeStep.setTree _, h.invalid, h.kind⟩

/-- The state after Alloc has taken node `i`. -/
def State.alloced (t : State) (i : Fin 1023) : State := { t with tree := t.tree.grown i }

theorem BuildAt.alloced (h : BuildAt s t) (i : Fin 1023) : BuildAt s (t.alloced i) :=
  ⟨h.toTreeStep.setTree _, h.invalid, h.kind⟩

/-- Alloc with a node left. -/
theorem alloc_of_room {i : Fin 1023} (h : t.tree.nnodes.toNat = i.val) : alloc t = .ok i (t.alloced i) := by
  rcases alloc_cases t with ⟨h', ha⟩ | ⟨h', -⟩
  · obtain rfl : i = ⟨t.tree.nnodes.toNat, h'⟩ := Fin.ext h.symm
    exact ha
  · have := i.isLt
    rw [h', show (1023 : BitVec 10).toNat = 1023 from rfl] at h
    omega

/-- Alloc without. -/
theorem alloc_of_full (h : t.tree.nnodes.toNat = 1023) : alloc t = .raised .invalidFormat 1 t := by
  rcases alloc_cases t with ⟨h', -⟩ | ⟨-, ha⟩
  · omega
  · exact ha

/-! ### BuildNode (42_huffman R194) -/

variable {fuel : Nat} {i : Fin 1023} {shape l r : CodeShape} {order : BitOrder} {rest : List Bool}

theorem buildNode_of_full (h : t.tree.nnodes.toNat = 1023) (fuel : Nat) :
    buildNode fuel t = .raised .invalidFormat 1 t := by
  cases fuel with
  | zero => rfl
  | succ fuel => rw [buildNode, alloc_of_full h, Res.bind_of_raised]

/-- Without a bit for the node BuildNode has allocated. -/
theorem buildNode_of_noBit (hi : t.tree.nnodes.toNat = i.val) {e : ErrorName} {info : Nat}
    (hbit : getBits 1 (t.alloced i) = .raised e info u) : buildNode (fuel + 1) t = .raised e info u := by
  rw [buildNode, alloc_of_room hi, Res.bind_of_ok, hbit, Res.bind_of_raised]

/-- On bit 0 the node becomes a leaf, and its symbol is read. -/
theorem buildNode_of_leaf (hi : t.tree.nnodes.toNat = i.val) (hbit : getBits 1 (t.alloced i) = .ok 0 u) :
    buildNode (fuel + 1) t = (getBits 8 (editNode i Node.asLeaf u)).bind fun v s =>
      .ok i (editNode i (Node.withSym (BitVec.ofNat 9 v)) s) := by
  rw [buildNode, alloc_of_room hi, Res.bind_of_ok, hbit, Res.bind_of_ok, if_neg Nat.zero_ne_one]

/-- On bit 1 the two subtrees are built. -/
theorem buildNode_of_node (hi : t.tree.nnodes.toNat = i.val) (hbit : getBits 1 (t.alloced i) = .ok 1 u) :
    buildNode (fuel + 1) t = (buildNode fuel u).bind fun l s =>
      (buildNode fuel (editNode i (fun n => { n with left := some l }) s)).bind fun r s =>
        .ok i (editNode i (fun n => { n with right := some r }) s) := by
  rw [buildNode, alloc_of_room hi, Res.bind_of_ok, hbit, Res.bind_of_ok, if_pos rfl]

end

end Sys2Proof.Machine

/-! ## BuildNode on a whole description, one cut off, and one too large (42_huffman R192 to R194) -/

namespace Sys2Proof.Machine

section
variable {s t u : State} {fuel : Nat} {i : Fin 1023} {shape l r : CodeShape} {rest : List Bool}

/-- BuildNode allocates a node and reads its bit. -/
theorem BuildAt.begin (h : BuildAt s t) (i : Fin 1023) {b : Bool} (hstream : t.stream = b :: rest) :
    ∃ u, getBits 1 (t.alloced i) = .ok b.toNat u ∧ BuildAt s u ∧ u.tree = t.tree.grown i ∧ u.stream = rest := by
  have h' := h.alloced i
  obtain ⟨u, hu, hreads, hrest⟩ := reads_bit_of_stream (t := t.alloced i) h'.sound hstream
  exact ⟨u, hu, h'.reads hreads, hreads.tree, hrest⟩

/-- BuildNode allocates a node for which no bit is left. -/
theorem BuildAt.begin_runsOut (h : BuildAt s t) (hi : t.tree.nnodes.toNat = i.val) (hstream : t.stream = []) :
    ∃ u, buildNode (fuel + 1) t = .raised .unexpectedEndOfStream u.br.pos.toNat u ∧ BuildAt s u
      ∧ u.br = s.br.atEnd ∧ u.tree.nnodes.toNat = i.val + 1 := by
  have h' := h.alloced i
  have hfew : (t.alloced i).stream.length < 1 := by
    show t.stream.length < 1
    rw [hstream]
    exact Nat.one_pos
  obtain ⟨u, hu, hreads, hend⟩ := reads_runsOut h'.sound hfew
  exact ⟨u, buildNode_of_noBit hi hu, h'.reads hreads, hend.trans h'.atEnd_eq,
    hreads.tree ▸ CodeTree.nnodes_grown hi⟩

/-- What BuildNode leaves when it has built a description from node `k` on: the nodes before are those of `t`. -/
structure Described (s t : State) (shape : CodeShape) (k : Nat) (u : State) : Prop extends BuildAt s u where
  nnodes : u.tree.nnodes.toNat = k + shape.size
  holds : u.tree.holds shape k
  kept : ∀ j : Fin 1023, j.val < k → u.tree.nodeAt j = t.tree.nodeAt j

theorem nodeAt_editNode (n : Fin 1023) (f : Node → Node) (t : State) (j : Fin 1023) :
    (editNode n f t).tree.nodeAt j = if j = n then f (t.tree.nodeAt n) else t.tree.nodeAt j :=
  CodeTree.nodeAt_setNode _ _ _ _

theorem nodeAt_editNode_same (n : Fin 1023) (f : Node → Node) (t : State) :
    (editNode n f t).tree.nodeAt n = f (t.tree.nodeAt n) := by rw [nodeAt_editNode, if_pos rfl]

theorem nodeAt_editNode_other {n j : Fin 1023} (f : Node → Node) (t : State) (h : j.val ≠ n.val) :
    (editNode n f t).tree.nodeAt j = t.tree.nodeAt j := by
  rw [nodeAt_editNode, if_neg fun e => h (congrArg Fin.val e)]

theorem CodeTree.nodeAt_grown_same (t : CodeTree) (i : Fin 1023) : (t.grown i).nodeAt i = Node.fresh := by
  rw [CodeTree.nodeAt_grown, if_pos rfl]

theorem CodeTree.nodeAt_grown_other {i j : Fin 1023} (t : CodeTree) (h : j.val ≠ i.val) :
    (t.grown i).nodeAt j = t.nodeAt j := by
  rw [CodeTree.nodeAt_grown, if_neg fun e => h (congrArg Fin.val e)]

/-- The leaf's symbol comes next. -/
theorem Described.leaf {sym : Byte} (h : BuildAt s t) (hi : t.tree.nnodes.toNat = i.val)
    (hstream : t.stream = (CodeShape.leaf sym).bits s.br.order ++ rest) :
    ∃ u, buildNode (fuel + 1) t = .ok i u ∧ Described s t (.leaf sym) i.val u ∧ u.stream = rest := by
  obtain ⟨u, hu, hat, htree, hrest⟩ := h.begin i hstream
  have hat' := hat.editNode i Node.asLeaf
  rw [← hat'.order_eq] at hrest
  obtain ⟨v, hv, hreads, hrest'⟩ := reads_of_stream (t := editNode i Node.asLeaf u) hat'.sound sym.isLt hrest
  refine ⟨editNode i (Node.withSym (BitVec.ofNat 9 sym.toNat)) v, ?_, ⟨(hat'.reads hreads).editNode _ _, ?_, ?_, ?_⟩,
    hrest'⟩
  · rw [buildNode_of_leaf hi hu, hv, Res.bind_of_ok]
  · rw [editNode_tree, setNode_nnodes, hreads.tree, editNode_tree, setNode_nnodes, htree, CodeTree.nnodes_grown hi]
    rfl
  · have hnode : (editNode i (Node.withSym (BitVec.ofNat 9 sym.toNat)) v).tree.nodeAt i
        = Node.withSym (BitVec.ofNat 9 sym.toNat) Node.fresh.asLeaf := by
      rw [nodeAt_editNode_same, hreads.tree, nodeAt_editNode_same, htree, CodeTree.nodeAt_grown_same]
    refine ⟨i.isLt, ?_, ?_⟩
    · rw [hnode]; rfl
    · rw [hnode]; exact BitVec.ofNat_toNat 9 sym
  · intro j hj
    have hne : j.val ≠ i.val := by omega
    rw [nodeAt_editNode_other _ _ hne, hreads.tree, nodeAt_editNode_other _ _ hne, htree,
      CodeTree.nodeAt_grown_other _ hne]

/-- `v` is reached by BuildNode between the subtrees of node `i`, begun in `t`: the left one is built, and the node
points to it. -/
structure HalfBuilt (s t : State) (l : CodeShape) (i : Fin 1023) (v : State) : Prop extends BuildAt s v where
  nnodes : v.tree.nnodes.toNat = i.val + 1 + l.size
  inner : (v.tree.nodeAt i).leaf = false
  left : (v.tree.nodeAt i).left.map Fin.val = some (i.val + 1)
  holds : v.tree.holds l (i.val + 1)
  kept : ∀ j : Fin 1023, j.val < i.val → v.tree.nodeAt j = t.tree.nodeAt j

/-- Storing the left child. -/
theorem HalfBuilt.of_left {c : Fin 1023} (htree : u.tree = t.tree.grown i) (hc : c.val = i.val + 1) {w : State}
    (hw : Described s u l c.val w) : HalfBuilt s t l i (editNode i (fun n => { n with left := some c }) w) := by
  have hroot : (editNode i (fun n => { n with left := some c }) w).tree.nodeAt i
      = { Node.fresh with left := some c } := by
    rw [nodeAt_editNode_same, hw.kept i (by omega), htree, CodeTree.nodeAt_grown_same]
  refine ⟨hw.toBuildAt.editNode _ _, ?_, ?_, ?_, ?_, fun j hj => ?_⟩
  · rw [editNode_tree, setNode_nnodes, hw.nnodes, hc]
  · rw [hroot]; rfl
  · rw [hroot, ← hc]; rfl
  · exact CodeTree.holds_congr (fun j h1 _ => nodeAt_editNode_other _ _ (by omega)) (hc ▸ hw.holds)
  · have hne : j.val ≠ i.val := by omega
    rw [nodeAt_editNode_other _ _ hne, hw.kept j (by omega), htree, CodeTree.nodeAt_grown_other _ hne]

/-- Storing the right child completes the node. -/
theorem Described.of_right {v w : State} {d : Fin 1023} (hv : HalfBuilt s t l i v) (hd : d.val = i.val + 1 + l.size)
    (hw : Described s v r d.val w) :
    Described s t (.node l r) i.val (editNode i (fun n => { n with right := some d }) w) := by
  have hroot : (editNode i (fun n => { n with right := some d }) w).tree.nodeAt i
      = { v.tree.nodeAt i with right := some d } := by
    rw [nodeAt_editNode_same, hw.kept i (by omega)]
  refine ⟨hw.toBuildAt.editNode _ _, ?_, ⟨⟨i.isLt, ?_, ?_, ?_⟩, ?_, ?_⟩, fun j hj => ?_⟩
  · rw [editNode_tree, setNode_nnodes, hw.nnodes, hd, CodeShape.size]; omega
  · rw [hroot]; exact hv.inner
  · rw [hroot]; exact hv.left
  · rw [hroot, ← hd]; rfl
  · refine CodeTree.holds_congr (fun j h1 h2 => ?_) hv.holds
    rw [nodeAt_editNode_other _ _ (by omega), hw.kept j (by omega)]
  · exact CodeTree.holds_congr (fun j h1 _ => nodeAt_editNode_other _ _ (by omega)) (hd ▸ hw.holds)
  · rw [nodeAt_editNode_other _ _ (by omega), hw.kept j (by omega), hv.kept j hj]

/-- BuildNode on a description that is there whole builds it, in preorder, and reads no bit behind it. -/
theorem buildNode_of_description (h : BuildAt s t) (hi : t.tree.nnodes.toNat = i.val)
    (hsize : i.val + shape.size ≤ 1023) (hfuel : 1024 ≤ i.val + fuel)
    (hstream : t.stream = shape.bits s.br.order ++ rest) :
    ∃ u, buildNode fuel t = .ok i u ∧ Described s t shape i.val u ∧ u.stream = rest := by
  induction shape generalizing t fuel i rest with
  | leaf sym =>
    obtain ⟨fuel, rfl⟩ := Nat.exists_eq_add_of_lt (show 0 < fuel by omega)
    rw [Nat.zero_add]
    exact Described.leaf h hi hstream
  | node l r hl hr =>
    obtain ⟨fuel, rfl⟩ := Nat.exists_eq_add_of_lt (show 0 < fuel by omega)
    have := l.size_pos
    have := r.size_pos
    rw [CodeShape.size] at hsize
    rw [CodeShape.bits, List.cons_append, List.append_assoc] at hstream
    obtain ⟨u, hu, hat, htree, hrest⟩ := h.begin i hstream
    obtain ⟨w, hw, hleft, hrest'⟩ := hl (i := ⟨i.val + 1, by omega⟩) (fuel := 0 + fuel) hat
      (by rw [htree]; exact CodeTree.nnodes_grown hi) (by simp only; omega) (by simp only; omega) hrest
    have hhalf := HalfBuilt.of_left htree rfl hleft
    obtain ⟨w', hw', hright, hrest''⟩ := hr (i := ⟨i.val + 1 + l.size, by omega⟩) (fuel := 0 + fuel) hhalf.toBuildAt
      hhalf.nnodes (by simp only; omega) (by simp only; omega) hrest'
    exact ⟨_, by rw [buildNode_of_node hi hu, hw, Res.bind_of_ok, hw', Res.bind_of_ok],
      Described.of_right hhalf rfl hright, hrest''⟩

/-- BuildNode behind a left subtree that is there whole. -/
theorem buildNode_of_left (h : BuildAt s t) (hi : t.tree.nnodes.toNat = i.val) (hsize : i.val + 1 + l.size ≤ 1023)
    (hfuel : 1024 ≤ i.val + 1 + fuel) (hstream : t.stream = true :: (l.bits s.br.order ++ rest)) :
    ∃ v, buildNode (fuel + 1) t = ((buildNode fuel v).bind fun d w =>
        .ok i (editNode i (fun n => { n with right := some d }) w))
      ∧ HalfBuilt s t l i v ∧ v.stream = rest := by
  have := l.size_pos
  obtain ⟨u, hu, hat, htree, hrest⟩ := h.begin i hstream
  obtain ⟨w, hw, hleft, hrest'⟩ := buildNode_of_description (i := ⟨i.val + 1, by omega⟩) hat
    (by rw [htree]; exact CodeTree.nnodes_grown hi) hsize hfuel hrest
  exact ⟨_, by rw [buildNode_of_node hi hu, hw, Res.bind_of_ok], HalfBuilt.of_left htree rfl hleft, hrest'⟩

theorem CodeShape.begun_leaf (sym : Byte) (n : Nat) : (CodeShape.leaf sym).begun n = 1 := by
  simp [CodeShape.begun, CodeShape.starts]

/-- BuildNode on a description that the stream cuts off has allocated the nodes begun. -/
theorem buildNode_of_cutOff {k : Nat} (h : BuildAt s t) (hk : t.tree.nnodes.toNat = k) (hfuel : 1024 ≤ k + fuel)
    (hfrag : t.stream <+: shape.bits s.br.order) (hshort : t.stream.length < shape.width)
    (hroom : k + shape.begun t.stream.length ≤ 1023) :
    ∃ u, buildNode fuel t = .raised .unexpectedEndOfStream u.br.pos.toNat u ∧ BuildAt s u ∧ u.br = s.br.atEnd
      ∧ u.tree.nnodes.toNat = k + shape.begun t.stream.length := by
  induction shape generalizing t fuel k with
  | leaf sym =>
    rw [CodeShape.begun_leaf] at hroom ⊢
    obtain ⟨fuel, rfl⟩ := Nat.exists_eq_add_of_lt (show 0 < fuel by omega)
    rw [Nat.zero_add]
    have hi : t.tree.nnodes.toNat = (⟨k, by omega⟩ : Fin 1023).val := hk
    rcases List.prefix_cons_iff.1 hfrag with hnil | ⟨frag, hstream, -⟩
    · exact h.begin_runsOut hi hnil
    obtain ⟨u, hu, hat, htree, hrest⟩ := h.begin ⟨k, by omega⟩ hstream
    have hat' := hat.editNode ⟨k, by omega⟩ Node.asLeaf
    have hfew : (editNode ⟨k, by omega⟩ Node.asLeaf u).stream.length < 8 := by
      show u.stream.length < 8
      rw [hstream, List.length_cons, CodeShape.width, ← hrest] at hshort
      omega
    obtain ⟨v, hv, hreads, hend⟩ := reads_runsOut hat'.sound hfew
    refine ⟨v, ?_, hat'.reads hreads, hend.trans hat'.atEnd_eq, ?_⟩
    · rw [buildNode_of_leaf hi hu, hv, Res.bind_of_raised]
    · rw [hreads.tree, editNode_tree, setNode_nnodes, htree]
      exact CodeTree.nnodes_grown hi
  | node l r hl hr =>
    have hpos := (CodeShape.node l r).begun_pos t.stream.length
    obtain ⟨fuel, rfl⟩ := Nat.exists_eq_add_of_lt (show 0 < fuel by omega)
    rw [Nat.zero_add]
    have hi : t.tree.nnodes.toNat = (⟨k, by omega⟩ : Fin 1023).val := hk
    rcases List.prefix_cons_iff.1 hfrag with hnil | ⟨frag, hstream, hfrag'⟩
    · rw [hnil, List.length_nil, CodeShape.begun_zero]
      exact h.begin_runsOut hi hnil
    rw [hstream, List.length_cons] at hroom hshort ⊢
    by_cases hinside : frag.length < l.width
    · rw [CodeShape.begun_node_left hinside, ← Nat.add_assoc] at hroom ⊢
      obtain ⟨u, hu, hat, htree, hrest⟩ := h.begin ⟨k, by omega⟩ hstream
      have hnnodes : u.tree.nnodes.toNat = k + 1 := htree ▸ CodeTree.nnodes_grown hi
      have hfrag'' : frag <+: l.bits s.br.order :=
        List.prefix_of_prefix_length_le hfrag' (List.prefix_append _ _) (by rw [CodeShape.length_bits]; omega)
      subst hrest
      obtain ⟨v, hv, hat', hend⟩ := hl (k := k + 1) (fuel := fuel) hat hnnodes (by omega) hfrag'' hinside hroom
      exact ⟨v, by rw [buildNode_of_node hi hu, hv, Res.bind_of_raised], hat', hend⟩
    · obtain ⟨frag', rfl⟩ := List.prefix_of_prefix_length_le (List.prefix_append _ _) hfrag'
        (by rw [CodeShape.length_bits]; omega)
      rw [List.length_append, CodeShape.length_bits] at hroom hshort ⊢
      rw [CodeShape.begun_node_right] at hroom ⊢
      rw [CodeShape.width] at hshort
      obtain ⟨v, hv, hhalf, hrest⟩ := buildNode_of_left (fuel := fuel) h hi (by simp only; omega) (by simp only; omega)
        hstream
      subst hrest
      obtain ⟨w, hw, hat', hend, hnnodes⟩ := hr (k := k + 1 + l.size) (fuel := fuel) hhalf.toBuildAt
        hhalf.nnodes (by omega) ((List.prefix_append_right_inj _).1 hfrag') (by omega) (by omega)
      exact ⟨w, by rw [hv, hw, Res.bind_of_raised], hat', hend, by rw [hnnodes]; omega⟩

/-- BuildNode on a description that needs a 1024th node stops in front of it, whatever follows. -/
theorem buildNode_of_tooLarge {k : Nat} {more : List Bool} (h : BuildAt s t) (hk : t.tree.nnodes.toNat = k)
    (hfuel : 1024 ≤ k + fuel) (hfrag : t.stream <+: shape.bits s.br.order ++ more)
    (hlarge : 1023 < k + shape.begun t.stream.length) :
    ∃ u, buildNode fuel t = .raised .invalidFormat 1 u ∧ BuildAt s u ∧ u.tree.nnodes.toNat = 1023
      ∧ u.stream = t.stream.drop ((shape.starts 0).getD (1023 - k) 0) := by
  induction shape generalizing t fuel k more with
  | leaf sym =>
    rw [CodeShape.begun_leaf] at hlarge
    have hfull : t.tree.nnodes.toNat = 1023 := by have := t.tree.nnodes.isLt; omega
    exact ⟨t, buildNode_of_full hfull fuel, h, hfull, by rw [show 1023 - k = 0 by omega]; rfl⟩
  | node l r hl hr =>
    rcases (hk ▸ Nat.le_of_lt_succ t.tree.nnodes.isLt : k ≤ 1023).eq_or_lt with rfl | hlt
    · exact ⟨t, buildNode_of_full hk fuel, h, hk, rfl⟩
    obtain ⟨fuel, rfl⟩ := Nat.exists_eq_add_of_lt (show 0 < fuel by omega)
    rw [Nat.zero_add]
    have hi : t.tree.nnodes.toNat = (⟨k, hlt⟩ : Fin 1023).val := hk
    rw [CodeShape.bits, List.cons_append, List.append_assoc] at hfrag
    rcases List.prefix_cons_iff.1 hfrag with hnil | ⟨frag, hstream, hfrag'⟩
    · rw [hnil, List.length_nil, CodeShape.begun_zero] at hlarge
      omega
    rw [hstream] at hlarge ⊢
    rw [List.length_cons] at hlarge
    by_cases hinside : 1023 < k + 1 + l.begun frag.length
    · obtain ⟨u, hu, hat, htree, hrest⟩ := h.begin ⟨k, hlt⟩ hstream
      subst hrest
      obtain ⟨v, hv, hat', hfull, hdrop⟩ := hl (k := k + 1) (fuel := fuel) hat (htree ▸ CodeTree.nnodes_grown hi)
        (by omega) hfrag' hinside
      have hbegun := l.begun_le_size u.stream.length
      refine ⟨v, by rw [buildNode_of_node hi hu, hv, Res.bind_of_raised], hat', hfull, ?_⟩
      rw [hdrop, show 1023 - k = 1023 - (k + 1) + 1 by omega, CodeShape.starts_node_left (by omega),
        List.drop_succ_cons]
    · have hwhole : l.width ≤ frag.length := by
        by_contra hshort
        rw [CodeShape.begun_node_left (Nat.lt_of_not_le hshort)] at hlarge
        omega
      rw [CodeShape.begun_whole hwhole] at hinside
      obtain ⟨frag', rfl⟩ := List.prefix_of_prefix_length_le (List.prefix_append _ _) hfrag'
        (by rwa [CodeShape.length_bits])
      rw [List.length_append, CodeShape.length_bits, CodeShape.begun_node_right] at hlarge
      obtain ⟨v, hv, hhalf, hrest⟩ := buildNode_of_left (fuel := fuel) h hi (by simp only; omega) (by simp only; omega)
        hstream
      subst hrest
      obtain ⟨w, hw, hat', hfull, hdrop⟩ := hr (k := k + 1 + l.size) (fuel := fuel) hhalf.toBuildAt hhalf.nnodes
        (by omega) ((List.prefix_append_right_inj _).1 hfrag') (by omega)
      have hbegun := r.begun_le_size v.stream.length
      refine ⟨w, by rw [hv, hw, Res.bind_of_raised], hat', hfull, ?_⟩
      rw [hdrop, show 1023 - k = l.size + (1023 - (k + 1 + l.size)) + 1 by omega,
        CodeShape.starts_node_right (by omega), ← CodeShape.length_bits s.br.order l, Nat.add_left_comm,
        Nat.add_comm 1, List.drop_succ_cons, Nat.add_comm _ (List.length _), List.drop_length_add_append]

end

end Sys2Proof.Machine

/-! ## HUFTREE, and HUFDEC's rebuild of a self-describing tree (42_huffman R193 to R195, R204, R207, R208) -/

namespace Sys2Proof.Machine

/-! ### BuildTree (42_huffman R194) -/

section
variable {s t u : State} {shape : CodeShape} {rest more : List Bool}

theorem buildTree_of_ok {i : Fin 1023} (h : buildNode 1024 (clearTree s) = .ok i u) :
    buildTree s = .ok () (finishTree .selfDescribing u) := by rw [buildTree, h, Res.bind_of_ok]

theorem buildTree_of_raised {e : ErrorName} {info : Nat} (h : buildNode 1024 (clearTree s) = .raised e info u) :
    buildTree s = .raised e info u := by rw [buildTree, h, Res.bind_of_raised]

/-- What a completed build leaves. -/
structure TreeBuilt (k : TreeKind) (s u : State) : Prop extends TreeStep s u where
  valid : u.tree.valid = true
  kind : u.tree.kind = k

theorem BuildAt.finishTree (h : BuildAt s t) (k : TreeKind) : TreeBuilt k s (finishTree k t) :=
  ⟨h.toTreeStep.setTree _, rfl, rfl⟩

/-- A description that is there whole is built. -/
theorem buildTree_of_description (hs : s.br.sound) (hsize : shape.size ≤ 1023)
    (hstream : s.stream = shape.bits s.br.order ++ rest) :
    ∃ u, buildTree s = .ok () u ∧ TreeBuilt .selfDescribing s u ∧ u.tree.nnodes.toNat = shape.size
      ∧ u.tree.holds shape 0 ∧ u.stream = rest := by
  obtain ⟨u, hu, hbuilt, hrest⟩ := buildNode_of_description (i := 0) (fuel := 1024) (.init hs) rfl
    ((Nat.zero_add _).trans_le hsize) (Nat.le_add_left _ _) hstream
  exact ⟨_, buildTree_of_ok hu, hbuilt.toBuildAt.finishTree _, hbuilt.nnodes.trans (Nat.zero_add _),
    CodeTree.holds_congr (t := u.tree) (fun _ _ _ => rfl) hbuilt.holds, hrest⟩

/-- One that is cut off leaves no tree. -/
theorem buildTree_of_cutOff (hs : s.br.sound) (hcut : shape.cutOff s.br.order s.stream) :
    ∃ u, buildTree s = .raised .unexpectedEndOfStream u.br.pos.toNat u ∧ BuildAt s u ∧ u.br = s.br.atEnd
      ∧ u.tree.nnodes.toNat = shape.begun s.stream.length := by
  obtain ⟨hfrag, hne, hroom⟩ := hcut
  have hshort := length_lt_of_prefix_ne hfrag hne
  rw [CodeShape.length_bits] at hshort
  obtain ⟨u, hu, hat, hend, hnnodes⟩ := buildNode_of_cutOff (k := 0) (fuel := 1024) (.init hs) rfl (Nat.le_add_left _ _)
    hfrag hshort ((Nat.zero_add _).trans_le hroom)
  exact ⟨u, buildTree_of_raised hu, hat, hend, hnnodes.trans (Nat.zero_add _)⟩

/-- One that needs a 1024th node leaves no tree. -/
theorem buildTree_of_tooLarge (hs : s.br.sound) (hlarge : shape.tooLarge s.br.order s.stream) :
    ∃ u, buildTree s = .raised .invalidFormat 1 u ∧ BuildAt s u ∧ u.tree.nnodes = 1023
      ∧ u.stream = s.stream.drop shape.bitsBeforeLast := by
  obtain ⟨hfrag, hbegun⟩ := hlarge
  obtain ⟨more, hmore⟩ : ∃ more, s.stream <+: shape.bits s.br.order ++ more := by
    rcases hfrag with hfrag | ⟨more, hmore⟩
    · exact ⟨[], by rwa [List.append_nil]⟩
    · exact ⟨more, by rw [hmore]⟩
  obtain ⟨u, hu, hat, hfull, hdrop⟩ := buildNode_of_tooLarge (k := 0) (fuel := 1024) (.init hs) rfl (Nat.le_add_left _ _)
    hmore (by rwa [Nat.zero_add])
  exact ⟨u, buildTree_of_raised hu, hat, BitVec.eq_of_toNat_eq hfull, hdrop⟩

/-! ### HUFTREE (42_huffman R195) -/

theorem TreeStep.finished (h : TreeStep (accept s) t) :
    finish t = { s with status := s.doneStatus, br := t.br, tree := t.tree } := by
  rw [h.frame]
  rfl

theorem TreeStep.stopped (h : TreeStep (accept s) t) (e : ErrorName) (info : Nat) :
    raiseError e info t = { s with status := s.errStatus e, errInfo := BitVec.ofNat 32 info, br := t.br,
                                   tree := t.tree } := by
  rw [h.frame]
  rfl

/-- An end of the stream recorded, with ERRINFO at its place. -/
theorem TreeStep.stopped_atEnd (h : TreeStep (accept s) t) (hend : t.br = s.br.atEnd) :
    raiseError .unexpectedEndOfStream t.br.pos.toNat t
      = { s with status := s.errStatus .unexpectedEndOfStream, errInfo := s.br.atEnd.pos, br := s.br.atEnd,
                 tree := t.tree } := by
  rw [h.stopped, BitVec.ofNat_toNat, BitVec.setWidth_eq, hend]

theorem exec_huftree_of_valid (herr : s.status.err = false) (hvalid : s.br.valid = true) :
    exec .huftree s = .next (conclude (buildTree (accept s))) := by
  have hpass : ∀ c ∈ readerChecks (accept s), c.pass = true := List.forall_mem_singleton.2 hvalid
  exact congrArg Host.Outcome.next (runCommand_of_checks herr hpass)

/-- Settles O32, by `buildTree_of_description`. -/
theorem huftreeBuildsDescription : Obligations.HuftreeBuildsDescription := by
  intro s shape rest herr _ hreader hvalid hsize hstream
  obtain ⟨hsound, -⟩ := s.readerOk_iff.1 hreader hvalid
  obtain ⟨u, hu, hbuilt, hnnodes, hholds, hrest⟩ := buildTree_of_description (s := accept s) hsound hsize hstream
  exact ⟨finish u, by rw [exec_huftree_of_valid herr hvalid, hu, conclude_ok], hbuilt.finished, hbuilt.valid,
    hbuilt.kind, hnnodes, hholds, hrest⟩

/-- Settles O33, by `buildTree_of_cutOff` and `buildTree_of_tooLarge`. -/
theorem huftreeFailures : Obligations.HuftreeFailures := by
  intro s herr
  refine ⟨fun hinvalid => ?noReader, fun _ hreader hvalid shape => ?_⟩
  case noReader =>
    have hfail : firstFailure (readerChecks (accept s)) = some (readerReady s) :=
      if_neg (Bool.eq_false_iff.1 hinvalid)
    exact congrArg Host.Outcome.next (runCommand_of_failure herr hfail)
  obtain ⟨hsound, -⟩ := s.readerOk_iff.1 hreader hvalid
  refine ⟨fun hcut => ?cutOff, fun hlarge => ?tooLarge⟩
  case cutOff =>
    obtain ⟨u, hu, hat, hend, hnnodes⟩ := buildTree_of_cutOff (s := accept s) hsound hcut
    exact ⟨_, by rw [exec_huftree_of_valid herr hvalid, hu, conclude_raised], hat.stopped_atEnd hend, hat.invalid,
      hat.kind, hnnodes⟩
  case tooLarge =>
    obtain ⟨u, hu, hat, hnnodes, hdrop⟩ := buildTree_of_tooLarge (s := accept s) hsound hlarge
    exact ⟨_, by rw [exec_huftree_of_valid herr hvalid, hu, conclude_raised], hat.stopped _ _, hat.invalid, hat.kind,
      hnnodes, hat.reader.later.source, hdrop⟩

end

/-! ### The rebuild signal (42_huffman R207) -/

section
variable {s t u v : State} {out : List Byte} {rest more : List Bool}

/-- HUFDEC over a message and the code of the rebuild signal comes to the rebuild. -/
theorem exec_hufdec_of_signal {msg : List (List Bool × Byte)} {signal : List Bool} (hs : s.hufReady)
    (hreader : s.readerOk) (hen : s.regs.hufCfg.rebuildEn = true) (hcodes : s.codes s.tree msg)
    (hsignal : s.tree.symbolAt 0 signal = some s.regs.hufRsym) (hroom : msg.length < s.regs.outCap.toNat)
    (hstream : s.stream = (msg.flatMap fun p => p.1) ++ (signal ++ more)) :
    ∃ u fuel, exec .hufdec s = .next (conclude ((rebuildTree u).bind fun _ v => hufLoop fuel v))
      ∧ s.regs.outCap.toNat ≤ msg.length + fuel
      ∧ HufAt (accept s) (msg.map fun p => p.2) u ∧ u.tree = s.tree ∧ u.stream = more := by
  obtain ⟨t, fuel, hexec, hfuel, hat, htree, hrest⟩ := exec_hufdec_of_message hs hreader hcodes hroom.le hstream
  obtain ⟨u, hu, hreads, hrest'⟩ := decodeSymbol_of_code hat.sound (htree ▸ hsignal) hrest
  have hat' := hat.step hreads.toTreeStep
  have hregs : u.regs = s.regs := hat'.regs
  refine ⟨u, fuel, ?_, hfuel, hat', hreads.tree.trans htree, hrest'⟩
  rw [← hregs] at hu hen
  rw [hexec, hat.loop_pass (by rwa [List.length_map]), hufStep_of_signal hu hen]

/-- HUFDEC goes on with the new tree to OUT_CAP. -/
theorem exec_hufdec_of_rebuilt {msg : List (List Bool × Byte)} {fuel : Nat} (hs : s.hufReady)
    (hexec : exec .hufdec s = .next (conclude ((rebuildTree u).bind fun _ v => hufLoop fuel v)))
    (hfuel : s.regs.outCap.toNat ≤ out.length + fuel) (hrebuild : rebuildTree u = .ok () v)
    (hat : HufAt (accept s) out v) (hcodes : s.codes v.tree msg) (hlen : out.length + msg.length = s.regs.outCap.toNat)
    (hstream : v.stream = (msg.flatMap fun p => p.1) ++ rest) :
    ∃ t, exec .hufdec s = .next t
      ∧ t = { s with status := s.doneStatus, br := t.br, outLen := s.regs.outCap, mem := t.mem, tree := t.tree }
      ∧ t.tree = v.tree ∧ s.wrote t (out ++ msg.map fun p => p.2) ∧ t.stream = rest := by
  have hready : (accept s).hufReady := hs
  obtain ⟨w, hw, hat', htree, hrest⟩ := hat.loop_message hready hcodes hlen.le hstream
  have hfull : (out ++ msg.map fun p => p.2).length = s.regs.outCap.toNat := by
    rwa [List.length_append, List.length_map]
  obtain ⟨k, rfl⟩ := Nat.exists_eq_add_of_le (show msg.length ≤ fuel by omega)
  refine ⟨finish w, ?_, hat'.finished hfull, htree, hat'.wrote, hrest⟩
  rw [hexec, hrebuild, Res.bind_of_ok, hw, hat'.loop_full hfull, conclude_ok]

/-- An error in the rebuild ends HUFDEC. -/
theorem exec_hufdec_of_notRebuilt {fuel : Nat} {e : ErrorName} {info : Nat}
    (hexec : exec .hufdec s = .next (conclude ((rebuildTree u).bind fun _ v => hufLoop fuel v)))
    (hrebuild : rebuildTree u = .raised e info v) : exec .hufdec s = .next (raiseError e info v) := by
  rw [hexec, hrebuild]
  rfl

/-- HUFDEC's end where the stream ends. -/
theorem HufAt.stopped_atEnd (h : HufAt (accept s) out t) (hend : t.br = s.br.atEnd) :
    raiseError .unexpectedEndOfStream t.br.pos.toNat t
      = { s with status := s.errStatus .unexpectedEndOfStream, errInfo := s.br.atEnd.pos, br := s.br.atEnd,
                 outLen := BitVec.ofNat 32 out.length, mem := t.mem, tree := t.tree } := by
  rw [h.stopped, BitVec.ofNat_toNat, BitVec.setWidth_eq, hend]

theorem rebuildTree_selfDescribing (h : u.tree.kind = .selfDescribing) : rebuildTree u = buildTree u := by
  rw [rebuildTree, h]

theorem rebuildTree_canonical (h : u.tree.kind = .canonical) : rebuildTree u = buildCanon u := by
  rw [rebuildTree, h]

end

/-- Settles O40: the signal leads to BuildTree (`exec_hufdec_of_signal`), which does what it does for HUFTREE. -/
theorem hufdecRebuildsSelfDescribing : Obligations.HufdecRebuildsSelfDescribing := by
  intro s msg1 msg2 signal rest shape hs _ hreader hen hkind hcodes hsignal hroom
  have hsignaled {more : List Bool} (hstream : s.stream = (msg1.flatMap fun p => p.1) ++ (signal ++ more)) :=
    exec_hufdec_of_signal hs hreader hen hcodes hsignal hroom hstream
  refine ⟨fun hsize hlen hcodes2 hstream => ?rebuilt, fun bits hstream => ?failed⟩
  case rebuilt =>
    simp only [List.append_assoc] at hstream
    obtain ⟨u, fuel, hexec, hfuel, hat, htree, hrest⟩ := hsignaled hstream
    obtain ⟨v, hv, hbuilt, hnnodes, hholds, hrest'⟩ :=
      buildTree_of_description hat.sound hsize (hat.order_eq ▸ hrest)
    have hrebuild : rebuildTree u = .ok () v := (rebuildTree_selfDescribing (htree ▸ hkind)).trans hv
    have hcodes' : s.codes v.tree msg2 := fun p hp => by
      obtain ⟨hpath, hplain⟩ := hcodes2 p hp
      exact ⟨CodeTree.symbolAt_of_holds hholds hpath, fun h => hplain h.2⟩
    have hcount : (msg1.map fun p => p.2).length = msg1.length := List.length_map _
    obtain ⟨t, ht, hframe, htree', hwrote, hend⟩ := exec_hufdec_of_rebuilt hs hexec (hcount ▸ hfuel) hrebuild
      (hat.step hbuilt.toTreeStep) hcodes' (hcount ▸ hlen) hrest'
    rw [← List.map_append] at hwrote
    rw [← htree'] at hnnodes hholds
    exact ⟨t, ht, hframe, htree' ▸ hbuilt.valid, htree' ▸ hbuilt.kind, hnnodes, hholds, hwrote, hend⟩
  case failed =>
    rw [List.append_assoc] at hstream
    obtain ⟨u, fuel, hexec, -, hat, htree, hrest⟩ := hsignaled hstream
    have hrebuild : rebuildTree u = buildTree u := rebuildTree_selfDescribing (htree ▸ hkind)
    have horder : u.br.order = s.br.order := hat.order_eq
    subst hrest
    rw [← horder, ← htree]
    refine ⟨fun hcut => ?cutOff, fun hlarge => ?tooLarge⟩
    case cutOff =>
      obtain ⟨v, hv, hbuild, hend, hnnodes⟩ := buildTree_of_cutOff hat.sound hcut
      have hat' := hat.step hbuild.toTreeStep
      refine ⟨_, exec_hufdec_of_notRebuilt hexec (hrebuild.trans hv), ?_, hbuild.invalid, hbuild.kind, hnnodes,
        hat'.wrote⟩
      exact (hat'.stopped_atEnd (hend.trans hat.atEnd_eq)).trans (by rw [List.length_map]; rfl)
    case tooLarge =>
      obtain ⟨v, hv, hbuild, hnnodes, hdrop⟩ := buildTree_of_tooLarge hat.sound hlarge
      have hat' := hat.step hbuild.toTreeStep
      refine ⟨_, exec_hufdec_of_notRebuilt hexec (hrebuild.trans hv), ?_, hbuild.invalid, hbuild.kind, hnnodes,
        hat'.wrote, hat'.reader.later.source, hdrop⟩
      exact (hat'.stopped _ _).trans (by rw [List.length_map]; rfl)

end Sys2Proof.Machine

/-! ## The length table (30_encoding R122; 42_huffman R199, R200) -/

namespace Sys2Proof.Machine

section
variable {s t u : State} {lb n : Nat} {rest : List Bool}

/-- A field that is there is read. -/
theorem reads_of_enough (ht : t.br.sound) (hn : 1 ≤ n) (hlen : n ≤ t.stream.length) :
    ∃ v u, getBits n t = .ok v u ∧ Reads t u ∧ t.stream.length = n + u.stream.length := by
  obtain ⟨v, q, hq, hfield⟩ := BitReader.getBits_of_enough ht hn hlen
  exact ⟨v, { t with br := q }, by rw [getBits, hq]; rfl, ⟨⟨rfl, hfield.ahead⟩, rfl⟩, hfield.length_eq⟩

/-- The length fields of symbols from `sym` on, with their symbols. -/
theorem readLengths_of_stream {lengths : List Nat} (ht : t.br.sound) (hlt : ∀ l ∈ lengths, l < 2 ^ lb) (sym : Nat)
    (hstream : t.stream = lengths.flatMap (fieldBits t.br.order lb) ++ rest) :
    ∃ u, readLengths lb lengths.length sym t = .ok ((List.range' sym lengths.length).zip lengths) u ∧ Reads t u
      ∧ u.stream = rest := by
  induction lengths generalizing t sym with
  | nil => exact ⟨t, rfl, .refl ht, hstream⟩
  | cons l ls ih =>
    obtain ⟨hl, hls⟩ := List.forall_mem_cons.1 hlt
    rw [List.flatMap_cons, List.append_assoc] at hstream
    obtain ⟨u, hu, hreads, hrest⟩ := reads_of_stream ht hl hstream
    rw [← hreads.order_eq] at hrest
    obtain ⟨v, hv, hreads', hrest'⟩ := ih hreads.sound hls (sym + 1) hrest
    refine ⟨v, ?_, hreads.trans hreads', hrest'⟩
    rw [List.length_cons, readLengths, hu, Res.bind_of_ok, hv, Res.bind_of_ok, List.range'_succ, List.zip_cons_cons]

/-- A table that the stream cuts off. -/
theorem readLengths_runsOut {count : Nat} (ht : t.br.sound) (hfew : t.stream.length < lb * count) (sym : Nat) :
    ∃ u, readLengths lb count sym t = .raised .unexpectedEndOfStream u.br.pos.toNat u ∧ Reads t u
      ∧ u.br = t.br.atEnd := by
  induction count generalizing t sym with
  | zero => exact absurd hfew (Nat.not_lt_zero _)
  | succ count ih =>
    by_cases hnone : t.stream.length < lb
    · obtain ⟨u, hu, hreads, hend⟩ := reads_runsOut ht hnone
      exact ⟨u, by rw [readLengths, hu, Res.bind_of_raised], hreads, hend⟩
    · have hlb : 1 ≤ lb := Nat.one_le_iff_ne_zero.2 fun h0 => by rw [h0, Nat.zero_mul] at hfew; omega
      obtain ⟨v, u, hu, hreads, hlen⟩ := reads_of_enough ht hlb (Nat.le_of_not_lt hnone)
      rw [hlen, Nat.mul_succ, Nat.add_comm] at hfew
      obtain ⟨w, hw, hreads', hend⟩ := ih hreads.sound (Nat.lt_of_add_lt_add_right hfew) (sym + 1)
      refine ⟨w, ?_, hreads.trans hreads', hend.trans hreads.atEnd_eq⟩
      rw [readLengths, hu, Res.bind_of_ok, hw, Res.bind_of_raised]

/-- BuildCanon on a table that is cut off leaves no tree and no node. -/
theorem buildCanon_of_cutOff (hs : s.br.sound)
    (hfew : s.stream.length < s.regs.hufCfg.lenBits.toNat * s.regs.hufCfg.nsym.toNat) :
    ∃ u, buildCanon s = .raised .unexpectedEndOfStream u.br.pos.toNat u ∧ BuildAt s u ∧ u.br = s.br.atEnd
      ∧ u.tree.nnodes = 0 := by
  obtain ⟨u, hu, hreads, hend⟩ := readLengths_runsOut (t := clearTree s) hs hfew 0
  exact ⟨u, by rw [buildCanon, hu, Res.bind_of_raised], (BuildAt.init hs).reads hreads, hend, hreads.tree ▸ rfl⟩

/-! ### HUFCANON's checks (42_huffman R200) -/

theorem exec_hufcanon_of_legal (herr : s.status.err = false) (hvalid : s.br.valid = true)
    (hlegal : s.regs.hufCfg.legal = true) : exec .hufcanon s = .next (conclude (buildCanon (accept s))) := by
  have hpass : ∀ c ∈ hufcanonChecks (accept s), c.pass = true :=
    List.forall_mem_cons.2 ⟨hvalid, List.forall_mem_singleton.2 hlegal⟩
  exact congrArg Host.Outcome.next (runCommand_of_checks herr hpass)

/-- Settles O34: each check fails in its turn; behind them the table is cut off (`buildCanon_of_cutOff`). -/
theorem hufcanonFailures : Obligations.HufcanonFailures := by
  intro s herr
  dsimp only
  have hrefused {c : Check} (hfail : firstFailure (hufcanonChecks s) = some c) :
      exec .hufcanon s = .next (s.refused c.err c.info) :=
    congrArg Host.Outcome.next (runCommand_of_failure herr hfail)
  have hlegal := HufCfg.legal_iff s.regs.hufCfg
  simp only [hufcanonChecks, firstFailure_cons] at hrefused
  split
  next hinvalid => exact hrefused (c := readerReady s) (if_neg (Bool.eq_false_iff.1 hinvalid))
  next hvalid =>
  have hreader : (readerReady s).pass = true := eq_true_of_ne_false hvalid
  simp only [if_pos hreader] at hrefused
  split
  next hbad =>
    refine hrefused (c := configOk _ .hufCfg) (if_neg fun h => ?_)
    have := hlegal.1 h
    omega
  next hgood =>
  intro _ hreaderOk hfew
  obtain ⟨hsound, -⟩ := s.readerOk_iff.1 hreaderOk hreader
  obtain ⟨u, hu, hat, hend, hnnodes⟩ := buildCanon_of_cutOff (s := accept s) hsound hfew
  exact ⟨_, by rw [exec_hufcanon_of_legal herr hreader (hlegal.2 (by omega)), hu, conclude_raised],
    hat.stopped_atEnd hend, hat.invalid, hat.kind, hnnodes⟩

end

end Sys2Proof.Machine

/-! ## BuildCanon inserts the canonical codes in their order (42_huffman R196, R199) -/

namespace Sys2Proof.Machine

theorem Res.bind_assoc {σ α β γ : Type} (x : Res σ α) (f : α → σ → Res σ β) (g : β → σ → Res σ γ) :
    (x.bind f).bind g = x.bind fun a s => (f a s).bind g := by cases x <;> rfl

/-- The insertions of BuildCanon, one behind the other: the first code that does not fit is refused. -/
def insertCodes : List (Nat × Nat × Nat) → State → Res State Unit
  | [], s => .ok () s
  | c :: cs, s =>
    if 2 ^ c.2.1 ≤ c.2.2 then .raised .invalidFormat 2 s
    else (insertCode c.2.2 c.2.1 (BitVec.ofNat 9 c.1) s).bind fun _ s => insertCodes cs s

theorem insertCodes_append (cs ds : List (Nat × Nat × Nat)) (t : State) :
    insertCodes (cs ++ ds) t = (insertCodes cs t).bind fun _ u => insertCodes ds u := by
  induction cs generalizing t with
  | nil => rfl
  | cons c cs ih =>
    rw [List.cons_append, insertCodes, insertCodes]
    split
    · rfl
    · simp only [Res.bind_assoc, ih]

/-- The entries of a table with one length. -/
def entriesOf (table : List (Nat × Nat)) (len : Nat) : List (Nat × Nat) := table.filter fun e => e.2 = len

theorem length_of_mem_entriesOf {table : List (Nat × Nat)} {len : Nat} {e : Nat × Nat} (h : e ∈ entriesOf table len) :
    e.2 = len := of_decide_eq_true (List.mem_filter.1 h).2

/-! ### Codes of one length, and of the next -/

theorem assignCodes_cons (next len : Nat) (e : Nat × Nat) (es : List (Nat × Nat)) :
    assignCodes next len (e :: es)
      = (e.1, e.2, next <<< (e.2 - len)) :: assignCodes (next <<< (e.2 - len) + 1) e.2 es := rfl

/-- Within one length the codes count up. -/
theorem assignCodes_append {es : List (Nat × Nat)} {len : Nat} (hes : ∀ e ∈ es, e.2 = len) (next : Nat)
    (fs : List (Nat × Nat)) :
    assignCodes next len (es ++ fs) = assignCodes next len es ++ assignCodes (next + es.length) len fs := by
  induction es generalizing next with
  | nil => rfl
  | cons e es ih =>
    obtain ⟨he, hes'⟩ := List.forall_mem_cons.1 hes
    rw [List.cons_append, assignCodes_cons, assignCodes_cons, he, Nat.sub_self, Nat.shiftLeft_zero, ih hes',
      List.cons_append, List.length_cons, Nat.add_right_comm, Nat.add_assoc]

/-- Where no entry has the length `len`, the code can be shifted to the next length first. -/
theorem assignCodes_shift {es : List (Nat × Nat)} {len : Nat} (hes : ∀ e ∈ es, len + 1 ≤ e.2) (next : Nat) :
    assignCodes (next <<< 1) (len + 1) es = assignCodes next len es := by
  cases es with
  | nil => rfl
  | cons e es =>
    have he := hes e (List.mem_cons_self ..)
    have hshift : (next <<< 1) <<< (e.2 - (len + 1)) = next <<< (e.2 - len) := by
      rw [← Nat.shiftLeft_add]
      congr 1
      omega
    rw [assignCodes_cons, assignCodes_cons, hshift]

/-! ### The two loops -/

/-- One length: its codes are inserted, and counted. -/
theorem canonSymbols_eq (len : Nat) (table : List (Nat × Nat)) (code : Nat) (t : State) :
    canonSymbols len table code t
      = (insertCodes (assignCodes code len (entriesOf table len)) t).bind
          fun _ u => .ok (code + (entriesOf table len).length) u := by
  induction table generalizing code t with
  | nil => rfl
  | cons e table ih =>
    obtain ⟨sym, l⟩ := e
    rw [canonSymbols]
    by_cases hl : l = len
    · have hentries : entriesOf ((sym, l) :: table) len = (sym, len) :: entriesOf table len := by
        rw [hl]
        exact List.filter_cons_of_pos (decide_eq_true rfl)
      rw [if_pos hl, hentries, assignCodes_cons, Nat.sub_self, Nat.shiftLeft_zero, insertCodes]
      split
      · rfl
      · simp only [Res.bind_assoc, ih, List.length_cons, Nat.add_assoc, Nat.add_comm 1]
    · have hentries : entriesOf ((sym, l) :: table) len = entriesOf table len :=
        List.filter_cons_of_neg (by simpa using hl)
      rw [if_neg hl, hentries, ih]

/-- All lengths: the codes are inserted in the order of the lengths. -/
theorem canonLengths_eq (table : List (Nat × Nat)) (len count code : Nat) (t : State) :
    canonLengths table (List.range' len count) code t
      = insertCodes (assignCodes code len ((List.range' len count).flatMap (entriesOf table))) t := by
  induction count generalizing len code t with
  | zero => rfl
  | succ count ih =>
    have hlater : ∀ e ∈ (List.range' (len + 1) count).flatMap (entriesOf table), len + 1 ≤ e.2 := by
      intro e he
      obtain ⟨l, hl, he'⟩ := List.mem_flatMap.1 he
      rw [length_of_mem_entriesOf he']
      exact (List.mem_range'_1.1 hl).1
    rw [List.range'_succ, canonLengths, canonSymbols_eq, List.flatMap_cons,
      assignCodes_append fun _ he => length_of_mem_entriesOf he, insertCodes_append, Res.bind_assoc]
    simp only [Res.bind_of_ok, ih, assignCodes_shift hlater]

/-! ### The table in the order of its codes -/

theorem zip_range'_eq_map (lengths : List Nat) :
    (List.range' 0 lengths.length).zip lengths = (List.range lengths.length).map fun sym => (sym, lengths.getD sym 0) := by
  refine List.ext_getElem (by simp) fun i h1 h2 => ?_
  have hi : i < lengths.length := by simpa using h2
  rw [List.getElem_zip, List.getElem_map, List.getElem_range', List.getElem_range, List.getD_eq_getElem _ _ hi]
  simp

/-- The entries of one length, as R196 lists them. -/
theorem entriesOf_zip (lengths : List Nat) (len : Nat) :
    entriesOf ((List.range' 0 lengths.length).zip lengths) len
      = (List.range lengths.length).filterMap fun sym =>
          if lengths.getD sym 0 = len then some (sym, len) else none := by
  rw [zip_range'_eq_map, entriesOf, ← List.filterMap_eq_filter, List.filterMap_map]
  refine List.filterMap_congr fun sym _ => ?_
  simp only [Function.comp_apply, Option.guard, decide_eq_true_eq]
  split
  next h => rw [h]
  next => rfl

theorem canonOrder_eq_flatMap (lengths : List Nat) :
    canonOrder lengths
      = (List.range' 1 31).flatMap (entriesOf ((List.range' 0 lengths.length).zip lengths)) := by
  rw [funext (entriesOf_zip lengths)]
  rfl

/-- No symbol is left out by ending at the longest length a field of `lb` bits can say. -/
theorem canonOrder_eq {lengths : List Nat} {lb : Nat} (hlb : lb ≤ 5) (hlt : ∀ l ∈ lengths, l < 2 ^ lb) :
    canonOrder lengths
      = (List.range' 1 (2 ^ lb - 1)).flatMap (entriesOf ((List.range' 0 lengths.length).zip lengths)) := by
  have hpow : 2 ^ lb ≤ 2 ^ 5 := Nat.pow_le_pow_right (by decide) hlb
  have hpos := Nat.two_pow_pos lb
  have hsplit : List.range' 1 31 = List.range' 1 (2 ^ lb - 1) ++ List.range' (1 + (2 ^ lb - 1)) (31 - (2 ^ lb - 1)) := by
    rw [List.range'_append_1]
    congr 1
    omega
  have hnone : (List.range' (1 + (2 ^ lb - 1)) (31 - (2 ^ lb - 1))).flatMap
      (entriesOf ((List.range' 0 lengths.length).zip lengths)) = [] := by
    rw [List.flatMap_eq_nil_iff]
    intro len hlen
    refine List.filter_eq_nil_iff.2 fun e he => ?_
    have hmem := hlt e.2 (List.of_mem_zip he).2
    have := (List.mem_range'_1.1 hlen).1
    rw [decide_eq_true_eq]
    omega
  rw [canonOrder_eq_flatMap, hsplit, List.flatMap_append, hnone, List.append_nil]

/-- BuildCanon's loops insert the canonical code of the table. -/
theorem canonLengths_of_table {lengths : List Nat} {lb : Nat} (hlb : lb ≤ 5) (hlt : ∀ l ∈ lengths, l < 2 ^ lb)
    (t : State) :
    canonLengths ((List.range' 0 lengths.length).zip lengths) (List.range' 1 (2 ^ lb - 1)) 0 t
      = insertCodes (canonCodes lengths) t := by
  have hall : ∀ e ∈ canonOrder lengths, 0 + 1 ≤ e.2 := by
    intro e he
    rw [canonOrder_eq hlb hlt] at he
    obtain ⟨len, hlen, he'⟩ := List.mem_flatMap.1 he
    rw [length_of_mem_entriesOf he']
    exact (List.mem_range'_1.1 hlen).1
  rw [canonLengths_eq, ← canonOrder_eq hlb hlt, canonCodes, ← assignCodes_shift hall]
  rfl

end Sys2Proof.Machine

/-! ## No path of a canonical code begins another (42_huffman R196) -/

namespace Sys2Proof.Machine

/-! ### The order of the codes -/

/-- Entries in the order of their lengths, none shorter than `len`. -/
def InOrder (len : Nat) (es : List (Nat × Nat)) : Prop :=
  (∀ e ∈ es, len ≤ e.2) ∧ es.Pairwise fun e f => e.2 ≤ f.2

theorem InOrder.tail {len : Nat} {e : Nat × Nat} {es : List (Nat × Nat)} (h : InOrder len (e :: es)) :
    len ≤ e.2 ∧ InOrder e.2 es := by
  obtain ⟨hle, hpair⟩ := h
  obtain ⟨hfirst, hrest⟩ := List.pairwise_cons.1 hpair
  exact ⟨hle e (List.mem_cons_self ..), hfirst, hrest⟩

/-- A code is assigned to an entry of the list, is no shorter than `len`, and not below the next code. -/
theorem mem_assignCodes {es : List (Nat × Nat)} {next len : Nat} (h : InOrder len es) {c : Nat × Nat × Nat}
    (hc : c ∈ assignCodes next len es) :
    (c.1, c.2.1) ∈ es ∧ len ≤ c.2.1 ∧ next <<< (c.2.1 - len) ≤ c.2.2 := by
  induction es generalizing next len with
  | nil => cases hc
  | cons e es ih =>
    obtain ⟨hlen, htail⟩ := h.tail
    rw [assignCodes_cons] at hc
    rcases List.mem_cons.1 hc with rfl | hc'
    · exact ⟨List.mem_cons_self .., hlen, Nat.le_refl _⟩
    · obtain ⟨hmem, hle, hcode⟩ := ih htail hc'
      refine ⟨List.mem_cons_of_mem _ hmem, hlen.trans hle, le_trans ?_ hcode⟩
      have hshift : next <<< (c.2.1 - len) = (next <<< (e.2 - len)) <<< (c.2.1 - e.2) := by
        rw [← Nat.shiftLeft_add]
        congr 1
        omega
      rw [hshift, Nat.shiftLeft_eq, Nat.shiftLeft_eq (_ + 1)]
      exact Nat.mul_le_mul_right _ (Nat.le_succ _)

/-- `d` is assigned behind `c`: it is no shorter, and lies above all continuations of `c`. -/
def CodeBehind (c d : Nat × Nat × Nat) : Prop := c.2.1 ≤ d.2.1 ∧ (c.2.2 + 1) <<< (d.2.1 - c.2.1) ≤ d.2.2

theorem assignCodes_pairwise {es : List (Nat × Nat)} {len : Nat} (h : InOrder len es) (next : Nat) :
    (assignCodes next len es).Pairwise CodeBehind := by
  induction es generalizing next len with
  | nil => exact List.Pairwise.nil
  | cons e es ih =>
    obtain ⟨-, htail⟩ := h.tail
    rw [assignCodes_cons]
    exact List.pairwise_cons.2 ⟨fun d hd => (mem_assignCodes htail hd).2, ih htail _⟩

/-! ### Paths of codes -/

theorem codePath_length (len code : Nat) : (codePath len code).length = len := length_fieldBits _ _ _

theorem codePath_succ (len code : Nat) : codePath (len + 1) code = code.testBit len :: codePath len code := by
  simp only [codePath, fieldBits, List.range_succ_eq_map, List.map_cons, List.map_map, Nat.add_sub_cancel, Nat.sub_zero]
  congr 1
  refine List.map_congr_left fun i _ => ?_
  simp only [Function.comp_apply]
  congr 1
  omega

/-- The beginning of a path is the path of the code's high bits. -/
theorem codePath_take (len k code : Nat) : (codePath (len + k) code).take len = codePath len (code >>> k) := by
  refine List.ext_getElem (by simp [codePath_length]) fun i h1 h2 => ?_
  rw [codePath_length] at h2
  rw [List.getElem_take]
  simp only [codePath, fieldBits, List.getElem_map, List.getElem_range, Nat.testBit_shiftRight]
  congr 1
  omega

/-- Neither path begins the other. -/
def CodesApart (c d : Nat × Nat × Nat) : Prop :=
  ¬codePath c.2.1 c.2.2 <+: codePath d.2.1 d.2.2 ∧ ¬codePath d.2.1 d.2.2 <+: codePath c.2.1 c.2.2

/-- Of two codes that fit their lengths, the later one does not continue the earlier one, and is not shorter. -/
theorem CodeBehind.apart {c d : Nat × Nat × Nat} (h : CodeBehind c d) (hc : c.2.2 < 2 ^ c.2.1) (hd : d.2.2 < 2 ^ d.2.1) :
    CodesApart c d := by
  obtain ⟨hlen, habove⟩ := h
  obtain ⟨k, hk⟩ := Nat.exists_eq_add_of_le hlen
  have hforward : ¬codePath c.2.1 c.2.2 <+: codePath d.2.1 d.2.2 := fun hpre => by
    have htake := List.prefix_iff_eq_take.1 hpre
    rw [codePath_length, hk, codePath_take] at htake
    rw [hk, pow_add] at hd
    have hhigh : d.2.2 >>> k < 2 ^ c.2.1 := by
      rwa [Nat.shiftRight_eq_div_pow, Nat.div_lt_iff_lt_mul (Nat.two_pow_pos k)]
    have heq := fieldBits_injective hc hhigh htake
    rw [hk, Nat.add_sub_cancel_left, Nat.shiftLeft_eq, ← Nat.le_div_iff_mul_le (Nat.two_pow_pos k),
      ← Nat.shiftRight_eq_div_pow, ← heq] at habove
    exact Nat.not_succ_le_self _ habove
  refine ⟨hforward, fun hpre => hforward ?_⟩
  rw [hpre.eq_of_length_le (by rw [codePath_length, codePath_length]; exact hlen)]

theorem canonOrder_inOrder (lengths : List Nat) : InOrder 0 (canonOrder lengths) := by
  rw [canonOrder_eq_flatMap]
  refine ⟨fun _ _ => Nat.zero_le _, List.pairwise_flatMap.2 ⟨fun len _ => ?_, ?_⟩⟩
  · exact List.pairwise_of_forall_mem_list fun e he f hf =>
      (length_of_mem_entriesOf he).le.trans (length_of_mem_entriesOf hf).ge
  · refine (List.pairwise_lt_range' (s := 1) (n := 31)).imp fun {k l} hkl e he f hf => ?_
    rw [length_of_mem_entriesOf he, length_of_mem_entriesOf hf]
    exact hkl.le

/-- The symbols of a canonical code are those of its table. -/
theorem symbol_lt_of_mem_canonCodes {lengths : List Nat} {c : Nat × Nat × Nat} (hc : c ∈ canonCodes lengths) :
    c.1 < lengths.length := by
  obtain ⟨hmem, -⟩ := mem_assignCodes (canonOrder_inOrder lengths) hc
  rw [canonOrder_eq_flatMap] at hmem
  obtain ⟨len, -, hentry⟩ := List.mem_flatMap.1 hmem
  have hsym := (List.of_mem_zip (List.mem_filter.1 hentry).1).1
  exact ((List.mem_range'_1.1 hsym).2).trans_eq (Nat.zero_add _)

/-- Of the codes of a table that fit their lengths, no path begins another. -/
theorem canonCodes_apart {lengths : List Nat} {cs : List (Nat × Nat × Nat)} (h : cs.Sublist (canonCodes lengths))
    (hfit : ∀ c ∈ cs, c.2.2 < 2 ^ c.2.1) : cs.Pairwise CodesApart :=
  ((assignCodes_pairwise (canonOrder_inOrder lengths) 0).sublist h).imp_of_mem
    fun hc hd hcd => hcd.apart (hfit _ hc) (hfit _ hd)

end Sys2Proof.Machine

/-! ## Insert in the node store (42_huffman R192, R197) -/

namespace Sys2Proof.Machine

/-! ### A tree with the paths of its nodes -/

theorem getElem?_append_singleton {α : Type} {l : List α} {x y : α} {i : Nat} :
    (l ++ [x])[i]? = some y ↔ l[i]? = some y ∨ (i = l.length ∧ y = x) := by
  rcases lt_trichotomy i l.length with h | rfl | h
  · rw [List.getElem?_append_left h]
    simp only [show i ≠ l.length by omega, false_and, or_false]
  · rw [List.getElem?_concat_length, List.getElem?_eq_none (Nat.le_refl _)]
    simp [eq_comm]
  · rw [List.getElem?_eq_none (by rw [List.length_append, List.length_singleton]; omega),
      List.getElem?_eq_none h.le]
    simp only [show i ≠ l.length by omega, false_and, or_false]

/-- In `labels` stands for each node of the tree the path from the root to it, and `leaves` lists the paths to its
leaves with their symbols. -/
structure CodeTree.Labelled (t : CodeTree) (labels : List (List Bool)) (leaves : List (List Bool × BitVec 9)) :
    Prop where
  nnodes : t.nnodes.toNat = labels.length
  nodup : labels.Nodup
  root : labels[0]? = some []
  closed : ∀ p b, p ++ [b] ∈ labels → p ∈ labels
  child : ∀ (n : Fin 1023) p, labels[n.val]? = some p → ∀ b c,
    (t.nodeAt n).child b = some c ↔ labels[c.val]? = some (p ++ [b])
  leaf : ∀ (n : Fin 1023) p, labels[n.val]? = some p → ∀ sym,
    ((t.nodeAt n).leaf = true ∧ (t.nodeAt n).sym = sym) ↔ (p, sym) ∈ leaves
  leaves_mem : ∀ x ∈ leaves, x.1 ∈ labels

section
variable {t : CodeTree} {labels : List (List Bool)} {leaves : List (List Bool × BitVec 9)} {n c i : Fin 1023}
  {p q : List Bool} {b : Bool}

theorem CodeTree.Labelled.length_le (h : t.Labelled labels leaves) : labels.length ≤ 1023 :=
  h.nnodes ▸ Nat.le_of_lt_succ t.nnodes.isLt

theorem lt_length_of_getElem? {α : Type} {l : List α} {x : α} {k : Nat} (h : l[k]? = some x) : k < l.length :=
  (List.getElem?_eq_some_iff.1 h).1

/-- Each path leads to one node. -/
theorem CodeTree.Labelled.index_eq (h : t.Labelled labels leaves) (hn : labels[n.val]? = some p)
    (hc : labels[c.val]? = some p) : n = c :=
  Fin.ext ((List.getElem?_inj (lt_length_of_getElem? hn) h.nodup).1 (hn.trans hc.symm))

/-- Every path of the list leads to a node. -/
theorem CodeTree.Labelled.exists_index (h : t.Labelled labels leaves) (hp : p ∈ labels) :
    ∃ n : Fin 1023, labels[n.val]? = some p := by
  obtain ⟨k, hk⟩ := List.mem_iff_getElem?.1 hp
  exact ⟨⟨k, (lt_length_of_getElem? hk).trans_le h.length_le⟩, hk⟩

theorem CodeTree.Labelled.child_eq_none (h : t.Labelled labels leaves) (hn : labels[n.val]? = some p) :
    (t.nodeAt n).child b = none ↔ p ++ [b] ∉ labels := by
  rw [Option.eq_none_iff_forall_not_mem]
  refine ⟨fun hnone hmem => ?_, fun hmem c hc => hmem (List.mem_of_getElem? ((h.child n p hn b c).1 hc))⟩
  obtain ⟨c, hc⟩ := h.exists_index hmem
  exact hnone c ((h.child n p hn b c).2 hc)

theorem CodeTree.Labelled.mem_of_append (h : t.Labelled labels leaves) {r : List Bool} (hp : p ++ r ∈ labels) :
    p ∈ labels := by
  induction r using List.reverseRecOn with
  | nil => rwa [List.append_nil] at hp
  | append_singleton r b ih => exact ih (h.closed _ b (by rwa [List.append_assoc]))

/-- The symbols of the tree are those of the leaves, if none of them has a node below it. -/
theorem CodeTree.Labelled.symbolAt_eq_some (h : t.Labelled labels leaves)
    (hends : ∀ x ∈ leaves, ∀ b, x.1 ++ [b] ∉ labels) {path : List Bool} {sym : BitVec 9}
    (hn : labels[n.val]? = some q) : t.symbolAt n path = some sym ↔ (q ++ path, sym) ∈ leaves := by
  rw [CodeTree.symbolAt_eq_some]
  induction path generalizing n q with
  | nil =>
    rw [List.append_nil, ← h.leaf n q hn sym]
    simp [CodeTree.descend]
  | cons b bs ih =>
    have hbelow (hmem : (q ++ b :: bs, sym) ∈ leaves) : q ++ [b] ∈ labels :=
      h.mem_of_append (r := bs) (by rw [List.append_assoc]; exact h.leaves_mem _ hmem)
    constructor
    · rintro ⟨m, hpath, hleaf⟩
      obtain ⟨-, c, hc, hpath'⟩ := CodeTree.descend_cons_eq_some.1 hpath
      have hmem := (ih ((h.child n q hn b c).1 hc)).1 ⟨m, hpath', hleaf⟩
      rwa [List.append_assoc] at hmem
    · intro hmem
      have hinner : (t.nodeAt n).leaf = false := by
        by_contra hleaf
        have hself := (h.leaf n q hn _).1 ⟨eq_true_of_ne_false hleaf, rfl⟩
        exact hends _ hself b (hbelow hmem)
      obtain ⟨c, hc⟩ := h.exists_index (hbelow hmem)
      obtain ⟨m, hpath, hleaf⟩ := (ih hc).2 (by rwa [List.append_assoc])
      exact ⟨m, CodeTree.descend_cons_eq_some.2 ⟨hinner, c, (h.child n q hn b c).2 hc, hpath⟩, hleaf⟩

/-! ### One node more -/

/-- The tree after node `i` has been allocated as the child of node `n`. -/
def CodeTree.attached (t : CodeTree) (n : Fin 1023) (b : Bool) (i : Fin 1023) : CodeTree :=
  (t.grown i).setNode n (((t.grown i).nodeAt n).withChild b i)

theorem CodeTree.nodeAt_attached_new (hn : n ≠ i) : (t.attached n b i).nodeAt i = Node.fresh := by
  rw [CodeTree.attached, CodeTree.nodeAt_setNode, if_neg hn.symm, CodeTree.nodeAt_grown, if_pos rfl]

theorem CodeTree.nodeAt_attached_parent (hn : n ≠ i) :
    (t.attached n b i).nodeAt n = (t.nodeAt n).withChild b i := by
  rw [CodeTree.attached, CodeTree.nodeAt_setNode, if_pos rfl, CodeTree.nodeAt_grown, if_neg hn]

theorem CodeTree.nodeAt_attached_other (hn : c ≠ n) (hi : c ≠ i) : (t.attached n b i).nodeAt c = t.nodeAt c := by
  rw [CodeTree.attached, CodeTree.nodeAt_setNode, if_neg hn, CodeTree.nodeAt_grown, if_neg hi]

theorem Node.leaf_withChild (b : Bool) (c : Fin 1023) (v : Node) : (v.withChild b c).leaf = v.leaf := by
  cases b <;> rfl

theorem Node.sym_withChild (b : Bool) (c : Fin 1023) (v : Node) : (v.withChild b c).sym = v.sym := by
  cases b <;> rfl

/-- Leaf and symbol of an old node stay. -/
theorem CodeTree.leaf_attached (hn : n ≠ i) (hc : c ≠ i) :
    ((t.attached n b i).nodeAt c).leaf = (t.nodeAt c).leaf ∧ ((t.attached n b i).nodeAt c).sym = (t.nodeAt c).sym := by
  rcases eq_or_ne c n with rfl | hcn
  · rw [CodeTree.nodeAt_attached_parent hn, Node.leaf_withChild, Node.sym_withChild]
    exact ⟨rfl, rfl⟩
  · rw [CodeTree.nodeAt_attached_other hcn hc]
    exact ⟨rfl, rfl⟩

/-- Of the old nodes' children, only that of node `n` on bit `b` is another. -/
theorem CodeTree.child_attached (hn : n ≠ i) (hc : c ≠ i) (a : Bool) :
    ((t.attached n b i).nodeAt c).child a = if c = n ∧ a = b then some i else (t.nodeAt c).child a := by
  rcases eq_or_ne c n with rfl | hcn
  · rw [CodeTree.nodeAt_attached_parent hn]
    cases a <;> cases b <;> simp [Node.child, Node.withChild]
  · rw [CodeTree.nodeAt_attached_other hcn hc, if_neg fun h => hcn h.1]

/-- The new child's path joins the list. -/
theorem CodeTree.Labelled.attached (h : t.Labelled labels leaves) (hn : labels[n.val]? = some q)
    (hnew : q ++ [b] ∉ labels) (hi : i.val = labels.length) :
    (t.attached n b i).Labelled (labels ++ [q ++ [b]]) leaves := by
  have hold {m : Fin 1023} {p : List Bool} (hm : labels[m.val]? = some p) : m ≠ i := fun e => by
    have := lt_length_of_getElem? hm
    rw [e] at this
    omega
  have hleafless (sym : BitVec 9) : (q ++ [b], sym) ∉ leaves := fun hmem => hnew (h.leaves_mem _ hmem)
  refine ⟨?nnodes, ?nodup, ?root, fun p a hp => ?closed, fun m p hm a c => ?child, fun m p hm sym => ?leaf,
    fun x hx => List.mem_append_left _ (h.leaves_mem x hx)⟩
  case nnodes =>
    rw [CodeTree.attached, setNode_nnodes, CodeTree.nnodes_grown (h.nnodes.trans hi.symm), hi, List.length_append,
      List.length_singleton]
  case nodup =>
    rw [← List.concat_eq_append]
    exact h.nodup.concat hnew
  case root => exact getElem?_append_singleton.2 (.inl h.root)
  case closed =>
    rcases List.mem_append.1 hp with hp | hp
    · exact List.mem_append_left _ (h.closed p a hp)
    · obtain ⟨rfl, -⟩ := List.append_singleton_inj.1 (List.mem_singleton.1 hp)
      exact List.mem_append_left _ (List.mem_of_getElem? hn)
  case child =>
    rw [getElem?_append_singleton]
    rcases getElem?_append_singleton.1 hm with hm' | ⟨hm', rfl⟩
    · rw [CodeTree.child_attached (hold hn) (hold hm')]
      split
      next hsame =>
        obtain ⟨rfl, rfl⟩ := hsame
        obtain rfl : p = q := Option.some.inj (hm'.symm.trans hn)
        refine ⟨fun hc => .inr ⟨Option.some.inj hc ▸ hi, rfl⟩, fun hc => ?_⟩
        rcases hc with hc | ⟨hc, -⟩
        · exact absurd (List.mem_of_getElem? hc) hnew
        · exact congrArg some (Fin.ext (hi.trans hc.symm))
      next hother =>
        rw [h.child m p hm' a c]
        refine ⟨.inl, fun hc => hc.resolve_right fun ⟨_, hpq⟩ => hother ?_⟩
        obtain ⟨rfl, rfl⟩ := List.append_singleton_inj.1 hpq
        exact ⟨h.index_eq hm' hn, rfl⟩
    · obtain rfl : m = i := Fin.ext (hm'.trans hi.symm)
      rw [CodeTree.nodeAt_attached_new (hold hn)]
      refine ⟨fun hc => ?_, fun hc => ?_⟩
      · cases a <;> cases hc
      · rcases hc with hc | ⟨-, hc⟩
        · exact absurd (h.closed _ _ (List.mem_of_getElem? hc)) hnew
        · exact absurd (congrArg List.length hc) (by simp)
  case leaf =>
    rcases getElem?_append_singleton.1 hm with hm' | ⟨hm', rfl⟩
    · obtain ⟨hleaf, hsym⟩ := CodeTree.leaf_attached (t := t) (b := b) (hold hn) (hold hm')
      rw [hleaf, hsym]
      exact h.leaf m p hm' sym
    · obtain rfl : m = i := Fin.ext (hm'.trans hi.symm)
      rw [CodeTree.nodeAt_attached_new (hold hn)]
      exact ⟨fun hfresh => absurd hfresh.1 Bool.false_ne_true, fun hmem => absurd hmem (hleafless sym)⟩

theorem Node.child_leafOf (sym : BitVec 9) (v : Node) (b : Bool) : (v.leafOf sym).child b = v.child b := by
  cases b <;> rfl

/-- A node becomes a leaf. -/
theorem CodeTree.Labelled.leafOf (h : t.Labelled labels leaves) (hn : labels[n.val]? = some q)
    (hnew : ∀ sym, (q, sym) ∉ leaves) (sym : BitVec 9) :
    (t.setNode n ((t.nodeAt n).leafOf sym)).Labelled labels (leaves ++ [(q, sym)]) := by
  refine ⟨h.nnodes, h.nodup, h.root, h.closed, fun m p hm b c => ?child, fun m p hm a => ?leaf, fun x hx => ?mem⟩
  case child =>
    rw [CodeTree.nodeAt_setNode, ← h.child m p hm b c]
    split
    next hmn => rw [hmn, Node.child_leafOf]
    next => rfl
  case leaf =>
    rw [CodeTree.nodeAt_setNode, List.mem_append, List.mem_singleton, Prod.mk.injEq]
    split
    next hmn =>
      subst hmn
      obtain rfl : p = q := Option.some.inj (hm.symm.trans hn)
      exact ⟨fun hleaf => .inr ⟨rfl, hleaf.2.symm⟩,
        fun hmem => ⟨rfl, (hmem.resolve_left (hnew a)).2.symm⟩⟩
    next hmn =>
      rw [h.leaf m p hm a]
      refine ⟨.inl, fun hmem => hmem.resolve_right fun ⟨hpq, _⟩ => hmn ?_⟩
      exact h.index_eq hm (hpq ▸ hn)
  case mem =>
    rcases List.mem_append.1 hx with hx | hx
    · exact h.leaves_mem x hx
    · rw [List.mem_singleton.1 hx]
      exact List.mem_of_getElem? hn

end

/-! ### The path of Insert (42_huffman R197) -/

/-- Only the nodes of the tree have changed. -/
structure NodesEdited (t u : State) : Prop where
  frame : u = { t with tree := u.tree }
  valid : u.tree.valid = t.tree.valid
  kind : u.tree.kind = t.tree.kind

section
variable {s t u v : State} {labels : List (List Bool)} {leaves : List (List Bool × BitVec 9)} {n c i : Fin 1023}
  {q : List Bool} {b : Bool}

theorem NodesEdited.refl (t : State) : NodesEdited t t := ⟨rfl, rfl, rfl⟩

theorem NodesEdited.trans (h : NodesEdited t u) (h' : NodesEdited u v) : NodesEdited t v :=
  ⟨h'.frame.trans (by rw [h.frame]), h'.valid.trans h.valid, h'.kind.trans h.kind⟩

theorem NodesEdited.setNode (t : State) (n : Fin 1023) (f : Node → Node) : NodesEdited t (editNode n f t) :=
  ⟨rfl, rfl, rfl⟩

theorem NodesEdited.stream_eq (h : NodesEdited t u) : u.stream = t.stream := by
  rw [h.frame]
  rfl

theorem BuildAt.edited (h : BuildAt s t) (hedit : NodesEdited t u) : BuildAt s u where
  toTreeStep := by
    rw [hedit.frame]
    exact h.toTreeStep.setTree _
  invalid := hedit.valid.trans h.invalid
  kind := hedit.kind.trans h.kind

theorem childOrAlloc_of_child (h : (t.tree.nodeAt n).child b = some c) : childOrAlloc n b t = .ok c t := by
  rw [childOrAlloc, h]

theorem childOrAlloc_of_room (h : (t.tree.nodeAt n).child b = none) (hi : t.tree.nnodes.toNat = i.val) :
    childOrAlloc n b t = .ok i { t with tree := t.tree.attached n b i } := by
  rw [childOrAlloc, h]
  simp only [alloc_of_room hi]
  rfl

theorem childOrAlloc_of_full (h : (t.tree.nodeAt n).child b = none) (hfull : t.tree.nnodes.toNat = 1023) :
    childOrAlloc n b t = .raised .invalidFormat 1 t := by
  rw [childOrAlloc, h]
  simp only [alloc_of_full hfull]
  rfl

/-- The paths of a tree in which the path `q ++ path` and all that lead to it have been added. -/
def OnPath (labels : List (List Bool)) (q path p : List Bool) : Prop := p ∈ labels ∨ ∃ r, r <+: path ∧ q ++ r = p

theorem onPath_nil (hq : q ∈ labels) {p : List Bool} : OnPath labels q [] p ↔ p ∈ labels := by
  refine ⟨fun h => h.elim id ?_, .inl⟩
  rintro ⟨r, hr, rfl⟩
  rwa [List.prefix_nil.1 hr, List.append_nil]

/-- The first bit of a path adds one node. -/
theorem onPath_cons (hq : q ∈ labels) {labels' : List (List Bool)}
    (hlabels : ∀ p, p ∈ labels' ↔ p ∈ labels ∨ p = q ++ [b]) {path p : List Bool} :
    OnPath labels' (q ++ [b]) path p ↔ OnPath labels q (b :: path) p := by
  simp only [OnPath, hlabels, List.append_assoc, List.singleton_append]
  constructor
  · rintro ((hp | rfl) | ⟨r, hr, rfl⟩)
    · exact .inl hp
    · exact .inr ⟨[b], List.prefix_cons_iff.2 (.inr ⟨[], rfl, List.nil_prefix⟩), rfl⟩
    · exact .inr ⟨b :: r, (List.prefix_cons_inj b).2 hr, rfl⟩
  · rintro (hp | ⟨r, hr, rfl⟩)
    · exact .inl (.inl hp)
    · rcases List.prefix_cons_iff.1 hr with rfl | ⟨r', rfl, hr'⟩
      · exact .inl (.inl (by rwa [List.append_nil]))
      · exact .inr ⟨r', hr', rfl⟩

/-- One level of Insert comes to the child on a bit, or finds no node left for it. -/
theorem childOrAlloc_of_labelled (h : t.tree.Labelled labels leaves) (hn : labels[n.val]? = some q) (b : Bool) :
    (∃ c u labels', childOrAlloc n b t = .ok c u ∧ NodesEdited t u ∧ u.tree.Labelled labels' leaves
        ∧ labels'[c.val]? = some (q ++ [b]) ∧ ∀ p, p ∈ labels' ↔ p ∈ labels ∨ p = q ++ [b])
    ∨ (childOrAlloc n b t = .raised .invalidFormat 1 t ∧ t.tree.nnodes = 1023 ∧ q ++ [b] ∉ labels) := by
  cases hchild : (t.tree.nodeAt n).child b with
  | some c =>
    have hc := (h.child n q hn b c).1 hchild
    refine .inl ⟨c, t, labels, childOrAlloc_of_child hchild, .refl t, h, hc, fun p => ⟨.inl, ?_⟩⟩
    rintro (hp | rfl)
    · exact hp
    · exact List.mem_of_getElem? hc
  | none =>
    have hnew := (h.child_eq_none hn).1 hchild
    rcases h.length_le.lt_or_eq with hroom | hfull
    · have hi : t.tree.nnodes.toNat = (⟨labels.length, hroom⟩ : Fin 1023).val := h.nnodes
      refine .inl ⟨_, _, _, childOrAlloc_of_room hchild hi, ⟨rfl, rfl, rfl⟩, h.attached hn hnew rfl,
        List.getElem?_concat_length, fun p => ?_⟩
      rw [List.mem_append, List.mem_singleton]
    · have hnnodes : t.tree.nnodes.toNat = 1023 := h.nnodes.trans hfull
      exact .inr ⟨childOrAlloc_of_full hchild hnnodes, BitVec.eq_of_toNat_eq hnnodes, hnew⟩

/-- The path of Insert comes to its last node, or finds no node left on its way: then it needs more than 1023. -/
theorem insertPath_of_labelled (code len : Nat) (h : t.tree.Labelled labels leaves) (hn : labels[n.val]? = some q) :
    (∃ m u labels', insertPath code len n t = .ok m u ∧ NodesEdited t u ∧ u.tree.Labelled labels' leaves
        ∧ labels'[m.val]? = some (q ++ codePath len code)
        ∧ ∀ p, p ∈ labels' ↔ OnPath labels q (codePath len code) p)
    ∨ (∃ (u : State) (labels' : List (List Bool)), insertPath code len n t = .raised .invalidFormat 1 u
        ∧ NodesEdited t u ∧ u.tree.nnodes = 1023 ∧ labels'.Nodup ∧ 1023 < labels'.length
        ∧ ∀ p ∈ labels', OnPath labels q (codePath len code) p) := by
  have hq := List.mem_of_getElem? hn
  induction len generalizing t labels n q with
  | zero =>
    exact .inl ⟨n, t, labels, rfl, .refl t, h, by rw [show codePath 0 code = [] from rfl, List.append_nil]; exact hn,
      fun p => (onPath_nil hq).symm⟩
  | succ len ih =>
    rw [codePath_succ]
    rcases childOrAlloc_of_labelled h hn (code.testBit len) with
      ⟨c, u, labels1, hu, hedit, h1, hc, hlabels⟩ | ⟨hraised, hfull, hnew⟩
    · rcases ih h1 hc (List.mem_of_getElem? hc) with ⟨m, v, labels2, hv, hedit', h2, hm, hpaths⟩ |
        ⟨v, labels2, hv, hedit', hfull, hnodup, hlen, hpaths⟩
      · refine .inl ⟨m, v, labels2, by rw [insertPath, hu, Res.bind_of_ok, hv], hedit.trans hedit', h2, ?_, fun p => ?_⟩
        · rwa [List.append_assoc] at hm
        · rw [hpaths, onPath_cons hq hlabels]
      · exact .inr ⟨v, labels2, by rw [insertPath, hu, Res.bind_of_ok, hv], hedit.trans hedit', hfull, hnodup, hlen,
          fun p hp => (onPath_cons hq hlabels).1 (hpaths p hp)⟩
    · have hcount : labels.length = 1023 := by rw [← h.nnodes, hfull]; rfl
      refine .inr ⟨t, labels.concat (q ++ [code.testBit len]), by rw [insertPath, hraised, Res.bind_of_raised], .refl t,
        hfull, h.nodup.concat hnew, by rw [List.length_concat, hcount]; decide, fun p hp => ?_⟩
      rw [List.concat_eq_append, List.mem_append, List.mem_singleton] at hp
      rcases hp with hp | rfl
      · exact .inl hp
      · exact .inr ⟨[code.testBit len], List.prefix_cons_iff.2 (.inr ⟨[], rfl, List.nil_prefix⟩), rfl⟩

end

end Sys2Proof.Machine

/-! ## HUFCANON builds the canonical code or refuses its table (42_huffman R196 to R201) -/

namespace Sys2Proof.Machine

/-! ### The tree of a code -/

theorem mem_codePrefixes {cs : List (Nat × Nat × Nat)} {p : List Bool} :
    p ∈ codePrefixes cs ↔ p = [] ∨ ∃ c ∈ cs, p <+: codePath c.2.1 c.2.2 := by
  simp [codePrefixes]

theorem codePrefixes_nodup (cs : List (Nat × Nat × Nat)) : (codePrefixes cs).Nodup := List.nodup_dedup _

theorem codePrefixes_length_le {cs ds : List (Nat × Nat × Nat)} (h : cs ⊆ ds) :
    (codePrefixes cs).length ≤ (codePrefixes ds).length := by
  refine (codePrefixes_nodup cs).length_le_of_subset fun p hp => ?_
  rw [mem_codePrefixes] at hp ⊢
  exact hp.imp id fun ⟨c, hc, hpre⟩ => ⟨c, h hc, hpre⟩

/-- One code more adds the beginnings of its path. -/
theorem mem_codePrefixes_append {cs : List (Nat × Nat × Nat)} {c : Nat × Nat × Nat} {labels : List (List Bool)}
    (hlabels : ∀ p, p ∈ labels ↔ p ∈ codePrefixes cs) {p : List Bool} :
    p ∈ codePrefixes (cs ++ [c]) ↔ OnPath labels [] (codePath c.2.1 c.2.2) p := by
  simp only [OnPath, hlabels, mem_codePrefixes, List.mem_append, List.mem_singleton, or_and_right, exists_or,
    exists_eq_left, List.nil_append, exists_eq_right, or_assoc]

/-- The leaf of a code: its path and its symbol. -/
def codeLeaf (c : Nat × Nat × Nat) : List Bool × BitVec 9 := (codePath c.2.1 c.2.2, BitVec.ofNat 9 c.1)

/-- The tree has one node for each beginning of a code, and the codes end on its leaves. -/
def CodeTree.HoldsCodes (t : CodeTree) (cs : List (Nat × Nat × Nat)) : Prop :=
  ∃ labels, t.Labelled labels (cs.map codeLeaf) ∧ ∀ p, p ∈ labels ↔ p ∈ codePrefixes cs

section
variable {s t u : State} {cs ds : List (Nat × Nat × Nat)} {c : Nat × Nat × Nat} {lengths : List Nat}
  {rest : List Bool}

theorem CodeTree.HoldsCodes.nnodes {t : CodeTree} (h : t.HoldsCodes cs) :
    t.nnodes.toNat = (codePrefixes cs).length := by
  obtain ⟨labels, hlabelled, hlabels⟩ := h
  rw [hlabelled.nnodes]
  exact ((List.perm_ext_iff_of_nodup hlabelled.nodup (codePrefixes_nodup cs)).2 hlabels).length_eq

/-- The symbols of the tree are those of the codes, if no path begins another. -/
theorem CodeTree.HoldsCodes.symbolAt_eq_some {t : CodeTree} (h : t.HoldsCodes cs) (hfree : cs.Pairwise CodesApart)
    (hsyms : ∀ c ∈ cs, c.1 < 512) {path : List Bool} {sym : BitVec 9} :
    t.symbolAt 0 path = some sym ↔ ∃ c ∈ cs, c.1 = sym.toNat ∧ codePath c.2.1 c.2.2 = path := by
  obtain ⟨labels, hlabelled, hlabels⟩ := h
  have hends : ∀ x ∈ cs.map codeLeaf, ∀ b, x.1 ++ [b] ∉ labels := by
    intro x hx b hmem
    obtain ⟨c, hc, rfl⟩ := List.mem_map.1 hx
    rcases mem_codePrefixes.1 ((hlabels _).1 hmem) with hnil | ⟨d, hd, hpre⟩
    · exact absurd hnil (by simp)
    · rcases eq_or_ne c d with rfl | hne
      · have := hpre.length_le
        rw [List.length_append, List.length_singleton] at this
        exact absurd this (Nat.not_succ_le_self _)
      · have : Std.Symm CodesApart := ⟨fun _ _ h => ⟨h.2, h.1⟩⟩
        exact (hfree.forall hc hd hne).1 ((List.prefix_append _ [b]).trans hpre)
  rw [hlabelled.symbolAt_eq_some hends hlabelled.root, List.nil_append, List.mem_map]
  refine exists_congr fun c => and_congr_right fun hc => ?_
  have hlt := hsyms c hc
  have hsym : BitVec.ofNat 9 c.1 = sym ↔ c.1 = sym.toNat := by
    rw [← BitVec.toNat_inj, BitVec.toNat_ofNat, Nat.mod_eq_of_lt hlt]
  rw [codeLeaf, Prod.mk.injEq, hsym, and_comm]

/-! ### Insert (42_huffman R197) -/

/-- The path of a code that is apart from all codes of the tree ends on no leaf. -/
theorem codeLeaf_not_mem (hfree : (cs ++ [c]).Pairwise CodesApart) (sym : BitVec 9) :
    (codePath c.2.1 c.2.2, sym) ∉ cs.map codeLeaf := by
  intro hmem
  obtain ⟨d, hd, heq⟩ := List.mem_map.1 hmem
  have hpath : codePath d.2.1 d.2.2 = codePath c.2.1 c.2.2 := congrArg Prod.fst heq
  have hapart := (List.pairwise_append.1 hfree).2.2 d hd c (List.mem_singleton_self c)
  exact hapart.1 (hpath ▸ List.prefix_rfl)

/-- Insert adds the code, or finds no node left because the codes need more than 1023. -/
theorem insertCode_of_holds (h : t.tree.HoldsCodes cs) (hfree : (cs ++ [c]).Pairwise CodesApart) :
    (∃ u, insertCode c.2.2 c.2.1 (BitVec.ofNat 9 c.1) t = .ok () u ∧ NodesEdited t u
        ∧ u.tree.HoldsCodes (cs ++ [c]))
    ∨ (∃ u, insertCode c.2.2 c.2.1 (BitVec.ofNat 9 c.1) t = .raised .invalidFormat 1 u ∧ NodesEdited t u
        ∧ u.tree.nnodes = 1023 ∧ 1023 < (codePrefixes (cs ++ [c])).length) := by
  obtain ⟨labels, hlabelled, hlabels⟩ := h
  rcases insertPath_of_labelled (n := 0) c.2.2 c.2.1 hlabelled hlabelled.root with
    ⟨m, u, labels', hu, hedit, hlabelled', hm, hpaths⟩ | ⟨u, labels', hu, hedit, hfull, hnodup, hlen, hpaths⟩
  · rw [List.nil_append] at hm
    refine .inl ⟨editNode m (Node.leafOf (BitVec.ofNat 9 c.1)) u, by rw [insertCode, hu, Res.bind_of_ok],
      hedit.trans (.setNode u m _), labels', ?_, fun p => (hpaths p).trans (mem_codePrefixes_append hlabels).symm⟩
    rw [List.map_append, List.map_singleton]
    exact hlabelled'.leafOf hm (codeLeaf_not_mem hfree) _
  · refine .inr ⟨u, by rw [insertCode, hu, Res.bind_of_raised], hedit, hfull, hlen.trans_le ?_⟩
    exact hnodup.length_le_of_subset fun p hp => (mem_codePrefixes_append hlabels).2 (hpaths p hp)

/-- Codes that fit their lengths are all inserted, or need more than 1023 nodes. -/
theorem insertCodes_of_holds (h : t.tree.HoldsCodes cs) (hfit : ∀ c ∈ ds, c.2.2 < 2 ^ c.2.1)
    (hfree : (cs ++ ds).Pairwise CodesApart) :
    (∃ u, insertCodes ds t = .ok () u ∧ NodesEdited t u ∧ u.tree.HoldsCodes (cs ++ ds))
    ∨ (∃ u, insertCodes ds t = .raised .invalidFormat 1 u ∧ NodesEdited t u ∧ u.tree.nnodes = 1023
        ∧ 1023 < (codePrefixes (cs ++ ds)).length) := by
  induction ds generalizing t cs with
  | nil => exact .inl ⟨t, rfl, .refl t, by rwa [List.append_nil]⟩
  | cons d ds ih =>
    obtain ⟨hd, hds⟩ := List.forall_mem_cons.1 hfit
    have hstep : insertCodes (d :: ds) t
        = (insertCode d.2.2 d.2.1 (BitVec.ofNat 9 d.1) t).bind fun _ u => insertCodes ds u := by
      rw [insertCodes, if_neg (Nat.not_le.2 hd)]
    rw [List.append_cons] at hfree ⊢
    rcases insertCode_of_holds h (List.pairwise_append.1 hfree).1 with
      ⟨u, hu, hedit, hcodes⟩ | ⟨u, hu, hedit, hfull, hlarge⟩
    · rw [hstep, hu, Res.bind_of_ok]
      rcases ih hcodes hds hfree with ⟨v, hv, hedit', hcodes'⟩ | ⟨v, hv, hedit', hfull, hlarge⟩
      · exact .inl ⟨v, hv, hedit.trans hedit', hcodes'⟩
      · exact .inr ⟨v, hv, hedit.trans hedit', hfull, hlarge⟩
    · exact .inr ⟨u, by rw [hstep, hu, Res.bind_of_raised], hedit, hfull,
        hlarge.trans_le (codePrefixes_length_le (List.subset_append_left _ _))⟩

/-- The codes in front of the first that does not fit its length. -/
def fittingCodes (cs : List (Nat × Nat × Nat)) : List (Nat × Nat × Nat) :=
  cs.takeWhile fun c => decide (c.2.2 < 2 ^ c.2.1)

theorem fits_of_mem_fittingCodes (hc : c ∈ fittingCodes cs) : c.2.2 < 2 ^ c.2.1 :=
  of_decide_eq_true (List.mem_takeWhile_imp (p := fun c : Nat × Nat × Nat => decide (c.2.2 < 2 ^ c.2.1)) hc)

/-- Where a code does not fit, InvalidFormat(2) is raised behind those in front of it. -/
theorem insertCodes_of_not_fitting (h : fittingCodes cs ≠ cs) (t : State) :
    insertCodes cs t = (insertCodes (fittingCodes cs) t).bind fun _ u => .raised .invalidFormat 2 u := by
  have hsplit : fittingCodes cs ++ cs.dropWhile (fun c => decide (c.2.2 < 2 ^ c.2.1)) = cs :=
    List.takeWhile_append_dropWhile
  cases hdrop : cs.dropWhile (fun c => decide (c.2.2 < 2 ^ c.2.1)) with
  | nil => exact absurd (by rwa [hdrop, List.append_nil] at hsplit) h
  | cons d ds =>
    have hd : ¬d.2.2 < 2 ^ d.2.1 := by
      have hhead := List.head_dropWhile_not (fun c : Nat × Nat × Nat => decide (c.2.2 < 2 ^ c.2.1)) (l := cs)
        (by rw [hdrop]; exact List.cons_ne_nil d ds)
      simp only [hdrop, List.head_cons] at hhead
      exact of_decide_eq_false hhead
    rw [hdrop] at hsplit
    rw [← hsplit, insertCodes_append, hsplit]
    congr 1
    funext _ u
    rw [insertCodes, if_pos (Nat.le_of_not_lt hd)]

/-! ### BuildCanon (42_huffman R199) -/

/-- A length table comes next, with the fields of HUF_CFG. -/
structure State.TableNext (s : State) (lengths : List Nat) (rest : List Bool) : Prop where
  lenBits_le : s.regs.hufCfg.lenBits.toNat ≤ 5
  nsym_le : s.regs.hufCfg.nsym.toNat ≤ 512
  length_eq : lengths.length = s.regs.hufCfg.nsym.toNat
  fields : ∀ l ∈ lengths, l < 2 ^ s.regs.hufCfg.lenBits.toNat
  stream_eq : s.stream = lengths.flatMap (fieldBits s.br.order s.regs.hufCfg.lenBits.toNat) ++ rest

theorem State.TableNext.symbol_lt (h : s.TableNext lengths rest) (hc : c ∈ canonCodes lengths) : c.1 < 512 :=
  (symbol_lt_of_mem_canonCodes hc).trans_le (h.length_eq.trans_le h.nsym_le)

/-- The root alone is the tree of no code. -/
theorem CodeTree.HoldsCodes.of_root {t : CodeTree} (h : t.nnodes.toNat = 0) : (t.grown 0).HoldsCodes [] := by
  have hzero : t.nnodes.toNat = (0 : Fin 1023).val := h
  have hroot {n : Fin 1023} {p : List Bool} (hn : ([[]] : List (List Bool))[n.val]? = some p) : n = 0 ∧ p = [] := by
    have hlt : n.val < 1 := lt_length_of_getElem? hn
    obtain rfl : n = 0 := Fin.ext (Nat.lt_one_iff.1 hlt)
    exact ⟨rfl, (Option.some.inj hn).symm⟩
  refine ⟨[[]], ⟨CodeTree.nnodes_grown hzero, List.nodup_singleton _, rfl, fun p b hp => ?_, fun n p hn b c => ?_,
    fun n p hn sym => ?_, nofun⟩, fun p => by simp [mem_codePrefixes]⟩
  · exact absurd (List.mem_singleton.1 hp) (by simp)
  · obtain ⟨rfl, rfl⟩ := hroot hn
    rw [CodeTree.nodeAt_grown_same]
    refine ⟨fun hc => ?_, fun hc => absurd (hroot hc).2 (by simp)⟩
    cases b <;> cases hc
  · obtain ⟨rfl, rfl⟩ := hroot hn
    rw [CodeTree.nodeAt_grown_same]
    exact ⟨fun hleaf => absurd hleaf.1 Bool.false_ne_true, nofun⟩

/-- BuildCanon reads the table, allocates the root and inserts the codes. -/
theorem buildCanon_of_table (hs : s.br.sound) (h : s.TableNext lengths rest) :
    ∃ u, buildCanon s = ((insertCodes (canonCodes lengths) u).bind fun _ v => .ok () (finishTree .canonical v))
      ∧ BuildAt s u ∧ u.tree.HoldsCodes [] ∧ u.stream = rest := by
  obtain ⟨u, hu, hreads, hrest⟩ := readLengths_of_stream (t := clearTree s) hs h.fields 0 h.stream_eq
  have hzero : u.tree.nnodes.toNat = 0 := by rw [hreads.tree]; rfl
  refine ⟨u.alloced 0, ?_, ((BuildAt.init hs).reads hreads).alloced 0, .of_root hzero, hrest⟩
  rw [buildCanon, ← h.length_eq, hu, Res.bind_of_ok, alloc_of_room (i := 0) hzero, Res.bind_of_ok,
    canonLengths_of_table h.lenBits_le h.fields]

/-- A table whose codes all fit, on at most 1023 nodes, is built. -/
theorem buildCanon_of_fitting (hs : s.br.sound) (h : s.TableNext lengths rest)
    (hfit : fittingCodes (canonCodes lengths) = canonCodes lengths)
    (hroom : (codePrefixes (canonCodes lengths)).length ≤ 1023) :
    ∃ u, buildCanon s = .ok () u ∧ TreeBuilt .canonical s u
      ∧ u.tree.nnodes.toNat = (codePrefixes (canonCodes lengths)).length
      ∧ (∀ (path : List Bool) (sym : BitVec 9), u.tree.symbolAt 0 path = some sym ↔
          ∃ c ∈ canonCodes lengths, c.1 = sym.toNat ∧ codePath c.2.1 c.2.2 = path)
      ∧ u.stream = rest := by
  have hfits : ∀ c ∈ canonCodes lengths, c.2.2 < 2 ^ c.2.1 := fun c hc => fits_of_mem_fittingCodes (hfit ▸ hc)
  have hfree := canonCodes_apart (List.Sublist.refl (canonCodes lengths)) hfits
  obtain ⟨u, hu, hat, hcodes, hrest⟩ := buildCanon_of_table hs h
  rcases insertCodes_of_holds hcodes hfits hfree with ⟨v, hv, hedit, hholds⟩ | ⟨v, -, -, -, hlarge⟩
  · have hholds' : (finishTree .canonical v).tree.HoldsCodes (canonCodes lengths) := by
      obtain ⟨labels, hlabelled, hlabels⟩ := hholds
      exact ⟨labels, { hlabelled with }, hlabels⟩
    exact ⟨finishTree .canonical v, by rw [hu, hv, Res.bind_of_ok], (hat.edited hedit).finishTree _, hholds'.nnodes,
      fun path sym => hholds'.symbolAt_eq_some hfree fun c hc => h.symbol_lt hc, hedit.stream_eq.trans hrest⟩
  · exact absurd hlarge (Nat.not_lt.2 hroom)

/-- A table with a code that does not fit, or that needs a 1024th node before, leaves no tree. -/
theorem buildCanon_of_rejected (hs : s.br.sound) (h : s.TableNext lengths rest)
    (hbad : fittingCodes (canonCodes lengths) ≠ canonCodes lengths
      ∨ 1023 < (codePrefixes (fittingCodes (canonCodes lengths))).length) :
    ∃ u, buildCanon s = .raised .invalidFormat
          (if 1023 < (codePrefixes (fittingCodes (canonCodes lengths))).length then 1 else 2) u
      ∧ BuildAt s u
      ∧ u.tree.nnodes.toNat = min 1023 (codePrefixes (fittingCodes (canonCodes lengths))).length
      ∧ u.stream = rest := by
  have hfits : ∀ c ∈ fittingCodes (canonCodes lengths), c.2.2 < 2 ^ c.2.1 := fun c => fits_of_mem_fittingCodes
  have hfree := canonCodes_apart (List.takeWhile_prefix _).sublist hfits
  obtain ⟨u, hu, hat, hcodes, hrest⟩ := buildCanon_of_table hs h
  rcases insertCodes_of_holds hcodes hfits hfree with ⟨v, hv, hedit, hholds⟩ | ⟨v, hv, hedit, hfull, hlarge⟩
  · have hcount := hholds.nnodes
    have hroom : (codePrefixes (fittingCodes (canonCodes lengths))).length ≤ 1023 :=
      hcount ▸ Nat.le_of_lt_succ v.tree.nnodes.isLt
    have hmisfit := hbad.resolve_right (Nat.not_lt.2 hroom)
    refine ⟨v, ?_, hat.edited hedit, hcount.trans (Nat.min_eq_right hroom).symm, hedit.stream_eq.trans hrest⟩
    rw [hu, insertCodes_of_not_fitting hmisfit, hv, Res.bind_of_ok, Res.bind_of_raised, if_neg (Nat.not_lt.2 hroom)]
  · rw [List.nil_append] at hlarge
    refine ⟨v, ?_, hat.edited hedit, ?_, hedit.stream_eq.trans hrest⟩
    · rw [if_pos hlarge, hu]
      by_cases hfit : fittingCodes (canonCodes lengths) = canonCodes lengths
      · rw [hfit] at hv
        rw [hv, Res.bind_of_raised]
      · rw [insertCodes_of_not_fitting hfit, hv, Res.bind_of_raised, Res.bind_of_raised]
    · rw [hfull, Nat.min_eq_left hlarge.le]
      rfl

end

theorem ofNat_errInfo (p : Prop) [Decidable p] : BitVec.ofNat 32 (if p then 1 else 2) = if p then 1 else 2 := by
  split <;> rfl

/-- Settles O35, by `buildCanon_of_fitting`. -/
theorem hufcanonAssignsCanonicalCodes : Obligations.HufcanonAssignsCanonicalCodes := by
  intro s lengths rest herr _ hreader hvalid hlb hlb' hns hns' hlength hfields hstream hfits hroom
  obtain ⟨hsound, -⟩ := s.readerOk_iff.1 hreader hvalid
  have htable : (accept s).TableNext lengths rest := ⟨hlb', hns', hlength, hfields, hstream⟩
  have hfit : fittingCodes (canonCodes lengths) = canonCodes lengths :=
    List.takeWhile_eq_self_iff.2 fun c hc => decide_eq_true (hfits c hc)
  obtain ⟨u, hu, hbuilt, hnnodes, hsyms, hrest⟩ := buildCanon_of_fitting (s := accept s) hsound htable hfit hroom
  have hlegal := (HufCfg.legal_iff s.regs.hufCfg).2 ⟨⟨hlb, hlb'⟩, hns, hns'⟩
  exact ⟨finish u, by rw [exec_hufcanon_of_legal herr hvalid hlegal, hu, conclude_ok], hbuilt.finished, hbuilt.valid,
    hbuilt.kind, hnnodes, hsyms, hrest⟩

/-- Settles O36, by `buildCanon_of_rejected`. -/
theorem hufcanonRejectsTable : Obligations.HufcanonRejectsTable := by
  intro s lengths rest herr _ hreader hvalid hlb hlb' hns hns' hlength hfields hstream fitting hbad
  obtain ⟨hsound, -⟩ := s.readerOk_iff.1 hreader hvalid
  have htable : (accept s).TableNext lengths rest := ⟨hlb', hns', hlength, hfields, hstream⟩
  obtain ⟨u, hu, hat, hnnodes, hrest⟩ := buildCanon_of_rejected (s := accept s) hsound htable hbad
  have hlegal := (HufCfg.legal_iff s.regs.hufCfg).2 ⟨⟨hlb, hlb'⟩, hns, hns'⟩
  have hexec := exec_hufcanon_of_legal herr hvalid hlegal
  rw [hu, conclude_raised] at hexec
  refine ⟨_, hexec, ?_, hat.invalid, hat.kind, hnnodes, hrest⟩
  exact (hat.stopped _ _).trans (by rw [ofNat_errInfo]; rfl)

/-! ### The rebuild of a canonical tree (42_huffman R207) -/

/-- Settles O41: the signal leads to BuildCanon (`exec_hufdec_of_signal`), which does what it does for HUFCANON. -/
theorem hufdecRebuildsCanonical : Obligations.HufdecRebuildsCanonical := by
  intro s msg1 signal hs _ hreader hen hkind hcodes hsignal hroom
  obtain ⟨⟨-, hlb⟩, -, hns⟩ := hs.legal hen hkind
  have hcount : (msg1.map fun p => p.2).length = msg1.length := List.length_map _
  have hsignaled {more : List Bool} (hstream : s.stream = (msg1.flatMap fun p => p.1) ++ (signal ++ more)) :=
    exec_hufdec_of_signal hs hreader hen hcodes hsignal hroom hstream
  refine ⟨fun bits hstream hfew => ?cutOff, ?whole⟩
  case cutOff =>
    rw [List.append_assoc] at hstream
    obtain ⟨u, fuel, hexec, -, hat, htree, hrest⟩ := hsignaled hstream
    obtain ⟨v, hv, hbuild, hend, hnnodes⟩ := buildCanon_of_cutOff hat.sound (by rw [hrest, hat.regs]; exact hfew)
    have hat' := hat.step hbuild.toTreeStep
    refine ⟨_, exec_hufdec_of_notRebuilt hexec ((rebuildTree_canonical (htree ▸ hkind)).trans hv), ?_, hbuild.invalid,
      hbuild.kind.trans (by rw [htree]), hnnodes, hat'.wrote⟩
    exact (hat'.stopped_atEnd (hend.trans hat.atEnd_eq)).trans (by rw [hcount]; rfl)
  case whole =>
    intro lengths after hlength hfields hstream codes fitting
    simp only [List.append_assoc] at hstream
    obtain ⟨u, fuel, hexec, hfuel, hat, htree, hrest⟩ := hsignaled hstream
    have hregs : u.regs = s.regs := hat.regs
    have htable : u.TableNext lengths after := by
      refine ⟨?_, ?_, ?_, ?_, ?_⟩ <;> rw [hregs]
      exacts [hlb, hns, hlength, hfields, by rw [hat.order_eq]; exact hrest]
    have hrebuild : rebuildTree u = buildCanon u := rebuildTree_canonical (htree ▸ hkind)
    refine ⟨fun hbad => ?rejected, fun msg2 rest hfit hnodes hlen hcodes2 hafter => ?rebuilt⟩
    case rejected =>
      obtain ⟨v, hv, hbuild, hnnodes, hrest'⟩ := buildCanon_of_rejected hat.sound htable hbad
      have hat' := hat.step hbuild.toTreeStep
      refine ⟨_, exec_hufdec_of_notRebuilt hexec (hrebuild.trans hv), ?_, hbuild.invalid,
        hbuild.kind.trans (by rw [htree]), hnnodes, hat'.wrote, hat'.reader.later.source, hrest'⟩
      exact (hat'.stopped _ _).trans (by rw [hcount, ofNat_errInfo]; rfl)
    case rebuilt =>
      obtain ⟨v, hv, hbuilt, hnnodes, hsyms, hrest'⟩ := buildCanon_of_fitting hat.sound htable hfit hnodes
      have hcodes' : s.codes v.tree msg2 := fun p hp => by
        obtain ⟨hplain, c, hc, hsym, hpath⟩ := hcodes2 p hp
        refine ⟨(hsyms _ _).2 ⟨c, hc, hsym.trans ?_, hpath⟩, fun h => hplain h.2⟩
        have := p.2.isLt
        rw [BitVec.toNat_setWidth]
        omega
      obtain ⟨t, ht, hframe, htree', hwrote, hend⟩ := exec_hufdec_of_rebuilt hs hexec (hcount ▸ hfuel)
        (hrebuild.trans hv) (hat.step hbuilt.toTreeStep) hcodes' (hcount ▸ hlen) (hrest'.trans hafter)
      rw [← List.map_append] at hwrote
      rw [← htree'] at hnnodes hsyms
      exact ⟨t, ht, hframe, htree' ▸ hbuilt.valid, htree' ▸ hbuilt.kind, hnnodes, hsyms, hwrote, hend⟩

end Sys2Proof.Machine

/-! ## XORKEY and XORPRNG (43_xor R221 to R227) -/

namespace Sys2Proof.Machine

/-! ### A range of MEM exclusive-ored with key bytes -/

/-- The second memory is the first with the `n` bytes from `base` on exclusive-ored with `key 0`, `key 1`, .... -/
def Memory.XoredBy (m : Memory) (base n : Nat) (key : Nat → Byte) (m' : Memory) : Prop :=
  ∀ a, m'.read a = if base ≤ a ∧ a < base + n then m.read a ^^^ key (a - base) else m.read a

namespace Memory.XoredBy

variable {m m' m'' : Memory} {base n j : Nat} {key key' : Nat → Byte}

theorem read_inside (h : m.XoredBy base n key m') {i : Nat} (hi : i < n) :
    m'.read (base + i) = m.read (base + i) ^^^ key i := by
  rw [h, if_pos ⟨by omega, by omega⟩, Nat.add_sub_cancel_left]

theorem read_outside (h : m.XoredBy base n key m') {a : Nat} (ha : a < base ∨ base + n ≤ a) :
    m'.read a = m.read a := by
  rw [h, if_neg (by omega)]

theorem empty (m : Memory) (base : Nat) (key : Nat → Byte) : m.XoredBy base 0 key m := fun a => by
  rw [if_neg (by omega)]

/-- Only the key bytes of the range count. -/
theorem congr_key (h : m.XoredBy base n key m') (hkey : ∀ i, i < n → key i = key' i) : m.XoredBy base n key' m' := by
  intro a
  rw [h]
  split
  next hin => rw [hkey _ (by omega)]
  next => rfl

/-- Exclusive-oring one more byte. -/
theorem xorAt_next (h : m.XoredBy base n key m') : m.XoredBy base (n + 1) key (m'.xorAt (base + n) (key n)) := by
  intro a
  rw [Memory.read_xorAt]
  split
  next heq =>
    subst heq
    rw [h.read_outside (.inr (Nat.le_refl _)), if_pos ⟨by omega, by omega⟩, Nat.add_sub_cancel_left]
  next hne =>
    rw [h]
    congr 1
    exact propext (by omega)

/-- A range and the one behind it are one range. -/
theorem append (h : m.XoredBy base n key m') (h' : m'.XoredBy (base + n) j (fun i => key (n + i)) m'') :
    m.XoredBy base (n + j) key m'' := by
  intro a
  by_cases hlow : a < base + n
  · rw [h'.read_outside (.inl hlow), h]
    congr 1
    exact propext (by omega)
  · rw [h', h.read_outside (.inr (by omega))]
    by_cases hhigh : a < base + (n + j)
    · have hkey : n + (a - (base + n)) = a - base := by omega
      rw [if_pos ⟨by omega, by omega⟩, if_pos ⟨by omega, hhigh⟩]
      simp only [hkey]
    · rw [if_neg (by omega), if_neg (by omega)]

/-- The same key bytes a second time undo the first (43_xor R227). -/
theorem cancel (h : m.XoredBy base n key m') (h' : m'.XoredBy base n key m'') (a : Nat) : m''.read a = m.read a := by
  rw [h', h]
  split
  next => rw [BitVec.xor_assoc, BitVec.xor_self, BitVec.xor_zero]
  next => rfl

/-- Range and key bytes determine every byte. -/
theorem read_unique (h : m.XoredBy base n key m') (h' : m.XoredBy base n key m'') (a : Nat) :
    m''.read a = m'.read a := (h' a).trans (h a).symm

end Memory.XoredBy

/-! ### XORKEY (43_xor R221) -/

section
variable {s : State}

theorem configOk_keyLen_pass_iff (s : State) :
    (configOk (decide (s.regs.keyLen ≠ 0)) .keyLen).pass = true ↔ ¬s.regs.keyLen = 0 := decide_eq_true_iff

/-- XORKEY is accepted and every check passes (43_xor R221). -/
structure State.XorkeyReady (s : State) : Prop where
  accepted : s.status.err = false
  hasKey : s.regs.keyLen ≠ 0
  buffer_inside : s.regs.bufAddr.toNat + s.regs.bufLen.toNat ≤ s.memBytes
  key_inside : s.regs.keyAddr.toNat + s.regs.keyLen.toNat ≤ s.memBytes
  disjoint : ¬rangesMeet s.regs.bufAddr.toNat s.regs.bufLen.toNat s.regs.keyAddr.toNat s.regs.keyLen.toNat

theorem State.XorkeyReady.checks_pass (hs : s.XorkeyReady) : ∀ c ∈ xorkeyChecks s, c.pass = true := by
  simp only [xorkeyChecks, List.forall_mem_cons]
  exact ⟨(configOk_keyLen_pass_iff s).2 hs.hasKey, (inMem_pass_iff _ s).2 (Nat.not_lt.2 hs.buffer_inside),
    (inMem_pass_iff _ s).2 (Nat.not_lt.2 hs.key_inside), (apart_pass_iff _ _ _).2 hs.disjoint, nofun⟩

/-- The key byte for buffer byte `i`, as MEM holds it when the command begins (43_xor R221). -/
def State.keyByte (s : State) (i : Nat) : Byte := s.mem.read (s.keyAddress i)

/-- XORKEY reads no key byte inside the buffer. -/
theorem State.XorkeyReady.keyAddress_outside (hs : s.XorkeyReady) (i : Nat) :
    s.keyAddress i < s.regs.bufAddr.toNat ∨ s.regs.bufAddr.toNat + s.regs.bufLen.toNat ≤ s.keyAddress i := by
  have hpos : 0 < s.regs.keyLen.toNat := Nat.pos_of_ne_zero fun h => hs.hasKey (BitVec.eq_of_toNat_eq h)
  have hlt := Nat.mod_lt (s.regs.keyPhase.toNat + i) hpos
  have hmeet := hs.disjoint
  unfold rangesMeet at hmeet
  unfold State.keyAddress
  omega

/-- The key bytes stay as they were while the loop rewrites the buffer. -/
theorem xorkeyLoop_xoredBy (hs : s.XorkeyReady) (n : Nat) (hn : n ≤ s.regs.bufLen.toNat) :
    s.mem.XoredBy s.regs.bufAddr.toNat n s.keyByte
      (forUp (fun i m => m.xorAt (s.bufAddress i) (m.read (s.keyAddress i))) n 0 s.mem) := by
  induction n with
  | zero => exact .empty _ _ _
  | succ n ih =>
    have hloop := ih (by omega)
    have hkey := hs.keyAddress_outside n
    rw [forUp_succ_last, Nat.zero_add, hloop.read_outside (a := s.keyAddress n) (by omega)]
    exact hloop.xorAt_next

/-- With every check passed XORKEY completes, and MEM alone changes. -/
theorem exec_xorkey_of_ready (hs : s.XorkeyReady) :
    ∃ m, exec .xorkey s = .next { s with status := s.doneStatus, mem := m }
      ∧ s.mem.XoredBy s.regs.bufAddr.toNat s.regs.bufLen.toNat s.keyByte m := by
  have hpass : ∀ c ∈ xorkeyChecks (accept s), c.pass = true := hs.checks_pass
  exact ⟨_, congrArg Host.Outcome.next (runCommand_of_checks hs.accepted hpass),
    xorkeyLoop_xoredBy hs _ (Nat.le_refl _)⟩

/-- Settles O42: each check fails in its turn; behind them the loop takes the key bytes as they stood before the
command (`xorkeyLoop_xoredBy`). -/
theorem xorkeyRule : Obligations.XorkeyRule := by
  refine ⟨decode_encode (i := .xorkey) rfl, fun s herr => ?_⟩
  dsimp only
  have hrefused {c : Check} (hfail : firstFailure (xorkeyChecks s) = some c) :
      exec .xorkey s = .next (s.refused c.err c.info) :=
    congrArg Host.Outcome.next (runCommand_of_failure herr hfail)
  have hlen := configOk_keyLen_pass_iff s
  have hbuf := inMem_pass_iff s.bufRange s
  have hkey := inMem_pass_iff s.keyRange s
  have hapart := apart_pass_iff s.bufRange s.keyRange .keyAddr
  simp only [xorkeyChecks, firstFailure_cons] at hrefused
  split
  next hbad => exact hrefused (c := configOk _ .keyLen) (if_neg fun h => hlen.1 h hbad)
  next hsome =>
  simp only [if_pos (hlen.2 hsome)] at hrefused
  split
  next hbad => exact hrefused (c := inMem s.bufRange s) (if_neg fun h => hbuf.1 h hbad)
  next hbufIn =>
  simp only [if_pos (hbuf.2 hbufIn)] at hrefused
  split
  next hbad => exact hrefused (c := inMem s.keyRange s) (if_neg fun h => hkey.1 h hbad)
  next hkeyIn =>
  simp only [if_pos (hkey.2 hkeyIn)] at hrefused
  split
  next hbad => exact hrefused (c := apart _ _ .keyAddr) (if_neg fun h => hapart.1 h hbad)
  next hmeet =>
  obtain ⟨m, hexec, hmem⟩ :=
    exec_xorkey_of_ready ⟨herr, hsome, Nat.le_of_not_lt hbufIn, Nat.le_of_not_lt hkeyIn, hmeet⟩
  exact ⟨_, hexec, rfl, fun _ => hmem.read_inside, fun _ => hmem.read_outside⟩

end

/-! ### XORPRNG (43_xor R223, R224) -/

section
variable {s : State}

theorem configOk_prngShift_pass_iff (s : State) :
    (configOk (decide (s.regs.prngShift.toNat ≤ Config.prngMaxShift)) .prngShift).pass = true ↔
      ¬24 < s.regs.prngShift.toNat := decide_eq_true_iff.trans Nat.not_lt.symm

/-- XORPRNG is accepted and every check passes (43_xor R224). -/
structure State.XorprngReady (s : State) : Prop where
  accepted : s.status.err = false
  shift_le : s.regs.prngShift.toNat ≤ 24
  buffer_inside : s.regs.bufAddr.toNat + s.regs.bufLen.toNat ≤ s.memBytes

theorem State.XorprngReady.checks_pass (hs : s.XorprngReady) : ∀ c ∈ xorprngChecks s, c.pass = true := by
  simp only [xorprngChecks, List.forall_mem_cons]
  exact ⟨(configOk_prngShift_pass_iff s).2 (Nat.not_lt.2 hs.shift_le),
    (inMem_pass_iff _ s).2 (Nat.not_lt.2 hs.buffer_inside), nofun⟩

/-- The generator's state after `n` steps. -/
def State.prngAfter (s : State) (n : Nat) : Word := (prngStep s.regs.prngMul s.regs.prngAdd)^[n] s.prngState

/-- The generator's byte for buffer byte `i`: step, then use (43_xor R224). -/
def State.prngKeyByte (s : State) (i : Nat) : Byte := prngByte s.regs.prngShift (s.prngAfter (i + 1))

theorem State.prngAfter_succ (s : State) (n : Nat) :
    s.prngAfter (n + 1) = prngStep s.regs.prngMul s.regs.prngAdd (s.prngAfter n) :=
  Function.iterate_succ_apply' _ _ _

/-- One pass of XORPRNG's loop over MEM and the generator. -/
def xorprngPass (s : State) (i : Nat) (p : Memory × Word) : Memory × Word :=
  let x := prngStep s.regs.prngMul s.regs.prngAdd p.2
  (p.1.xorAt (s.bufAddress i) (prngByte s.regs.prngShift x), x)

/-- After `n` passes the generator has made `n` steps and `n` bytes are done. -/
theorem xorprngLoop_eq (s : State) (n : Nat) :
    ∃ m, forUp (xorprngPass s) n 0 (s.mem, s.prngState) = (m, s.prngAfter n)
      ∧ s.mem.XoredBy s.regs.bufAddr.toNat n s.prngKeyByte m := by
  induction n with
  | zero => exact ⟨s.mem, rfl, .empty _ _ _⟩
  | succ n ih =>
    obtain ⟨m, hloop, hmem⟩ := ih
    refine ⟨m.xorAt (s.bufAddress n) (s.prngKeyByte n), ?_, hmem.xorAt_next⟩
    rw [forUp_succ_last, hloop, Nat.zero_add, State.prngKeyByte, s.prngAfter_succ]
    rfl

/-- With every check passed XORPRNG completes, and MEM and the generator alone change. -/
theorem exec_xorprng_of_ready (hs : s.XorprngReady) :
    ∃ m, exec .xorprng s
        = .next { s with status := s.doneStatus, mem := m, prngState := s.prngAfter s.regs.bufLen.toNat }
      ∧ s.mem.XoredBy s.regs.bufAddr.toNat s.regs.bufLen.toNat s.prngKeyByte m := by
  have hpass : ∀ c ∈ xorprngChecks (accept s), c.pass = true := hs.checks_pass
  obtain ⟨m, hloop, hmem⟩ := xorprngLoop_eq s s.regs.bufLen.toNat
  have hbody : xorprngBody (accept s)
      = .ok () { accept s with mem := m, prngState := s.prngAfter s.regs.bufLen.toNat } :=
    congrArg (fun p : Memory × Word => (Res.ok () { accept s with mem := p.1, prngState := p.2 } : Res State Unit)) hloop
  refine ⟨m, congrArg Host.Outcome.next ?_, hmem⟩
  rw [runCommand_of_checks hs.accepted hpass, hbody]
  rfl

/-! #### The generator on numbers -/

theorem toNat_prngStep (mul add x : Word) :
    (prngStep mul add x).toNat = (x.toNat * mul.toNat + add.toNat) % 2 ^ 32 := by
  simp [prngStep]

theorem toNat_prngAfter (s : State) (n : Nat) :
    (s.prngAfter n).toNat =
      (fun x => (x * s.regs.prngMul.toNat + s.regs.prngAdd.toNat) % 2 ^ 32)^[n] s.prngState.toNat :=
  have hstep : Function.Semiconj BitVec.toNat (prngStep s.regs.prngMul s.regs.prngAdd)
      fun x => (x * s.regs.prngMul.toNat + s.regs.prngAdd.toNat) % 2 ^ 32 :=
    toNat_prngStep s.regs.prngMul s.regs.prngAdd
  hstep.iterate_right n s.prngState

theorem toNat_prngByte (shift : BitVec 5) (x : Word) :
    (prngByte shift x).toNat = x.toNat / 2 ^ shift.toNat % 256 := by
  rw [prngByte, BitVec.toNat_setWidth, BitVec.toNat_ushiftRight, Nat.shiftRight_eq_div_pow]

/-- Settles O43: each check fails in its turn; behind them the loop's bytes (`xorprngLoop_eq`), read as numbers. -/
theorem xorprngRule : Obligations.XorprngRule := by
  refine ⟨decode_encode (i := .xorprng) rfl, fun s herr => ?_⟩
  dsimp only
  have hrefused {c : Check} (hfail : firstFailure (xorprngChecks s) = some c) :
      exec .xorprng s = .next (s.refused c.err c.info) :=
    congrArg Host.Outcome.next (runCommand_of_failure herr hfail)
  have hshift := configOk_prngShift_pass_iff s
  have hbuf := inMem_pass_iff s.bufRange s
  simp only [xorprngChecks, firstFailure_cons] at hrefused
  split
  next hbad => exact hrefused (c := configOk _ .prngShift) (if_neg fun h => hshift.1 h hbad)
  next hsmall =>
  simp only [if_pos (hshift.2 hsmall)] at hrefused
  split
  next hbad => exact hrefused (c := inMem s.bufRange s) (if_neg fun h => hbuf.1 h hbad)
  next hbufIn =>
  obtain ⟨m, hexec, hmem⟩ := exec_xorprng_of_ready ⟨herr, Nat.le_of_not_lt hsmall, Nat.le_of_not_lt hbufIn⟩
  refine ⟨_, hexec, rfl, toNat_prngAfter s _, fun i hi => ?_, fun _ => hmem.read_outside⟩
  show (m.read _).toNat = _
  rw [hmem.read_inside hi, BitVec.toNat_xor, State.prngKeyByte, toNat_prngByte, toNat_prngAfter]

end

/-! ### Twice, and in two halves (43_xor R222, R227) -/

/-- Settles O44: the second command finds the key bytes of the first, which lie outside the buffer or come from the
same generator state. -/
theorem xorSelfInverse : Obligations.XorSelfInverse := by
  intro s herr hbuf
  refine ⟨fun hlen hkey hmeet => ?xorkey, fun hshift => ?xorprng⟩
  case xorkey =>
    have hs : s.XorkeyReady := ⟨herr, hlen, hbuf, hkey, hmeet⟩
    obtain ⟨m, hfirst, hm⟩ := exec_xorkey_of_ready hs
    let t : State := { s with status := s.doneStatus, mem := m }
    have ht : t.XorkeyReady := ⟨herr, hlen, hbuf, hkey, hmeet⟩
    obtain ⟨m', hsecond, hm'⟩ := exec_xorkey_of_ready ht
    have hsame (i : Nat) : t.keyByte i = s.keyByte i := hm.read_outside (hs.keyAddress_outside i)
    exact ⟨_, _, hfirst, hsecond, hm.cancel (hm'.congr_key fun i _ => hsame i)⟩
  case xorprng =>
    obtain ⟨m, hfirst, hm⟩ := exec_xorprng_of_ready ⟨herr, hshift, hbuf⟩
    let t : State := { s with status := s.doneStatus, mem := m }
    have ht : t.XorprngReady := ⟨herr, hshift, hbuf⟩
    obtain ⟨m', hsecond, hm'⟩ := exec_xorprng_of_ready ht
    exact ⟨_, _, hfirst, hsecond, rfl, hm.cancel hm'⟩

/-- The registers for the first `k` bytes of the buffer. -/
def HostRegs.firstBytes (r : HostRegs) (k : Nat) : HostRegs := { r with bufLen := BitVec.ofNat 32 k }

/-- The registers for the bytes behind the first `k`, KEY_PHASE advanced by `k` modulo KEY_LEN (43_xor R222). -/
def HostRegs.bytesBehind (r : HostRegs) (k : Nat) : HostRegs :=
  { r with
    bufAddr := BitVec.ofNat 32 (r.bufAddr.toNat + k)
    bufLen := BitVec.ofNat 32 (r.bufLen.toNat - k)
    keyPhase := BitVec.ofNat 32 ((r.keyPhase.toNat + k) % r.keyLen.toNat) }

section
variable {s : State} {k : Nat}

theorem HostRegs.firstBytes_bufLen {r : HostRegs} (hk : k ≤ r.bufLen.toNat) : (r.firstBytes k).bufLen.toNat = k :=
  Nat.mod_eq_of_lt (hk.trans_lt r.bufLen.isLt)

theorem HostRegs.bytesBehind_bufLen (r : HostRegs) (k : Nat) : (r.bytesBehind k).bufLen.toNat = r.bufLen.toNat - k :=
  Nat.mod_eq_of_lt ((Nat.sub_le _ _).trans_lt r.bufLen.isLt)

theorem HostRegs.bytesBehind_bufAddr {r : HostRegs} (h : r.bufAddr.toNat + k < 2 ^ 32) :
    (r.bytesBehind k).bufAddr.toNat = r.bufAddr.toNat + k :=
  Nat.mod_eq_of_lt h

theorem HostRegs.bytesBehind_keyPhase {r : HostRegs} (h : r.keyLen ≠ 0) (k : Nat) :
    (r.bytesBehind k).keyPhase.toNat = (r.keyPhase.toNat + k) % r.keyLen.toNat := by
  have hpos : 0 < r.keyLen.toNat := Nat.pos_of_ne_zero fun h0 => h (BitVec.eq_of_toNat_eq h0)
  exact Nat.mod_eq_of_lt ((Nat.mod_lt _ hpos).trans r.keyLen.isLt)

/-- The key byte for byte `i` of the second half is that for byte `k + i` of the whole (43_xor R222). -/
theorem keyAddress_bytesBehind (hlen : s.regs.keyLen ≠ 0) (k i : Nat) :
    ({ s with regs := s.regs.bytesBehind k } : State).keyAddress i = s.keyAddress (k + i) := by
  show s.regs.keyAddr.toNat + ((s.regs.bytesBehind k).keyPhase.toNat + i) % s.regs.keyLen.toNat
    = s.regs.keyAddr.toNat + (s.regs.keyPhase.toNat + (k + i)) % s.regs.keyLen.toNat
  rw [HostRegs.bytesBehind_keyPhase hlen, Nat.mod_add_mod, Nat.add_assoc]

theorem State.XorkeyReady.firstBytes (hs : s.XorkeyReady) (hk : k ≤ s.regs.bufLen.toNat) :
    ({ s with regs := s.regs.firstBytes k } : State).XorkeyReady := by
  obtain ⟨herr, hlen, hbuf, hkey, hmeet⟩ := hs
  have hfirst := HostRegs.firstBytes_bufLen hk
  refine ⟨herr, hlen, ?_, hkey, ?_⟩ <;> rw [hfirst] <;> simp only [HostRegs.firstBytes] <;> omega

theorem State.XorkeyReady.bytesBehind (hs : s.XorkeyReady) (hmem : s.memBytes ≤ 2 ^ 31)
    (hk : k ≤ s.regs.bufLen.toNat) : ({ s with regs := s.regs.bytesBehind k } : State).XorkeyReady := by
  obtain ⟨herr, hlen, hbuf, hkey, hmeet⟩ := hs
  have haddr := HostRegs.bytesBehind_bufAddr (r := s.regs) (k := k) (by omega)
  refine ⟨herr, hlen, ?_, hkey, ?_⟩ <;> rw [HostRegs.bytesBehind_bufLen, haddr] <;>
    simp only [HostRegs.bytesBehind] <;> omega

end

/-- Settles O45: the halves are ranges one behind the other (`Memory.XoredBy.append`); the second half finds the
key bytes of the whole, as the first has left them. -/
theorem xorkeySplit : Obligations.XorkeySplit := by
  intro s k herr hmem hlen hbuf hkey hmeet hk
  have hs : s.XorkeyReady := ⟨herr, hlen, hbuf, hkey, hmeet⟩
  obtain ⟨whole, hwhole, hw⟩ := exec_xorkey_of_ready hs
  obtain ⟨m, hfirst, hm⟩ := exec_xorkey_of_ready (hs.firstBytes hk)
  let t : State := { s with status := s.doneStatus, mem := m }
  have ht : t.XorkeyReady := ⟨herr, hlen, hbuf, hkey, hmeet⟩
  obtain ⟨m', hsecond, hm'⟩ := exec_xorkey_of_ready (ht.bytesBehind hmem hk)
  have hlow : s.mem.XoredBy s.regs.bufAddr.toNat k s.keyByte m := HostRegs.firstBytes_bufLen hk ▸ hm
  have hbehind (i : Nat) : ({ t with regs := t.regs.bytesBehind k } : State).keyByte i = s.keyByte (k + i) :=
    calc m.read _ = m.read (s.keyAddress (k + i)) := congrArg m.read (keyAddress_bytesBehind (s := t) hlen k i)
      _ = s.mem.read (s.keyAddress (k + i)) :=
        hlow.read_outside ((hs.keyAddress_outside (k + i)).imp id (Nat.add_le_add_left hk _).trans)
  have haddr : (s.regs.bytesBehind k).bufAddr.toNat = s.regs.bufAddr.toNat + k :=
    HostRegs.bytesBehind_bufAddr (by omega)
  have hhigh : m.XoredBy (s.regs.bufAddr.toNat + k) (s.regs.bufLen.toNat - k) (fun i => s.keyByte (k + i)) m' := by
    rw [← haddr, ← HostRegs.bytesBehind_bufLen]
    exact hm'.congr_key fun i _ => hbehind i
  have hboth := hlow.append hhigh
  rw [Nat.add_sub_cancel' hk] at hboth
  exact ⟨_, _, _, hwhole, hfirst, hsecond, hw.read_unique hboth⟩

end Sys2Proof.Machine

/-! ## The substitution table (44_subst R237 to R243) -/

namespace Sys2Proof.Machine

/-! ### The checks of the table commands (60_exceptions R304) -/

section
variable {s : State}

/-- A command is refused by the check in whose turn the first failure comes. -/
theorem runCommand_of_failing_check {checks : State → List Check} {body : State → Res State Unit} {c : Check}
    (before after : List Check) (herr : s.status.err = false) (hchecks : checks (accept s) = before ++ c :: after)
    (hbefore : ∀ d ∈ before, d.pass = true) (hc : c.pass = false) :
    runCommand (withChecks checks body) s = s.refused c.err c.info := by
  refine runCommand_of_failure herr ?_
  rw [hchecks]
  clear hchecks
  induction before with
  | nil => rw [List.nil_append, firstFailure_cons, hc, if_neg Bool.false_ne_true]
  | cons d ds ih =>
    obtain ⟨hd, hds⟩ := List.forall_mem_cons.1 hbefore
    rw [List.cons_append, firstFailure_cons, if_pos hd, ih hds]

theorem inMem_pass {r : Range} (h : ¬s.memBytes < r.addr + r.len) : (inMem r s).pass = true := (inMem_pass_iff r s).2 h

theorem inMem_fails {r : Range} (h : s.memBytes < r.addr + r.len) : (inMem r s).pass = false :=
  Bool.eq_false_iff.2 fun hpass => (inMem_pass_iff r s).1 hpass h

theorem tableReady_pass (h : s.subValid = true) : (tableReady s).pass = true := h

theorem tableReady_fails (h : s.subValid = false) : (tableReady s).pass = false := h

/-- SUBSTORE's check of OUT_CAP (44_subst R243). -/
theorem configOk_outCap_pass_iff (s : State) :
    (configOk (256 ≤ s.regs.outCap.toNat) .outCap).pass = true ↔ ¬s.regs.outCap.toNat < 256 :=
  decide_eq_true_iff.trans Nat.not_lt.symm

end

/-! ### SUBLOAD (44_subst R237) -/

section
variable {s : State}

theorem keyTable_get (s : State) (i : Fin 256) : s.keyTable[i] = s.mem.read (s.regs.keyAddr.toNat + i.val) :=
  Vector.getElem_ofFn i.isLt

theorem exec_subload_of_inside (herr : s.status.err = false) (hin : ¬s.memBytes < s.regs.keyAddr.toNat + 256) :
    exec .subload s = .next { s with status := s.doneStatus, sbox := s.keyTable, subValid := true } :=
  congrArg Host.Outcome.next <| runCommand_of_checks herr <|
    List.forall_mem_singleton.2 (inMem_pass (s := accept s) (r := s.tableRange) hin)

/-- Settles O46: the one check fails, or the bytes at KEY_ADDR become the table (`exec_subload_of_inside`). -/
theorem subloadRule : Obligations.SubloadRule := by
  refine ⟨decode_encode (i := .subload) rfl, fun s herr => ?_⟩
  split
  next hout =>
    exact congrArg Host.Outcome.next
      (runCommand_of_failing_check [] [] herr rfl nofun (inMem_fails (r := s.tableRange) hout))
  next hin => exact ⟨_, exec_subload_of_inside herr hin, rfl, keyTable_get s⟩

/-! ### SUBGEN (44_subst R238, R239) -/

/-- The table of SUBGEN is its permutation, read on bytes. -/
theorem toNat_tableGet_subgenTable (seed keyLen : Word) (b : Byte) :
    (tableGet (subgenTable seed keyLen) b).toNat = (Config.subgenPermutation seed keyLen b.toFin).val := by
  show ((subgenTable seed keyLen)[b.toNat]'b.isLt).toNat = _
  rw [subgenTable, Vector.getElem_ofFn, BitVec.toNat_ofNat]
  exact Nat.mod_eq_of_lt (Fin.isLt _)

theorem subgenTable_bijective (seed keyLen : Word) : Function.Bijective (tableGet (subgenTable seed keyLen)) := by
  refine Finite.injective_iff_bijective.1 fun a b hab => ?_
  have hperm : Config.subgenPermutation seed keyLen a.toFin = Config.subgenPermutation seed keyLen b.toFin := by
    refine Fin.ext ?_
    rw [← toNat_tableGet_subgenTable, ← toNat_tableGet_subgenTable, hab]
  exact BitVec.toFin_inj.1 ((Config.subgenPermutation seed keyLen).injective hperm)

theorem exec_subgen_of_accepted (herr : s.status.err = false) :
    exec .subgen s = .next { s with
      status := s.doneStatus, sbox := subgenTable s.regs.subSeed s.regs.keyLen, subValid := true } :=
  congrArg Host.Outcome.next (runCommand_accepted herr)

/-- Settles O47: the table is `subgenTable`, whose arguments are SUB_SEED and KEY_LEN. -/
theorem subgenRule : Obligations.SubgenRule := by
  intro s herr
  refine ⟨_, exec_subgen_of_accepted herr, rfl, subgenTable_bijective _ _, fun u v hu hseed hlen hv => ?_⟩
  rw [exec_subgen_of_accepted hu, hseed, hlen] at hv
  cases hv
  rfl

/-! ### SUBSWAP (44_subst R240) -/

/-- The exchanges of the first `n` order bytes, the first outermost. -/
def orderExchanges (order : Nat → Byte) (n : Nat) : Equiv.Perm Byte :=
  (List.range n).foldl (fun p i => p * Equiv.swap (BitVec.ofNat 8 (i % 256)) (order i)) 1

theorem orderExchanges_succ (order : Nat → Byte) (n : Nat) :
    orderExchanges order (n + 1) = orderExchanges order n * Equiv.swap (BitVec.ofNat 8 n) (order n) := by
  have hwrap : BitVec.ofNat 8 (n % 256) = BitVec.ofNat 8 n := BitVec.eq_of_toNat_eq (by simp)
  rw [orderExchanges, List.range_succ, List.foldl_append, List.foldl_cons, List.foldl_nil, hwrap, ← orderExchanges]

/-- The order byte of step `i`. -/
def State.orderByte (s : State) (i : Nat) : Byte := s.mem.read (s.regs.keyAddr.toNat + i)

/-- The table after SUBSWAP's loop. -/
def State.swappedTable (s : State) : Vector Byte 256 :=
  forUp (fun i t => swapEntries (BitVec.ofNat 8 i) (s.orderByte i) t) s.regs.keyLen.toNat 0 s.sbox

/-- Each pass of the loop composes one more exchange on the inside. -/
theorem tableGet_forUp_swapEntries (order : Nat → Byte) (n : Nat) (t : Vector Byte 256) (b : Byte) :
    tableGet (forUp (fun i t => swapEntries (BitVec.ofNat 8 i) (order i) t) n 0 t) b
      = tableGet t (orderExchanges order n b) := by
  induction n generalizing b with
  | zero => rfl
  | succ n ih =>
    rw [forUp_succ_last, Nat.zero_add, tableGet_swapEntries, ih, orderExchanges_succ, Equiv.Perm.mul_apply]

theorem tableGet_swappedTable (s : State) (b : Byte) :
    tableGet s.swappedTable b = tableGet s.sbox (orderExchanges s.orderByte s.regs.keyLen.toNat b) :=
  tableGet_forUp_swapEntries _ _ _ _

theorem exec_subswap_of_ready (herr : s.status.err = false) (hvalid : s.subValid = true)
    (hin : ¬s.memBytes < s.regs.keyAddr.toNat + s.regs.keyLen.toNat) :
    exec .subswap s = .next { s with status := s.doneStatus, sbox := s.swappedTable } :=
  congrArg Host.Outcome.next <| runCommand_of_checks herr <|
    List.forall_mem_cons.2 ⟨tableReady_pass (s := accept s) hvalid,
      List.forall_mem_singleton.2 (inMem_pass (s := accept s) (r := s.keyRange) hin)⟩

/-- Settles O48: each check fails in its turn; behind them the loop composes the exchanges
(`tableGet_swappedTable`). -/
theorem subswapRule : Obligations.SubswapRule := by
  refine ⟨decode_encode (i := .subswap) rfl, fun s herr => ?_⟩
  split
  next hempty =>
    exact congrArg Host.Outcome.next
      (runCommand_of_failing_check [] _ herr rfl nofun (tableReady_fails hempty))
  next hfilled =>
  have hvalid := Bool.eq_true_of_not_eq_false hfilled
  split
  next hout =>
    exact congrArg Host.Outcome.next
      (runCommand_of_failing_check [tableReady s] [] herr rfl (List.forall_mem_singleton.2 (tableReady_pass hvalid))
        (inMem_fails (r := s.keyRange) hout))
  next hin => exact ⟨_, exec_subswap_of_ready herr hvalid hin, rfl, tableGet_swappedTable s⟩

/-! ### SUBTRIPLE (44_subst R241) -/

theorem exec_subtriple_of_ready (herr : s.status.err = false) (hvalid : s.subValid = true) :
    exec .subtriple s = .next { s with status := s.doneStatus, sbox := tripleTable s.sbox } :=
  congrArg Host.Outcome.next <| runCommand_of_checks herr <|
    List.forall_mem_singleton.2 (tableReady_pass (s := accept s) hvalid)

/-- Settles O49: the check fails, or the table becomes the triple one (`tableGet_tripleTable`). -/
theorem subtripleRule : Obligations.SubtripleRule := by
  refine ⟨decode_encode (i := .subtriple) rfl, fun s herr => ⟨fun hempty => ?_, fun hvalid => ?_⟩⟩
  · exact congrArg Host.Outcome.next
      (runCommand_of_failing_check [] [] herr rfl nofun (tableReady_fails hempty))
  · exact ⟨_, exec_subtriple_of_ready herr hvalid, rfl, tableGet_tripleTable s.sbox⟩

/-! ### SUBAPPLY (44_subst R242) -/

/-- MEM after SUBAPPLY's loop. -/
def State.mappedMem (s : State) : Memory :=
  forUp (fun i m => m.write (s.bufAddress i) (tableGet s.sbox (m.read (s.bufAddress i)))) s.regs.bufLen.toNat 0 s.mem

/-- Each buffer byte is mapped once, and no other byte changes. -/
theorem read_mappedMem (s : State) (a : Nat) :
    s.mappedMem.read a =
      if s.regs.bufAddr.toNat ≤ a ∧ a < s.regs.bufAddr.toNat + s.regs.bufLen.toNat then
        tableGet s.sbox (s.mem.read a)
      else s.mem.read a :=
  Memory.read_forUp_map (fun _ => tableGet s.sbox) s.regs.bufAddr.toNat s.regs.bufLen.toNat 0 s.mem a

theorem exec_subapply_of_ready (herr : s.status.err = false) (hvalid : s.subValid = true)
    (hin : ¬s.memBytes < s.regs.bufAddr.toNat + s.regs.bufLen.toNat) :
    exec .subapply s = .next { s with status := s.doneStatus, mem := s.mappedMem } :=
  congrArg Host.Outcome.next <| runCommand_of_checks herr <|
    List.forall_mem_cons.2 ⟨tableReady_pass (s := accept s) hvalid,
      List.forall_mem_singleton.2 (inMem_pass (s := accept s) (r := s.bufRange) hin)⟩

/-- Settles O50: each check fails in its turn; behind them the loop maps the buffer (`read_mappedMem`). -/
theorem subapplyRule : Obligations.SubapplyRule := by
  refine ⟨decode_encode (i := .subapply) rfl, fun s herr => ?_⟩
  dsimp only
  split
  next hempty =>
    exact congrArg Host.Outcome.next
      (runCommand_of_failing_check [] _ herr rfl nofun (tableReady_fails hempty))
  next hfilled =>
  have hvalid := Bool.eq_true_of_not_eq_false hfilled
  split
  next hout =>
    exact congrArg Host.Outcome.next
      (runCommand_of_failing_check [tableReady s] [] herr rfl (List.forall_mem_singleton.2 (tableReady_pass hvalid))
        (inMem_fails (r := s.bufRange) hout))
  next hin =>
  refine ⟨_, exec_subapply_of_ready herr hvalid hin, rfl, fun i hi => ?_, fun a ha => ?_⟩
  · exact (read_mappedMem s _).trans (if_pos ⟨by omega, by omega⟩)
  · exact (read_mappedMem s a).trans (if_neg (by omega))

/-! ### SUBSTORE (44_subst R243) -/

/-- MEM after SUBSTORE's loop. -/
def State.storedMem (s : State) : Memory :=
  forUp (fun i m => m.write (s.regs.outAddr.toNat + i) (tableGet s.sbox (BitVec.ofNat 8 i))) 256 0 s.mem

/-- The 256 bytes from OUT_ADDR on are the table, and no other byte changes. -/
theorem read_storedMem (s : State) (a : Nat) :
    s.storedMem.read a =
      if s.regs.outAddr.toNat ≤ a ∧ a < s.regs.outAddr.toNat + 256 then
        tableGet s.sbox (BitVec.ofNat 8 (a - s.regs.outAddr.toNat))
      else s.mem.read a :=
  Memory.read_forUp_map (fun i _ => tableGet s.sbox (BitVec.ofNat 8 i)) s.regs.outAddr.toNat 256 0 s.mem a

theorem tableGet_ofNat (t : Vector Byte 256) (i : Fin 256) : tableGet t (BitVec.ofNat 8 i.val) = t[i] := by
  show t[(BitVec.ofNat 8 i.val).toNat]'_ = t[i.val]
  congr 1
  exact Nat.mod_eq_of_lt i.isLt

theorem substoreChecks_pass (hvalid : s.subValid = true) (hcap : ¬s.regs.outCap.toNat < 256)
    (hin : ¬s.memBytes < s.regs.outAddr.toNat + 256) : ∀ c ∈ substoreChecks s, c.pass = true :=
  List.forall_mem_cons.2 ⟨tableReady_pass hvalid,
    List.forall_mem_cons.2 ⟨(configOk_outCap_pass_iff s).2 hcap,
      List.forall_mem_singleton.2 (inMem_pass (r := s.storeRange) hin)⟩⟩

theorem substoreBody_eq (s : State) : substoreBody s = .ok () { s with mem := s.storedMem, outLen := 256 } := rfl

/-- With every check passed SUBSTORE completes, and MEM and OUT_LEN alone change. -/
theorem exec_substore_of_ready (herr : s.status.err = false) (hvalid : s.subValid = true)
    (hcap : ¬s.regs.outCap.toNat < 256) (hin : ¬s.memBytes < s.regs.outAddr.toNat + 256) :
    ∃ m, exec .substore s = .next { s with status := s.doneStatus, mem := m, outLen := 256 }
      ∧ ∀ a, m.read a = if s.regs.outAddr.toNat ≤ a ∧ a < s.regs.outAddr.toNat + 256 then
          tableGet s.sbox (BitVec.ofNat 8 (a - s.regs.outAddr.toNat))
        else s.mem.read a := by
  have hpass : ∀ c ∈ substoreChecks (accept s), c.pass = true := substoreChecks_pass hvalid hcap hin
  have hread := read_storedMem (accept s)
  refine ⟨(accept s).storedMem, congrArg Host.Outcome.next ?_, hread⟩
  rw [runCommand_of_checks herr hpass, substoreBody_eq]
  generalize (accept s).storedMem = m
  rfl

/-- Settles O51: each check fails in its turn; behind them the loop stores the table (`read_storedMem`). -/
theorem substoreRule : Obligations.SubstoreRule := by
  refine ⟨decode_encode (i := .substore) rfl, fun s herr => ?_⟩
  split
  next hempty =>
    exact congrArg Host.Outcome.next (runCommand_of_failing_check [] _ herr rfl nofun (tableReady_fails hempty))
  next hfilled =>
  have hvalid := Bool.eq_true_of_not_eq_false hfilled
  have hcap_iff := configOk_outCap_pass_iff s
  split
  next hsmall =>
    exact congrArg Host.Outcome.next
      (runCommand_of_failing_check [tableReady s] _ herr rfl (List.forall_mem_singleton.2 (tableReady_pass hvalid))
        (Bool.eq_false_iff.2 fun hpass => hcap_iff.1 hpass hsmall))
  next hcap =>
  split
  next hout =>
    exact congrArg Host.Outcome.next
      (runCommand_of_failing_check [tableReady s, configOk (256 ≤ s.regs.outCap.toNat) .outCap] [] herr rfl
        (List.forall_mem_cons.2 ⟨tableReady_pass hvalid, List.forall_mem_singleton.2 (hcap_iff.2 hcap)⟩)
        (inMem_fails (r := s.storeRange) hout))
  next hin =>
  obtain ⟨m, hexec, hread⟩ := exec_substore_of_ready herr hvalid hcap hin
  refine ⟨_, hexec, rfl, fun i => ?_, fun a ha => ?_⟩
  · rw [hread, if_pos ⟨by omega, by omega⟩, Nat.add_sub_cancel_left, tableGet_ofNat]
  · rw [hread, if_neg (by omega)]

end

end Sys2Proof.Machine

/-! ## What every command does to SBOX and reads of it (44_subst R244; 10_state R59) -/

namespace Sys2Proof.Machine

/-! ### SBOX stays a permutation (44_subst R244) -/

section
variable {i : Instr} {s t : State}

/-- Commands that do not list SBOX among their writes leave it (10_state R60). -/
theorem exec_sbox_of_unlisted (h : exec i s = .next t) (hi : Piece.table ∉ writtenPieces i) : t.sbox = s.sbox :=
  (commandTouchesOnlyItsState i s t h).1 .table hi

/-- The commands that write SBOX (10_state R60). -/
theorem table_mem_writtenPieces_iff (i : Instr) :
    Piece.table ∈ writtenPieces i ↔ i = .sreset ∨ i = .subload ∨ i = .subgen ∨ i = .subswap ∨ i = .subtriple := by
  cases i <;> simp [writtenPieces]

theorem swappedTable_bijective (h : Function.Bijective (tableGet s.sbox)) :
    Function.Bijective (tableGet s.swappedTable) := by
  have heq : tableGet s.swappedTable = tableGet s.sbox ∘ orderExchanges s.orderByte s.regs.keyLen.toNat :=
    funext (tableGet_swappedTable s)
  rw [heq]
  exact h.comp (Equiv.bijective _)

theorem tripleTable_bijective {v : Vector Byte 256} (h : Function.Bijective (tableGet v)) :
    Function.Bijective (tableGet (tripleTable v)) := by
  have heq : tableGet (tripleTable v) = tableGet v ∘ tableGet v ∘ tableGet v := funext (tableGet_tripleTable v)
  rw [heq]
  exact h.comp (h.comp h)

/-- A command whose checked body puts `v` into SBOX leaves the old table or `v`. -/
theorem runCommand_sbox {checks : State → List Check} {body : State → Res State Unit} {v : Vector Byte 256}
    (hbody : body (accept s) = .ok () { accept s with sbox := v }) :
    (runCommand (withChecks checks body) s).sbox = s.sbox ∨ (runCommand (withChecks checks body) s).sbox = v := by
  cases herr : s.status.err with
  | true => rw [runCommand_ignored herr]; exact .inl rfl
  | false =>
    rw [runCommand_accepted herr]
    rcases withChecks_cases checks body (accept s) with ⟨c, -, -, -, h⟩ | ⟨-, h⟩ <;> rw [h]
    · exact .inl rfl
    · rw [hbody]; exact .inr rfl

/-- Settles O52: SUBSWAP composes with exchanges and SUBTRIPLE with the table itself; the rest is the frame of all
commands (`exec_sbox_of_unlisted`). -/
theorem permutationKept : Obligations.PermutationKept := by
  intro i s t h hload hgen hreset hperm
  by_cases hi : Piece.table ∈ writtenPieces i
  · rcases (table_mem_writtenPieces_iff i).1 hi with rfl | rfl | rfl | rfl | rfl
    · exact absurd rfl hreset
    · exact absurd rfl hload
    · exact absurd rfl hgen
    · cases h
      refine ⟨?_, fun hne => absurd rfl hne⟩
      rcases runCommand_sbox (s := s) (checks := subswapChecks) (body := subswapBody) rfl with hsbox | hsbox <;>
        rw [hsbox]
      · exact hperm
      · exact swappedTable_bijective (s := accept s) hperm
    · cases h
      refine ⟨?_, fun _ hne => absurd rfl hne⟩
      rcases runCommand_sbox (s := s) (checks := tableChecks)
        (body := fun s => .ok () { s with sbox := tripleTable s.sbox }) rfl with hsbox | hsbox <;> rw [hsbox]
      · exact hperm
      · exact tripleTable_bijective hperm
  · have hsame := exec_sbox_of_unlisted h hi
    exact ⟨hsame ▸ hperm, fun _ _ => hsame⟩

end

/-! ### No command reads an unfilled table (10_state R59; 44_subst R244) -/

/-- Two states that differ in SBOX alone, and not even there when SUB_VALID is 1. -/
def TableTwin (s u : State) : Prop :=
  ∃ x : Vector Byte 256, u = { s with sbox := x } ∧ (s.subValid = true → x = s.sbox)

section
variable {i : Instr} {s t u v : State}

theorem TableTwin.eq_of_filled (h : TableTwin s u) (hvalid : s.subValid = true) : u = s := by
  obtain ⟨x, rfl, hx⟩ := h
  rw [hx hvalid]

theorem TableTwin.refl (s : State) : TableTwin s s := ⟨s.sbox, rfl, fun _ => rfl⟩

theorem TableTwin.accept (h : TableTwin s u) : TableTwin (accept s) (accept u) := by
  obtain ⟨x, rfl, hx⟩ := h; exact ⟨x, rfl, hx⟩

theorem TableTwin.finish (h : TableTwin s u) : TableTwin (finish s) (finish u) := by
  obtain ⟨x, rfl, hx⟩ := h; exact ⟨x, rfl, hx⟩

theorem TableTwin.raiseError (h : TableTwin s u) (e : ErrorName) (info : Nat) :
    TableTwin (raiseError e info s) (raiseError e info u) := by
  obtain ⟨x, rfl, hx⟩ := h; exact ⟨x, rfl, hx⟩

theorem TableTwin.clearError (h : TableTwin s u) : TableTwin (clearError s) (clearError u) := by
  obtain ⟨x, rfl, hx⟩ := h; exact ⟨x, rfl, hx⟩

/-- The resets and the two commands that fill SBOX make its old content irrelevant. -/
theorem TableTwin.clearRegisters (h : TableTwin s u) : TableTwin (clearRegisters s) (clearRegisters u) := by
  obtain ⟨x, rfl, -⟩ := h; exact .refl _

theorem TableTwin.fillTable (h : TableTwin s u) (w : Vector Byte 256) : TableTwin (fillTable w s) (fillTable w u) := by
  obtain ⟨x, rfl, -⟩ := h; exact .refl _

theorem TableTwin.lzSim : LzSim TableTwin where
  br_eq := by rintro s u ⟨x, rfl, -⟩; rfl
  mem_eq := by rintro s u ⟨x, rfl, -⟩; rfl
  regs_eq := by rintro s u ⟨x, rfl, -⟩; rfl
  outLen_eq := by rintro s u ⟨x, rfl, -⟩; rfl
  lzWPos_eq := by rintro s u ⟨x, rfl, -⟩; rfl
  window_eq := by rintro s u i ⟨x, rfl, -⟩ -; rfl
  advance := by rintro s u q ⟨x, rfl, hx⟩ -; exact ⟨x, rfl, hx⟩
  emit := by rintro s u b ⟨x, rfl, hx⟩ -; exact ⟨x, rfl, hx⟩
  setTerm := by rintro s u ⟨x, rfl, hx⟩; exact ⟨x, rfl, hx⟩

/-- Two states that the decoders and builders read alike. -/
theorem TableTwin.readerSim : ReaderSim TableTwin := TableTwin.lzSim.toReaderSim

/-! #### The trees

The twins hold the same tree, its unused nodes included, which the walk for `BuildSim` does not say. -/

theorem TableTwin.tree_eq (h : TableTwin s u) : u.tree = s.tree := by
  obtain ⟨x, rfl, -⟩ := h; rfl

theorem TableTwin.setTree (h : TableTwin s u) (y : CodeTree) :
    TableTwin { s with tree := y } { u with tree := y } := by
  obtain ⟨x, rfl, hx⟩ := h; exact ⟨x, rfl, hx⟩

theorem TableTwin.editNode (h : TableTwin s u) (n : Fin 1023) (f : Node → Node) :
    TableTwin (editNode n f s) (editNode n f u) := by
  unfold Machine.editNode
  rw [h.tree_eq]
  exact h.setTree _

theorem TableTwin.clearTree (h : TableTwin s u) : TableTwin (clearTree s) (clearTree u) := by
  unfold Machine.clearTree
  rw [h.tree_eq]
  exact h.setTree _

theorem TableTwin.finishTree (h : TableTwin s u) (k : TreeKind) : TableTwin (finishTree k s) (finishTree k u) := by
  unfold Machine.finishTree
  rw [h.tree_eq]
  exact h.setTree _

theorem alloc_tableTwin (h : TableTwin s u) : Res.Sim TableTwin (alloc s) (alloc u) := by
  unfold alloc
  rw [h.tree_eq]
  split
  · exact .ok (h.setTree _)
  · exact .raised h

theorem buildNode_tableTwin (fuel : Nat) (h : TableTwin s u) :
    Res.Sim TableTwin (buildNode fuel s) (buildNode fuel u) := by
  induction fuel generalizing s u with
  | zero => exact .raised h
  | succ fuel ih =>
    unfold buildNode
    refine (alloc_tableTwin h).bind fun i s u h => ?_
    refine (getBits_sim TableTwin.readerSim 1 h).bind fun b s u h => ?_
    split
    · exact (ih h).bind fun l _ _ h => (ih (h.editNode _ _)).bind fun r _ _ h => .ok (h.editNode _ _)
    · exact (getBits_sim TableTwin.readerSim 8 (h.editNode _ _)).bind fun v _ _ h => .ok (h.editNode _ _)

theorem buildTree_tableTwin (h : TableTwin s u) : Res.Sim TableTwin (buildTree s) (buildTree u) :=
  (buildNode_tableTwin 1024 h.clearTree).bind fun _ _ _ h => .ok (h.finishTree _)

theorem childOrAlloc_tableTwin (n : Fin 1023) (bit : Bool) (h : TableTwin s u) :
    Res.Sim TableTwin (childOrAlloc n bit s) (childOrAlloc n bit u) := by
  unfold childOrAlloc
  rw [h.tree_eq]
  cases (s.tree.nodeAt n).child bit with
  | some c => exact .ok h
  | none => exact (alloc_tableTwin h).bind fun c _ _ h => .ok (h.editNode _ _)

theorem insertPath_tableTwin (code len : Nat) (n : Fin 1023) (h : TableTwin s u) :
    Res.Sim TableTwin (insertPath code len n s) (insertPath code len n u) := by
  induction len generalizing n s u with
  | zero => exact .ok h
  | succ i ih => exact (childOrAlloc_tableTwin _ _ h).bind fun c _ _ h => ih c h

theorem canonSymbols_tableTwin (len : Nat) (table : List (Nat × Nat)) (code : Nat) (h : TableTwin s u) :
    Res.Sim TableTwin (canonSymbols len table code s) (canonSymbols len table code u) := by
  induction table generalizing code s u with
  | nil => exact .ok h
  | cons entry table ih =>
    have hinsert : Res.Sim TableTwin (insertCode code len (BitVec.ofNat 9 entry.1) s)
        (insertCode code len (BitVec.ofNat 9 entry.1) u) :=
      (insertPath_tableTwin code len 0 h).bind fun n _ _ h => .ok (h.editNode _ _)
    unfold canonSymbols
    split
    · split
      · exact .raised h
      · exact hinsert.bind fun _ _ _ h => ih _ h
    · exact ih _ h

theorem canonLengths_tableTwin (table : List (Nat × Nat)) (lens : List Nat) (code : Nat) (h : TableTwin s u) :
    Res.Sim TableTwin (canonLengths table lens code s) (canonLengths table lens code u) := by
  induction lens generalizing code s u with
  | nil => exact .ok h
  | cons len lens ih => exact (canonSymbols_tableTwin _ _ _ h).bind fun _ _ _ h => ih _ h

theorem buildCanon_tableTwin (h : TableTwin s u) : Res.Sim TableTwin (buildCanon s) (buildCanon u) := by
  unfold buildCanon
  rw [TableTwin.readerSim.regs_eq h]
  refine (readLengths_sim TableTwin.readerSim _ _ _ h.clearTree).bind fun table s u h => ?_
  exact (alloc_tableTwin h).bind fun _ _ _ h =>
    (canonLengths_tableTwin _ _ _ h).bind fun _ _ _ h => .ok (h.finishTree _)

/-! #### HUFDEC -/

theorem walkTree_tableTwin (fuel : Nat) (n : Fin 1023) (h : TableTwin s u) :
    Res.Sim TableTwin (walkTree fuel n s) (walkTree fuel n u) := by
  induction fuel generalizing n s u with
  | zero =>
    unfold walkTree
    rw [h.tree_eq]
    exact .ok h
  | succ fuel ih =>
    unfold walkTree
    rw [h.tree_eq]
    split
    · exact .ok h
    · refine (getBits_sim TableTwin.readerSim 1 h).bind fun b s u h => ?_
      rw [h.tree_eq]
      cases (s.tree.nodeAt n).child (b == 1) with
      | none => exact .raised h
      | some c => exact ih c h

theorem rebuildTree_tableTwin (h : TableTwin s u) : Res.Sim TableTwin (rebuildTree s) (rebuildTree u) := by
  unfold rebuildTree
  rw [h.tree_eq]
  cases s.tree.kind with
  | selfDescribing => exact buildTree_tableTwin h
  | canonical => exact buildCanon_tableTwin h

theorem hufStep_tableTwin (h : TableTwin s u) : Res.Sim TableTwin (hufStep s) (hufStep u) := by
  have hsymbol : Res.Sim TableTwin (decodeSymbol s) (decodeSymbol u) := by
    unfold decodeSymbol
    rw [TableTwin.readerSim.br_eq h]
    exact walkTree_tableTwin _ 0 h
  refine hsymbol.bind fun sym s u h => ?_
  rw [TableTwin.readerSim.regs_eq h]
  split
  · exact rebuildTree_tableTwin h
  · split
    · exact .raised h
    · obtain ⟨x, rfl, hx⟩ := h; exact .ok ⟨x, rfl, hx⟩

theorem hufLoop_tableTwin (fuel : Nat) (h : TableTwin s u) : Res.Sim TableTwin (hufLoop fuel s) (hufLoop fuel u) := by
  induction fuel generalizing s u with
  | zero => exact .ok h
  | succ fuel ih =>
    unfold hufLoop
    rw [TableTwin.lzSim.hasRoom_eq h]
    split
    · exact (hufStep_tableTwin h).bind fun _ _ _ h => ih h
    · exact .ok h

/-! #### All commands -/

theorem readField_tableTwin (n : Nat) (h : TableTwin s u) : Res.Sim TableTwin (readField n s) (readField n u) :=
  (getBits_sim TableTwin.readerSim n h).bind fun _ _ _ h => by
    obtain ⟨x, rfl, hx⟩ := h; exact .ok ⟨x, rfl, hx⟩

theorem brinit_tableTwin (h : TableTwin s u) : Res.Sim TableTwin (brinitBody s) (brinitBody u) := by
  obtain ⟨x, rfl, hx⟩ := h
  unfold brinitBody
  cases RefillUnit.ofCode s.regs.brCfg.refill with
  | none => exact .raised ⟨x, rfl, hx⟩
  | some unit => exact .ok ⟨x, rfl, hx⟩

theorem lzdec_tableTwin (h : TableTwin s u) : Res.Sim TableTwin (lzdecBody s) (lzdecBody u) := by
  obtain ⟨x, rfl, hx⟩ := h
  exact lzdecBody_sim TableTwin.lzSim ⟨x, rfl, hx⟩

theorem hufdec_tableTwin (h : TableTwin s u) : Res.Sim TableTwin (hufdecBody s) (hufdecBody u) := by
  obtain ⟨x, rfl, hx⟩ := h
  exact hufLoop_tableTwin _ ⟨x, rfl, hx⟩

theorem cbcdec_tableTwin (p : Bool) (h : TableTwin s u) : Res.Sim TableTwin (cbcdecBody p s) (cbcdecBody p u) := by
  obtain ⟨x, rfl, hx⟩ := h
  cases p with
  | false => exact .ok ⟨x, rfl, hx⟩
  | true =>
    cases hpad : padLength (cbcDecrypt s).mem (s.bufAddress s.regs.bufLen.toNat) with
    | none =>
      rw [cbcdecBody_of_bad_pad hpad, cbcdecBody_of_bad_pad (s := { s with sbox := x }) hpad]
      exact .raised ⟨x, rfl, hx⟩
    | some n =>
      rw [cbcdecBody_of_pad hpad, cbcdecBody_of_pad (s := { s with sbox := x }) hpad]
      exact .ok ⟨x, rfl, hx⟩

/-- A command that first checks SUB_VALID runs only where the twins are one state. -/
theorem tableCommand_tableTwin {checks : State → List Check} {body : State → Res State Unit}
    (hc : checks u = checks s) (hready : tableReady s ∈ checks s) (h : TableTwin s u) :
    Res.Sim TableTwin (withChecks checks body s) (withChecks checks body u) := by
  refine withChecks_rel hc h fun hpass => ?_
  rw [h.eq_of_filled (hpass _ hready)]
  cases body s with
  | ok _ t => exact .ok (.refl t)
  | raised _ _ t => exact .raised (.refl t)

theorem ordinaryBody_tableTwin {body : State → Res State Unit} (hi : ordinaryBody i = some body)
    (h : TableTwin s u) : Res.Sim TableTwin (body s) (body u) := by
  obtain ⟨x, rfl, hx⟩ := id h
  cases i <;> cases hi
  case nop => exact .ok h
  case brinit => exact withChecks_rel rfl h fun _ => brinit_tableTwin h
  case getbits n =>
    dsimp only
    split
    · exact withChecks_rel rfl h fun _ => readField_tableTwin _ h
    · exact .raised h
  case getbit => exact withChecks_rel rfl h fun _ => readField_tableTwin 1 h
  case lzdec =>
    have hterm : TableTwin (setTerm false s) (setTerm false { s with sbox := x }) := ⟨x, rfl, hx⟩
    exact withChecks_rel rfl hterm fun _ => lzdec_tableTwin hterm
  case huftree => exact withChecks_rel rfl h fun _ => buildTree_tableTwin h
  case hufcanon => exact withChecks_rel rfl h fun _ => buildCanon_tableTwin h
  case hufdec => exact withChecks_rel rfl h fun _ => hufdec_tableTwin h
  case xorkey => exact withChecks_rel rfl h fun _ => .ok ⟨x, rfl, hx⟩
  case xorprng => exact withChecks_rel rfl h fun _ => .ok ⟨x, rfl, hx⟩
  case subload => exact withChecks_rel rfl h fun _ => .ok (h.fillTable _)
  case subgen => exact .ok (h.fillTable _)
  case subswap => exact tableCommand_tableTwin rfl (.head _) h
  case subtriple => exact tableCommand_tableTwin rfl (.head _) h
  case subapply => exact tableCommand_tableTwin rfl (.head _) h
  case substore => exact tableCommand_tableTwin rfl (.head _) h
  case cbcdec p => exact withChecks_rel rfl h fun _ => cbcdec_tableTwin p h

theorem exec_of_ordinaryBody {body : State → Res State Unit} (hi : ordinaryBody i = some body) (s : State) :
    exec i s = .next (runCommand body s) := by
  cases i <;> cases hi <;> rfl

theorem exec_tableTwin (hs : TableTwin s u) (h : exec i s = .next t) : ∃ v, exec i u = .next v ∧ TableTwin t v := by
  rcases exec_cases i s with ⟨rfl, he⟩ | ⟨rfl, he⟩ | ⟨body, hbody, he⟩ <;> rw [he] at h <;> cases h
  · exact ⟨_, rfl, hs.accept.clearError.finish⟩
  · exact ⟨_, rfl, hs.accept.clearRegisters.finish⟩
  · have hst : u.status = s.status := by
      obtain ⟨x, rfl, -⟩ := hs; rfl
    exact ⟨_, exec_of_ordinaryBody hbody u,
      runCommand_rel hst hs (fun _ => ordinaryBody_tableTwin hbody hs.accept) (fun _ _ h => h.finish)
        fun e info _ _ h => h.raiseError e info⟩

end

/-- Settles O58: states that differ in an unfilled SBOX are twins, and every command keeps twins
(`exec_tableTwin`). -/
theorem unfilledTableUnread : Obligations.UnfilledTableUnread := by
  intro i s t sbox hunfilled h
  have htwin : TableTwin s { s with sbox := sbox } :=
    ⟨sbox, rfl, fun hvalid => absurd (hunfilled.symm.trans hvalid) Bool.false_ne_true⟩
  obtain ⟨u, hu, x, rfl, hx⟩ := exec_tableTwin htwin h
  exact ⟨_, hu, rfl, hx⟩

end Sys2Proof.Machine

/-! ## AES block decryption (45_cbc R262 to R269) -/

namespace Sys2Proof.Machine

/-! ### SubBytes (45_cbc R264 to R266) -/

/-- The two tables are inverse to one another, entry by entry. -/
theorem aesInvSbox_aesSbox : ∀ a : Byte, aesInvSbox (aesSbox a) = a := by decide +kernel

theorem invSubBytes_subBytes (s : Block) : invSubBytes (subBytes s) = s := by
  refine Vector.ext fun i hi => ?_
  rw [invSubBytes, subBytes, Vector.getElem_map, Vector.getElem_map, aesInvSbox_aesSbox]

/-! ### ShiftRows (45_cbc R266) -/

theorem shiftRows_get (s : Block) (i : Nat) (hi : i < 16) :
    (shiftRows s)[i] = s[i % 4 + 4 * ((i / 4 + i % 4) % 4)] := Vector.getElem_ofFn hi

theorem invShiftRows_get (s : Block) (i : Nat) (hi : i < 16) :
    (invShiftRows s)[i] = s[i % 4 + 4 * ((i / 4 + 4 - i % 4) % 4)] := Vector.getElem_ofFn hi

/-- A byte's row is kept, and its column goes as far back as it came forth. -/
theorem invShiftRows_shiftRows (s : Block) : invShiftRows (shiftRows s) = s := by
  refine Vector.ext fun i hi => ?_
  rw [invShiftRows_get, shiftRows_get]
  congr 1
  omega

/-! ### Times x, and sums of powers of x (45_cbc R263) -/

section
variable (a b c d : Byte)

/-- `xtime` without a branch: shift, and add the modulus where a bit falls out. -/
theorem xtime_eq : xtime a = (a <<< 1) ^^^ (if a.getLsbD 7 then 0x1B else 0) := by
  unfold xtime
  split
  next => rfl
  next => exact (BitVec.xor_zero).symm

theorem xtime_xor : xtime (a ^^^ b) = xtime a ^^^ xtime b := by
  have hmodulus : (if (a ^^^ b).getLsbD 7 then (0x1B : Byte) else 0)
      = (if a.getLsbD 7 then 0x1B else 0) ^^^ (if b.getLsbD 7 then 0x1B else 0) := by
    rw [BitVec.getLsbD_xor]
    cases a.getLsbD 7 <;> cases b.getLsbD 7 <;> rfl
  rw [xtime_eq, xtime_eq, xtime_eq, hmodulus, BitVec.shiftLeft_xor_distrib]
  ac_rfl

theorem gmul9_xor : gmul9 (a ^^^ b) = gmul9 a ^^^ gmul9 b := by
  simp only [gmul9, xtime_xor]; ac_rfl

theorem gmul11_xor : gmul11 (a ^^^ b) = gmul11 a ^^^ gmul11 b := by
  simp only [gmul11, xtime_xor]; ac_rfl

theorem gmul13_xor : gmul13 (a ^^^ b) = gmul13 a ^^^ gmul13 b := by
  simp only [gmul13, xtime_xor]; ac_rfl

theorem gmul14_xor : gmul14 (a ^^^ b) = gmul14 a ^^^ gmul14 b := by
  simp only [gmul14, xtime_xor]; ac_rfl

/-! ### MixColumns (45_cbc R266, R268) -/

/-- The first row of the matrix of MixColumns; the other rows rotate it. -/
def mixRow : Byte := xtime a ^^^ (xtime b ^^^ b) ^^^ c ^^^ d

/-- The first row of the matrix of InvMixColumns; the other rows rotate it. -/
def invMixRow : Byte := gmul14 a ^^^ gmul11 b ^^^ gmul13 c ^^^ gmul9 d

theorem mixColumn_eq :
    mixColumn a b c d = #v[mixRow a b c d, mixRow b c d a, mixRow c d a b, mixRow d a b c] := by
  unfold mixColumn mixRow
  congr 4 <;> ac_rfl

theorem invMixColumn_eq :
    invMixColumn a b c d = #v[invMixRow a b c d, invMixRow b c d a, invMixRow c d a b, invMixRow d a b c] := by
  unfold invMixColumn invMixRow
  congr 4 <;> ac_rfl

/-- The first entry of the product of the two matrices is 1: written in powers of x, 14*2 + 11 + 13 + 9*3 cancels down
to it before any reduction by the modulus. The other entries of that row follow; they are 0. -/
theorem invMix_mix_first :
    gmul14 (xtime a) ^^^ gmul11 a ^^^ gmul13 a ^^^ gmul9 (xtime a ^^^ a) = a := by
  simp only [gmul9, gmul11, gmul13, gmul14, xtime_xor]
  grind

/-- 14*3 + 11*2 + 13 + 9 = 0. -/
theorem invMix_mix_second :
    gmul14 (xtime a ^^^ a) ^^^ gmul11 (xtime a) ^^^ gmul13 a ^^^ gmul9 a = 0 := by
  simp only [gmul9, gmul11, gmul13, gmul14, xtime_xor]
  grind

/-- 14 + 11*3 + 13*2 + 9 = 0. -/
theorem invMix_mix_third :
    gmul14 a ^^^ gmul11 (xtime a ^^^ a) ^^^ gmul13 (xtime a) ^^^ gmul9 a = 0 := by
  simp only [gmul9, gmul11, gmul13, gmul14, xtime_xor]
  grind

/-- 14 + 11 + 13*3 + 9*2 = 0. -/
theorem invMix_mix_fourth :
    gmul14 a ^^^ gmul11 a ^^^ gmul13 (xtime a ^^^ a) ^^^ gmul9 (xtime a) = 0 := by
  simp only [gmul9, gmul11, gmul13, gmul14, xtime_xor]
  grind

/-- A byte's own terms add up to it, and those of the other three cancel. -/
theorem invMixRow_mixRow :
    invMixRow (mixRow a b c d) (mixRow b c d a) (mixRow c d a b) (mixRow d a b c) = a :=
  calc invMixRow (mixRow a b c d) (mixRow b c d a) (mixRow c d a b) (mixRow d a b c)
      = (gmul14 (xtime a) ^^^ gmul11 a ^^^ gmul13 a ^^^ gmul9 (xtime a ^^^ a))
        ^^^ (gmul14 (xtime b ^^^ b) ^^^ gmul11 (xtime b) ^^^ gmul13 b ^^^ gmul9 b)
        ^^^ (gmul14 c ^^^ gmul11 (xtime c ^^^ c) ^^^ gmul13 (xtime c) ^^^ gmul9 c)
        ^^^ (gmul14 d ^^^ gmul11 d ^^^ gmul13 (xtime d ^^^ d) ^^^ gmul9 (xtime d)) := by
        simp only [invMixRow, mixRow, gmul9_xor, gmul11_xor, gmul13_xor, gmul14_xor]
        ac_rfl
    _ = a := by
        rw [invMix_mix_first, invMix_mix_second, invMix_mix_third, invMix_mix_fourth]
        simp only [BitVec.ofNat_eq_ofNat, BitVec.xor_zero]

theorem invMixColumn_mixColumn :
    let m := mixColumn a b c d
    invMixColumn m[0] m[1] m[2] m[3] = #v[a, b, c, d] := by
  rw [mixColumn_eq]
  show invMixColumn (mixRow a b c d) (mixRow b c d a) (mixRow c d a b) (mixRow d a b c) = _
  rw [invMixColumn_eq]
  simp only [invMixRow_mixRow]

end

/-- The block of four columns (45_cbc R262). -/
def ofColumns (v0 v1 v2 v3 : KeyWord) : Block := v0 ++ v1 ++ v2 ++ v3

/-- Byte `r + 4*c` is row `r` of column `c` (45_cbc R262). -/
theorem ofColumns_get (v0 v1 v2 v3 : KeyWord) (i : Nat) (hi : i < 16) :
    (ofColumns v0 v1 v2 v3)[i] = (#v[v0, v1, v2, v3][i / 4])[i % 4]'(Nat.mod_lt _ (by decide)) := by
  show (v0 ++ v1 ++ v2 ++ v3 : Vector Byte (4 + 4 + 4 + 4))[i] = _
  simp only [Vector.getElem_append]
  interval_cases i <;> rfl

/-- InvMixColumns works on each column alone. -/
theorem invMixColumns_ofColumns (v0 v1 v2 v3 : KeyWord) :
    invMixColumns (ofColumns v0 v1 v2 v3) =
      ofColumns (invMixColumn v0[0] v0[1] v0[2] v0[3]) (invMixColumn v1[0] v1[1] v1[2] v1[3])
        (invMixColumn v2[0] v2[1] v2[2] v2[3]) (invMixColumn v3[0] v3[1] v3[2] v3[3]) := by
  simp only [invMixColumns, ofColumns_get]
  rfl

theorem ofColumns_eq (s : Block) :
    ofColumns #v[s[0], s[1], s[2], s[3]] #v[s[4], s[5], s[6], s[7]] #v[s[8], s[9], s[10], s[11]]
      #v[s[12], s[13], s[14], s[15]] = s := by
  refine Vector.ext fun i hi => ?_
  rw [ofColumns_get]
  interval_cases i <;> rfl

theorem invMixColumns_mixColumns (s : Block) : invMixColumns (mixColumns s) = s := by
  rw [mixColumns]
  refine (invMixColumns_ofColumns _ _ _ _).trans ?_
  simp only [invMixColumn_mixColumn, ofColumns_eq]

/-! ### The rounds (45_cbc R266, R269) -/

theorem addRoundKey_get (w : List KeyWord) (round : Nat) (s : Block) (i : Nat) (hi : i < 16) :
    (addRoundKey w round s)[i]
      = s[i] ^^^ (w.getD (4 * round + i / 4) zeroWord)[i % 4]'(Nat.mod_lt _ (by decide)) := Vector.getElem_ofFn hi

/-- The round key is its own inverse. -/
theorem addRoundKey_addRoundKey (w : List KeyWord) (round : Nat) (s : Block) :
    addRoundKey w round (addRoundKey w round s) = s := by
  refine Vector.ext fun i hi => ?_
  rw [addRoundKey_get, addRoundKey_get, BitVec.xor_assoc, BitVec.xor_self, BitVec.xor_zero]

/-- The last of the rounds, taken off. -/
theorem encRounds_succ_last (w : List KeyWord) (count round : Nat) (s : Block) :
    encRounds w (count + 1) round s
      = addRoundKey w (round + count) (mixColumns (shiftRows (subBytes (encRounds w count round s)))) := by
  induction count generalizing round s with
  | zero => rfl
  | succ n ih => rw [encRounds, ih, encRounds, Nat.add_right_comm, Nat.add_assoc]

theorem invSubBytes_invShiftRows (s : Block) : invSubBytes (invShiftRows (shiftRows (subBytes s))) = s := by
  rw [invShiftRows_shiftRows, invSubBytes_subBytes]

/-- The inverse rounds undo the last forward round, which has no column mix, and the `count` rounds before it. -/
theorem invRounds_encRounds (w : List KeyWord) (count : Nat) (s : Block) :
    invRounds w count (shiftRows (subBytes (encRounds w count 1 (addRoundKey w 0 s)))) = s := by
  induction count with
  | zero => rw [invRounds, invSubBytes_invShiftRows, encRounds, addRoundKey_addRoundKey]
  | succ n ih =>
    rw [invRounds, invSubBytes_invShiftRows, encRounds_succ_last, Nat.add_comm 1 n, addRoundKey_addRoundKey,
      invMixColumns_mixColumns, ih]

/-- Settles O55: the last round key cancels, then round by round the inverse round undoes the forward one
(`invRounds_encRounds`), under any key schedule. -/
theorem aesDecryptInvertsEncrypt : Obligations.AesDecryptInvertsEncrypt := by
  intro key block _
  rw [aesDecryptBlock, invCipher, aesEncryptBlock, addRoundKey_addRoundKey, invRounds_encRounds]

end Sys2Proof.Machine

/-! ## CBCDEC (45_cbc R256 to R260) -/

namespace Sys2Proof.Machine

section
variable {s : State} {p : Bool}

/-! ### The start-up checks (45_cbc R257, R260; 60_exceptions R304) -/

theorem legalKeyLength_iff {n : Nat} : legalKeyLength n = true ↔ n = 16 ∨ n = 24 ∨ n = 32 := by
  simp [legalKeyLength, or_assoc]

/-- UnknownScheme records the command word, whose last bit is P (45_cbc R257). -/
theorem cbcdecWord_eq (p : Bool) : cbcdecWord p = 0x3C000000 + p.toNat := by cases p <;> rfl

theorem apart_pass {a b : Range} {reg : Reg} (h : ¬rangesMeet a.addr a.len b.addr b.len) :
    (apart a b reg).pass = true := (apart_pass_iff a b reg).2 h

theorem apart_fails {a b : Range} {reg : Reg} (h : rangesMeet a.addr a.len b.addr b.len) :
    (apart a b reg).pass = false := Bool.eq_false_iff.2 fun hpass => (apart_pass_iff a b reg).1 hpass h

/-- CBCDEC's last two checks: BUF_LEN is a multiple of 16, and not 0 when there is to be padding. -/
theorem cbcLength_pass_iff (p : Bool) (n : Word) :
    ((n.toNat % 16 == 0) = true ∧ (!(p && n.toNat == 0)) = true) ↔ ¬(n.toNat % 16 ≠ 0 ∨ (p = true ∧ n = 0)) := by
  have hzero : n = 0 ↔ n.toNat = 0 := BitVec.toNat_inj (y := 0#32).symm
  rw [hzero]
  cases p <;> simp

/-- CBCDEC is accepted and every check passes (45_cbc R260). -/
structure State.CbcdecReady (s : State) (p : Bool) : Prop where
  accepted : s.status.err = false
  key_legal : s.regs.keyLen.toNat = 16 ∨ s.regs.keyLen.toNat = 24 ∨ s.regs.keyLen.toNat = 32
  buffer_inside : ¬s.memBytes < s.regs.bufAddr.toNat + s.regs.bufLen.toNat
  key_inside : ¬s.memBytes < s.regs.keyAddr.toNat + s.regs.keyLen.toNat
  iv_inside : ¬s.memBytes < s.regs.ivAddr.toNat + 16
  key_apart : ¬rangesMeet s.regs.bufAddr.toNat s.regs.bufLen.toNat s.regs.keyAddr.toNat s.regs.keyLen.toNat
  iv_apart : ¬rangesMeet s.regs.bufAddr.toNat s.regs.bufLen.toNat s.regs.ivAddr.toNat 16
  length_legal : ¬(s.regs.bufLen.toNat % 16 ≠ 0 ∨ (p = true ∧ s.regs.bufLen = 0))

theorem State.CbcdecReady.checks_pass (hs : s.CbcdecReady p) : ∀ c ∈ cbcdecChecks p s, c.pass = true := by
  obtain ⟨hblocks, hsome⟩ := (cbcLength_pass_iff p s.regs.bufLen).2 hs.length_legal
  simp only [cbcdecChecks, List.forall_mem_cons]
  exact ⟨legalKeyLength_iff.2 hs.key_legal, inMem_pass hs.buffer_inside, inMem_pass hs.key_inside,
    inMem_pass hs.iv_inside, apart_pass hs.key_apart, apart_pass hs.iv_apart, hblocks, hsome, nofun⟩

/-! ### The ends of an accepted CBCDEC (45_cbc R260) -/

/-- MEM after CBCDEC's loop. -/
def State.decryptedMem (s : State) : Memory := (cbcDecrypt s).mem

/-- The pad length that CBCDEC finds in the decrypted buffer, if the padding is well formed. -/
def State.decryptedPad (s : State) : Option Nat := padLength s.decryptedMem (s.bufAddress s.regs.bufLen.toNat)

theorem exec_cbcdec_of_ready (hs : s.CbcdecReady p) :
    exec (.cbcdec p) s = .next (conclude (cbcdecBody p (accept s))) :=
  congrArg Host.Outcome.next (runCommand_of_checks hs.accepted hs.checks_pass)

theorem exec_cbcdec_unpadded (hs : s.CbcdecReady false) :
    exec (.cbcdec false) s
      = .next { s with status := s.doneStatus, result := s.regs.bufLen, mem := s.decryptedMem } :=
  exec_cbcdec_of_ready hs

theorem exec_cbcdec_of_pad (hs : s.CbcdecReady true) {n : Nat} (hpad : s.decryptedPad = some n) :
    exec (.cbcdec true) s
      = .next { s with
          status := s.doneStatus, result := BitVec.ofNat 32 (s.regs.bufLen.toNat - n), mem := s.decryptedMem } := by
  rw [exec_cbcdec_of_ready hs, cbcdecBody_of_pad (s := accept s) hpad]
  rfl

/-- The error is raised over the decrypted buffer, RESULT kept. -/
theorem exec_cbcdec_of_bad_pad (hs : s.CbcdecReady true) (hpad : s.decryptedPad = none) :
    exec (.cbcdec true) s
      = .next { s with status := s.errStatus .invalidFormat, errInfo := 6, mem := s.decryptedMem } := by
  rw [exec_cbcdec_of_ready hs, cbcdecBody_of_bad_pad (s := accept s) hpad]
  rfl

/-- Past its checks CBCDEC completes, or with P = 1 finds the padding malformed. -/
theorem exec_cbcdec_of_ready_status (hs : s.CbcdecReady p) :
    ∃ t, exec (.cbcdec p) s = .next t
      ∧ ((t.status.done = true ∧ t.status.err = false)
          ∨ (p = true ∧ t.status.done = false ∧ t.status.err = true ∧ t.status.errCode = 2 ∧ t.errInfo = 6)) := by
  cases p with
  | false => exact ⟨_, exec_cbcdec_unpadded hs, .inl ⟨rfl, hs.accepted⟩⟩
  | true =>
    cases hpad : s.decryptedPad with
    | some n => exact ⟨_, exec_cbcdec_of_pad hs hpad, .inl ⟨rfl, hs.accepted⟩⟩
    | none => exact ⟨_, exec_cbcdec_of_bad_pad hs hpad, .inr ⟨rfl, rfl, rfl, rfl, rfl⟩⟩

/-- Settles O53: each check fails in its turn, with those before it passed; behind them only the padding is left
(`exec_cbcdec_of_ready_status`). -/
theorem cbcdecRefusals : Obligations.CbcdecRefusals := by
  intro s p herr
  dsimp only
  have hrefused {c : Check} (hfail : firstFailure (cbcdecChecks p s) = some c) :
      exec (.cbcdec p) s = .next (s.refused c.err c.info) :=
    congrArg Host.Outcome.next (runCommand_of_failure herr hfail)
  have hbuf := inMem_pass_iff s.bufRange s
  have hkey := inMem_pass_iff s.keyRange s
  have hiv := inMem_pass_iff s.ivRange s
  have hkeyApart := apart_pass_iff s.bufRange s.keyRange .keyAddr
  have hivApart := apart_pass_iff s.bufRange s.ivRange .ivAddr
  have hlength := cbcLength_pass_iff p s.regs.bufLen
  simp only [cbcdecChecks, firstFailure_cons] at hrefused
  split
  next hbad =>
    have hillegal : ¬legalKeyLength s.regs.keyLen.toNat = true := by rw [legalKeyLength_iff]; omega
    rw [← cbcdecWord_eq]
    exact hrefused (c := ⟨_, _, cbcdecWord p⟩) (if_neg hillegal)
  next hlen =>
  have hlegal : s.regs.keyLen.toNat = 16 ∨ s.regs.keyLen.toNat = 24 ∨ s.regs.keyLen.toNat = 32 := by omega
  simp only [if_pos (legalKeyLength_iff.2 hlegal)] at hrefused
  split
  next hbad => exact hrefused (c := inMem s.bufRange s) (if_neg fun h => hbuf.1 h hbad)
  next hbufIn =>
  simp only [if_pos (hbuf.2 hbufIn)] at hrefused
  split
  next hbad => exact hrefused (c := inMem s.keyRange s) (if_neg fun h => hkey.1 h hbad)
  next hkeyIn =>
  simp only [if_pos (hkey.2 hkeyIn)] at hrefused
  split
  next hbad => exact hrefused (c := inMem s.ivRange s) (if_neg fun h => hiv.1 h hbad)
  next hivIn =>
  simp only [if_pos (hiv.2 hivIn)] at hrefused
  split
  next hbad => exact hrefused (c := apart _ _ .keyAddr) (if_neg fun h => hkeyApart.1 h hbad)
  next hkeyMeet =>
  simp only [if_pos (hkeyApart.2 hkeyMeet)] at hrefused
  split
  next hbad => exact hrefused (c := apart _ _ .ivAddr) (if_neg fun h => hivApart.1 h hbad)
  next hivMeet =>
  simp only [if_pos (hivApart.2 hivMeet)] at hrefused
  split
  next hbad =>
    by_cases hblocks : (s.regs.bufLen.toNat % 16 == 0) = true
    · simp only [if_pos hblocks] at hrefused
      exact hrefused (c := ⟨_, .invalidFormat, 5⟩) (if_neg fun hsome => hlength.1 ⟨hblocks, hsome⟩ hbad)
    · exact hrefused (c := ⟨_, .invalidFormat, 5⟩) (if_neg hblocks)
  next hblocks => exact exec_cbcdec_of_ready_status ⟨herr, hlegal, hbufIn, hkeyIn, hivIn, hkeyMeet, hivMeet, hblocks⟩

/-! ### Blocks of MEM (45_cbc R256) -/

theorem Memory.readBlock_getElem (m : Memory) (a i : Nat) (hi : i < 16) : (m.readBlock a)[i] = m.read (a + i) :=
  Memory.readBlock_get m a ⟨i, hi⟩

/-- A block depends on its 16 bytes alone. -/
theorem Memory.readBlock_congr {m m' : Memory} {a : Nat} (h : ∀ i, i < 16 → m'.read (a + i) = m.read (a + i)) :
    m'.readBlock a = m.readBlock a := by
  refine Vector.ext fun i hi => ?_
  rw [Memory.readBlock_getElem, Memory.readBlock_getElem, h i hi]

theorem Memory.readBlock_writeBlock_same (m : Memory) (a : Nat) (b : Block) : (m.writeBlock a b).readBlock a = b := by
  refine Vector.ext fun i hi => ?_
  rw [Memory.readBlock_getElem, Memory.read_writeBlock, if_pos ⟨by omega, by omega⟩, Nat.add_sub_cancel_left]
  simp [hi]

theorem Memory.read_writeBlock_outside {m : Memory} {a c : Nat} (b : Block) (h : c < a ∨ a + 16 ≤ c) :
    (m.writeBlock a b).read c = m.read c := by
  rw [Memory.read_writeBlock, if_neg (by omega)]

/-! ### The loop over the blocks (45_cbc R258) -/

/-- The key bytes when the command begins. -/
def State.cbcKey (s : State) : List Byte := s.mem.readBytes s.regs.keyAddr.toNat s.regs.keyLen.toNat

/-- Ciphertext block `j`, as MEM holds it when the command begins. -/
def State.cipherBlock (s : State) (j : Nat) : Block := s.mem.readBlock (s.bufAddress (16 * j))

/-- What block `j` is chained with: the ciphertext block before it, or the IV. -/
def State.chainBlock (s : State) (j : Nat) : Block :=
  if j = 0 then s.mem.readBlock s.regs.ivAddr.toNat else s.cipherBlock (j - 1)

/-- Plaintext block `j`. -/
def State.plainBlock (s : State) (j : Nat) : Block :=
  xorBlock (aesDecryptBlock s.cbcKey (s.cipherBlock j)) (s.chainBlock j)

/-- MEM with the first `n` blocks of the buffer decrypted. -/
structure State.DecryptedTo (s : State) (n : Nat) (m : Memory) : Prop where
  blocks : ∀ j, j < n → m.readBlock (s.bufAddress (16 * j)) = s.plainBlock j
  outside : ∀ a, a < s.bufAddress 0 ∨ s.bufAddress (16 * n) ≤ a → m.read a = s.mem.read a

/-- The block to come is still ciphertext. -/
theorem State.DecryptedTo.next_block {n : Nat} {m : Memory} (h : s.DecryptedTo n m) :
    m.readBlock (s.bufAddress (16 * n)) = s.cipherBlock n :=
  Memory.readBlock_congr fun i _ => h.outside _ (.inr (Nat.le_add_right _ i))

/-- Decrypting one more block. -/
theorem State.DecryptedTo.write_next {n : Nat} {m : Memory} (h : s.DecryptedTo n m) :
    s.DecryptedTo (n + 1) (m.writeBlock (s.bufAddress (16 * n)) (s.plainBlock n)) := by
  refine ⟨fun j hj => ?_, fun a ha => ?_⟩
  · obtain hlt | rfl : j < n ∨ j = n := by omega
    · rw [← h.blocks j hlt]
      refine Memory.readBlock_congr fun i hi => Memory.read_writeBlock_outside _ (.inl ?_)
      simp only [State.bufAddress]
      omega
    · exact Memory.readBlock_writeBlock_same _ _ _
  · simp only [State.bufAddress] at ha
    have hbehind : a < s.bufAddress (16 * n) ∨ s.bufAddress (16 * n) + 16 ≤ a := by
      simp only [State.bufAddress]
      omega
    rw [Memory.read_writeBlock_outside _ hbehind, h.outside a (by simp only [State.bufAddress]; omega)]

/-- After `n` passes `n` blocks are decrypted, and the block kept is the one the next is chained with. -/
theorem cbcLoop_eq (s : State) (n : Nat) :
    ∃ m, forUp (fun j => cbcBlock (keyExpansion s.cbcKey) (keyNr s.cbcKey) (s.bufAddress (16 * j))) n 0
        (s.mem, s.chainBlock 0) = (m, s.chainBlock n) ∧ s.DecryptedTo n m := by
  induction n with
  | zero => exact ⟨s.mem, rfl, nofun, fun _ _ => rfl⟩
  | succ n ih =>
    obtain ⟨m, hloop, hm⟩ := ih
    refine ⟨_, ?_, hm.write_next⟩
    rw [forUp_succ_last, hloop, Nat.zero_add, cbcBlock, hm.next_block]
    rfl

/-- CBCDEC's loop decrypts the whole blocks of the buffer. -/
theorem decryptedTo_decryptedMem (s : State) : s.DecryptedTo (s.regs.bufLen.toNat / 16) s.decryptedMem := by
  obtain ⟨m, hloop, hm⟩ := cbcLoop_eq s (s.regs.bufLen.toNat / 16)
  have hmem : s.decryptedMem = m := congrArg Prod.fst hloop
  rwa [hmem]

theorem read_decryptedMem_inside {j : Nat} (hj : j < s.regs.bufLen.toNat / 16) (k : Fin 16) :
    s.decryptedMem.read (s.regs.bufAddr.toNat + 16 * j + k.val) = (s.plainBlock j)[k] := by
  rw [← (decryptedTo_decryptedMem s).blocks j hj, Memory.readBlock_get]
  rfl

theorem read_decryptedMem_outside (hblocks : s.regs.bufLen.toNat % 16 = 0) {a : Nat}
    (ha : a < s.regs.bufAddr.toNat ∨ s.regs.bufAddr.toNat + s.regs.bufLen.toNat ≤ a) :
    s.decryptedMem.read a = s.mem.read a := by
  refine (decryptedTo_decryptedMem s).outside a ?_
  simp only [State.bufAddress]
  omega

/-! ### The padding (45_cbc R259) -/

/-- The block ends in as many bytes of value `pad` as `pad` says, from 1 to 16. -/
def Block.Padded (b : Block) (pad : Byte) : Prop :=
  1 ≤ pad.toNat ∧ pad.toNat ≤ 16 ∧ ∀ k : Fin 16, 16 - pad.toNat ≤ k.val → b[k].toNat = pad.toNat

/-- The bytes read backwards from the end are the block's last ones. -/
theorem padBytes_all_iff (m : Memory) (a : Nat) {pad : Byte} (hpad : pad.toNat ≤ 16) :
    ((List.range' 1 pad.toNat).all fun k => m.read (a + 16 - k) == pad) = true
      ↔ ∀ k : Fin 16, 16 - pad.toNat ≤ k.val → (m.readBlock a)[k].toNat = pad.toNat := by
  simp only [List.all_eq_true, List.mem_range'_1, beq_iff_eq, BitVec.toNat_inj, Memory.readBlock_get]
  refine ⟨fun h k hk => ?_, fun h k hk => ?_⟩
  · have hbyte := h (16 - k.val) (by omega)
    rwa [show a + 16 - (16 - k.val) = a + k.val by omega] at hbyte
  · have hbyte := h ⟨16 - k, by omega⟩ (by simp only; omega)
    rwa [show a + (16 - k) = a + 16 - k by omega] at hbyte

theorem padLength_of_padded {m : Memory} {a : Nat} (h : Block.Padded (m.readBlock a) (m.read (a + 15))) :
    padLength m (a + 16) = some (m.read (a + 15)).toNat := by
  obtain ⟨hpos, hle, hbytes⟩ := h
  rw [padLength, show a + 16 - 1 = a + 15 by omega, if_neg (by omega), if_pos ((padBytes_all_iff m a hle).2 hbytes)]

theorem padLength_of_not_padded {m : Memory} {a : Nat} (h : ¬Block.Padded (m.readBlock a) (m.read (a + 15))) :
    padLength m (a + 16) = none := by
  rw [padLength, show a + 16 - 1 = a + 15 by omega]
  by_cases hrange : (m.read (a + 15)).toNat < 1 ∨ (m.read (a + 15)).toNat > 16
  · exact if_pos hrange
  · have hle : (m.read (a + 15)).toNat ≤ 16 := by omega
    rw [if_neg hrange, if_neg fun hall => h ⟨by omega, hle, (padBytes_all_iff m a hle).1 hall⟩]

/-- The last plaintext block. -/
def State.lastPlain (s : State) : Block := s.plainBlock (s.regs.bufLen.toNat / 16 - 1)

theorem State.CbcdecReady.bufLen_pos (hs : s.CbcdecReady true) : 0 < s.regs.bufLen.toNat :=
  Nat.pos_of_ne_zero fun h => hs.length_legal (.inr ⟨rfl, BitVec.eq_of_toNat_eq h⟩)

theorem State.CbcdecReady.bufLen_mod (hs : s.CbcdecReady p) : s.regs.bufLen.toNat % 16 = 0 :=
  Decidable.byContradiction fun h => hs.length_legal (.inl h)

/-- The pad check looks at the last plaintext block. -/
theorem decryptedPad_eq (hs : s.CbcdecReady true) :
    ∃ m a, s.decryptedPad = padLength m (a + 16) ∧ m.readBlock a = s.lastPlain ∧ m.read (a + 15) = s.lastPlain[15] := by
  have hpos := hs.bufLen_pos
  have hmod := hs.bufLen_mod
  have hblock : s.decryptedMem.readBlock (s.bufAddress (16 * (s.regs.bufLen.toNat / 16 - 1))) = s.lastPlain :=
    (decryptedTo_decryptedMem s).blocks _ (by omega)
  have hend : s.bufAddress s.regs.bufLen.toNat = s.bufAddress (16 * (s.regs.bufLen.toNat / 16 - 1)) + 16 := by
    simp only [State.bufAddress]
    omega
  refine ⟨s.decryptedMem, _, congrArg _ hend, hblock, ?_⟩
  rw [← hblock, Memory.readBlock_getElem]

theorem decryptedPad_of_padded (hs : s.CbcdecReady true) (h : Block.Padded s.lastPlain s.lastPlain[15]) :
    s.decryptedPad = some s.lastPlain[15].toNat := by
  obtain ⟨m, a, hpad, hblock, hlast⟩ := decryptedPad_eq hs
  rw [hpad, ← hlast]
  exact padLength_of_padded (by rwa [hblock, hlast])

theorem decryptedPad_of_not_padded (hs : s.CbcdecReady true) (h : ¬Block.Padded s.lastPlain s.lastPlain[15]) :
    s.decryptedPad = none := by
  obtain ⟨m, a, hpad, hblock, hlast⟩ := decryptedPad_eq hs
  rw [hpad]
  exact padLength_of_not_padded (by rwa [hblock, hlast])

/-- A buffer with padding is no shorter than a pad. -/
theorem padded_result_add (hs : s.CbcdecReady true) {n : Nat} (hn : n ≤ 16) :
    (BitVec.ofNat 32 (s.regs.bufLen.toNat - n)).toNat + n = s.regs.bufLen.toNat := by
  have hpos := hs.bufLen_pos
  have hmod := hs.bufLen_mod
  have hlt := s.regs.bufLen.isLt
  rw [BitVec.toNat_ofNat, Nat.mod_eq_of_lt (by omega)]
  omega

/-! ### CBCDEC's rule (45_cbc R260) -/

theorem plainBlock_get (s : State) (j i : Nat) (hi : i < 16) :
    (s.plainBlock j)[i] = (aesDecryptBlock s.cbcKey (s.cipherBlock j))[i] ^^^ (s.chainBlock j)[i] :=
  Vector.getElem_zipWith hi

/-- Settles O54: the loop decrypts the buffer (`decryptedTo_decryptedMem`), and the end is that of P = 0, of a pad or
of a malformed one. -/
theorem cbcdecRule : Obligations.CbcdecRule := by
  intro s p herr r key cipher iv plain hlen hbuf hkey hiv hkeyMeet hivMeet hblocks hsome
  have hs : s.CbcdecReady p := ⟨herr, hlen, Nat.not_lt.2 hbuf, Nat.not_lt.2 hkey, Nat.not_lt.2 hiv, hkeyMeet, hivMeet,
    fun h => h.elim (· hblocks) fun h => hsome h.1 h.2⟩
  have hplain (j : Nat) : plain j = s.plainBlock j :=
    Vector.ext fun i hi => (Vector.getElem_ofFn hi).trans (plainBlock_get s j i hi).symm
  have hinside (j : Nat) (hj : j < r.bufLen.toNat / 16) (k : Fin 16) :
      s.decryptedMem.read (r.bufAddr.toNat + 16 * j + k.val) = (plain j)[k] :=
    hplain j ▸ read_decryptedMem_inside hj k
  have houtside (a : Nat) := read_decryptedMem_outside (a := a) hblocks
  cases p with
  | false => exact ⟨_, exec_cbcdec_unpadded hs, rfl, hinside, houtside, rfl, rfl, rfl⟩
  | true =>
    have hlast : plain (r.bufLen.toNat / 16 - 1) = s.lastPlain := hplain _
    by_cases hpadded : Block.Padded s.lastPlain s.lastPlain[15]
    · refine ⟨_, exec_cbcdec_of_pad hs (decryptedPad_of_padded hs hpadded), rfl, hinside, houtside, ?_⟩
      rw [if_neg Bool.noConfusion, hlast]
      exact (if_pos hpadded).mpr ⟨rfl, rfl, padded_result_add hs hpadded.2.1⟩
    · refine ⟨_, exec_cbcdec_of_bad_pad hs (decryptedPad_of_not_padded hs hpadded), rfl, hinside, houtside, ?_⟩
      rw [if_neg Bool.noConfusion, hlast]
      exact (if_neg hpadded).mpr ⟨rfl, rfl, rfl⟩

end
end Sys2Proof.Machine

/-! ## The system commands (46_system R290 to R292) -/

namespace Sys2Proof.Machine

/-! ### The words of a command without operands (30_encoding R111, R117) -/

section
variable {i : Instr} {w : Word}

/-- An opcode of format Z with a non-zero ARG. -/
theorem decode_zeroField (hz : formatZ i.opcode = some i) (hopc : w.toNat / 2 ^ 24 = i.opcode.toNat)
    (hw : w ≠ encode i) : decode w = .error .illegalCommand := by
  have hopc' : opcodeField w = i.opcode := BitVec.eq_of_toNat_eq ((opcodeField_toNat w).trans hopc)
  obtain ⟨-, hzero, -⟩ := formatZ_sound hz
  have harg : argField w ≠ 0 := fun h0 => hw ((encode_eq_iff i w).2 ⟨hopc'.symm, hzero.trans h0.symm⟩).symm
  rw [decode_of_formatZ (hopc'.symm ▸ hz), if_neg harg]

/-- Such a word is no exception to the error state: CLRERR and SRESET are their exact words (60_exceptions R307). -/
theorem commandWrite_zeroField (hz : formatZ i.opcode = some i) (hopc : w.toNat / 2 ^ 24 = i.opcode.toNat)
    (hw : w ≠ encode i) (s : State) :
    commandWrite w s = if s.status.err then .next s else .next (s.refused .illegalCommand w.toNat) := by
  have hd := decode_zeroField hz hopc hw
  split
  next herr => rw [commandWrite_of_error hd, rejectWord_ignored _ w herr]
  next herr => exact commandWrite_refuses hd (eq_false_of_ne_true herr)

theorem commandWrite_encode (hwf : i.wf = true) (s : State) : commandWrite (encode i) s = exec i s :=
  commandWrite_of_ok (decode_encode hwf) s

end

/-! ### NOP (46_system R290) -/

/-- Accepted and finished, a command that does nothing between changes DONE only. -/
theorem finish_accept (s : State) : finish (accept s) = { s with status := s.doneStatus } := rfl

theorem exec_nop_accepted {s : State} (herr : s.status.err = false) :
    exec .nop s = .next { s with status := s.doneStatus } :=
  congrArg Host.Outcome.next ((runCommand_accepted herr).trans (finish_accept s))

theorem exec_nop_ignored {s : State} (herr : s.status.err = true) : exec .nop s = .next s :=
  congrArg Host.Outcome.next (runCommand_ignored herr)

/-- Settles O12. -/
theorem nopRule : Obligations.NopRule := by
  intro s
  refine ⟨exec_nop_accepted, exec_nop_ignored, commandWrite_encode (i := .nop) rfl s, fun w hopc hw herr => ?_⟩
  exact commandWrite_refuses (decode_zeroField (i := .nop) rfl hopc hw) herr

/-! ### CLRERR (46_system R291) -/

/-- CLRERR is accepted in every state, and only the record of the error goes. -/
theorem exec_clrerr (s : State) :
    exec .clrerr s = .next
      { s with status := { done := true, err := false, term := s.status.term, errCode := 0 }, errInfo := 0 } := rfl

/-- With no error recorded there is nothing for CLRERR to clear. -/
theorem clearError_of_no_error {s : State} (herr : s.status.err = false) (hcode : s.status.errCode = 0)
    (hinfo : s.errInfo = 0) :
    clearError s = s := by
  unfold clearError
  rw [← herr, ← hcode, ← hinfo]

theorem exec_clrerr_eq_nop {s : State} (herr : s.status.err = false) (hcode : s.status.errCode = 0)
    (hinfo : s.errInfo = 0) :
    exec .clrerr s = exec .nop s :=
  calc exec .clrerr s
    _ = .next (finish (clearError (accept s))) := rfl
    _ = .next (finish (accept s)) := by rw [clearError_of_no_error (s := accept s) herr hcode hinfo]
    _ = exec .nop s := (exec_nop_accepted herr).symm

/-- Settles O13. -/
theorem clrerrRule : Obligations.ClrerrRule := fun s =>
  ⟨exec_clrerr s, commandWrite_encode (i := .clrerr) rfl s, exec_clrerr_eq_nop, fun _ hopc hw =>
    commandWrite_zeroField (i := .clrerr) rfl hopc hw s⟩

/-! ### SRESET (46_system R292; 70_reset R341) -/

/-- The end of a command shows in STATUS alone. -/
theorem readReg_finish {r : Reg} (hr : r ≠ .status) (s : State) : readReg r (finish s) = readReg r s := by
  cases r
  case status => exact absurd rfl hr
  all_goals rfl

/-- No register shows MEM. -/
theorem readReg_setMem (r : Reg) (m : Memory) (s : State) : readReg r { s with mem := m } = readReg r s := by
  cases r <;> rfl

/-- SRESET leaves the registers a hardware reset leaves, which differs in MEM only. -/
theorem readReg_clearRegisters (r : Reg) (s : State) : readReg r (clearRegisters s) = 0 :=
  (readReg_setMem r (Memory.unspecified s.epoch) (clearRegisters s)).symm.trans (readReg_hardwareReset s r)

/-- After SRESET STATUS has DONE and nothing else. -/
theorem status_word_sreset (s : State) : (finish (clearRegisters s)).status.word = 1 :=
  show ({ Status.zero with done := true } : Status).word = 1 by decide

/-- Settles O14: WIN, NODE and SBOX are those of a hardware reset of the same number. -/
theorem sresetRule : Obligations.SresetRule := by
  intro s
  refine ⟨⟨finish (clearRegisters (accept s)), rfl, ?status, fun r hr => ?registers, rfl, hardwareReset_win_read s,
    hardwareReset_nodeAt s, hardwareReset_sbox s, rfl, rfl, rfl, rfl⟩, commandWrite_encode (i := .sreset) rfl s,
    fun w hopc hw => commandWrite_zeroField (i := .sreset) rfl hopc hw s⟩
  case status => rw [portRead_index]; exact status_word_sreset _
  case registers => rw [portRead_index, readReg_finish hr, readReg_clearRegisters]

end Sys2Proof.Machine

/-! ## Acceptance and the end of a command (60_exceptions R306, R307) -/

namespace Sys2Proof.Machine

section
variable {i : Instr} {s : State} {w : Word}

/-! ### The sticky error state -/

/-- The commands that are accepted in the error state too (46_system R291, R292). -/
def leavesError (i : Instr) : Prop := i = .clrerr ∨ i = .sreset

/-- Every other command is ignored in the error state. -/
theorem exec_ignored (herr : s.status.err = true) (hi : ¬leavesError i) : exec i s = .next s := by
  rcases exec_cases i s with ⟨hclrerr, -⟩ | ⟨hsreset, -⟩ | ⟨body, -, he⟩
  · exact absurd (.inl hclrerr) hi
  · exact absurd (.inr hsreset) hi
  · rw [he, runCommand_ignored herr]

/-- CLRERR and SRESET have one word each (30_encoding R111). -/
theorem leavesError_iff_of_decode (h : decode w = .ok i) :
    leavesError i ↔ w = 0x01000000 ∨ w = 0x02000000 := by
  have hword {j : Instr} (hj : j.wf = true) : i = j ↔ w = encode j := by
    constructor
    · rintro rfl
      obtain ⟨-, hw⟩ := encode_of_decode h
      exact hw.symm
    · rintro rfl
      exact Except.ok.inj (h.symm.trans (decode_encode hj))
  exact or_congr (hword (j := .clrerr) rfl) (hword (j := .sreset) rfl)

theorem commandWrite_ignored (herr : s.status.err = true) (hclrerr : w ≠ 0x01000000) (hsreset : w ≠ 0x02000000) :
    commandWrite w s = .next s := by
  cases hd : decode w with
  | ok i =>
    rw [commandWrite_of_ok hd]
    exact exec_ignored herr fun hi => ((leavesError_iff_of_decode hd).1 hi).elim hclrerr hsreset
  | error e => rw [commandWrite_of_error hd, rejectWord_ignored e w herr]

/-! ### An accepted command ends with DONE or ERR -/

/-- Exactly one of DONE and ERR is set. -/
def State.ended (t : State) : Prop :=
  (t.status.done = true ∧ t.status.err = false) ∨ (t.status.done = false ∧ t.status.err = true)

/-- The body of a command leaves DONE and ERR as acceptance left them. -/
theorem CommandEffect.done_err {u : State} (hu : CommandEffect i (accept s) u) :
    u.status.done = false ∧ u.status.err = s.status.err := by
  rw [hu.kept.status]
  exact ⟨rfl, rfl⟩

theorem exec_ended_of_accepted (herr : s.status.err = false) : ∃ t, exec i s = .next t ∧ t.ended := by
  obtain ⟨t, ht⟩ : ∃ t, exec i s = .next t := by
    rcases exec_cases i s with ⟨-, he⟩ | ⟨-, he⟩ | ⟨body, -, he⟩ <;> exact ⟨_, he⟩
  refine ⟨t, ht, ?_⟩
  rcases exec_effect ht with ⟨-, rfl⟩ | ⟨-, rfl⟩ | ⟨hign, -⟩ | ⟨-, u, hu, rfl⟩ | ⟨-, e, info, u, hu, -, rfl⟩
  · exact .inl ⟨rfl, rfl⟩
  · exact .inl ⟨rfl, rfl⟩
  · exact absurd hign (by rw [herr]; decide)
  · exact .inl ⟨rfl, hu.done_err.2.trans herr⟩
  · exact .inr ⟨hu.done_err.1, rfl⟩

theorem exec_ended (h : s.status.err = false ∨ leavesError i) : ∃ t, exec i s = .next t ∧ t.ended := by
  rcases h with herr | rfl | rfl
  · exact exec_ended_of_accepted herr
  · exact ⟨_, rfl, .inl ⟨rfl, rfl⟩⟩
  · exact ⟨_, rfl, .inl ⟨rfl, rfl⟩⟩

/-- A word that does not decode is no exception to the error state, so one that is accepted found no error pending. -/
theorem err_eq_false_of_decode_error {e : DecodeError} (hd : decode w = .error e)
    (h : s.status.err = false ∨ w = 0x01000000 ∨ w = 0x02000000) : s.status.err = false := by
  rcases h with herr | rfl | rfl
  · exact herr
  · cases hd.symm.trans (decode_encode (i := .clrerr) rfl)
  · cases hd.symm.trans (decode_encode (i := .sreset) rfl)

theorem commandWrite_ended (h : s.status.err = false ∨ w = 0x01000000 ∨ w = 0x02000000) :
    ∃ t, commandWrite w s = .next t ∧ t.ended := by
  cases hd : decode w with
  | ok i =>
    rw [commandWrite_of_ok hd]
    exact exec_ended (h.imp_right (leavesError_iff_of_decode hd).2)
  | error e => exact ⟨_, commandWrite_refuses hd (err_eq_false_of_decode_error hd h), .inr ⟨rfl, rfl⟩⟩

end

/-- Settles O6: the ignored words, the accepted ones, and the host's accesses, which do not look at STATUS. -/
theorem commandAcceptance : Obligations.CommandAcceptance := by
  intro s w
  refine ⟨commandWrite_ignored, fun h => ⟨fun i hd => commandWrite_of_ok hd s, fun e hd => ?_, commandWrite_ended h⟩,
    fun r v hr => ⟨portWrite_index hr v s, ?_⟩, fun a b ha => ⟨hostAct_writeMem_inside ha b, hostAct_readMem_inside ha⟩⟩
  · exact commandWrite_refuses hd (err_eq_false_of_decode_error hd h)
  · rw [hostAct, portRead_index]

end Sys2Proof.Machine

/-! ## The errors of every command (60_exceptions R300 to R306) -/

namespace Sys2Proof.Machine

/-! ### Errors of execution

A part of a command that reads and builds raises UnexpectedEndOfStream at the end of the source, or InvalidFormat
with a sub-cause (60_exceptions R301). -/

/-- Less than a unit is left of the source (40_bitreader R143, R150). -/
def BitReader.exhausted (r : BitReader) : Prop :=
  r.pos.toNat ≤ r.endAddr.toNat ∧ r.endAddr.toNat < r.pos.toNat + r.refill.bytes

/-- The part leaves a sound reader, or it stops at the end of the source, or with one of the given sub-causes. -/
inductive Res.StopsWith (causes : List Nat) {α : Type} : Res State α → Prop
  | ok {a : α} {t : State} (h : t.br.sound) : Res.StopsWith causes (.ok a t)
  | runsOut {t : State} (h : t.br.exhausted) :
      Res.StopsWith causes (.raised .unexpectedEndOfStream t.br.pos.toNat t)
  | invalid {cause : Nat} {t : State} (h : cause ∈ causes) : Res.StopsWith causes (.raised .invalidFormat cause t)

theorem Res.StopsWith.bind {causes : List Nat} {α β : Type} {x : Res State α} {f : α → State → Res State β}
    (hx : x.StopsWith causes) (hf : ∀ a t, t.br.sound → (f a t).StopsWith causes) :
    (x.bind f).StopsWith causes := by
  cases hx with
  | ok h => exact hf _ _ h
  | runsOut h => exact .runsOut h
  | invalid h => exact .invalid h

section
variable {causes : List Nat} {t : State}

theorem BitReader.exhausted_atEnd {r : BitReader} (h : r.sound) : r.atEnd.exhausted := by
  have hpos := BitReader.atEnd_pos h
  have hrest := Nat.lt_mul_div_succ (r.endAddr.toNat - r.pos.toNat) r.refill.bytes_pos
  obtain ⟨hle, -⟩ := (BitReader.ahead_atEnd h).sound
  refine ⟨hle, ?_⟩
  show r.endAddr.toNat < r.atEnd.pos.toNat + r.refill.bytes
  rw [Nat.mul_add] at hrest
  rw [hpos, BitReader.unitsLeft]
  omega

/-- A field is read, or the source has too few bits. -/
theorem getBits_stops (n : Nat) (h : t.br.sound) : (getBits n t).StopsWith causes := by
  unfold getBits
  rcases Nat.eq_zero_or_pos n with rfl | hn
  · exact .ok h
  · rcases Nat.lt_or_ge (t.br.bits t.mem).length n with hfew | henough
    · rw [BitReader.getBits_of_few h hfew]
      exact .runsOut (t := { t with br := t.br.atEnd }) (BitReader.exhausted_atEnd h)
    · obtain ⟨v, q, hq, hread⟩ := BitReader.getBits_of_enough h hn henough
      obtain ⟨j, hj⟩ := hread.ahead
      rw [hq]
      exact .ok hj.sound

theorem readField_stops (n : Nat) (h : t.br.sound) : (readField n t).StopsWith causes :=
  (getBits_stops n h).bind fun _ _ h => .ok h

theorem readByte_stops (h : t.br.sound) : (readByte t).StopsWith causes := by
  rcases readByte_cases t with ⟨hlt, he⟩ | ⟨hend, he⟩ <;> rw [he]
  · exact .ok (BitReader.later_skip (n := 1) h hlt).sound
  · obtain ⟨hpos, -⟩ := h
    exact .runsOut ⟨hpos, hend.trans_lt (Nat.lt_add_of_pos_right t.br.refill.bytes_pos)⟩

/-! ### LZDEC raises UnexpectedEndOfStream only (41_lz R173, R174) -/

theorem readBytes_stops (n : Nat) (h : t.br.sound) : (readBytes n t).StopsWith causes := by
  induction n generalizing t with
  | zero => exact .ok h
  | succ n ih => exact (readByte_stops h).bind fun _ _ h => (ih h).bind fun _ _ h => .ok h

theorem lzLiteral_stops (h : t.br.sound) : (lzLiteral t).StopsWith causes := by
  unfold lzLiteral
  split
  · exact readByte_stops h
  · exact (getBits_stops 8 h).bind fun _ _ h => .ok h

theorem lzPairShared_stops (h : t.br.sound) : (lzPairShared t).StopsWith causes := by
  refine (getBits_stops _ h).bind fun off u h => ?_
  split
  · exact .ok h
  · exact (getBits_stops _ h).bind fun _ _ h => .ok h

theorem lzPairInterleaved_stops (h : t.br.sound) : (lzPairInterleaved t).StopsWith causes := by
  refine (readBytes_stops _ h).bind fun v u h => ?_
  dsimp only
  split <;> exact .ok h

/-- A pair that is read ends the stream or is copied; neither touches the reader. -/
theorem lzAnswer_stops (pair : Option (Nat × Nat)) (h : t.br.sound) : (lzAnswer pair t).StopsWith causes := by
  unfold lzAnswer
  split
  · exact .ok h
  · split
    · exact .ok h
    · exact .ok (by rwa [lzCopy_br])

theorem lzReference_stops (h : t.br.sound) : (lzReference t).StopsWith causes := by
  rw [lzReference_eq]
  refine Res.StopsWith.bind ?_ fun pair _ h => lzAnswer_stops pair h
  split
  · exact lzPairInterleaved_stops h
  · exact lzPairShared_stops h

theorem lzToken_stops (h : t.br.sound) : (lzToken t).StopsWith causes := by
  rw [lzToken_eq]
  refine (getBits_stops 1 h).bind fun c u h => ?_
  split
  · exact (lzLiteral_stops h).bind fun _ _ h => .ok h
  · exact lzReference_stops h

theorem lzLoop_stops (fuel : Nat) (h : t.br.sound) : (lzLoop fuel t).StopsWith causes := by
  induction fuel generalizing t with
  | zero => exact .ok h
  | succ fuel ih =>
    rw [lzLoop_succ]
    split
    · refine (lzToken_stops h).bind fun more u h => ?_
      split
      · exact ih h
      · exact .ok h
    · exact .ok h

/-! ### The builders raise InvalidFormat 1 and 2 (42_huffman R192, R199) -/

theorem alloc_stops (hfull : 1 ∈ causes) (h : t.br.sound) : (alloc t).StopsWith causes := by
  rcases alloc_cases t with ⟨_, he⟩ | ⟨-, he⟩ <;> rw [he]
  · exact .ok h
  · exact .invalid hfull

theorem buildNode_stops (hfull : 1 ∈ causes) (fuel : Nat) (h : t.br.sound) :
    (buildNode fuel t).StopsWith causes := by
  induction fuel generalizing t with
  | zero => exact .invalid hfull
  | succ fuel ih =>
    refine (alloc_stops hfull h).bind fun i u h => (getBits_stops 1 h).bind fun b u h => ?_
    split
    · exact (ih h).bind fun l u h => (ih (t := editNode i _ u) h).bind fun r u h => .ok h
    · exact (getBits_stops (t := editNode i _ u) 8 h).bind fun _ _ h => .ok h

theorem buildTree_stops (hfull : 1 ∈ causes) (h : t.br.sound) : (buildTree t).StopsWith causes :=
  (buildNode_stops (t := clearTree t) hfull 1024 h).bind fun _ _ h => .ok h

theorem childOrAlloc_stops (hfull : 1 ∈ causes) (n : Fin 1023) (bit : Bool) (h : t.br.sound) :
    (childOrAlloc n bit t).StopsWith causes := by
  unfold childOrAlloc
  split
  · exact .ok h
  · exact (alloc_stops hfull h).bind fun _ _ h => .ok h

theorem insertPath_stops (hfull : 1 ∈ causes) (code len : Nat) (n : Fin 1023) (h : t.br.sound) :
    (insertPath code len n t).StopsWith causes := by
  induction len generalizing n t with
  | zero => exact .ok h
  | succ len ih => exact (childOrAlloc_stops hfull n _ h).bind fun c _ h => ih c h

theorem insertCode_stops (hfull : 1 ∈ causes) (code len : Nat) (sym : BitVec 9) (h : t.br.sound) :
    (insertCode code len sym t).StopsWith causes :=
  (insertPath_stops hfull code len 0 h).bind fun _ _ h => .ok h

theorem readLengths_stops (lenBits count sym : Nat) (h : t.br.sound) :
    (readLengths lenBits count sym t).StopsWith causes := by
  induction count generalizing sym t with
  | zero => exact .ok h
  | succ count ih => exact (getBits_stops lenBits h).bind fun _ _ h => (ih _ h).bind fun _ _ h => .ok h

theorem canonSymbols_stops (hfull : 1 ∈ causes) (hover : 2 ∈ causes) (len : Nat) (table : List (Nat × Nat))
    (code : Nat) (h : t.br.sound) : (canonSymbols len table code t).StopsWith causes := by
  induction table generalizing code t with
  | nil => exact .ok h
  | cons entry table ih =>
    unfold canonSymbols
    split
    · split
      · exact .invalid hover
      · exact (insertCode_stops hfull _ _ _ h).bind fun _ _ h => ih _ h
    · exact ih _ h

theorem canonLengths_stops (hfull : 1 ∈ causes) (hover : 2 ∈ causes) (table : List (Nat × Nat)) (lens : List Nat)
    (code : Nat) (h : t.br.sound) : (canonLengths table lens code t).StopsWith causes := by
  induction lens generalizing code t with
  | nil => exact .ok h
  | cons len lens ih => exact (canonSymbols_stops hfull hover len table code h).bind fun _ _ h => ih _ h

theorem buildCanon_stops (hfull : 1 ∈ causes) (hover : 2 ∈ causes) (h : t.br.sound) :
    (buildCanon t).StopsWith causes :=
  (readLengths_stops (t := clearTree t) _ _ 0 h).bind fun table _ h =>
    (alloc_stops hfull h).bind fun _ _ h =>
      (canonLengths_stops hfull hover table _ 0 h).bind fun _ _ h => .ok h

/-! ### HUFDEC raises InvalidFormat 3 and 4 beside the builders' errors (42_huffman R202, R204 to R207) -/

theorem walkTree_stops (hchild : 3 ∈ causes) (fuel : Nat) (n : Fin 1023) (h : t.br.sound) :
    (walkTree fuel n t).StopsWith causes := by
  induction fuel generalizing n t with
  | zero => exact .ok h
  | succ fuel ih =>
    unfold walkTree
    split
    · exact .ok h
    · refine (getBits_stops 1 h).bind fun b u h => ?_
      split
      · exact .invalid hchild
      · exact ih _ h

theorem rebuildTree_stops (hfull : 1 ∈ causes) (hover : 2 ∈ causes) (h : t.br.sound) :
    (rebuildTree t).StopsWith causes := by
  unfold rebuildTree
  split
  · exact buildTree_stops hfull h
  · exact buildCanon_stops hfull hover h

theorem hufStep_stops (h : t.br.sound) : (hufStep t).StopsWith [1, 2, 3, 4] := by
  refine (walkTree_stops (by decide) _ 0 h).bind fun sym u h => ?_
  split
  · exact rebuildTree_stops (by decide) (by decide) h
  · split
    · exact .invalid (by decide)
    · exact .ok h

theorem hufLoop_stops (fuel : Nat) (h : t.br.sound) : (hufLoop fuel t).StopsWith [1, 2, 3, 4] := by
  induction fuel generalizing t with
  | zero => exact .ok h
  | succ fuel ih =>
    rw [hufLoop_succ]
    split
    · exact (hufStep_stops h).bind fun _ _ h => ih h
    · exact .ok h

end

end Sys2Proof.Machine

/-! ## Every command raises the errors listed for it (60_exceptions R302, R304, R306) -/

namespace Sys2Proof.Machine

/-! ### The list of a command -/

/-- The check of a range fails (20_memory R86). -/
def Range.outside (memBytes : Nat) (r : Range) : Bool := decide (memBytes < r.addr + r.len)

/-- An error listed for a command, with its ERRINFO, raised in the state `u`; `ranges` are those the command checks,
in order. -/
inductive ListedError (i : Instr) (memBytes : Nat) (ranges : List Range) (u : State) : ErrorName → Nat → Prop
  | printed {e : ErrorName} {info : Nat} (h : (e, some info) ∈ listedErrors i) : ListedError i memBytes ranges u e info
  | outside {r : Range} (h : (.accessFault, none) ∈ listedErrors i)
      (hr : ranges.find? (Range.outside memBytes) = some r) :
      ListedError i memBytes ranges u .accessFault (max r.addr memBytes)
  | runsOut (h : (.unexpectedEndOfStream, none) ∈ listedErrors i) (hu : u.br.exhausted) :
      ListedError i memBytes ranges u .unexpectedEndOfStream u.br.pos.toNat

/-- A part of a command raises listed errors only. -/
def Res.Listed {α : Type} (i : Instr) (memBytes : Nat) (ranges : List Range) : Res State α → Prop
  | .ok _ _ => True
  | .raised e info u => ListedError i memBytes ranges u e info

/-- Start-up checks that raise listed errors: those of the given ranges, in order, AccessFault, and every other one an
error printed with its ERRINFO. -/
inductive ChecksListed (i : Instr) (s : State) : List Check → List Range → Prop
  | nil : ChecksListed i s [] []
  | printed {pass : Bool} {e : ErrorName} {info : Nat} {cs : List Check} {ranges : List Range}
      (h : (e, some info) ∈ listedErrors i) (hcs : ChecksListed i s cs ranges) :
      ChecksListed i s (⟨pass, e, info⟩ :: cs) ranges
  | range {r : Range} {cs : List Check} {ranges : List Range} (h : (.accessFault, none) ∈ listedErrors i)
      (hcs : ChecksListed i s cs ranges) : ChecksListed i s (inMem r s :: cs) (r :: ranges)

section
variable {i : Instr} {s : State}

/-- A range inside MEM is not the first one outside. -/
theorem ListedError.of_inside {memBytes info : Nat} {ranges : List Range} {u : State} {e : ErrorName} {r : Range}
    (h : ListedError i memBytes ranges u e info) (hr : ¬Range.outside memBytes r = true) :
    ListedError i memBytes (r :: ranges) u e info := by
  cases h with
  | printed h => exact .printed h
  | outside h hfind => exact .outside h ((List.find?_cons_of_neg hr).trans hfind)
  | runsOut h hu => exact .runsOut h hu

/-- The check of a range fails where the range is outside MEM. -/
theorem inMem_pass_iff_not_outside (r : Range) (s : State) :
    (inMem r s).pass = true ↔ ¬Range.outside s.memBytes r = true :=
  (inMem_pass_iff r s).trans (not_congr decide_eq_true_iff.symm)

/-- The first check that fails raises a listed error; if it is that of a range, the ranges before it are inside MEM. -/
theorem ChecksListed.listedError {cs : List Check} {ranges : List Range} (h : ChecksListed i s cs ranges) {c : Check}
    (hc : firstFailure cs = some c) (u : State) : ListedError i s.memBytes ranges u c.err c.info := by
  induction h with
  | nil => cases hc
  | printed hlisted _ ih =>
    rw [firstFailure_cons] at hc
    split at hc
    next => exact ih hc
    next => cases hc; exact .printed hlisted
  | @range r _ _ hlisted _ ih =>
    have hpass := inMem_pass_iff_not_outside r s
    rw [firstFailure_cons] at hc
    split at hc
    next hin => exact (ih hc).of_inside (hpass.1 hin)
    next hout => cases hc; exact .outside hlisted (List.find?_cons_of_pos (not_not.1 (mt hpass.2 hout)))

theorem withChecks_listed {checks : State → List Check} {body : State → Res State Unit} {ranges : List Range}
    (hchecks : ChecksListed i s (checks s) ranges)
    (hbody : (∀ c ∈ checks s, c.pass = true) → (body s).Listed i s.memBytes ranges) :
    (withChecks checks body s).Listed i s.memBytes ranges := by
  rcases withChecks_cases checks body s with ⟨c, hc, -, -, h⟩ | ⟨hpass, h⟩ <;> rw [h]
  · exact hchecks.listedError hc s
  · exact hbody hpass

/-- The errors of execution of a command that lists them. -/
theorem Res.StopsWith.listed {causes : List Nat} {x : Res State Unit} (h : x.StopsWith causes) {memBytes : Nat}
    {ranges : List Range} (hend : (.unexpectedEndOfStream, none) ∈ listedErrors i)
    (hcauses : ∀ cause ∈ causes, (.invalidFormat, some cause) ∈ listedErrors i) : x.Listed i memBytes ranges := by
  cases h with
  | ok _ => trivial
  | runsOut h => exact .runsOut hend h
  | invalid h => exact .printed (hcauses _ h)

/-! ### The commands -/

/-- A command that has found the reader valid reads from a sound one (10_state R41). -/
theorem sound_of_checks {checks : List Check} (hreader : s.readerOk)
    (hpass : ∀ c ∈ readerReady s :: checks, c.pass = true) : s.br.sound := by
  have hvalid : s.br.valid = true := hpass (readerReady s) (.head _)
  obtain ⟨hsound, -⟩ := s.readerOk_iff.1 hreader hvalid
  exact hsound

theorem brinit_listed (s : State) :
    (withChecks brinitChecks brinitBody s).Listed .brinit s.memBytes (checkedRanges .brinit s) := by
  refine withChecks_listed (.printed (by decide) <| .range (by decide) .nil) fun _ => ?_
  unfold brinitBody
  split
  · trivial
  · exact .printed (by decide)

/-- GETBITS and GETBIT. -/
theorem readField_listed (hreader : s.readerOk) (n : Nat) (hnotReady : (.notReady, some 0x44) ∈ listedErrors i)
    (hend : (.unexpectedEndOfStream, none) ∈ listedErrors i) :
    (withChecks readerChecks (readField n) s).Listed i s.memBytes [] :=
  withChecks_listed (.printed hnotReady .nil) fun hpass =>
    (readField_stops (causes := []) n (sound_of_checks hreader hpass)).listed hend nofun

theorem lzdec_listed (hreader : s.readerOk) :
    (withChecks lzdecChecks lzdecBody s).Listed .lzdec s.memBytes (checkedRanges .lzdec s) :=
  withChecks_listed
    (.printed (by decide) <| .printed (by decide) <| .printed (by decide) <| .range (by decide) <|
      .printed (by decide) .nil)
    fun hpass => (lzLoop_stops (causes := []) (t := lzInit s) _ (sound_of_checks hreader hpass)).listed (by decide) nofun

theorem huftree_listed (hreader : s.readerOk) :
    (withChecks readerChecks buildTree s).Listed .huftree s.memBytes (checkedRanges .huftree s) :=
  withChecks_listed (.printed (by decide) .nil) fun hpass =>
    (buildTree_stops (causes := [1]) (by decide) (sound_of_checks hreader hpass)).listed (by decide) (by decide)

theorem hufcanon_listed (hreader : s.readerOk) :
    (withChecks hufcanonChecks buildCanon s).Listed .hufcanon s.memBytes (checkedRanges .hufcanon s) :=
  withChecks_listed (.printed (by decide) <| .printed (by decide) .nil) fun hpass =>
    (buildCanon_stops (causes := [1, 2]) (by decide) (by decide) (sound_of_checks hreader hpass)).listed
      (by decide) (by decide)

theorem hufdec_listed (hreader : s.readerOk) :
    (withChecks hufdecChecks hufdecBody s).Listed .hufdec s.memBytes (checkedRanges .hufdec s) :=
  withChecks_listed
    (.printed (by decide) <| .printed (by decide) <| .printed (by decide) <| .range (by decide) <|
      .printed (by decide) .nil)
    fun hpass =>
      (hufLoop_stops (t := { s with outLen := 0 }) _ (sound_of_checks hreader hpass)).listed (by decide) (by decide)

theorem xorkey_listed (s : State) :
    (withChecks xorkeyChecks xorkeyBody s).Listed .xorkey s.memBytes (checkedRanges .xorkey s) :=
  withChecks_listed
    (.printed (by decide) <| .range (by decide) <| .range (by decide) <| .printed (by decide) .nil) fun _ => trivial

theorem cbcdec_listed (p : Bool) (s : State) :
    (withChecks (cbcdecChecks p) (cbcdecBody p) s).Listed (.cbcdec p) s.memBytes (checkedRanges (.cbcdec p) s) := by
  have hscheme : (.unknownScheme, some (cbcdecWord p)) ∈ listedErrors (.cbcdec p) := by cases p <;> decide
  have hrange : (.accessFault, none) ∈ listedErrors (.cbcdec p) := by simp [listedErrors]
  have hkey : (.badConfig, some (Reg.offset .keyAddr)) ∈ listedErrors (.cbcdec p) := by cases p <;> decide
  have hiv : (.badConfig, some (Reg.offset .ivAddr)) ∈ listedErrors (.cbcdec p) := by cases p <;> decide
  have hlen : (.invalidFormat, some 5) ∈ listedErrors (.cbcdec p) := by simp [listedErrors]
  have hpad : (.invalidFormat, some 6) ∈ listedErrors (.cbcdec p) := by simp [listedErrors]
  refine withChecks_listed
    (.printed hscheme <| .range hrange <| .range hrange <| .range hrange <| .printed hkey <| .printed hiv <|
      .printed hlen <| .printed hlen .nil) fun _ => ?_
  rcases cbcdecBody_cases p s with ⟨v, h⟩ | h <;> rw [h]
  · trivial
  · exact .printed hpad

/-- Every body raises the errors listed for its command (60_exceptions R302). -/
theorem ordinaryBody_listed {body : State → Res State Unit} (h : ordinaryBody i = some body) (hwf : i.wf = true)
    (hreader : s.readerOk) : (body s).Listed i s.memBytes (checkedRanges i s) := by
  cases i <;> cases h
  case nop => trivial
  case brinit => exact brinit_listed s
  case getbits n =>
    have hlegal : Instr.legalCount n = true := hwf
    simp only [hlegal, if_true]
    exact readField_listed hreader _ (by simp [listedErrors]) (by simp [listedErrors])
  case getbit => exact readField_listed hreader 1 (by decide) (by decide)
  case lzdec => exact lzdec_listed (s := setTerm false s) hreader
  case huftree => exact huftree_listed hreader
  case hufcanon => exact hufcanon_listed hreader
  case hufdec => exact hufdec_listed hreader
  case xorkey => exact xorkey_listed s
  case xorprng => exact withChecks_listed (.printed (by decide) <| .range (by decide) .nil) fun _ => trivial
  case subload => exact withChecks_listed (.range (by decide) .nil) fun _ => trivial
  case subgen => trivial
  case subswap => exact withChecks_listed (.printed (by decide) <| .range (by decide) .nil) fun _ => trivial
  case subtriple => exact withChecks_listed (.printed (by decide) .nil) fun _ => trivial
  case subapply => exact withChecks_listed (.printed (by decide) <| .range (by decide) .nil) fun _ => trivial
  case substore =>
    exact withChecks_listed (.printed (by decide) <| .printed (by decide) <| .range (by decide) .nil) fun _ => trivial
  case cbcdec p => exact cbcdec_listed p s

/-! ### STATUS after an error (60_exceptions R300, R306) -/

/-- TERM is left alone by an error, but LZDEC has cleared it before (41_lz R163). -/
theorem ordinaryBody_raised_term {body : State → Res State Unit} (h : ordinaryBody i = some body) {e : ErrorName}
    {info : Nat} {u : State} (hraised : body s = .raised e info u) :
    u.status.term = if i = .lzdec then false else s.status.term := by
  split
  next hi =>
    subst hi
    cases h
    rcases withChecks_cases lzdecChecks lzdecBody (setTerm false s) with ⟨c, -, -, -, hc⟩ | ⟨-, hrun⟩
    · cases hc.symm.trans hraised
      rfl
    · have hend : LzEnd (fun _ t => t.status = (setTerm false s).status) (lzdecBody (setTerm false s)) :=
        lzLoop_end (lzKept_status _) rfl
      obtain ⟨-, hstatus⟩ := hend.of_raised (hrun.symm.trans hraised)
      rw [hstatus, setTerm_status]
  next hi =>
    have heffects := ordinaryBody_effects h s
    rw [hraised] at heffects
    obtain ⟨heffect, -⟩ := heffects
    have hterm : Piece.term ∉ writtenPieces i := by
      cases i
      case lzdec => exact absurd rfl hi
      case sreset => cases h
      all_goals simp [writtenPieces]
    exact heffect.same .term hterm

/-- The STATUS word of an error: the code, ERR, and TERM as it stands (10_state R27). -/
theorem errStatus_word (e : ErrorName) (u : State) :
    (u.errStatus e).word.toNat = 2 ^ 8 * e.code.toNat + 2 + if u.status.term then 4 else 0 := by
  unfold State.errStatus
  cases u.status.term <;> cases e <;> rfl

/-- Where a command that was accepted has ended with ERR, its body has raised. -/
theorem exec_raised {t : State} (herr : s.status.err = false) (h : exec i s = .next t) (ht : t.status.err = true) :
    ∃ body e info u, ordinaryBody i = some body ∧ body (accept s) = .raised e info u ∧ t = raiseError e info u := by
  rcases exec_cases i s with ⟨-, he⟩ | ⟨-, he⟩ | ⟨body, hbody, he⟩ <;> cases he.symm.trans h
  · cases ht
  · cases ht
  · rcases runCommand_cases body s with ⟨hign, -⟩ | ⟨-, u, hu, hrun⟩ | ⟨-, e, info, u, hu, hrun⟩
    · exact absurd hign (by rw [herr]; decide)
    · have heffect := ordinaryBody_effects hbody (accept s)
      rw [hu] at heffect
      rw [hrun] at ht
      exact absurd (heffect.done_err.2.symm.trans ht) (by rw [herr]; decide)
    · exact ⟨body, e, info, u, hbody, hu, hrun⟩

/-- The body of a command leaves DONE 0, so STATUS after an error is the error's. -/
theorem raiseError_errStatus {u : State} (hu : CommandEffect i (accept s) u) (e : ErrorName) (info : Nat) :
    (raiseError e info u).status = u.errStatus e := by
  obtain ⟨hdone, -⟩ := hu.done_err
  show Status.mk u.status.done true u.status.term e.code = Status.mk false true u.status.term e.code
  rw [hdone]

/-! ### ERRINFO (60_exceptions R301) -/

/-- An error printed with its ERRINFO is neither of the two whose ERRINFO is an address, and the value fits ERRINFO. -/
theorem listedErrors_printed (i : Instr) :
    ∀ p ∈ listedErrors i, p.2 = none
      ∨ (p.1 ≠ .unexpectedEndOfStream ∧ p.1 ≠ .accessFault ∧ p.2.getD 0 < 2 ^ 32) := by
  cases i
  case getbits n => revert n; decide
  case cbcdec p => revert p; decide
  all_goals decide

/-- A range begins at the value of a register. -/
theorem checkedRanges_addr_lt (i : Instr) (s : State) : ∀ r ∈ checkedRanges i s, r.addr < 2 ^ 32 := by
  have hsource : s.sourceRange.addr < 2 ^ 32 := s.regs.srcAddr.isLt
  have hout : s.outRange.addr < 2 ^ 32 := s.regs.outAddr.isLt
  have hstore : s.storeRange.addr < 2 ^ 32 := s.regs.outAddr.isLt
  have hbuf : s.bufRange.addr < 2 ^ 32 := s.regs.bufAddr.isLt
  have hkey : s.keyRange.addr < 2 ^ 32 := s.regs.keyAddr.isLt
  have htable : s.tableRange.addr < 2 ^ 32 := s.regs.keyAddr.isLt
  have hiv : s.ivRange.addr < 2 ^ 32 := s.regs.ivAddr.isLt
  cases i <;> simp only [checkedRanges, List.forall_mem_cons, List.not_mem_nil, false_implies, implies_true, and_true]
  case brinit => exact hsource
  case lzdec | hufdec => exact hout
  case xorkey => exact ⟨hbuf, hkey⟩
  case xorprng | subapply => exact hbuf
  case subload => exact htable
  case subswap => exact hkey
  case substore => exact hstore
  case cbcdec => exact ⟨hbuf, hkey, hiv⟩

theorem checkedRanges_accept (i : Instr) (s : State) : checkedRanges i (accept s) = checkedRanges i s := by
  cases i <;> rfl

/-- What a listed error records. -/
structure ErrorRecord (i : Instr) (s u : State) (e : ErrorName) (info : Nat) : Prop where
  listed : ∃ printed, (e, printed) ∈ listedErrors i ∧ ∀ v, printed = some v → info = v
  runsOut : e = .unexpectedEndOfStream → info = u.br.pos.toNat ∧ u.br.exhausted
  outside : e = .accessFault →
    ∃ r, (checkedRanges i s).find? (Range.outside s.memBytes) = some r ∧ info = max r.addr s.memBytes
  fits : info < 2 ^ 32

theorem ListedError.record {u : State} {e : ErrorName} {info : Nat}
    (h : ListedError i s.memBytes (checkedRanges i s) u e info) (hmem : s.memBytes ≤ 2 ^ 31) :
    ErrorRecord i s u e info := by
  cases h with
  | printed h =>
    obtain hnone | ⟨hend, hfault, hlt⟩ := listedErrors_printed i _ h
    · cases hnone
    · exact ⟨⟨_, h, fun _ hv => Option.some.inj hv⟩, fun he => absurd he hend, fun he => absurd he hfault, hlt⟩
  | @outside r h hr =>
    have haddr := checkedRanges_addr_lt i s r (List.mem_of_find?_eq_some hr)
    exact ⟨⟨none, h, nofun⟩, nofun, fun _ => ⟨r, hr, rfl⟩, by omega⟩
  | runsOut h hu => exact ⟨⟨none, h, nofun⟩, fun _ => ⟨rfl, hu⟩, nofun, u.br.pos.isLt⟩

end

/-- Settles O15: the body has raised (`exec_raised`) an error listed for its command (`ordinaryBody_listed`), and
recording it changes STATUS and ERRINFO alone. -/
theorem errorsAreThoseListed : Obligations.ErrorsAreThoseListed := by
  intro i s t hwf hmem hreader herr hexec ht
  obtain ⟨body, e, info, u, hbody, hraised, rfl⟩ := exec_raised herr hexec ht
  have heffects := ordinaryBody_effects hbody (accept s)
  have hlisted := ordinaryBody_listed (s := accept s) hbody hwf hreader
  rw [hraised] at heffects hlisted
  rw [checkedRanges_accept] at hlisted
  obtain ⟨hu, -⟩ := heffects
  obtain ⟨⟨printed, hmember, hprinted⟩, hrunsOut, houtside, hfits⟩  := ListedError.record (s := s) hlisted hmem
  have hinfo : (raiseError e info u).errInfo.toNat = info := by
    rw [raiseError_errInfo, BitVec.toNat_ofNat, Nat.mod_eq_of_lt hfits]
  have hterm : u.status.term = if i = .lzdec then false else s.status.term :=
    ordinaryBody_raised_term (s := accept s) hbody hraised
  refine ⟨e, printed, hmember, ?word, hterm, fun v hv => hinfo.trans (hprinted v hv),
    fun he => ?runsOut, fun he => ?outside⟩
  case word =>
    rw [portRead_index]
    show (raiseError e info u).status.word.toNat = _
    rw [raiseError_errStatus hu, errStatus_word]
    rfl
  case runsOut =>
    obtain ⟨hpos, hle, hlt⟩ := hrunsOut he
    have hpos' := hinfo.trans hpos
    exact ⟨BitVec.eq_of_toNat_eq hpos', hpos' ▸ hlt, hpos'.trans_le hle⟩
  case outside =>
    obtain ⟨r, hr, hmax⟩ := houtside he
    exact ⟨r, hr, hinfo.trans hmax⟩

end Sys2Proof.Machine

/-! ## A host write to the source: read ahead or not (70_reset R346; 40_bitreader R152) -/

namespace Sys2Proof.Machine

/-! ### The bytes of the sequence -/

/-- The byte of the unread units whose bits come `i`-th, as a distance from BR_POS: in its own unit in address order
where the bit order meets the byte order, or in reverse (40_bitreader R152). -/
def BitReader.byteAt (r : BitReader) (i : Nat) : Nat :=
  let w := r.refill.bytes
  w * (i / w) + if r.order = .msbFirst ↔ r.bigEndian = true then i % w else w - 1 - i % w

section
variable {m : Memory} {r : BitReader} {a n i j k : Nat}

theorem BitReader.bitsBefore_eq (r : BitReader) (a : Nat) :
    r.bitsBefore a = r.cnt.toNat + 8 * r.byteAt (a - r.pos.toNat) := rfl

theorem BitReader.byteAt_of_match (h : r.order = .msbFirst ↔ r.bigEndian = true) (i : Nat) : r.byteAt i = i := by
  rw [BitReader.byteAt, if_pos h, Nat.div_add_mod]

theorem BitReader.byteAt_of_mismatch (h : ¬(r.order = .msbFirst ↔ r.bigEndian = true)) (hk : k < r.refill.bytes) :
    r.byteAt (r.refill.bytes * j + k) = r.refill.bytes * j + (r.refill.bytes - 1 - k) := by
  rw [BitReader.byteAt, if_neg h, Nat.mul_add_div r.refill.bytes_pos, Nat.div_eq_of_lt hk, Nat.add_zero,
    Nat.mul_add_mod, Nat.mod_eq_of_lt hk]

/-- The place of a byte's bits and the byte at a place are one function. -/
theorem BitReader.byteAt_byteAt (r : BitReader) (i : Nat) : r.byteAt (r.byteAt i) = i := by
  by_cases h : r.order = .msbFirst ↔ r.bigEndian = true
  · rw [BitReader.byteAt_of_match h, BitReader.byteAt_of_match h]
  · have hk := Nat.mod_lt i r.refill.bytes_pos
    have hi := Nat.div_add_mod i r.refill.bytes
    rw [← hi, BitReader.byteAt_of_mismatch h hk, BitReader.byteAt_of_mismatch h (by omega)]
    omega

/-- A byte stays in its unit. -/
theorem BitReader.byteAt_lt (hi : i < r.refill.bytes * n) : r.byteAt i < r.refill.bytes * n := by
  by_cases h : r.order = .msbFirst ↔ r.bigEndian = true
  · rwa [BitReader.byteAt_of_match h]
  · have hk := Nat.mod_lt i r.refill.bytes_pos
    have hunit : r.refill.bytes * (i / r.refill.bytes + 1) ≤ r.refill.bytes * n :=
      Nat.mul_le_mul_left _ (Nat.div_lt_of_lt_mul hi)
    rw [← Nat.div_add_mod i r.refill.bytes, BitReader.byteAt_of_mismatch h hk]
    rw [Nat.mul_succ] at hunit
    omega

/-- The bits that come `i`-th of the bytes from address `a` on. -/
def BitReader.byteBits (r : BitReader) (m : Memory) (a i : Nat) : List Bool :=
  fieldBits r.order 8 (m.read (a + r.byteAt i)).toNat

theorem BitReader.length_byteBits (r : BitReader) (m : Memory) (a i : Nat) : (r.byteBits m a i).length = 8 :=
  length_fieldBits r.order 8 _

/-- The bits of whole units are those of their bytes. -/
theorem BitReader.unitBits_eq_bytes (r : BitReader) (m : Memory) (a n : Nat) :
    r.unitBits m a n = (List.range (r.refill.bytes * n)).flatMap (r.byteBits m a) := by
  rw [← flatMap_range_mul]
  refine List.flatMap_congr fun j _ => ?_
  rw [BitReader.unitAt_eq]
  by_cases h : r.order = .msbFirst ↔ r.bigEndian = true
  · simp only [fieldBits_readUnit_of_match h, BitReader.byteBits, BitReader.byteAt_of_match h, Nat.add_assoc]
  · rw [fieldBits_readUnit_of_mismatch h]
    refine List.flatMap_congr fun k hk => ?_
    rw [BitReader.byteBits, BitReader.byteAt_of_mismatch h (List.mem_range.1 hk), Nat.add_assoc]

/-- A write to the byte at one place changes the bits of that place alone. -/
theorem BitReader.byteBits_write (r : BitReader) (m : Memory) (a i j : Nat) (b : Byte) :
    r.byteBits (m.write (a + r.byteAt i) b) a j =
      if j = i then fieldBits r.order 8 b.toNat else r.byteBits m a j := by
  unfold BitReader.byteBits
  split
  next hj => rw [hj, Memory.read_write_same]
  next hj =>
    have hne : r.byteAt j ≠ r.byteAt i := fun he => hj (by
      rw [← BitReader.byteAt_byteAt r j, he, BitReader.byteAt_byteAt])
    rw [Memory.read_write_other m b (by omega)]

/-- A list over `n` indices, cut around the run of one of them. -/
theorem flatMap_range_split {α : Type} (f : Nat → List α) (h : i < n) :
    (List.range n).flatMap f =
      (List.range i).flatMap f ++ f i ++ (List.range' (i + 1) (n - (i + 1))).flatMap f := by
  have hsplit : List.range n = List.range (i + 1) ++ List.range' (i + 1) (n - (i + 1)) := by
    have happend := List.range'_append_1 (s := 0) (m := i + 1) (n := n - (i + 1))
    rw [Nat.zero_add, Nat.add_sub_cancel' h] at happend
    rw [List.range_eq_range', List.range_eq_range', happend]
  rw [hsplit, List.flatMap_append, List.range_succ, List.flatMap_append, List.flatMap_singleton]

/-- The same where another list of runs differs at that index alone. -/
theorem flatMap_range_replace {α : Type} {f g : Nat → List α} (h : i < n) (hfg : ∀ j, j ≠ i → g j = f j) :
    (List.range n).flatMap g =
      (List.range i).flatMap f ++ g i ++ (List.range' (i + 1) (n - (i + 1))).flatMap f := by
  have hbefore : (List.range i).flatMap g = (List.range i).flatMap f :=
    List.flatMap_congr fun j hj => hfg j (List.mem_range.1 hj).ne
  have hbehind : (List.range' (i + 1) (n - (i + 1))).flatMap g = (List.range' (i + 1) (n - (i + 1))).flatMap f :=
    List.flatMap_congr fun j hj => hfg j (by obtain ⟨hlt, -⟩ := List.mem_range'_1.1 hj; omega)
  rw [flatMap_range_split g h, hbefore, hbehind]

/-- The bits of a byte in a unit not yet read stand in the sequence at their place; a write to that byte changes them
and no other. -/
theorem BitReader.bits_write (hlo : r.pos.toNat ≤ a) (hhi : a < r.pos.toNat + r.refill.bytes * r.unitsLeft)
    (m : Memory) (b : Byte) :
    ∃ before behind, before.length = r.bitsBefore a
      ∧ r.bits m = before ++ fieldBits r.order 8 (m.read a).toNat ++ behind
      ∧ r.bits (m.write a b) = before ++ fieldBits r.order 8 b.toNat ++ behind := by
  obtain ⟨i, hi, rfl⟩ : ∃ i, i < r.refill.bytes * r.unitsLeft ∧ a = r.pos.toNat + r.byteAt i :=
    ⟨r.byteAt (a - r.pos.toNat), BitReader.byteAt_lt (by omega), by rw [BitReader.byteAt_byteAt]; omega⟩
  have hwritten := flatMap_range_replace (f := r.byteBits m r.pos.toNat) hi fun j hj =>
    (r.byteBits_write m r.pos.toNat i j b).trans (if_neg hj)
  rw [BitReader.byteBits_write, if_pos rfl] at hwritten
  refine ⟨fieldBits r.order r.cnt.toNat r.acc.toNat ++ (List.range i).flatMap (r.byteBits m r.pos.toNat),
    (List.range' (i + 1) (r.refill.bytes * r.unitsLeft - (i + 1))).flatMap (r.byteBits m r.pos.toNat), ?_, ?_, ?_⟩
  · rw [BitReader.bitsBefore_eq, Nat.add_sub_cancel_left, BitReader.byteAt_byteAt]
    simp [length_fieldBits, BitReader.length_byteBits, List.length_flatMap, Nat.mul_comm]
  · rw [BitReader.bits_eq, BitReader.unitBits_eq_bytes, flatMap_range_split _ hi]
    simp only [BitReader.byteBits, List.append_assoc]
  · rw [BitReader.bits_eq, BitReader.unitBits_eq_bytes, hwritten]
    simp only [List.append_assoc]

/-- A write outside the units not yet read changes no bit of the sequence. -/
theorem BitReader.bits_write_outside
    (h : a < r.pos.toNat ∨ r.pos.toNat + r.refill.bytes * r.unitsLeft ≤ a) (m : Memory) (b : Byte) :
    r.bits (m.write a b) = r.bits m := by
  rw [BitReader.bits_eq, BitReader.bits_eq,
    BitReader.unitBits_congr fun c h1 h2 => Memory.read_write_other m b (by omega)]

end

/-! ### GETBITS over another memory -/

/-- How many bits are left depends on the reader alone. -/
theorem State.length_stream (t : State) : t.stream.length = t.br.cnt.toNat + 8 * t.br.refill.bytes * t.br.unitsLeft :=
  t.br.length_bits t.mem

/-- Where GetBits reads the same, GETBITS does the same. -/
theorem exec_getbits_setMem {s t : State} {m : Memory} (hs : s.CanRead)
    (hread : ∀ n, s.br.getBits m n = s.br.getBits s.mem n) (n : BitVec 6) (h : exec (.getbits n) s = .next t) :
    exec (.getbits n) { s with mem := m } = .next { t with mem := m } := by
  have hu : ({ s with mem := m } : State).CanRead := ⟨hs.accepted, hs.valid, hs.sound⟩
  by_cases hn : 1 ≤ n.toNat ∧ n.toNat ≤ 32
  · rw [exec_getbits_of_canRead hs hn] at h
    obtain rfl := Host.Outcome.next.inj h
    rw [exec_getbits_of_canRead hu hn, readField, readField, getBits, getBits]
    simp only [accept_br, accept_mem, hread]
    cases s.br.getBits s.mem n.toNat <;> rfl
  · rw [exec_getbits_of_illegal hs.accepted (by omega)] at h
    obtain rfl := Host.Outcome.next.inj h
    rw [exec_getbits_of_illegal hu.accepted (by omega)]
    rfl

/-- A list with a part of it replaced, in the words of the claim. -/
theorem append_replace_eq_take_drop {α : Type} {before old new behind : List α} :
    before ++ new ++ behind =
      (before ++ old ++ behind).take before.length ++ new ++
        (before ++ old ++ behind).drop (before.length + old.length) := by
  rw [List.append_assoc before old, List.take_left' rfl, ← List.append_assoc before old,
    List.drop_left' List.length_append]

/-- The sequence after a write to a byte not yet read: its 8 bits are replaced, in their place. -/
theorem State.stream_write {s : State} {a : Nat} (hlo : s.br.pos.toNat ≤ a)
    (hhi : a < s.br.pos.toNat + s.br.refill.bytes * s.br.unitsLeft) (b : Byte) :
    s.br.bitsBefore a + 8 ≤ s.stream.length
      ∧ ({ s with mem := s.mem.write a b } : State).stream =
          s.stream.take (s.br.bitsBefore a) ++ fieldBits s.br.order 8 b.toNat
            ++ s.stream.drop (s.br.bitsBefore a + 8) := by
  obtain ⟨before, behind, hplace, hold, hnew⟩ := BitReader.bits_write hlo hhi s.mem b
  have hlen : s.stream.length = s.br.bitsBefore a + 8 + behind.length := by
    rw [State.stream, hold, List.length_append, List.length_append, hplace, length_fieldBits]
  have hsplit := append_replace_eq_take_drop (before := before) (old := fieldBits s.br.order 8 (s.mem.read a).toNat)
    (new := fieldBits s.br.order 8 b.toNat) (behind := behind)
  rw [← hold, hplace, length_fieldBits] at hsplit
  exact ⟨by omega, hnew.trans hsplit⟩

/-- Settles O22: a write below BR_POS or behind the last whole unit is out of the reader's sight, and one between
replaces the 8 bits of its byte (`State.stream_write`), which GETBITS then delivers. -/
theorem readAhead : Obligations.ReadAhead := by
  intro s a b _ hreader hvalid herr
  have hs := State.canRead_of_readerOk herr hvalid hreader
  dsimp only
  refine ⟨fun hbelow => ⟨BitReader.bits_write_outside (.inl hbelow) s.mem b, ?below⟩, fun hlo hhi => ?ahead,
    fun hbehind => BitReader.bits_write_outside (.inr hbehind) s.mem b⟩
  case below =>
    intro n t
    refine exec_getbits_setMem hs (fun n => BitReader.getBits_congr hs.sound fun c hc _ => ?_) n
    exact Memory.read_write_other s.mem b (by omega)
  case ahead =>
    obtain ⟨hplace, hstream⟩ := State.stream_write hlo hhi b
    have hu : ({ s with mem := s.mem.write a b } : State).CanRead := ⟨herr, hvalid, hs.sound⟩
    refine ⟨hplace, hstream, fun n hn hn' henough => ?_⟩
    have hsame : ({ s with mem := s.mem.write a b } : State).stream.length = s.stream.length := by
      rw [State.length_stream, State.length_stream]
    obtain ⟨v, q, hexec, hread⟩ := exec_getbits_of_enough hu ⟨hn, hn'⟩ (hsame.symm ▸ henough)
    obtain ⟨hvalue, hrest⟩ := fieldValue_take hread.value_lt (hstream.symm.trans hread.bits_eq)
    have hv : v < 2 ^ 32 := hread.value_lt.trans_le (Nat.pow_le_pow_right (by decide) hn')
    exact ⟨_, hexec, rfl, (Nat.mod_eq_of_lt hv).trans hvalue.symm, hrest.symm⟩

end Sys2Proof.Machine

/-! ## The bounds on the model's loops are never reached (70_reset R358) -/

namespace Sys2Proof.Machine

/-! ### Sequences that go on alike -/

/-- The part succeeds in a state with `Q`, if it succeeds. -/
abbrev Res.Yields {σ α : Type} (Q : σ → Prop) (x : Res σ α) : Prop := x.Ends Q fun _ => True

/-- Two sequences that begin alike and go on alike from every state the first part can leave are the same. -/
theorem Res.Yields.bind_congr {σ α β : Type} {Q : σ → Prop} {x : Res σ α} {f g : α → σ → Res σ β}
    (hx : x.Yields Q) (hfg : ∀ a s, Q s → f a s = g a s) : x.bind f = x.bind g := by
  cases x with
  | ok a s => exact hfg a s hx
  | raised e info s => rfl

theorem Res.Yields.mono {σ α : Type} {Q Q' : σ → Prop} {x : Res σ α} (hx : x.Yields Q) (hQ : ∀ s, Q s → Q' s) :
    x.Yields Q' :=
  Res.Ends.mono hx hQ fun _ h => h

/-! ### GetBits: a pass for each bit (40_bitreader R145) -/

section
variable {m : Memory} {r : BitReader}

/-- Past `if BR_CNT = 0: Refill()` there is a bit to take. -/
theorem BitReader.ensure_yields (hr : r.sound) : (r.ensure m).Yields fun q => q.sound ∧ 0 < q.cnt.toNat := by
  by_cases hbits : r.bits m = []
  · rw [BitReader.ensure_of_no_bits hbits]
    trivial
  · obtain ⟨q, hq, hlater, -, hcnt⟩ := BitReader.ensure_of_bits hr hbits
    rw [hq]
    exact ⟨hlater.sound, hcnt⟩

theorem BitReader.getBitsLoop_add_fuel {n fuel got result : Nat} (hr : r.sound) (hfuel : n ≤ got + fuel) (more : Nat) :
    r.getBitsLoop m n (fuel + more) got result = r.getBitsLoop m n fuel got result := by
  induction fuel generalizing got result r with
  | zero =>
    cases more with
    | zero => rfl
    | succ more => rw [Nat.zero_add, BitReader.getBitsLoop, BitReader.getBitsLoop, if_pos (show n ≤ got from hfuel)]
  | succ fuel ih =>
    rw [Nat.add_right_comm, BitReader.getBitsLoop, BitReader.getBitsLoop]
    split
    · rfl
    · refine (BitReader.ensure_yields hr).bind_congr fun _ q ⟨hq, hcnt⟩ => ?_
      exact ih (BitReader.sound_take (Nat.min_le_right _ _) hq) (by omega)

end

/-! ### LZDEC: a pass for each control bit (41_lz R163) -/

/-- Each bit LZDEC reads shortens what is left to read, whatever it writes to MEM. -/
theorem lzKept_short : LzKept fun n t => t.br.sound ∧ t.stream.length < n where
  bits := by
    rintro n d t q ⟨hsound, hlen⟩ hq
    obtain ⟨⟨j, hj⟩, hle⟩ := hq hsound
    exact ⟨hj.sound, Nat.lt_of_add_lt_add_right (hle.trans_lt hlen)⟩
  byte := fun ⟨hsound, hlen⟩ _ hlt =>
    ⟨(BitReader.later_skip hsound hlt).sound, (BitReader.length_bits_skip_le hlt).trans_lt hlen⟩
  emit := fun b ⟨hsound, hlen⟩ _ => ⟨hsound, by rw [State.length_stream] at hlen ⊢; exact hlen⟩

theorem lzLoop_add_fuel {t : State} {fuel : Nat} (ht : t.br.sound) (hlen : t.stream.length < fuel) (more : Nat) :
    lzLoop (fuel + more) t = lzLoop fuel t := by
  induction fuel generalizing t with
  | zero => exact absurd hlen (Nat.not_lt_zero _)
  | succ fuel ih =>
    rw [Nat.add_right_comm, lzLoop_succ, lzLoop_succ]
    split
    next hroom =>
      have hpass := lzToken_pass lzKept_short (n := fuel) ⟨⟨ht, hlen⟩, hroom⟩
      generalize lzToken t = x at hpass
      cases hpass with
      | more h => exact ih h.1 h.2
      | marker _ => rfl
      | runsOut _ => rfl
    next => rfl

/-! ### What reading and building leaves -/

/-- `u` is reached from `t` by reading at least `d` bits and editing the tree; its KIND is as before. -/
structure Consumes (d : Nat) (t u : State) : Prop extends TreeStep t u where
  kind : u.tree.kind = t.tree.kind
  shorter : u.stream.length + d ≤ t.stream.length

/-- The same with at least `k` nodes allocated. -/
structure Grows (d k : Nat) (t u : State) : Prop extends Consumes d t u where
  nodes : t.tree.nnodes.toNat + k ≤ u.tree.nnodes.toNat

section
variable {s t u : State} {d k : Nat}

theorem Consumes.mono {d' : Nat} (h : Consumes d s t) (hd : d' ≤ d) : Consumes d' s t :=
  { h with shorter := (Nat.add_le_add_left hd _).trans h.shorter }

/-- The end of a build of the old kind. -/
theorem Consumes.finishTree {kind : TreeKind} (h : Consumes d s t) (hkind : s.tree.kind = kind) :
    Consumes d s (finishTree kind t) where
  toTreeStep := h.toTreeStep.setTree _
  kind := hkind.symm
  shorter := h.shorter

/-- ClearTree neither reads nor changes KIND. -/
theorem Consumes.of_clearTree (h : Consumes d (clearTree s) t) : Consumes d s t :=
  ⟨⟨h.frame, h.reader⟩, h.kind, h.shorter⟩

theorem Grows.refl (ht : t.br.sound) : Grows 0 0 t t := ⟨⟨.refl ht, rfl, Nat.le_refl _⟩, Nat.le_refl _⟩

theorem Grows.mono {d' k' : Nat} (h : Grows d k s t) (hd : d' ≤ d) (hk : k' ≤ k) : Grows d' k' s t :=
  ⟨h.toConsumes.mono hd, (Nat.add_le_add_left hk _).trans h.nodes⟩

theorem Grows.editNode (h : Grows d k s t) (n : Fin 1023) (f : Node → Node) : Grows d k s (editNode n f t) :=
  ⟨⟨h.toTreeStep.setTree _, h.kind, h.shorter⟩, h.nodes⟩

theorem Grows.getBits (h : Grows d k s t) (n : Nat) : (getBits n t).Yields (Grows (d + n) k s) := by
  unfold Machine.getBits
  cases hread : t.br.getBits t.mem n with
  | raised e info q => trivial
  | ok v q =>
    obtain ⟨hahead, hlen⟩ := BitReader.passes_of_getBits_ok hread h.sound
    have hstep : TreeStep t { t with br := q } := ⟨rfl, hahead⟩
    refine ⟨⟨h.toTreeStep.trans hstep, h.kind, ?_⟩, h.nodes⟩
    have hshort : (t.br.bits t.mem).length + d ≤ s.stream.length := h.shorter
    show (q.bits t.mem).length + (d + n) ≤ s.stream.length
    omega

theorem Grows.alloc (h : Grows d k s t) : (alloc t).Yields (Grows d (k + 1) s) := by
  rcases alloc_cases t with ⟨hroom, ha⟩ | ⟨-, ha⟩ <;> rw [ha]
  · refine ⟨⟨h.toTreeStep.setTree _, h.kind, h.shorter⟩, ?_⟩
    have hgrown : (t.tree.grown ⟨_, hroom⟩).nnodes.toNat = t.tree.nnodes.toNat + 1 := CodeTree.nnodes_grown rfl
    have hnodes := h.nodes
    show _ ≤ (t.tree.grown ⟨_, hroom⟩).nnodes.toNat
    omega
  · trivial

/-! ### BuildNode: a node for each call (42_huffman R192, R194) -/

theorem Grows.buildNode (h : Grows d k s t) (fuel : Nat) : (buildNode fuel t).Yields (Grows (d + 1) (k + 1) s) := by
  induction fuel generalizing d k t with
  | zero => trivial
  | succ fuel ih =>
    refine h.alloc.bind fun i t h => (h.getBits 1).bind fun b t h => ?_
    split
    · refine (ih h).bind fun l t h => (ih (h.editNode i _)).bind fun r t h => ?_
      exact (h.editNode i _).mono (by omega) (by omega)
    · refine ((h.editNode i _).getBits 8).bind fun v t h => ?_
      exact (h.editNode i _).mono (by omega) (by omega)

theorem buildNode_add_fuel {fuel : Nat} (ht : t.br.sound) (hfuel : 1024 ≤ t.tree.nnodes.toNat + fuel) (more : Nat) :
    buildNode (fuel + more) t = buildNode fuel t := by
  induction fuel generalizing t with
  | zero =>
    have := t.tree.nnodes.isLt
    omega
  | succ fuel ih =>
    rw [Nat.add_right_comm, Machine.buildNode, Machine.buildNode]
    refine (Grows.refl ht).alloc.bind_congr fun i u h => (h.getBits 1).bind_congr fun b u h => ?_
    have hnodes := h.nodes
    split
    · rw [ih h.sound (by omega)]
      refine (h.buildNode fuel).bind_congr fun l v h => ?_
      have hedit := h.editNode i fun n => { n with left := some l }
      have hnodes := hedit.nodes
      rw [ih hedit.sound (by omega)]
    · rfl

/-! ### BuildCanon: the length table is read, and the nodes are edited (42_huffman R197, R199) -/

theorem Grows.readLengths (h : Grows d k s t) (lb count sym : Nat) :
    (readLengths lb count sym t).Yields (Grows (d + lb * count) k s) := by
  induction count generalizing d sym t with
  | zero => exact h
  | succ count ih =>
    refine (h.getBits lb).bind fun l t h => (ih h (sym + 1)).bind fun ls t h => ?_
    exact h.mono (by rw [Nat.mul_succ]; omega) (Nat.le_refl k)

theorem Grows.childOrAlloc (h : Grows d k s t) (n : Fin 1023) (bit : Bool) :
    (childOrAlloc n bit t).Yields (Grows d k s) := by
  unfold Machine.childOrAlloc
  split
  · exact h
  · exact h.alloc.bind fun c t h => (h.editNode n _).mono (Nat.le_refl d) (Nat.le_succ k)

theorem Grows.insertPath (h : Grows d k s t) (code len : Nat) (n : Fin 1023) :
    (insertPath code len n t).Yields (Grows d k s) := by
  induction len generalizing n t with
  | zero => exact h
  | succ len ih => exact (h.childOrAlloc n _).bind fun c t h => ih h c

theorem Grows.insertCode (h : Grows d k s t) (code len : Nat) (sym : BitVec 9) :
    (insertCode code len sym t).Yields (Grows d k s) :=
  (h.insertPath code len 0).bind fun n _ h => h.editNode n _

theorem Grows.canonSymbols (h : Grows d k s t) (len : Nat) (table : List (Nat × Nat)) (code : Nat) :
    (canonSymbols len table code t).Yields (Grows d k s) := by
  induction table generalizing code t with
  | nil => exact h
  | cons entry table ih =>
    unfold Machine.canonSymbols
    split
    · split
      · trivial
      · exact (h.insertCode _ _ _).bind fun _ _ h => ih h _
    · exact ih h _

theorem Grows.canonLengths (h : Grows d k s t) (table : List (Nat × Nat)) (lens : List Nat) (code : Nat) :
    (canonLengths table lens code t).Yields (Grows d k s) := by
  induction lens generalizing code t with
  | nil => exact h
  | cons len lens ih => exact (h.canonSymbols len table code).bind fun _ _ h => ih h _

/-! ### A rebuild reads a bit (42_huffman R207) -/

theorem buildTree_consumes (ht : t.br.sound) (hkind : t.tree.kind = .selfDescribing) :
    (buildTree t).Yields (Consumes 1 t) :=
  ((Grows.refl (t := clearTree t) ht).buildNode 1024).bind fun _ _ h =>
    h.toConsumes.of_clearTree.finishTree hkind

/-- A legal HUF_CFG asks for one length field of one bit at least (42_huffman R200). -/
theorem HufCfg.tableBits_pos {c : HufCfg} (h : c.legal = true) : 1 ≤ c.lenBits.toNat * c.nsym.toNat := by
  have := c.legal_iff.1 h
  exact Nat.mul_pos (by omega) (by omega)

theorem buildCanon_consumes (ht : t.br.sound) (hkind : t.tree.kind = .canonical)
    (hlegal : t.regs.hufCfg.legal = true) : (buildCanon t).Yields (Consumes 1 t) := by
  have hbits := HufCfg.tableBits_pos hlegal
  refine ((Grows.refl (t := clearTree t) ht).readLengths _ _ 0).bind fun table u h => ?_
  refine h.alloc.bind fun _ u h => (h.canonLengths table _ 0).bind fun _ u h => ?_
  exact (h.toConsumes.mono (by simpa using hbits)).of_clearTree.finishTree hkind

theorem rebuildTree_consumes (ht : t.br.sound) (hlegal : t.tree.kind = .canonical → t.regs.hufCfg.legal = true) :
    (rebuildTree t).Yields (Consumes 1 t) := by
  unfold rebuildTree
  split
  next hkind => exact buildTree_consumes ht hkind
  next hkind => exact buildCanon_consumes ht hkind (hlegal hkind)

/-! ### DecodeSymbol: a level for each bit (42_huffman R202) -/

theorem Grows.walkTree (h : Grows d k s t) (fuel : Nat) (n : Fin 1023) : (walkTree fuel n t).Yields (Grows d k s) := by
  induction fuel generalizing d n t with
  | zero => exact h
  | succ fuel ih =>
    unfold Machine.walkTree
    split
    · exact h
    · refine (h.getBits 1).bind fun b t h => ?_
      split
      · trivial
      · exact ih (h.mono (Nat.le_add_right d 1) (Nat.le_refl k)) _

theorem walkTree_add_fuel {fuel : Nat} (ht : t.br.sound) (hlen : t.stream.length < fuel) (n : Fin 1023) (more : Nat) :
    walkTree (fuel + more) n t = walkTree fuel n t := by
  induction fuel generalizing n t with
  | zero => exact absurd hlen (Nat.not_lt_zero _)
  | succ fuel ih =>
    rw [Nat.add_right_comm, Machine.walkTree, Machine.walkTree]
    split
    · rfl
    · refine ((Grows.refl ht).getBits 1).bind_congr fun b u h => ?_
      have hshorter := h.shorter
      split
      · rfl
      · exact ih h.sound (by omega) _

/-! ### HUFDEC: a pass for each byte of room and each bit left (42_huffman R204) -/

/-- HUFDEC on its way with less than `n` bits and bytes of room left; a rebuild it may make reads a bit. -/
structure HufBounded (n : Nat) (t : State) : Prop where
  sound : t.br.sound
  legal : t.regs.hufCfg.rebuildEn = true → t.tree.kind = .canonical → t.regs.hufCfg.legal = true
  left : t.stream.length + (t.regs.outCap.toNat - t.outLen.toNat) < n

theorem TreeStep.regs_eq (h : TreeStep t u) : u.regs = t.regs := by rw [h.frame]

theorem TreeStep.outLen_eq (h : TreeStep t u) : u.outLen = t.outLen := by rw [h.frame]

variable {n : Nat}

theorem HufBounded.consume (h : HufBounded (n + d) t) (hu : Consumes d t u) : HufBounded n u where
  sound := hu.sound
  legal := by rw [hu.regs_eq, hu.kind]; exact h.legal
  left := by
    have hleft := h.left
    have hshorter := hu.shorter
    rw [hu.regs_eq, hu.outLen_eq]
    omega

theorem State.hasRoom_iff (t : State) : t.hasRoom = true ↔ t.outLen.toNat < t.regs.outCap.toNat := decide_eq_true_iff

theorem HufBounded.putByte (h : HufBounded (n + 1) t) (hroom : t.hasRoom = true) (b : Byte) :
    HufBounded n (putByte b t) where
  sound := h.sound
  legal := h.legal
  left := by
    have hleft := h.left
    have hlt := t.hasRoom_iff.1 hroom
    have hcap := t.regs.outCap.isLt
    have hone : (t.outLen + 1).toNat = t.outLen.toNat + 1 := by
      rw [BitVec.toNat_add, show (1 : Word).toNat = 1 from rfl]
      omega
    rw [State.length_stream] at hleft ⊢
    rw [putByte_outLen, hone]
    simp only [putByte_br, putByte_regs]
    omega

theorem HufBounded.hufStep (h : HufBounded (n + 1) t) (hroom : t.hasRoom = true) :
    (hufStep t).Yields (HufBounded n) := by
  refine ((Grows.refl h.sound).walkTree _ 0).bind fun sym u hu => ?_
  have hu : Consumes 0 t u := hu.toConsumes
  have hnext : HufBounded (n + 1) u := HufBounded.consume (d := 0) h hu
  split
  next hsignal =>
    have hen := (Bool.and_eq_true_iff.1 hsignal).1
    exact (rebuildTree_consumes hu.sound (hnext.legal hen)).mono fun _ hv => hnext.consume hv
  next =>
    split
    · trivial
    · exact hnext.putByte (by rwa [State.hasRoom, hu.regs_eq, hu.outLen_eq]) _

theorem hufLoop_add_fuel {fuel : Nat} (h : HufBounded fuel t) (more : Nat) :
    hufLoop (fuel + more) t = hufLoop fuel t := by
  induction fuel generalizing t with
  | zero => exact absurd h.left (Nat.not_lt_zero _)
  | succ fuel ih =>
    rw [Nat.add_right_comm, hufLoop_succ, hufLoop_succ]
    split
    next hroom => exact (h.hufStep hroom).bind_congr fun _ u hu => ih hu
    next => rfl

end

/-- Settles O60: each loop's bound exceeds what its passes use up: bits, nodes, or bytes of room. -/
theorem loopBoundsNeverReached : Obligations.LoopBoundsNeverReached := by
  intro s more _ hreader hvalid
  obtain ⟨hs, -⟩ := s.readerOk_iff.1 hreader hvalid
  have hlen := s.length_stream_le
  refine ⟨fun n => BitReader.getBitsLoop_add_fuel hs (by omega) more, lzLoop_add_fuel hs (by omega) more,
    fun hnone => buildNode_add_fuel hs (by omega) more, walkTree_add_fuel hs (by omega) 0 more, fun hlegal => ?_⟩
  refine hufLoop_add_fuel (t := { s with outLen := 0 }) ⟨hs, hlegal, ?_⟩ more
  show s.stream.length + (s.regs.outCap.toNat - 0) < _
  omega

end Sys2Proof.Machine
